-- ==== Sys2Proof/Word.lean ====
section
/-! DEFINITION. The words of the GC620 model: bytes, the two fibre ports, the four trip levels, and a
family of four like things (one per servo axis). -/

namespace Sys2Proof

/-- One byte of a frame, a drive record or a pixel line. -/
abbrev Byte := BitVec 8

/-- The two duplex fibre ports of a station (Scope, electrical summary). -/
inductive PortId where
  | a
  | b
  deriving DecidableEq, Repr

/-- The trip levels 0 to 3 (Conventions, "Trip levels"). -/
inductive Level where
  | clear
  | notice
  | rampStop
  | driveOff
  deriving DecidableEq, Repr

namespace Level

/-- The number of a level; levels are ordered by it. -/
def rank : Level → Nat
  | clear => 0
  | notice => 1
  | rampStop => 2
  | driveOff => 3

/-- The level with a given number, if there is one. -/
def ofNat? : Nat → Option Level
  | 0 => some clear
  | 1 => some notice
  | 2 => some rampStop
  | 3 => some driveOff
  | _ => none

/-- The greater of two levels. -/
def sup (x y : Level) : Level := if x.rank < y.rank then y else x

end Level

/-- Four like things, one per axis 0 to 3. -/
structure Four (α : Type) where
  a0 : α
  a1 : α
  a2 : α
  a3 : α
  deriving DecidableEq, Repr

namespace Four

/-- The thing of one axis. -/
def get {α : Type} (f : Four α) : Fin 4 → α
  | 0 => f.a0
  | 1 => f.a1
  | 2 => f.a2
  | 3 => f.a3

/-- Replace the thing of one axis. -/
def set {α : Type} (f : Four α) (i : Fin 4) (x : α) : Four α :=
  match i with
  | 0 => { f with a0 := x }
  | 1 => { f with a1 := x }
  | 2 => { f with a2 := x }
  | 3 => { f with a3 := x }

/-- The same thing for every axis. -/
def all4 {α : Type} (x : α) : Four α := ⟨x, x, x, x⟩

/-- Apply one operation to the thing of every axis. -/
def map {α β : Type} (g : α → β) (f : Four α) : Four β := ⟨g f.a0, g f.a1, g f.a2, g f.a3⟩

/-- The four things in axis order. -/
def toList {α : Type} (f : Four α) : List α := [f.a0, f.a1, f.a2, f.a3]

end Four

end Sys2Proof
end

