-- ==== Sys2Proof/Syntax/Records.lean ====
section
/-! DEFINITION. The names the manual gives to states, modes and outcomes, and the records of the
tables of R185 as the host writes and reads them. Ranges are checked where a WRITE is taken, so a
record here may hold any number the host sends. -/

namespace Sys2Proof

/-- The six frame classes of R6; `bad` is a class byte that is none of the six codes of 1.7. -/
inductive FrameClass where
  | t | c | k | i | s | m
  | bad (code : Nat)
  deriving DecidableEq, Repr

/-- Receive states of a fibre port (R4). -/
inductive RxState where
  | dark | hunt | sync | brk
  deriving DecidableEq, Repr

/-- Transmit fill modes of a fibre port (R3). -/
inductive FillMode where
  | idle | brk
  deriving DecidableEq, Repr

/-- The symbol a port sends as fill (R1, R3). -/
inductive FillSymbol where
  | idle | brk | breakHeard
  deriving DecidableEq, Repr

/-- Side states of a port (R46). -/
inductive SideState where
  | failed | healing | usable
  deriving DecidableEq, Repr

/-- Ring roles (R48). -/
inductive RingRole where
  | through | wrapB | wrapA | isolated
  deriving DecidableEq, Repr

/-- The use a role gives a receive side (R49). -/
inductive RxUse where
  | forwardInput | counterInput | unused
  deriving DecidableEq, Repr

/-- States of the master generator (R71). -/
inductive MasterState where
  | stopped | ramping | running | stopping
  deriving DecidableEq, Repr

/-- The limit in force of the master generator (R68). -/
inductive RampLimit where
  | accel | stop | trip
  deriving DecidableEq, Repr

/-- States of the cycle context (R75). -/
inductive CtxState where
  | idle | tracking | coasting | lost
  deriving DecidableEq, Repr

/-- Axis states (R89). -/
inductive AxisState where
  | disabled | standby | coupled | coastdown | held | off
  deriving DecidableEq, Repr

/-- Outcomes of a drive exchange (6.1). -/
inductive DriveOutcome where
  | none | good | crcBad | seqBad | noReady | readyDrop | skipped
  deriving DecidableEq, Repr

/-- Result statuses of a window (R140). -/
inductive MarkStatus where
  | none | averaging | fresh | inBand | noEdge | refMissing
  deriving DecidableEq, Repr

/-- The 42 faults of the fault tree (R149). -/
inductive FaultId where
  | portDown (p : PortId)
  | ringIsolated
  | addressClash
  | ringCongestion
  | cycleLoss
  | cycleLate
  | masterJump
  | cycleConflict
  | stopUnconfirmed
  | driveFault (a : Fin 4)
  | driveLink (a : Fin 4)
  | followError (a : Fin 4)
  | correctionLimit (a : Fin 4)
  | lineOverrun
  | markLost
  | webBreak
  | cameraLost
  | tripInput (n : Fin 8)
  | mgmtSilent
  | mgmtLost
  | hostTrip
  | stationReset
  deriving DecidableEq, Repr

/-- Response codes of a management command (R184). -/
inductive Resp where
  | ok | clamped | badCommand | badTable | badIndex | badLength | badValue | readOnly
  | duplicate | inUse | notAtRest | notReady | notMaster | tripped | refOrder
  deriving DecidableEq, Repr

/-- Statuses of a SEND transaction (R192). -/
inductive SendStatus where
  | accepted | full | refusedClass | badFrame | unassigned
  deriving DecidableEq, Repr

/-- The sixteen tables of R185; `unknown` is any other table number. -/
inductive TableId where
  | station | master | camera | panel | tap | axis | window | faultConfig | masks | tileMap
  | banner | result | faults | remote | screenStreams | counters
  | unknown (number : Nat)
  deriving DecidableEq, Repr

/-- The STATION record without the address (R188). -/
structure StationRecord where
  linkA : Nat
  linkB : Nat
  heal : Nat
  missLimit : Nat
  jumpLimit : Nat
  stopConfirm : Nat
  driveLimit : Nat
  filter : List Nat
  tripStream : Option Nat
  refresh : Nat
  shortTimeout : Nat
  longTimeout : Nat
  deriving DecidableEq, Repr

/-- One entry of a WRITE of the STATION table: the address field and the other fields (R188). -/
structure StationEntry where
  address : Nat
  fields : StationRecord
  deriving DecidableEq, Repr

/-- The MASTER record (R66). -/
structure MasterRecord where
  cycleRun : Nat
  stream : Nat
  period : Nat
  offset : Nat
  vMax : Nat
  accel : Nat
  tripDecel : Nat
  stopDecel : Nat
  deriving DecidableEq, Repr

/-- The CAMERA record (R126). That `streaming` has two values and no other is the model's choice (assumption log
55). -/
structure CameraRecord where
  pixels : Nat
  pitch : Nat
  timeout : Nat
  webStart : Nat
  webEnd : Nat
  webThreshold : Nat
  webRun : Nat
  stream : Nat
  cropStart : Nat
  cropWidth : Nat
  decimation : Nat
  lineStep : Nat
  streaming : Bool
  deriving DecidableEq, Repr

/-- The PANEL record (R169). -/
structure PanelRecord where
  width : Nat
  height : Nat
  bannerRow : Nat
  bannerHeight : Nat
  viewStream : Option Nat
  viewCol : Nat
  viewRow : Nat
  viewWidth : Nat
  viewHeight : Nat
  gapColour : Nat
  repaint : Nat
  deriving DecidableEq, Repr

/-- What the Ring Switch does with a frame that matches a tap entry (R29). -/
inductive TapAction where
  | passCopy | take | drop
  deriving DecidableEq, Repr

/-- Where a delivered frame goes (R29). -/
inductive TapTarget where
  | unit | port
  deriving DecidableEq, Repr

/-- A tap entry that is not empty (R29). -/
structure TapEntry where
  cls : FrameClass
  stream : Nat
  action : TapAction
  target : TapTarget
  deriving DecidableEq, Repr

/-- The four fields of a TAP entry as a WRITE carries them: `none` in `action` or `target` is a
value outside those of R29, which R30 answers with BAD_VALUE. -/
structure TapFields where
  cls : FrameClass
  stream : Nat
  action : Option TapAction
  target : Option TapTarget
  deriving DecidableEq, Repr

/-- The seven configuration fields of an axis record (R86). -/
structure AxisConfig where
  num : Int
  den : Nat
  phaseSlew : Nat
  corrMax : Nat
  corrSlew : Nat
  decel : Nat
  followLimit : Nat
  deriving DecidableEq, Repr

/-- One axis record: configuration and state fields (R86). -/
structure AxisRecord where
  cfg : AxisConfig
  state : AxisState
  phaseTarget : Int
  phase : Int
  corrTarget : Int
  corr : Int
  acc : Nat
  gear : BitVec 32
  step : Int
  setpoint : BitVec 32
  capture : Bool
  release : Bool
  deriving DecidableEq, Repr

/-- The fields of a window entry (R133); `dark` is the polarity DARK. That `enabled` and the polarity have two
values and no others is the model's choice (assumption log 55). -/
structure WindowConfig where
  enabled : Bool
  x0 : Nat
  x1 : Nat
  p0 : Nat
  p1 : Nat
  dark : Bool
  threshold : Nat
  expected : Int
  reference : Option Nat
  averaging : Nat
  deadBand : Nat
  gain : Int
  targetStation : Nat
  targetAxis : Nat
  deriving DecidableEq, Repr

/-- A result entry (R140). -/
structure MarkResult where
  repeatNo : BitVec 16
  edge : Option Nat
  error : Option Int
  mean : Option Int
  lastAmount : Option Int
  status : MarkStatus
  misses : Nat
  deriving DecidableEq, Repr

/-- A level and a publish flag of FAULT CONFIG as a WRITE carries them (R151). -/
structure FaultSetting where
  level : Nat
  publish : Bool
  deriving DecidableEq, Repr

/-- An entry of the fault tree with its FAULT CONFIG entry (R149, R151). -/
structure FaultEntry where
  id : FaultId
  latched : Bool
  cond : Bool
  level : Level
  publish : Bool
  deriving DecidableEq, Repr

/-- The source of a tile (R171). -/
inductive TileSource where
  | none
  | stream (s : Nat)
  deriving DecidableEq, Repr

/-- A tile map entry (R171). -/
structure TileEntry where
  source : TileSource
  background : Nat
  stale : Bool
  deriving DecidableEq, Repr

/-- The writable fields of a tile map entry (R171). -/
structure TileFields where
  source : TileSource
  background : Nat
  deriving DecidableEq, Repr

/-- The four levels and what goes with them (R154, R155): `summary` lists bits 1 to 7 in order. -/
structure Levels where
  loc : Level
  pub : Level
  rem : Level
  eff : Level
  pubCode : Nat
  pubCount : Nat
  summary : List Bool
  deriving DecidableEq, Repr

/-- The drive status record as the station uses it (1.7, 6.1). -/
structure DriveStatus where
  actual : BitVec 32
  ready : Bool
  fault : Bool
  enabled : Bool
  warn : Bool
  faultCode : BitVec 16
  deriving DecidableEq, Repr

/-- One digest of a COLLECT sweep (R190). -/
structure Digest where
  address : Nat
  tag : BitVec 16
  role : RingRole
  effective : Level
  summary : List Bool
  ctx : CtxState
  axes : Four AxisState
  master : MasterState
  strap : Bool
  deriving DecidableEq, Repr

/-- One entry of a READ response: the entry's fields as its rule lists them (R186). -/
inductive EntryData where
  | station (address : Nat) (r : StationRecord)
  | master (r : MasterRecord)
  | camera (r : CameraRecord)
  | panel (r : PanelRecord)
  | tap (e : Option TapEntry)
  | axis (r : AxisRecord)
  | window (c : WindowConfig)
  | faultConfig (code : Nat) (level : Level) (publish : Bool)
  | masks (m : List Bool)
  | tile (e : TileEntry)
  | banner (pixels : List Byte)
  | result (id : Nat) (r : MarkResult)
  | fault (code : Nat) (latched : Bool) (condition : Option Bool) (level : Level)
      (publish : Bool) (counts : Bool)
  | levels (l : Levels) (inputs : List Bool)
  | remote (source : Nat) (level : Level) (code : Nat) (silentMs : Nat) (stale : Bool)
  | screenStream (stream : Nat) (owner : Nat) (stale : Nat)
  | counters (values : List Nat)
  deriving DecidableEq, Repr

/-- What STATUS reports of one port (R189, R5, R46). -/
structure PortReport where
  rx : RxState
  fill : FillMode
  side : SideState
  holdLeft : Option Nat
  deriving DecidableEq, Repr

/-- What STATUS reports of the generator at a cycle master (R68). -/
structure GeneratorReport where
  pos : BitVec 28
  speed : Nat
  target : Nat
  state : MasterState
  cycle : BitVec 16
  deriving DecidableEq, Repr

/-- What STATUS reports of the cycle context (R75). -/
structure CtxReport where
  state : CtxState
  learnt : Option (Nat × BitVec 16)
  lastCycle : BitVec 16
  pos : BitVec 28
  speed : Nat
  period : Nat
  misses : Nat
  lastMaster : MasterState
  repeats : BitVec 16
  deriving DecidableEq, Repr

/-- What STATUS reports of one axis (R111). -/
structure AxisReport where
  state : AxisState
  setpoint : BitVec 32
  gear : BitVec 32
  step : Int
  phase : Int
  phaseTarget : Int
  corr : Int
  corrTarget : Int
  capture : Bool
  release : Bool
  deriving DecidableEq, Repr

/-- What STATUS reports of one axis of the Drive Link (R124). -/
structure DriveReport where
  outcome : DriveOutcome
  bad : Nat
  status : Option DriveStatus
  lastSetpoint : Option (BitVec 32)
  sequence : BitVec 4
  deriving DecidableEq, Repr

/-- What STATUS reports of the Image Unit (R146). -/
structure ImageReport where
  next : Option (BitVec 28)
  line : BitVec 32
  busy : Bool
  abandoned : Nat
  webRun : Nat
  repeatNo : BitVec 16
  segments : Nat
  bytes : Nat
  pending : List (Nat × Nat)
  deriving DecidableEq, Repr

/-- The banner job (R176): a pass keeps its position, the next tile to write. -/
inductive BannerJob where
  | idle
  | draw (level : Level) (pos : Nat)
  | restore (pos : Nat)
  | clear (pos : Nat)
  deriving DecidableEq, Repr

/-- What STATUS reports of the Screen Unit (R182). -/
structure ScreenReport where
  job : BannerJob
  queued : Nat
  line : Option (BitVec 32)
  lines : Nat
  row : Nat
  deriving DecidableEq, Repr

/-- The response data of STATUS (R189). Times left are in 10 ns units. -/
structure StatusReport where
  address : Nat
  serial : BitVec 48
  tag : BitVec 16
  strap : Bool
  headInUse : Bool
  portA : PortReport
  portB : PortReport
  role : RingRole
  clash : Option (BitVec 16)
  generator : Option GeneratorReport
  ctx : CtxReport
  axes : Four AxisReport
  stopConfirmLeft : Option Nat
  drives : Four DriveReport
  driveLimit : Nat
  batch : Bool
  image : ImageReport
  effective : Level
  summary : List Bool
  tripOut : Bool
  screen : ScreenReport
  shortTimeout : Nat
  shortLeft : Option Nat
  longTimeout : Nat
  longLeft : Option Nat
  sendFill : Nat
  receiveFill : Nat
  deriving DecidableEq, Repr

end Sys2Proof
end

