-- ==== Sys2Proof/Syntax/Frames.lean ====
section
/-! DEFINITION. Frames (R6) and their bodies. The manual lays out the bytes of the header and of the C,
T and K bodies (1.7); those bodies are bytes here. It gives no byte layout for I, S and M bodies, so
those are the fields the manual names (R11, R12), with every length the manual states. -/

namespace Sys2Proof

/-- The header fields of R6. -/
structure Header where
  cls : FrameClass
  stream : Nat
  dest : Nat
  src : Nat
  tag : BitVec 16
  seq : BitVec 16
  hop : Nat
  age : Nat
  len : Nat
  deriving DecidableEq, Repr

/-- The fields of a C body (R8). -/
structure CycleBody where
  num : BitVec 16
  pos : BitVec 28
  speed : Nat
  period : Nat
  offset : Nat
  state : MasterState
  level : Level
  deriving DecidableEq, Repr

/-- The fields of a T body (R9). -/
structure TripBody where
  level : Level
  code : Nat
  count : Nat
  refresh : Bool
  deriving DecidableEq, Repr

/-- One correction record of a K body (R10). -/
structure CorrRec where
  axis : Fin 4
  amount : Int
  window : Nat
  deriving DecidableEq, Repr

/-- The fields of a K body (R10). -/
structure CorrBody where
  repeatNo : BitVec 16
  records : List CorrRec
  deriving DecidableEq, Repr

/-- One segment of an I body (R11): `count` is its pixel count field, `pixels` the pixel bytes that
stand in the body for it (fewer than `count` when it runs past the body). -/
structure Segment where
  line : BitVec 32
  step : Nat
  stamp : Nat
  offset : Nat
  count : Nat
  width : Nat
  pixels : List Byte
  deriving DecidableEq, Repr

/-- What a tile write or tile record puts in a tile (R11, R174). -/
inductive TileContent where
  | fill (c : Byte)
  | pixels (p : List Byte)
  deriving DecidableEq, Repr

/-- One tile record (R11); `none` is a record whose kind is neither FILL nor PIXELS. -/
structure TileRec where
  col : Nat
  row : Nat
  content : Option TileContent
  deriving DecidableEq, Repr

/-- One stale span of a REPAINT notice (R11). -/
structure Span where
  row : Nat
  col : Nat
  count : Nat
  deriving DecidableEq, Repr

/-- The kind field of a management header (R12); `other` is neither COMMAND nor RESPONSE. -/
inductive MgmtKind where
  | command | response | other
  deriving DecidableEq, Repr

/-- The entries of a WRITE (R187), by the table they name. -/
inductive WriteSet where
  | station (es : List (Nat × StationEntry))
  | master (es : List (Nat × MasterRecord))
  | camera (es : List (Nat × CameraRecord))
  | panel (es : List (Nat × PanelRecord))
  | tap (es : List (Nat × Option TapFields))
  | axis (es : List (Nat × AxisConfig))
  | window (es : List (Nat × WindowConfig))
  | faultConfig (es : List (Nat × FaultSetting))
  | masks (es : List (Nat × List Bool))
  | tileMap (es : List (Nat × TileFields))
  | banner (es : List (Nat × List Byte))
  | other (table : TableId) (count : Nat)
  deriving DecidableEq, Repr

/-- The seventeen commands of R184 with their parameters; `unknown` is any other command code. -/
inductive MgmtCmd where
  | read (table : TableId) (first count : Nat) (clear : Bool)
  | write (w : WriteSet)
  | status
  | clearFaults (groups : List Nat)
  | clearRemote
  | trip (level : Nat)
  | enableAxis (axis : Nat)
  | couple (axis : Nat)
  | decouple (axis : Nat)
  | disableAxis (axis : Nat)
  | setPhase (axis : Nat) (target : Int)
  | resetCorrection (axis : Nat)
  | setSpeed (target : Nat)
  | masterStop
  | enumerate (first next : Nat)
  | collect
  | resetStation
  | unknown (code : Nat)
  deriving DecidableEq, Repr

/-- The response data of a management RESPONSE, command by command. -/
inductive RespData where
  | none
  | failing (position : Nat)
  | retained (count : Nat)
  | remotes (removed kept : Nat)
  | entries (es : List EntryData)
  | status (r : StatusReport)
  | enumerated (next count : Nat) (highest : Option Nat)
  | digests (ds : List Digest)
  deriving DecidableEq, Repr

/-- The management header and what follows it (R12). `lengthOk` says whether the parameters have the
length the command needs and the entry count agrees with the entries present (R184, check 3): the
parameter layouts are not in the manual, so it is part of what the body is read as. -/
structure MgmtBody where
  kind : MgmtKind
  cmd : MgmtCmd
  hostTag : BitVec 16
  status : Resp
  force : Bool
  overflow : Bool
  count : Nat
  lengthOk : Bool
  data : RespData
  deriving DecidableEq, Repr

/-- A frame body: bytes where 1.7 lays them out (and where nothing has read them), else fields. An
`image` body's `tail` says that bytes remain after the last segment that make no segment header. -/
inductive Body where
  | bytes (b : List Byte)
  | image (segs : List Segment) (tail : Bool)
  | tiles (stream : Nat) (recs : List TileRec)
  | repaint (stream : Nat) (all : Bool) (spans : List Span)
  | mgmt (m : MgmtBody)
  deriving DecidableEq, Repr

/-- A whole frame; its check value is computed where it is sent (R14). `wire` are the body bytes as they were
received or offered, where `body` is what they read as; none for a body this station built and for a
body that is its own bytes. -/
structure Frame where
  hdr : Header
  body : Body
  wire : Option (List Byte) := none
  deriving DecidableEq, Repr

/-- A frame the host offers in a SEND transaction (R192): the class byte, stream and destination it
sends, the body length field, the body bytes that came, and what an I, S or M body among them reads
as. -/
structure Offered where
  cls : FrameClass
  stream : Nat
  dest : Nat
  len : Nat
  bytes : List Byte
  reading : Body
  deriving DecidableEq, Repr

end Sys2Proof
end

