-- ==== Sys2Proof/Syntax.lean ====
section
/-! DEFINITION. The commands of the GC620: one constructor of `Instr` per row of the table of
operations and events. Every command carries its `Moment`: the time at which it is taken and what the
station reads from outside without an event of its own. -/

namespace Sys2Proof

/-- When a command is taken: `time` in 10 ns units of the station's clock (R16), the drives' ready lines as
they stand then (R115), and for each fibre port whether a frame is being received whose 16th header byte
has not come, of which no event has told (R13, R16; assumption log 12). -/
structure Moment where
  time : Nat
  ready : Four Bool
  shortA : Bool := false
  shortB : Bool := false
  deriving DecidableEq, Repr

/-- Whether a frame short of its 16th header byte is being received on a port at a moment (R13). -/
def Moment.short (m : Moment) : PortId → Bool
  | .a => m.shortA
  | .b => m.shortB

/-- How a management command reached Station Control (R184): over the ring to the station's own
address from `src`, over the ring with destination 63, or at the frame port (R193). -/
inductive Via where
  | ring (src : Nat)
  | broadcast
  | port
  deriving DecidableEq, Repr

/-- What every management command carries besides its parameters (R12, R184). `lengthOk` is check 3 of
R184: the parameters have the command's length and the entry count agrees with them. -/
structure Envelope where
  via : Via
  hostTag : BitVec 16
  lengthOk : Bool
  deriving DecidableEq, Repr

/-- Where a sweep command stands when Station Control acts on it: offered at the frame port and now
moving to the local M queue (R59, R190); arrived at the forward input and not stripped, with its
hop count already increased (R60, R190); returned and stripped (R62, R190); or sent to a station
address or to 63 as no sweep (R58). -/
inductive SweepPoint where
  | offered
  | passing (hdr : Header)
  | returned (hdr : Header)
  | addressed (via : Via)
  deriving DecidableEq, Repr

/-- The symbol that takes a BREAK side to SYNC (R4). -/
inductive SyncSymbol where
  | idle | breakHeard | startDelimiter
  deriving DecidableEq, Repr

/-- An invalid symbol, or a stray one (R4). -/
inductive BadSymbol where
  | invalid | strayData | strayEnd | strayAbort
  deriving DecidableEq, Repr

/-- What cuts a frame short (R13); `invalid` carries the position of the symbol in the symbols
received. -/
inductive CutBy where
  | startDelimiter | idle | brk | breakHeard
  | invalid (pos : Nat)
  | overlong
  deriving DecidableEq, Repr

/-- How a frame closes at a port (R13): by its end delimiter, with the bytes received between the
delimiters and what an I, S or M body among them reads as; by an abort mark; or cut short. -/
inductive Closing where
  | ended (bytes : List Byte) (reading : Body)
  | aborted
  | truncated (by_ : CutBy)
  deriving DecidableEq, Repr

/-- The commands of the block: every row of the table of operations and events. -/
inductive Instr where
  /-- POWER_ON (R195). -/
  | powerOn (m : Moment)
  /-- RESET_PIN (R19). -/
  | resetPin (m : Moment)
  /-- LOSS_OF_LIGHT (R4). -/
  | lossOfLight (m : Moment) (p : PortId)
  /-- LIGHT_PRESENT (R4). -/
  | lightPresent (m : Moment) (p : PortId)
  /-- HUNT_FILL_RUN (R4): `last` is the 64th symbol. -/
  | huntFillRun (m : Moment) (p : PortId) (last : FillSymbol)
  /-- BREAK_SYMBOL_RUN (R4). -/
  | breakSymbolRun (m : Moment) (p : PortId)
  /-- BREAK_TO_SYNC_SYMBOL (R4). -/
  | breakToSyncSymbol (m : Moment) (p : PortId) (sym : SyncSymbol)
  /-- INVALID_SYMBOL_LIMIT (R4): `pos` is the symbol's position in the symbols received. -/
  | invalidSymbolLimit (m : Moment) (p : PortId) (pos : Nat)
  /-- HEAL_HOLD_EXPIRY (R46). -/
  | healHoldExpiry (m : Moment) (p : PortId)
  /-- FRAME_START (R16): the start-time stamp, the 16 header bytes, and whether an M frame's kind field
  is COMMAND (which R35 asks at the frame start). -/
  | frameStart (m : Moment) (p : PortId) (stamp : Nat) (hdr : List Byte) (isCommand : Bool)
  /-- RESERVATION_ELIGIBLE (R35): the frame being received on `p` has reached 32 bytes. -/
  | reservationEligible (m : Moment) (p : PortId)
  /-- FRAME_ARRIVAL (R16). -/
  | frameArrival (m : Moment) (p : PortId) (closing : Closing)
  /-- TRANSMIT_COMPLETION (R2). -/
  | transmitCompletion (m : Moment) (p : PortId)
  /-- SEND_QUEUE_MOVE (R41). -/
  | sendQueueMove (m : Moment)
  /-- CYCLE_TIMER_EXPIRY (R70). -/
  | cycleTimerExpiry (m : Moment)
  /-- SET_SPEED (R72). -/
  | setSpeed (m : Moment) (e : Envelope) (target : Nat)
  /-- MASTER_STOP (R73). -/
  | masterStop (m : Moment) (e : Envelope)
  /-- PENDING_FRAME_DUE (R79). -/
  | pendingFrameDue (m : Moment)
  /-- MISS_TIMER_EXPIRY (R80). -/
  | missTimerExpiry (m : Moment)
  /-- LOCAL_TIMER_EXPIRY (R81). -/
  | localTimerExpiry (m : Moment)
  /-- ENABLE_AXIS (R90). -/
  | enableAxis (m : Moment) (e : Envelope) (axis : Nat)
  /-- COUPLE (R92). -/
  | couple (m : Moment) (e : Envelope) (axis : Nat)
  /-- DECOUPLE (R93). -/
  | decouple (m : Moment) (e : Envelope) (axis : Nat)
  /-- DISABLE_AXIS (R94). -/
  | disableAxis (m : Moment) (e : Envelope) (axis : Nat)
  /-- SET_PHASE (R95). -/
  | setPhase (m : Moment) (e : Envelope) (axis : Nat) (target : Int)
  /-- RESET_CORRECTION (R96). -/
  | resetCorrection (m : Moment) (e : Envelope) (axis : Nat)
  /-- STOP_CONFIRM_EXPIRY (R110). -/
  | stopConfirmExpiry (m : Moment)
  /-- READY_DROP (R115): the ready line of this axis's drive falls. -/
  | readyDrop (m : Moment) (axis : Fin 4)
  /-- EXCHANGE_COMPLETION (R116): the 12 status bytes. -/
  | exchangeCompletion (m : Moment) (status : List Byte)
  /-- TRIGGER_EXPIRY (R129). -/
  | triggerExpiry (m : Moment)
  /-- LINE_END (R131): the pixels of the line. -/
  | lineEnd (m : Moment) (pixels : List Byte)
  /-- CAMERA_TIMEOUT (R130). -/
  | cameraTimeout (m : Moment)
  /-- TRIP_INPUT_CHANGE (R153). -/
  | tripInputChange (m : Moment) (n : Fin 8) (active : Bool)
  /-- FILTER_TIMER_EXPIRY (R153). -/
  | filterTimerExpiry (m : Moment) (n : Fin 8)
  /-- CLEAR_FAULTS (R159). -/
  | clearFaults (m : Moment) (e : Envelope) (groups : List Nat)
  /-- TRIP (R160). -/
  | trip (m : Moment) (e : Envelope) (level : Nat)
  /-- REFRESH_TIMER_EXPIRY (R162). -/
  | refreshTimerExpiry (m : Moment)
  /-- REMOTE_ENTRY_STALE (R164). -/
  | remoteEntryStale (m : Moment) (source : Nat)
  /-- CLEAR_REMOTE (R165). -/
  | clearRemote (m : Moment) (e : Envelope)
  /-- TILE_WRITE_COMPLETION (R175). -/
  | tileWriteCompletion (m : Moment)
  /-- REPAINT_TIMER_EXPIRY (R178). -/
  | repaintTimerExpiry (m : Moment)
  /-- READ (R186). -/
  | read (m : Moment) (e : Envelope) (table : TableId) (first count : Nat) (clear : Bool)
  /-- WRITE_STATION (R188). -/
  | writeStation (m : Moment) (e : Envelope) (es : List (Nat × StationEntry))
  /-- WRITE_MASTER (R67). -/
  | writeMaster (m : Moment) (e : Envelope) (es : List (Nat × MasterRecord))
  /-- WRITE_CAMERA (R127). -/
  | writeCamera (m : Moment) (e : Envelope) (es : List (Nat × CameraRecord))
  /-- WRITE_PANEL (R170). -/
  | writePanel (m : Moment) (e : Envelope) (es : List (Nat × PanelRecord))
  /-- WRITE_TAP (R30). -/
  | writeTap (m : Moment) (e : Envelope) (es : List (Nat × Option TapFields))
  /-- WRITE_AXIS (R87). -/
  | writeAxis (m : Moment) (e : Envelope) (es : List (Nat × AxisConfig))
  /-- WRITE_WINDOW (R134). -/
  | writeWindow (m : Moment) (e : Envelope) (es : List (Nat × WindowConfig))
  /-- WRITE_FAULT_CONFIG (R151). -/
  | writeFaultConfig (m : Moment) (e : Envelope) (es : List (Nat × FaultSetting))
  /-- WRITE_MASKS (R152). -/
  | writeMasks (m : Moment) (e : Envelope) (es : List (Nat × List Bool))
  /-- WRITE_TILE_MAP (R171). -/
  | writeTileMap (m : Moment) (e : Envelope) (es : List (Nat × TileFields))
  /-- WRITE_BANNER (R176). -/
  | writeBanner (m : Moment) (e : Envelope) (es : List (Nat × List Byte))
  /-- STATUS (R189). -/
  | status (m : Moment) (e : Envelope)
  /-- ENUMERATE (R58). -/
  | enumerate (m : Moment) (at_ : SweepPoint) (hostTag : BitVec 16) (first next : Nat)
      (force overflow lengthOk : Bool)
  /-- COLLECT (R190): `ds` are the digests already in the sweep. -/
  | collect (m : Moment) (at_ : SweepPoint) (hostTag : BitVec 16) (count : Nat)
      (overflow lengthOk : Bool) (ds : List Digest)
  /-- RESET_STATION (R194). -/
  | resetStation (m : Moment) (e : Envelope)
  /-- SHORT_TIMER_EXPIRY (R191). -/
  | shortTimerExpiry (m : Moment)
  /-- LONG_TIMER_EXPIRY (R191). -/
  | longTimerExpiry (m : Moment)
  /-- SEND_TRANSACTION (R193): when the transaction began, and the frame offered. -/
  | sendTransaction (m : Moment) (begun : Nat) (f : Offered)
  /-- TAKE_TRANSACTION (R192): when the transaction began. -/
  | takeTransaction (m : Moment) (begun : Nat)
  /-- INVALID_SYMBOL (R18): the symbol and its position in the symbols received. -/
  | invalidSymbol (m : Moment) (p : PortId) (sym : BadSymbol) (pos : Nat)
  deriving DecidableEq, Repr

end Sys2Proof
end

