-- ==== Sys2Proof/Config.lean ====
section
/-! DEFINITION. What the manual fixes for every station (sizes, units) and what it leaves open. The
open values are opaque: no proof can see what they are. -/

namespace Sys2Proof.Config

/-- 10 ns units in 1 µs (R16: the station's clock counts 10 ns). -/
def usec : Nat := 100

/-- 10 ns units in 1 ms. -/
def msec : Nat := 100000

/-- The greatest value of a counter (Conventions, "Counters"). -/
def counterMax : Nat := 65535

/-- Frames the urgent queue holds (R37). -/
def urgentCap : Nat := 8

/-- Bytes the transit FIFO holds (R39). -/
def transitCap : Nat := 4096

/-- Bytes the counter-path repeat FIFO holds (R51). -/
def repeatCap : Nat := 2048

/-- Frames each local insert queue holds (R40). -/
def localCap : Nat := 8

/-- Frames the frame port receive queue holds (R33). -/
def receiveCap : Nat := 8

/-- Frames the frame port send queue holds (R192). -/
def sendCap : Nat := 4

/-- Tile writes the panel queue holds (R174). -/
def panelCap : Nat := 64

/-- Entries the screen stream table holds (R171). -/
def streamCap : Nat := 8

/-- Records a pending correction list holds (R141). -/
def corrCap : Nat := 16

/-- The greatest age (R6). -/
def ageMax : Nat := 16777215

/-- The hop limit (R21). -/
def hopLimit : Nat := 127

/-- Free value: the hop count in the header of a cut-through copy of a frame that came with hop count
127 (assumption log 9). The copy is aborted at the frame's arrival, and the field is 7 bits wide. -/
opaque hopPast : Nat → Nat

/-- Free value: the bytes on the fibre of an I, S or M body that this station built (assumption log 3). -/
opaque wireLayout : Body → List Byte

/-- Free value: the size of the response data of a management response (assumption log 4). -/
opaque dataSize : RespData → Nat

/-- Free value: the size of the parameters of an ENUMERATE (assumption log 4). -/
opaque enumerateSize : Nat

/-- Free value: the size of one entry in a READ response (assumption log 5). -/
opaque entrySize : EntryData → Nat

/-- Free value: the host tag read from an M body that holds no whole management header (assumption
log 6). -/
opaque unreadTag : List Byte → BitVec 16

/-- Free value: the command code read from such a body (assumption log 6). -/
opaque unreadCode : List Byte → Nat

end Sys2Proof.Config
end

