-- ==== Sys2Proof/Machine/Tables.lean ====
section
/-! DEFINITION. The fault table of R149 and the default values of the tables of R185. -/

namespace Sys2Proof.Machine

/-- The code of a fault (R149). -/
def faultCode : FaultId → Nat
  | .portDown .a => 0x10
  | .portDown .b => 0x11
  | .ringIsolated => 0x12
  | .addressClash => 0x13
  | .ringCongestion => 0x14
  | .cycleLoss => 0x20
  | .cycleLate => 0x21
  | .masterJump => 0x22
  | .cycleConflict => 0x23
  | .stopUnconfirmed => 0x24
  | .driveFault a => 0x30 + 4 * a.val
  | .driveLink a => 0x31 + 4 * a.val
  | .followError a => 0x32 + 4 * a.val
  | .correctionLimit a => 0x33 + 4 * a.val
  | .lineOverrun => 0x40
  | .markLost => 0x41
  | .webBreak => 0x42
  | .cameraLost => 0x43
  | .tripInput n => 0x50 + n.val
  | .mgmtSilent => 0x60
  | .mgmtLost => 0x61
  | .hostTrip => 0x62
  | .stationReset => 0x63

/-- The group of a fault, 1 to 6 (R149). -/
def faultGroup : FaultId → Nat
  | .portDown _ | .ringIsolated | .addressClash | .ringCongestion => 1
  | .cycleLoss | .cycleLate | .masterJump | .cycleConflict | .stopUnconfirmed => 2
  | .driveFault _ | .driveLink _ | .followError _ | .correctionLimit _ => 3
  | .lineOverrun | .markLost | .webBreak | .cameraLost => 4
  | .tripInput _ => 5
  | .mgmtSilent | .mgmtLost | .hostTrip | .stationReset => 6

/-- Whether a fault is persistent, with a condition (R149). -/
def faultPersistent : FaultId → Bool
  | .portDown _ | .ringIsolated | .cycleLoss | .driveFault _ | .driveLink _ | .correctionLimit _
  | .webBreak | .cameraLost | .tripInput _ | .mgmtSilent | .mgmtLost => true
  | .addressClash | .ringCongestion | .cycleLate | .masterJump | .cycleConflict
  | .stopUnconfirmed | .followError _ | .lineOverrun | .markLost | .hostTrip
  | .stationReset => false

/-- The default level of a fault (R149; R151 for HOST_TRIP). -/
def faultLevel : FaultId → Level
  | .ringIsolated | .cycleLoss | .webBreak | .mgmtLost => .rampStop
  | .masterJump | .cycleConflict | .driveFault _ | .driveLink _ | .followError _ | .hostTrip =>
    .driveOff
  | .tripInput n => if n = 0 then .driveOff else .notice
  | .portDown _ | .addressClash | .ringCongestion | .cycleLate | .stopUnconfirmed
  | .correctionLimit _ | .lineOverrun | .markLost | .cameraLost | .mgmtSilent
  | .stationReset => .notice

/-- The default publish flag of a fault (R149). -/
def faultPublish : FaultId → Bool
  | .ringIsolated | .addressClash | .cycleLoss | .masterJump | .cycleConflict | .stopUnconfirmed
  | .driveFault _ | .driveLink _ | .followError _ | .webBreak | .mgmtLost | .hostTrip => true
  | .tripInput n => n = 0
  | .portDown _ | .ringCongestion | .cycleLate | .correctionLimit _ | .lineOverrun | .markLost
  | .cameraLost | .mgmtSilent | .stationReset => false

/-- The 42 faults in order of their codes (R149). -/
def allFaults : List FaultId :=
  [.portDown .a, .portDown .b, .ringIsolated, .addressClash, .ringCongestion,
   .cycleLoss, .cycleLate, .masterJump, .cycleConflict, .stopUnconfirmed] ++
  [.driveFault 0, .driveLink 0, .followError 0, .correctionLimit 0,
   .driveFault 1, .driveLink 1, .followError 1, .correctionLimit 1,
   .driveFault 2, .driveLink 2, .followError 2, .correctionLimit 2,
   .driveFault 3, .driveLink 3, .followError 3, .correctionLimit 3] ++
  [.lineOverrun, .markLost, .webBreak, .cameraLost,
   .tripInput 0, .tripInput 1, .tripInput 2, .tripInput 3,
   .tripInput 4, .tripInput 5, .tripInput 6, .tripInput 7,
   .mgmtSilent, .mgmtLost, .hostTrip, .stationReset]

/-- The fault with a given code, if there is one (R149). -/
def faultOfCode? (code : Nat) : Option FaultId := allFaults.find? fun f => faultCode f == code

/-- An entry with its latched bit no, its condition absent and its FAULT CONFIG defaults
(R149, R151). -/
def freshFault (f : FaultId) : FaultEntry :=
  { id := f, latched := false, cond := false, level := faultLevel f, publish := faultPublish f }

/-- The STATION defaults (R188). -/
def defaultStation : StationRecord :=
  { linkA := 0, linkB := 0, heal := 50, missLimit := 3, jumpLimit := 4096, stopConfirm := 100,
    driveLimit := 3, filter := List.replicate 8 2, tripStream := none, refresh := 20,
    shortTimeout := 0, longTimeout := 0 }

/-- The MASTER defaults (R66). -/
def defaultMaster : MasterRecord :=
  { cycleRun := 0, stream := 0, period := 1000, offset := 500, vMax := 0, accel := 1024,
    tripDecel := 8192, stopDecel := 2048 }

/-- The CAMERA defaults (R126). -/
def defaultCamera : CameraRecord :=
  { pixels := 4096, pitch := 10, timeout := 1000, webStart := 0, webEnd := 16,
    webThreshold := 255, webRun := 64, stream := 0, cropStart := 0, cropWidth := 1024,
    decimation := 1, lineStep := 1, streaming := false }

/-- The PANEL defaults (R169). -/
def defaultPanel : PanelRecord :=
  { width := 40, height := 30, bannerRow := 0, bannerHeight := 1, viewStream := none,
    viewCol := 0, viewRow := 0, viewWidth := 1, viewHeight := 1, gapColour := 0, repaint := 100 }

/-- The configuration defaults of an axis (R88). -/
def defaultAxisConfig : AxisConfig :=
  { num := 1, den := 1, phaseSlew := 256, corrMax := 0, corrSlew := 16, decel := 64,
    followLimit := 0 }

/-- An axis record after power-on (R88). -/
def defaultAxis : AxisRecord :=
  { cfg := defaultAxisConfig, state := .disabled, phaseTarget := 0, phase := 0, corrTarget := 0,
    corr := 0, acc := 0, gear := 0, step := 0, setpoint := 0, capture := false, release := false }

/-- The defaults of a window entry (R133). -/
def defaultWindow : WindowConfig :=
  { enabled := false, x0 := 0, x1 := 1, p0 := 0, p1 := 1, dark := true, threshold := 128,
    expected := 0, reference := none, averaging := 1, deadBand := 0, gain := 0,
    targetStation := 1, targetAxis := 0 }

/-- A result entry with nothing in it (R140). -/
def emptyResult : MarkResult :=
  { repeatNo := 0, edge := none, error := none, mean := none, lastAmount := none, status := .none,
    misses := 0 }

/-- A tile map entry after power-on (R183). -/
def emptyTile : TileEntry := { source := .none, background := 0, stale := false }

/-- The banner store after power-on: 48 tiles of 256 pixels, all 0 (R176). -/
def emptyBanner : List (List Byte) := List.replicate 48 (List.replicate 256 0)

end Sys2Proof.Machine
end

