-- ==== Sys2Proof/Machine/State.lean ====
section
/-! DEFINITION. The state of one station, block by block, as plain data, and the state after power-on.
Times and deadlines are in 10 ns units of the station's clock. -/

namespace Sys2Proof.Machine

/-- Why a command stops the machine. -/
inductive Fault where
  /-- Raised by FRAME_START without 16 header bytes, by EXCHANGE_COMPLETION without 12 status bytes
  and by a frame closed by an end delimiter after more than 1,044 bytes: no such event exists on the
  hardware (R13, R16, R116). Safe: the machine stops where the hardware has no such event. -/
  | noSuchEvent
  deriving DecidableEq, Repr

/-- Why a command has no meaning. -/
inductive Refusal where
  /-- Raised by `exec` for a row that has no meaning yet; no row is refused so in this model. Safe: the
  machine stops. -/
  | notModelled (mnemonic : String)
  deriving DecidableEq, Repr

/-! ## Fibre ports and Ring Switch -/

/-- Counters of one port (R18). -/
structure PortCounters where
  framesIn : Nat
  crcBad : Nat
  formatBad : Nat
  aborted : Nat
  truncated : Nat
  symbolErrors : Nat
  syncLoss : Nat
  framesOut : Nat
  abortsSent : Nat
  deriving DecidableEq, Repr

/-- What the Ring Switch holds for a frame being received: nothing, a reservation still in its queue, or
a reservation that was picked, whether its copy still runs or not (R35, R36). -/
inductive Resv where
  | none | held | picked
  deriving DecidableEq, Repr

/-- A frame being received, from its frame start to its arrival (R16): `use` is the use of the receive
side at the frame start (R52), `got32` whether 32 bytes have come (R35). -/
structure Reception where
  stamp : Nat
  hdr : Header
  use : RxUse
  resv : Resv
  got32 : Bool
  deriving DecidableEq, Repr

/-- A frame being transmitted (R2, R17): `copyOf` is the port a cut-through copy is still being received
on, `endAt` the time of the end delimiter, `check` the check value once the body is known (R14). -/
structure Tx where
  frame : Frame
  copyOf : Option PortId
  endAt : Nat
  aborted : Bool
  check : Option (BitVec 32)
  deriving DecidableEq, Repr

/-- One fibre port (R4, R18, R19, R46). `light` is the level of its optical receiver, `invalid` the
positions of the invalid symbols among the last 256, `skipping` whether data symbols after a 1,045th
byte are being skipped (R13), `hold` the end of a running heal hold. -/
structure Port where
  light : Bool
  rx : RxState
  fillRun : Nat
  breakRun : Nat
  invalid : List Nat
  skipping : Bool
  side : SideState
  hold : Option Nat
  reception : Option Reception
  tx : Option Tx
  ctr : PortCounters
  deriving DecidableEq, Repr

/-- Whether an item of a queue is a frame this station originated, a frame it forwards, or a reservation
for a frame being received on a port. -/
inductive QOrigin where
  | own
  | passing
  | reserved (p : PortId)
  deriving DecidableEq, Repr

/-- An item of a queue that feeds an output (R35 to R40). `since` is the queue entry of an own frame, the
arrival of a passing one, the start-time stamp of a reserved one (R34); `ready` says that a
reservation has its 32 bytes. -/
structure QItem where
  frame : Frame
  since : Nat
  origin : QOrigin
  ready : Bool
  deriving DecidableEq, Repr

/-- Counters of the Ring Switch (R44, R64). -/
structure SwitchCounters where
  hopLimit : Nat
  stripped : Nat
  urgentDrop : Nat
  transitDrop : Nat
  cSuperseded : Nat
  kDrop : Nat
  mDrop : Nat
  sDrop : Nat
  imageDrop : Nat
  repeatDrop : Nat
  roleDiscard : Nat
  isolatedDiscard : Nat
  roleChanges : Nat
  clashSeen : Nat
  deriving DecidableEq, Repr

/-- The Ring Switch: role, the queues of 2.6 to 2.8 and R51, the tap table (R29) and the clash record
(R57). -/
structure Switch where
  role : RingRole
  urgent : List QItem
  transit : List QItem
  counter : List QItem
  localK : List QItem
  localM : List QItem
  localS : List QItem
  localI : List QItem
  tap : List (Option TapEntry)
  clash : Option (BitVec 16)
  ctr : SwitchCounters
  deriving DecidableEq, Repr

/-! ## Motion Unit -/

/-- The running cycle timer: the period in force and its expiry (R69). -/
structure CycleTimer where
  period : Nat
  due : Nat
  deriving DecidableEq, Repr

/-- The master generator (R66, R68). -/
structure Generator where
  cfg : MasterRecord
  pos : BitVec 28
  rem : Nat
  speed : Nat
  target : Nat
  limit : RampLimit
  state : MasterState
  cycle : BitVec 16
  timer : Option CycleTimer
  deriving DecidableEq, Repr

/-- The pending frame of the cycle context (R75); `due` is its apply time. -/
structure PendingCycle where
  num : BitVec 16
  pos : BitVec 28
  speed : Nat
  period : Nat
  offset : Nat
  state : MasterState
  due : Nat
  deriving DecidableEq, Repr

/-- The cycle context (R75); the timers hold their expiry. -/
structure CycleCtx where
  state : CtxState
  learnt : Option (Nat × BitVec 16)
  lastCycle : BitVec 16
  pos : BitVec 28
  speed : Nat
  period : Nat
  lastMaster : MasterState
  rem : Nat
  pending : Option PendingCycle
  delta : Option Int
  misses : Nat
  repeats : BitVec 16
  missTimer : Option Nat
  localTimer : Option Nat
  deriving DecidableEq, Repr

/-- Counters of the Motion Unit (R84, R111). -/
structure MotionCounters where
  lateCycle : Nat
  staleCycle : Nat
  missedCycle : Nat
  foreignCycle : Nat
  corrIgnored : Nat
  corrClamped : Nat
  deriving DecidableEq, Repr

/-- The axis table, the stop-confirm timer (R108) and the counters of the Motion Unit. -/
structure AxisTable where
  recs : Four AxisRecord
  stopTimer : Option Nat
  ctr : MotionCounters
  deriving DecidableEq, Repr

/-! ## Drive Link -/

/-- What the Drive Link keeps for one axis (6.1). -/
structure DriveAxis where
  outcome : DriveOutcome
  bad : Nat
  sequence : BitVec 4
  status : Option DriveStatus
  lastSetpoint : Option (BitVec 32)
  deriving DecidableEq, Repr

/-- The exchange under way (R114, R115): the fields of its command record and its 12 bytes. `limit`
is the following error limit F it began with (R87); `noCapture` is set by an ENABLE AXIS taken during
it (R91, R121), `void` by a RESET STATION (R125). -/
structure Exchange where
  axis : Fin 4
  release : Bool
  setpoint : BitVec 32
  enable : Bool
  level : Level
  sequence : BitVec 4
  record : List Byte
  limit : Nat
  noCapture : Bool
  void : Bool
  deriving DecidableEq, Repr

/-- Counters of the Drive Link (R124). -/
structure DriveCounters where
  crcBad : Nat
  seqBad : Nat
  notReady : Nat
  readyDrop : Nat
  skipped : Nat
  followExcess : Nat
  deriving DecidableEq, Repr

/-- The Drive Link (6.1): `batch` is the next axis whose turn comes, 4 while only axis 3's exchange is
left. -/
structure DriveLink where
  axes : Four DriveAxis
  batch : Option Nat
  exchange : Option Exchange
  ctr : DriveCounters
  deriving DecidableEq, Repr

/-! ## Image Unit -/

/-- A window: its entry, its measurement in progress (R133) and its result entry (R140). `prev` is the
previous in-range line's stamp and strip value. -/
structure Window where
  cfg : WindowConfig
  measuring : Bool
  isOpen : Bool
  prev : Option (Nat × Nat)
  edge : Option Nat
  sum : Int
  count : Nat
  result : MarkResult
  deriving DecidableEq, Repr

/-- The base last received by the trigger unit (R128). -/
structure ImageBase where
  pos : BitVec 28
  speed : Nat
  period : Nat
  at_ : Nat
  repeats : BitVec 16
  deriving DecidableEq, Repr

/-- A camera line in progress (R129, R130); `start` is its trigger time. -/
structure CameraLine where
  num : BitVec 32
  stamp : Nat
  repeatNo : BitVec 16
  start : Nat
  deriving DecidableEq, Repr

/-- Counters of the Image Unit (R146). -/
structure ImageCounters where
  skipped : Nat
  overruns : Nat
  abandoned : Nat
  corrDrop : Nat
  deriving DecidableEq, Repr

/-- The Image Unit. `next` is Q, `trigger` the time of the scheduled trigger, `prevIndex` the previous
completed line's index, `pending` the correction lists by target station in rising order, none empty
(R141), `asmStream` and `asm` the frame in assembly (R144). -/
structure ImageUnit where
  cam : CameraRecord
  windows : List Window
  next : Option (BitVec 28)
  lineNo : BitVec 32
  base : Option ImageBase
  trigger : Option Nat
  line : Option CameraLine
  prevIndex : Option Nat
  repeatNo : BitVec 16
  abandoned : Nat
  webRun : Nat
  pending : List (Nat × List CorrRec)
  asmStream : Nat
  asm : List Segment
  ctr : ImageCounters
  deriving DecidableEq, Repr

/-! ## Trip Unit -/

/-- An entry of the remote trip table (R163). -/
structure RemoteEntry where
  source : Nat
  level : Level
  code : Nat
  last : Nat
  stale : Bool
  deriving DecidableEq, Repr

/-- A trip input: the level of its pin, its filtered state and its filter timer's expiry (R153). -/
structure TripInput where
  raw : Bool
  filtered : Bool
  timer : Option Nat
  deriving DecidableEq, Repr

/-- Counters of the Trip Unit (R167). -/
structure TripCounters where
  sent : Nat
  staleRemote : Nat
  deriving DecidableEq, Repr

/-- The Trip Unit. -/
structure TripUnit where
  tree : List FaultEntry
  hostLevel : Option Level
  masks : List Bool
  remote : List RemoteEntry
  levels : Levels
  tripOut : Bool
  inputs : List TripInput
  refreshAt : Nat
  ctr : TripCounters
  deriving DecidableEq, Repr

/-! ## Screen Unit -/

/-- An entry of the screen stream table; its stale count is read from the tile map (R171). -/
structure ScreenStream where
  stream : Nat
  owner : Nat
  deriving DecidableEq, Repr

/-- A tile write of the panel queue: STREAM s or VIEW (R174). -/
structure TileWrite where
  stream : Option Nat
  col : Nat
  row : Nat
  content : TileContent
  deriving DecidableEq, Repr

/-- The tile write being sent on the panel link (R175). -/
structure LinkWrite where
  col : Nat
  row : Nat
  content : TileContent
  deriving DecidableEq, Repr

/-- The current line of the viewport (R179): `width` is the line width its segments gave. -/
structure ViewLine where
  line : BitVec 32
  isOpen : Bool
  width : Nat
  pixels : List Byte
  deriving DecidableEq, Repr

/-- The viewport: row buffer, current line and viewport row (R179). -/
structure Viewport where
  buffer : List (List Byte)
  current : Option ViewLine
  row : Nat
  deriving DecidableEq, Repr

/-- Counters of the Screen Unit (R182). -/
structure ScreenCounters where
  badTile : Nat
  unrouted : Nat
  tileStale : Nat
  viewDrop : Nat
  lateLine : Nat
  format : Nat
  deriving DecidableEq, Repr

/-- The Screen Unit. -/
structure ScreenUnit where
  panel : PanelRecord
  tiles : List TileEntry
  streams : List ScreenStream
  queue : List TileWrite
  link : Option LinkWrite
  job : BannerJob
  store : List (List Byte)
  view : Viewport
  repaintAt : Nat
  ctr : ScreenCounters
  deriving DecidableEq, Repr

/-! ## Station Control -/

/-- Counters of Station Control (R195). -/
structure StationCounters where
  commandsTaken : Nat
  broadcastRefused : Nat
  portDrop : Nat
  portRefused : Nat
  deriving DecidableEq, Repr

/-- Station Control: address, STATION record, sequence counter (R7), management timers, and the frame
port with its queues, the last transaction's results and the time of the last RESET STATION (R192 to
R195). Each frame of the receive queue carries the time at which it entered. -/
structure StationCtl where
  address : Nat
  cfg : StationRecord
  seq : BitVec 16
  shortTimer : Option Nat
  longTimer : Option Nat
  sendQ : List Frame
  recvQ : List (Nat × Frame)
  headInUse : Bool
  sendStatus : Option SendStatus
  taken : Option Frame
  resetAt : Option Nat
  ctr : StationCounters
  deriving DecidableEq, Repr

/-- The state of one station. `pending` is the model's queue of waiting commands, first in first out;
`clock` is the time of the last command; `ready` are the drives' ready lines as last read; `serial`
and `strap` are fixed properties of the part and its wiring. -/
structure State where
  pending : List Instr
  clock : Nat
  ready : Four Bool
  serial : BitVec 48
  strap : Bool
  portA : Port
  portB : Port
  sw : Switch
  gen : Generator
  ctx : CycleCtx
  axes : AxisTable
  drive : DriveLink
  image : ImageUnit
  trip : TripUnit
  screen : ScreenUnit
  station : StationCtl
  deriving DecidableEq, Repr

/-! ## After power-on -/

/-- A port after power-on, in the dark (R19, R65). -/
def Port.reset : Port :=
  { light := false, rx := .dark, fillRun := 0, breakRun := 0, invalid := [], skipping := false,
    side := .failed, hold := none, reception := none, tx := none,
    ctr := ⟨0, 0, 0, 0, 0, 0, 0, 0, 0⟩ }

/-- The Ring Switch after power-on (R45, R65). -/
def Switch.reset : Switch :=
  { role := .isolated, urgent := [], transit := [], counter := [], localK := [], localM := [],
    localS := [], localI := [], tap := List.replicate 32 none, clash := none,
    ctr := ⟨0, 0, 0, 0, 0, 0, 0, 0, 0, 0, 0, 0, 0, 0⟩ }

/-- The master generator after power-on (R66, R68). -/
def Generator.reset : Generator :=
  { cfg := defaultMaster, pos := 0, rem := 0, speed := 0, target := 0, limit := .accel,
    state := .stopped, cycle := 0, timer := none }

/-- The cycle context after power-on (R75). -/
def CycleCtx.reset : CycleCtx :=
  { state := .idle, learnt := none, lastCycle := 0, pos := 0, speed := 0, period := 1000,
    lastMaster := .stopped, rem := 0, pending := none, delta := none, misses := 0, repeats := 0,
    missTimer := none, localTimer := none }

/-- The axis table after power-on (R88, R108, R84, R111). -/
def AxisTable.reset : AxisTable :=
  { recs := Four.all4 defaultAxis, stopTimer := none, ctr := ⟨0, 0, 0, 0, 0, 0⟩ }

/-- What the Drive Link keeps for an axis after power-on (R125). -/
def DriveAxis.reset : DriveAxis :=
  { outcome := .none, bad := 0, sequence := 0, status := none, lastSetpoint := none }

/-- The Drive Link after power-on (R125). -/
def DriveLink.reset : DriveLink :=
  { axes := Four.all4 DriveAxis.reset, batch := none, exchange := none,
    ctr := ⟨0, 0, 0, 0, 0, 0⟩ }

/-- A window after power-on (R133, R140, R147). -/
def Window.reset : Window :=
  { cfg := defaultWindow, measuring := false, isOpen := false, prev := none, edge := none,
    sum := 0, count := 0, result := emptyResult }

/-- The Image Unit after power-on (R147). -/
def ImageUnit.reset : ImageUnit :=
  { cam := defaultCamera, windows := List.replicate 16 Window.reset, next := none, lineNo := 0,
    base := none, trigger := none, line := none, prevIndex := none, repeatNo := 0, abandoned := 0,
    webRun := 0, pending := [], asmStream := 0, asm := [], ctr := ⟨0, 0, 0, 0⟩ }

/-- The fault tree after power-on, with the three conditions the ring holds present (R168). -/
def resetTree : List FaultEntry :=
  allFaults.map fun f =>
    match f with
    | .portDown _ | .ringIsolated => { freshFault f with latched := true, cond := true }
    | _ => freshFault f

/-- The Trip Unit after power-on and its first recomputation (R168): local and published level RAMP_STOP
by RING_ISOLATED, TRIP OUT released, the refresh timer running from 0. -/
def TripUnit.reset : TripUnit :=
  { tree := resetTree, hostLevel := none, masks := List.replicate 7 false, remote := [],
    levels := { loc := .rampStop, pub := .rampStop, rem := .clear, eff := .rampStop,
                pubCode := 0x12, pubCount := 1,
                summary := [true, false, false, false, false, false, false] },
    tripOut := false,
    inputs := List.replicate 8 { raw := false, filtered := false, timer := none },
    refreshAt := 20 * Config.msec, ctr := ⟨0, 0⟩ }

/-- The Screen Unit after power-on (R183): a CLEAR pass has started, and the idle panel link is sending
its first tile. -/
def ScreenUnit.reset : ScreenUnit :=
  { panel := defaultPanel, tiles := List.replicate 1200 emptyTile, streams := [], queue := [],
    link := some { col := 0, row := 0, content := .fill 0 }, job := .clear 1,
    store := emptyBanner, view := { buffer := [], current := none, row := 0 },
    repaintAt := 100 * Config.msec, ctr := ⟨0, 0, 0, 0, 0, 0⟩ }

/-- Station Control after power-on (R195, R7). -/
def StationCtl.reset : StationCtl :=
  { address := 0, cfg := defaultStation, seq := 0, shortTimer := none, longTimer := none,
    sendQ := [], recvQ := [], headInUse := false, sendStatus := none, taken := none,
    resetAt := none, ctr := ⟨0, 0, 0, 0⟩ }

/-- The station right after power-on (R195), at time 0, with dark fibres, inactive trip inputs and low
ready lines; `serial` 0 and no CYCLE MASTER strap are the model's (assumption log 2). -/
def State.reset : State :=
  { pending := [], clock := 0, ready := Four.all4 false, serial := 0, strap := false,
    portA := Port.reset, portB := Port.reset, sw := Switch.reset, gen := Generator.reset,
    ctx := CycleCtx.reset, axes := AxisTable.reset, drive := DriveLink.reset,
    image := ImageUnit.reset, trip := TripUnit.reset, screen := ScreenUnit.reset,
    station := StationCtl.reset }

/-- The station tag: the low 16 bits of the factory serial number (Terms, "station tag"). -/
def State.tag (s : State) : BitVec 16 := s.serial.setWidth 16

end Sys2Proof.Machine
end

