-- ==== Sys2Proof/Machine/Operands.lean ====
section
/-! DEFINITION. Reading and writing bytes: check values (R14, 1.7), the frame header, the C, T and K bodies
with the form check of R15, and the two drive records. -/

namespace Sys2Proof.Machine

/-! ## Numbers in bytes -/

/-- Byte `i` of a list as a number, 0 past its end. -/
def byteAt (b : List Byte) (i : Nat) : Nat := (b.getD i 0).toNat

/-- The number in `n` bytes from byte `i`, most significant first (1.7). -/
def numAt (b : List Byte) (i : Nat) : Nat → Nat
  | 0 => 0
  | n + 1 => numAt b i n * 256 + byteAt b (i + n)

/-- A number in `n` bytes, most significant first (1.7). -/
def beBytes (v : Nat) : Nat → List Byte
  | 0 => []
  | n + 1 => beBytes (v / 256) n ++ [BitVec.ofNat 8 v]

/-- A number below 2^n read as signed in n bits (Conventions, "Arithmetic"). -/
def signedOf (n v : Nat) : Int := (BitVec.ofNat n v).toInt

/-- A difference read as signed in [−2^(n−1), 2^(n−1)) (Conventions, "Arithmetic"). -/
def wrapSigned (n : Nat) (x : Int) : Int := (BitVec.ofInt n x).toInt

/-- Limit a number to a range. -/
def clampInt (lo hi x : Int) : Int := if x < lo then lo else if hi < x then hi else x

/-! ## Check values -/

/-- One bit of the CRC-32 register (R14). -/
def crc32Bit (r : BitVec 32) : BitVec 32 :=
  if r.msb then (r <<< 1) ^^^ 0x04C11DB7#32 else r <<< 1

/-- Eight steps of a bit function. -/
def eightTimes {n : Nat} (f : BitVec n → BitVec n) (r : BitVec n) : BitVec n :=
  f (f (f (f (f (f (f (f r)))))))

/-- One byte into the CRC-32 register, most significant bit first (R14). -/
def crc32Byte (r : BitVec 32) (b : Byte) : BitVec 32 :=
  eightTimes crc32Bit (r ^^^ (b.setWidth 32 <<< 24))

/-- The check value over header and body bytes (R14). -/
def crc32 (bytes : List Byte) : BitVec 32 := ~~~ (bytes.foldl crc32Byte (BitVec.allOnes 32))

/-- One bit of the CRC-8 register (1.7, drive records). -/
def crc8Bit (r : BitVec 8) : BitVec 8 := if r.msb then (r <<< 1) ^^^ 0x07#8 else r <<< 1

/-- The CRC-8 of a drive record (1.7). -/
def crc8 (bytes : List Byte) : BitVec 8 :=
  bytes.foldl (fun r b => eightTimes crc8Bit (r ^^^ b)) 0

/-! ## The frame header -/

/-- The class of a class byte (1.7). -/
def classOfCode : Nat → FrameClass
  | 1 => .t
  | 2 => .c
  | 3 => .k
  | 4 => .i
  | 5 => .s
  | 6 => .m
  | n => .bad n

/-- The class byte of a class (1.7). -/
def classCode : FrameClass → Nat
  | .t => 1
  | .c => 2
  | .k => 3
  | .i => 4
  | .s => 5
  | .m => 6
  | .bad n => n

/-- The header fields in 16 header bytes (1.7). -/
def readHeader (b : List Byte) : Header :=
  { cls := classOfCode (byteAt b 0), stream := byteAt b 1, dest := byteAt b 2 % 64,
    src := byteAt b 3 % 64, tag := BitVec.ofNat 16 (numAt b 4 2),
    seq := BitVec.ofNat 16 (numAt b 6 2), hop := byteAt b 8 % 128, age := numAt b 9 3,
    len := numAt b 12 2 }

/-- Whether the header bits shown as zero in 1.7 are zero (R15). -/
def headerZeros (b : List Byte) : Bool :=
  byteAt b 2 < 64 && byteAt b 3 < 64 && byteAt b 8 < 128 && byteAt b 14 == 0 && byteAt b 15 == 0

/-- The 16 bytes of a header (1.7). -/
def headerBytes (h : Header) : List Byte :=
  beBytes (classCode h.cls) 1 ++ beBytes h.stream 1 ++ beBytes h.dest 1 ++ beBytes h.src 1 ++
  beBytes h.tag.toNat 2 ++ beBytes h.seq.toNat 2 ++ beBytes h.hop 1 ++ beBytes h.age 3 ++
  beBytes h.len 2 ++ beBytes 0 2

/-! ## C, T and K bodies -/

/-- The master state of its code (1.7, C body byte 14). -/
def masterOfCode : Nat → Option MasterState
  | 0 => some .stopped
  | 1 => some .ramping
  | 2 => some .running
  | 3 => some .stopping
  | _ => none

/-- The code of a master state (1.7). -/
def masterCode : MasterState → Nat
  | .stopped => 0
  | .ramping => 1
  | .running => 2
  | .stopping => 3

/-- A C body, if its length, ranges and zero bits are those of R8 and 1.7. -/
def readCycle (b : List Byte) : Option CycleBody :=
  match masterOfCode (byteAt b 14), Level.ofNat? (byteAt b 15) with
  | some st, some lv =>
    let speed := numAt b 6 4
    let period := numAt b 10 2
    let offset := numAt b 12 2
    if b.length = 16 ∧ numAt b 2 4 < 2 ^ 28 ∧ speed ≤ 8388607 ∧ 250 ≤ period ∧ period ≤ 4000 ∧
        20 ≤ offset ∧ offset + 20 ≤ period then
      some { num := BitVec.ofNat 16 (numAt b 0 2), pos := BitVec.ofNat 28 (numAt b 2 4),
             speed := speed, period := period, offset := offset, state := st, level := lv }
    else none
  | _, _ => none

/-- The 16 bytes of a C body (1.7). -/
def cycleBytes (c : CycleBody) : List Byte :=
  beBytes c.num.toNat 2 ++ beBytes c.pos.toNat 4 ++ beBytes c.speed 4 ++ beBytes c.period 2 ++
  beBytes c.offset 2 ++ beBytes (masterCode c.state) 1 ++ beBytes c.level.rank 1

/-- A T body, if its length and ranges are those of R9 and 1.7. -/
def readTrip (b : List Byte) : Option TripBody :=
  match Level.ofNat? (byteAt b 0) with
  | some lv =>
    if b.length = 4 ∧ byteAt b 2 ≤ 63 ∧ byteAt b 3 ≤ 1 then
      some { level := lv, code := byteAt b 1, count := byteAt b 2, refresh := byteAt b 3 == 1 }
    else none
  | none => none

/-- The 4 bytes of a T body (1.7). -/
def tripBytes (t : TripBody) : List Byte :=
  beBytes t.level.rank 1 ++ beBytes t.code 1 ++ beBytes t.count 1 ++
  beBytes (if t.refresh then 1 else 0) 1

/-- One record of a K body from its 4 bytes, if its zero bits and amount are those of R10 and 1.7. -/
def readCorrRec (b : List Byte) : Option CorrRec :=
  let first := byteAt b 0
  let amount := signedOf 16 (numAt b 1 2)
  if first / 4 % 4 = 0 ∧ byteAt b 3 = 0 ∧ amount ≠ -32768 then
    some { axis := Fin.ofNat 4 (first % 4), amount := amount, window := first / 16 }
  else none

/-- `n` records of a K body, if all are right and no byte is left (R10). -/
def readCorrRecs : Nat → List Byte → Option (List CorrRec)
  | 0, b => if b.isEmpty then some [] else none
  | n + 1, b =>
    if b.length < 4 then none
    else
      match readCorrRec (b.take 4), readCorrRecs n (b.drop 4) with
      | some r, some rs => some (r :: rs)
      | _, _ => none

/-- A K body, if its length, record count, ranges and zero bits are those of R10 and 1.7. -/
def readCorr (b : List Byte) : Option CorrBody :=
  let n := byteAt b 2
  if b.length = 4 + 4 * n ∧ 1 ≤ n ∧ n ≤ 16 ∧ byteAt b 3 = 0 then
    match readCorrRecs n (b.drop 4) with
    | some rs => some { repeatNo := BitVec.ofNat 16 (numAt b 0 2), records := rs }
    | none => none
  else none

/-- The bytes of one record of a K body (1.7). -/
def corrRecBytes (r : CorrRec) : List Byte :=
  beBytes (r.window * 16 + r.axis.val) 1 ++ beBytes (BitVec.ofInt 16 r.amount).toNat 2 ++ beBytes 0 1

/-- The bytes of a K body (1.7). -/
def corrBytes (c : CorrBody) : List Byte :=
  beBytes c.repeatNo.toNat 2 ++ beBytes c.records.length 1 ++ beBytes 0 1 ++
  c.records.flatMap corrRecBytes

/-! ## Reception -/

/-- Whether a frame with a good check value passes the form check (R15). -/
def formOk (header body : List Byte) : Bool :=
  let h := readHeader header
  headerZeros header && h.len == body.length && decide (h.len ≤ 1024) &&
  decide (1 ≤ h.src) && decide (h.src ≤ 62) &&
  match h.cls with
  | .bad _ => false
  | .c => (readCycle body).isSome
  | .t => (readTrip body).isSome
  | .k => (readCorr body).isSome
  | .i | .s | .m => true

/-- The verdict a port reaches on the bytes between the delimiters (R13 to R15). -/
inductive Verdict where
  | good | crcBad | formatBad
  deriving DecidableEq, Repr

/-- The verdict on a frame closed by an end delimiter: too short (R13), then check value (R14), then
form (R15). -/
def judgeFrame (bytes : List Byte) : Verdict :=
  if bytes.length < 20 then .formatBad
  else
    let content := bytes.take (bytes.length - 4)
    if (crc32 content).toNat = numAt bytes (bytes.length - 4) 4 then
      if formOk (content.take 16) (content.drop 16) then .good else .formatBad
    else .crcBad

/-- The body of a frame of a class from its bytes and what an I, S or M body reads as. The first byte of
an S body tells TILES from REPAINT (R28). -/
def bodyOf (cls : FrameClass) (b : List Byte) (reading : Body) : Body :=
  match cls, reading with
  | .i, .image segs tail => .image segs tail
  | .s, .tiles st rs => if byteAt b 0 = 1 ∧ b ≠ [] then .tiles st rs else .bytes b
  | .s, .repaint st all sp => if byteAt b 0 = 2 ∧ b ≠ [] then .repaint st all sp else .bytes b
  | .m, .mgmt m => .mgmt m
  | _, _ => .bytes b

/-- The bytes a frame keeps beside its body: none where the body is bytes already. -/
def keptBytes (body : Body) (b : List Byte) : Option (List Byte) :=
  match body with
  | .bytes _ => none
  | _ => some b

/-- The frame in the bytes of a good frame. -/
def readFrame (bytes : List Byte) (reading : Body) : Frame :=
  let content := bytes.take (bytes.length - 4)
  let h := readHeader (content.take 16)
  let body := bodyOf h.cls (content.drop 16) reading
  { hdr := h, body := body, wire := keptBytes body (content.drop 16) }

/-- Whether an S body is a REPAINT notice (R28). -/
def isRepaint : Body → Bool
  | .repaint _ _ _ => true
  | .bytes b => !b.isEmpty && byteAt b 0 == 2
  | _ => false

/-- The management header of an M body; a body too short to hold one has a kind that is neither COMMAND
nor RESPONSE, and its code and host tag are free values (assumption log 6). -/
def mgmtOf : Body → MgmtBody
  | .mgmt m => m
  | .bytes b =>
    { kind := .other, cmd := .unknown (Config.unreadCode b), hostTag := Config.unreadTag b,
      status := .ok, force := false, overflow := false, count := 0, lengthOk := false,
      data := .none }
  | _ =>
    { kind := .other, cmd := .unknown (Config.unreadCode []), hostTag := Config.unreadTag [],
      status := .ok, force := false, overflow := false, count := 0, lengthOk := false,
      data := .none }

/-- The bytes a body that this station built is sent as; those of I, S and M bodies are a free value
(assumption log 3). -/
def wireBody : Body → List Byte
  | .bytes b => b
  | b => Config.wireLayout b

/-- The body bytes a frame is sent with: those it came with, or those of the body built here (R2, R14). -/
def sentBytes (f : Frame) : List Byte := f.wire.getD (wireBody f.body)

/-- The check value a port sends with a frame (R14). -/
def checkOf (f : Frame) : BitVec 32 := crc32 (headerBytes f.hdr ++ sentBytes f)

/-! ## Drive records -/

/-- The 12 bytes of a command record (1.7). -/
def commandRecord (setpoint : BitVec 32) (enable : Bool) (level : Level) (seq : BitVec 4) :
    List Byte :=
  let head := beBytes setpoint.toNat 4 ++
    beBytes ((if enable then 16 else 0) + level.rank) 1 ++ beBytes seq.toNat 1 ++ beBytes 0 5
  head ++ [crc8 head]

/-- The fields of a status record (1.7). -/
def readStatus (b : List Byte) : DriveStatus :=
  let flags := byteAt b 4
  { actual := BitVec.ofNat 32 (numAt b 0 4), ready := flags % 2 == 1,
    fault := flags / 2 % 2 == 1, enabled := flags / 4 % 2 == 1, warn := flags / 8 % 2 == 1,
    faultCode := BitVec.ofNat 16 (numAt b 6 2) }

/-- The outcome of an exchange that ran to its end (R116). -/
def judgeStatus (seq : BitVec 4) (b : List Byte) : DriveOutcome :=
  if (crc8 (b.take 11)).toNat ≠ byteAt b 11 then .crcBad
  else if byteAt b 5 % 16 ≠ seq.toNat then .seqBad
  else .good

end Sys2Proof.Machine
end

