-- ==== Sys2Proof/Machine/Flags.lean ====
section
/-! DEFINITION. The fault tree and the levels as plain functions (R149 to R155). -/

namespace Sys2Proof.Machine

/-- The entry of a fault in the tree. -/
def treeGet (tree : List FaultEntry) (f : FaultId) : FaultEntry :=
  (tree.find? fun e => e.id == f).getD (freshFault f)

/-- Change the entry of a fault in the tree. -/
def treeUpdate (tree : List FaultEntry) (f : FaultId) (g : FaultEntry → FaultEntry) :
    List FaultEntry :=
  tree.map fun e => if e.id == f then g e else e

/-- The level a latched fault has: its FAULT CONFIG level, or the latched level of HOST_TRIP (R151). A READ
returns it for every code; that HOST_TRIP while not latched has level CLEAR there is the model's choice
(R167; assumption log 46). -/
def entryLevel (hostLevel : Option Level) (e : FaultEntry) : Level :=
  if e.id = .hostTrip then hostLevel.getD .clear else e.level

/-- Whether group `g` is masked (R152). -/
def groupMasked (masks : List Bool) (g : Nat) : Bool := masks.getD (g - 1) false

/-- Whether a fault counts (R154). -/
def faultCounts (masks : List Bool) (hostLevel : Option Level) (e : FaultEntry) : Bool :=
  e.latched && (!groupMasked masks (faultGroup e.id) || entryLevel hostLevel e == .driveOff)

/-- Whether a remote entry counts (R155). -/
def remoteCounts (masks : List Bool) (e : RemoteEntry) : Bool :=
  !groupMasked masks 7 || e.level == .driveOff

/-- The greatest of a list of levels, CLEAR when there are none. -/
def maxLevel (ls : List Level) : Level := ls.foldr Level.sup .clear

/-- The code of the first fault that has level `l`, 0 when there is none; the tree is in code order, so
it is the lowest code (R154). -/
def firstCode (hostLevel : Option Level) (l : Level) (es : List FaultEntry) : Nat :=
  match es.find? fun e => entryLevel hostLevel e == l with
  | some e => faultCode e.id
  | none => 0

/-- The levels, the published fault and the summary (R154, R155). -/
def computeLevels (tree : List FaultEntry) (hostLevel : Option Level) (masks : List Bool)
    (remote : List RemoteEntry) : Levels :=
  let counted := tree.filter (faultCounts masks hostLevel)
  let published := counted.filter (·.publish)
  let counting := remote.filter (remoteCounts masks)
  let loc := maxLevel (counted.map (entryLevel hostLevel))
  let pub := maxLevel (published.map (entryLevel hostLevel))
  let rem := maxLevel (counting.map (·.level))
  { loc := loc, pub := pub, rem := rem, eff := loc.sup rem,
    pubCode := firstCode hostLevel pub published, pubCount := published.length,
    summary := [1, 2, 3, 4, 5, 6].map (fun g => counted.any fun e => faultGroup e.id == g) ++
      [!counting.isEmpty] }

/-- The levels of a Trip Unit's own tables. -/
def TripUnit.compute (t : TripUnit) : Levels :=
  computeLevels t.tree t.hostLevel t.masks t.remote

/-- Latch a fault (R150). -/
def TripUnit.latch (t : TripUnit) (f : FaultId) : TripUnit :=
  { t with tree := treeUpdate t.tree f fun e => { e with latched := true } }

/-- Set the condition of a persistent fault (R150). -/
def TripUnit.setCond (t : TripUnit) (f : FaultId) (b : Bool) : TripUnit :=
  { t with tree := treeUpdate t.tree f fun e => { e with cond := b } }

/-- Whether a fault is latched. -/
def TripUnit.isLatched (t : TripUnit) (f : FaultId) : Bool := (treeGet t.tree f).latched

/-- Whether a persistent fault's condition is present. -/
def TripUnit.isPresent (t : TripUnit) (f : FaultId) : Bool := (treeGet t.tree f).cond

/-- A latched fault after CLEAR FAULTS of its group: kept only while its condition is present (R159). -/
def clearEntry (groups : List Nat) (e : FaultEntry) : FaultEntry :=
  if groups.contains (faultGroup e.id) && !(faultPersistent e.id && e.cond) then
    { e with latched := false }
  else e

/-- The remote trip table with one source's entry put in its place (R163: in order of source). -/
def remoteInsert (r : RemoteEntry) : List RemoteEntry → List RemoteEntry
  | [] => [r]
  | e :: es =>
    if r.source < e.source then r :: e :: es
    else if r.source = e.source then r :: es
    else e :: remoteInsert r es

/-- The entry of a source in the remote trip table. -/
def remoteFind (rs : List RemoteEntry) (source : Nat) : Option RemoteEntry :=
  rs.find? fun e => e.source == source

/-- The remote trip table without the entry of a source. -/
def remoteErase (rs : List RemoteEntry) (source : Nat) : List RemoteEntry :=
  rs.filter fun e => e.source != source

/-- Whether a remote entry has been silent for 4 × Rf (R164). -/
def remoteSilent (clock refresh : Nat) (e : RemoteEntry) : Bool :=
  decide (e.last + 4 * refresh * Config.msec ≤ clock)

end Sys2Proof.Machine
end

