-- ==== Sys2Proof/Machine/Ops.lean ====
section
/-! DEFINITION. The shared operations over the state: one setter per block, counters, the clock, the
queues of the Ring Switch, the forward output arbiter and the counter-path output (2.5 to 2.9, 3.3). -/

namespace Sys2Proof.Machine

/-! ## Blocks -/

/-- The port of an id. -/
def State.port (s : State) : PortId → Port
  | .a => s.portA
  | .b => s.portB

/-- Replace a port. -/
def State.setPort (s : State) (p : PortId) (x : Port) : State :=
  match p with
  | .a => { s with portA := x }
  | .b => { s with portB := x }

/-- Replace the Ring Switch. -/
def State.setSw (s : State) (x : Switch) : State := { s with sw := x }

/-- Replace the master generator. -/
def State.setGen (s : State) (x : Generator) : State := { s with gen := x }

/-- Replace the cycle context. -/
def State.setCtx (s : State) (x : CycleCtx) : State := { s with ctx := x }

/-- Replace the axis table. -/
def State.setAxes (s : State) (x : AxisTable) : State := { s with axes := x }

/-- Replace the Drive Link. -/
def State.setDrive (s : State) (x : DriveLink) : State := { s with drive := x }

/-- Replace the Image Unit. -/
def State.setImage (s : State) (x : ImageUnit) : State := { s with image := x }

/-- Replace the Trip Unit. -/
def State.setTrip (s : State) (x : TripUnit) : State := { s with trip := x }

/-- Replace the Screen Unit. -/
def State.setScreen (s : State) (x : ScreenUnit) : State := { s with screen := x }

/-- Replace Station Control. -/
def State.setStation (s : State) (x : StationCtl) : State := { s with station := x }

/-- Take a command at its moment: the clock moves to its time and never back, and the ready lines are
read (assumption log 1). -/
def State.tick (s : State) (m : Moment) : State :=
  { s with clock := max s.clock m.time, ready := m.ready }

/-- Count once, saturating at 65,535 (Conventions, "Counters"). -/
def bump (n : Nat) : Nat := min (n + 1) Config.counterMax

/-- Count `k` times. -/
def bumpBy (n k : Nat) : Nat := min (n + k) Config.counterMax

/-- Change a port's counters. -/
def State.countPort (s : State) (p : PortId) (f : PortCounters → PortCounters) : State :=
  s.setPort p { s.port p with ctr := f (s.port p).ctr }

/-- Change the Ring Switch's counters. -/
def State.countSw (s : State) (f : SwitchCounters → SwitchCounters) : State :=
  s.setSw { s.sw with ctr := f s.sw.ctr }

/-- Change the Motion Unit's counters. -/
def State.countMotion (s : State) (f : MotionCounters → MotionCounters) : State :=
  s.setAxes { s.axes with ctr := f s.axes.ctr }

/-- Change the Drive Link's counters. -/
def State.countDrive (s : State) (f : DriveCounters → DriveCounters) : State :=
  s.setDrive { s.drive with ctr := f s.drive.ctr }

/-- Change the Image Unit's counters. -/
def State.countImage (s : State) (f : ImageCounters → ImageCounters) : State :=
  s.setImage { s.image with ctr := f s.image.ctr }

/-- Change the Screen Unit's counters. -/
def State.countScreen (s : State) (f : ScreenCounters → ScreenCounters) : State :=
  s.setScreen { s.screen with ctr := f s.screen.ctr }

/-- Change Station Control's counters. -/
def State.countStation (s : State) (f : StationCounters → StationCounters) : State :=
  s.setStation { s.station with ctr := f s.station.ctr }

/-! ## Roles and ports -/

/-- The fill mode of a port: IDLE exactly when its side is USABLE (R3, R46). -/
def Port.fillMode (p : Port) : FillMode := if p.side = .usable then .idle else .brk

/-- The symbol a port sends as fill (R3). -/
def Port.fillSymbol (p : Port) : FillSymbol :=
  match p.fillMode, p.rx with
  | .idle, _ => .idle
  | .brk, .dark | .brk, .hunt => .brk
  | .brk, .brk | .brk, .sync => .breakHeard

/-- The ring role of two side states (R48). -/
def roleOf (a b : SideState) : RingRole :=
  if a = .usable then (if b = .usable then .through else .wrapB)
  else (if b = .usable then .wrapA else .isolated)

/-- The use of a receive side (R49). -/
def rxUse : RingRole → PortId → RxUse
  | .through, .a => .forwardInput
  | .through, .b => .counterInput
  | .wrapB, .a => .forwardInput
  | .wrapB, .b => .unused
  | .wrapA, .a => .unused
  | .wrapA, .b => .forwardInput
  | .isolated, _ => .unused

/-- The port whose transmit side is the forward output (R49). -/
def forwardOutput : RingRole → Option PortId
  | .through => some .b
  | .wrapB => some .a
  | .wrapA => some .b
  | .isolated => none

/-- The link delay of a port (R34). -/
def State.linkDelay (s : State) : PortId → Nat
  | .a => s.station.cfg.linkA
  | .b => s.station.cfg.linkB

/-! ## Queues -/

/-- Bytes a frame counts in the transit and repeat FIFOs (R39, R51). -/
def QItem.bytes (i : QItem) : Nat := 20 + i.frame.hdr.len

/-- Bytes counted in a FIFO. -/
def queueBytes (q : List QItem) : Nat := (q.map QItem.bytes).sum

/-- Whether the arbiter may pick an item (R42). -/
def QItem.eligible (i : QItem) : Bool :=
  match i.origin with
  | .reserved _ => i.ready
  | _ => true

/-- Whether an item is the reservation of the frame being received on a port. -/
def QItem.reservedFor (p : PortId) (i : QItem) : Bool := i.origin == .reserved p

/-- The local insert queue of a class (R40). -/
def Switch.localQ (w : Switch) : FrameClass → List QItem
  | .k => w.localK
  | .m => w.localM
  | .s => w.localS
  | .i => w.localI
  | _ => []

/-- Replace the local insert queue of a class. -/
def Switch.setLocalQ (w : Switch) (cls : FrameClass) (q : List QItem) : Switch :=
  match cls with
  | .k => { w with localK := q }
  | .m => { w with localM := q }
  | .s => { w with localS := q }
  | .i => { w with localI := q }
  | _ => w

/-- Count a frame that found its local insert queue full (R40, R44). -/
def dropLocal (cls : FrameClass) (n : SwitchCounters) : SwitchCounters :=
  match cls with
  | .k => { n with kDrop := bump n.kDrop }
  | .m => { n with mDrop := bump n.mDrop }
  | .s => { n with sDrop := bump n.sDrop }
  | .i => { n with imageDrop := bump n.imageDrop }
  | _ => n

/-- The head of a local queue while the transit FIFO is empty, K before M before S before I (R42). -/
def Switch.pickLocal (w : Switch) : Option (QItem × Switch) :=
  match w.localK, w.localM, w.localS, w.localI with
  | i :: q, _, _, _ => some (i, { w with localK := q })
  | [], i :: q, _, _ => some (i, { w with localM := q })
  | [], [], i :: q, _ => some (i, { w with localS := q })
  | [], [], [], i :: q => some (i, { w with localI := q })
  | [], [], [], [] => none

/-- The head of the transit FIFO if eligible; the local queues only while the FIFO is empty (R42). -/
def Switch.pickTransit (w : Switch) : Option (QItem × Switch) :=
  match w.transit with
  | i :: q => if i.eligible then some (i, { w with transit := q }) else none
  | [] => w.pickLocal

/-- The forward output arbiter's choice and the switch without the frame picked (R42). -/
def Switch.pick (w : Switch) : Option (QItem × Switch) :=
  match w.urgent with
  | i :: q => if i.eligible then some (i, { w with urgent := q }) else w.pickTransit
  | [] => w.pickTransit

/-- How many items the forward queues hold. -/
def Switch.forwardItems (w : Switch) : Nat :=
  w.urgent.length + w.transit.length + w.localK.length + w.localM.length + w.localS.length +
  w.localI.length

/-! ## Transmission -/

/-- Symbols of a frame from its start delimiter to its end delimiter (R2, R34). -/
def frameSymbols (h : Header) : Nat := 22 + h.len

/-- The header an item departs with on a port: its age, and its residence time measured at the end
delimiters (for a copy still being received, at the start delimiters), and the link delay (R34). -/
def departHeader (s : State) (p : PortId) (i : QItem) : Header :=
  let h := i.frame.hdr
  let residence :=
    match i.origin with
    | .reserved _ => s.clock - i.since
    | _ => s.clock + frameSymbols h - i.since
  { h with age := min (h.age + residence + s.linkDelay p) Config.ageMax }

/-- Record that the reservation of the frame being received on a port has been picked. -/
def markPicked (s : State) (i : QItem) : State :=
  match i.origin with
  | .reserved q =>
    match (s.port q).reception with
    | some r => s.setPort q { s.port q with reception := some { r with resv := .picked } }
    | none => s
  | _ => s

/-- Begin to send an item on a port, cut-through if it is a reservation (R2, R17, R42). -/
def startTx (s : State) (p : PortId) (i : QItem) : State :=
  let f : Frame := { i.frame with hdr := departHeader s p i }
  let copy : Option PortId := match i.origin with | .reserved q => some q | _ => none
  let s := markPicked s i
  s.setPort p { s.port p with
    tx := some { frame := f, copyOf := copy, endAt := s.clock + frameSymbols f.hdr,
                 aborted := false, check := if copy.isNone then some (checkOf f) else none } }

/-- In ISOLATED every frame picked is discarded at the output, and the arbiter chooses again at once
(R54). The number bounds the choices by the frames there are. -/
def drainIsolated : Nat → State → State
  | 0, s => s
  | n + 1, s =>
    match s.sw.pick with
    | some (i, w) =>
      let s := markPicked (s.setSw w) i
      drainIsolated n (s.countSw fun c => { c with isolatedDiscard := bump c.isolatedDiscard })
    | none => s

/-- The forward output's choice, made when the output is idle and its fill mode IDLE (R42, R43). -/
def arbitrateForward (s : State) : State :=
  match forwardOutput s.sw.role with
  | none => drainIsolated s.sw.forwardItems s
  | some p =>
    if (s.port p).tx = none ∧ (s.port p).fillMode = .idle then
      match s.sw.pick with
      | some (i, w) => startTx (s.setSw w) p i
      | none => s
    else s

/-- The counter-path output: the head of the repeat FIFO whenever it is idle and the head eligible
(R51). -/
def arbitrateCounter (s : State) : State :=
  if s.sw.role = .through ∧ s.portA.tx = none ∧ s.portA.fillMode = .idle then
    match s.sw.counter with
    | i :: q => if i.eligible then startTx (s.setSw { s.sw with counter := q }) .a i else s
    | [] => s
  else s

/-- Both outputs choose, each if it may. -/
def arbitrate (s : State) : State := arbitrateCounter (arbitrateForward s)

/-- End the frame being sent on a port with an abort mark, unless its end delimiter has gone out or it
was aborted already (R3, R17, R53). -/
def abortTx (s : State) (p : PortId) : State :=
  match (s.port p).tx with
  | some t =>
    if t.aborted ∨ (t.copyOf = none ∧ t.endAt ≤ s.clock) then s
    else
      (s.setPort p { s.port p with tx := some { t with aborted := true, copyOf := none } }).countPort
        p fun c => { c with abortsSent := bump c.abortsSent }
  | none => s

/-- Abort the copy of the frame being received on port `q`, if one is being sent on port `p`. -/
def abortCopyOn (s : State) (q p : PortId) : State :=
  match (s.port p).tx with
  | some t => if t.copyOf = some q then abortTx s p else s
  | none => s

/-- The frame being received on port `q` will not be sent on: its reservation is removed, or its copy
ended with an abort mark, and the outputs may choose (R36, R51, R52). -/
def settleDrop (s : State) (q : PortId) : State :=
  let w := s.sw
  let keep (l : List QItem) : List QItem := l.filter fun i => !i.reservedFor q
  let s := s.setSw { w with
    urgent := keep w.urgent, transit := keep w.transit, counter := keep w.counter }
  arbitrate (abortCopyOn (abortCopyOn s q .a) q .b)

/-- The reservation of port `q` becomes the frame's entry in place (R36, R51). -/
def confirmItem (q : PortId) (f : Frame) (now : Nat) (i : QItem) : QItem :=
  if i.reservedFor q then { frame := f, since := now, origin := .passing, ready := true } else i

/-- The copy of the frame of port `q` being sent on port `p` gets its body and runs to its end
delimiter (R17, R36). -/
def completeCopyOn (s : State) (q p : PortId) (f : Frame) : State :=
  match (s.port p).tx with
  | some t =>
    if t.copyOf = some q then
      let g : Frame := { f with hdr := t.frame.hdr }
      s.setPort p { s.port p with tx := some { t with
        frame := g, copyOf := none, check := some (checkOf g) } }
    else s
  | none => s

/-- A passing frame as an item of a queue. -/
def passingItem (f : Frame) (now : Nat) : QItem :=
  { frame := f, since := now, origin := .passing, ready := true }

/-- What the Ring Switch holds for the frame being received on a port. -/
def State.resvOf (s : State) (q : PortId) : Resv :=
  match (s.port q).reception with
  | some r => r.resv
  | none => .none

/-- Whether a class uses the urgent queue (R20). -/
def usesUrgent : FrameClass → Bool
  | .t | .c => true
  | _ => false

/-- Place a frame at the tail of the transit FIFO, or count TRANSIT_DROP (R27, R36, R39). -/
def placeTransit (s : State) (f : Frame) : State :=
  let i := passingItem f s.clock
  if queueBytes s.sw.transit + i.bytes ≤ Config.transitCap then
    arbitrate (s.setSw { s.sw with transit := s.sw.transit ++ [i] })
  else s.countSw fun c => { c with transitDrop := bump c.transitDrop }

/-- Place a frame at the tail of the counter-path repeat FIFO, or count REPEAT_DROP (R51). -/
def placeCounter (s : State) (f : Frame) : State :=
  let i := passingItem f s.clock
  if queueBytes s.sw.counter + i.bytes ≤ Config.repeatCap then
    arbitrate (s.setSw { s.sw with counter := s.sw.counter ++ [i] })
  else s.countSw fun c => { c with repeatDrop := bump c.repeatDrop }

/-- Settle a frame that is repeated on the counter path (R51). -/
def settleCounter (s : State) (q : PortId) (f : Frame) : State :=
  match s.resvOf q with
  | .held =>
    arbitrate (s.setSw { s.sw with counter := s.sw.counter.map (confirmItem q f s.clock) })
  | .picked => completeCopyOn (completeCopyOn s q .a f) q .b f
  | .none => placeCounter s f

/-! ## Originated frames -/

/-- The header of a frame this station originates now (R7, R40). -/
def State.ownHeader (s : State) (cls : FrameClass) (stream dest len : Nat) : Header :=
  { cls := cls, stream := stream, dest := dest, src := s.station.address, tag := s.tag,
    seq := s.station.seq, hop := 0, age := 0, len := len }

/-- Advance the sequence counter, wrapping from 65,535 to 0 (R7). -/
def State.nextSeq (s : State) : State := s.setStation { s.station with seq := s.station.seq + 1 }

/-- An originated frame as an item of a queue. -/
def ownItem (s : State) (cls : FrameClass) (stream dest len : Nat) (body : Body)
    (wire : Option (List Byte) := none) : QItem :=
  { frame := { hdr := s.ownHeader cls stream dest len, body := body, wire := wire }, since := s.clock,
    origin := .own, ready := true }

/-- Put an originated K, M, S or I frame in its local insert queue, or count its drop (R40). `wire` are the
body bytes the host offered, none for a body built here. -/
def insertLocal (s : State) (cls : FrameClass) (stream dest len : Nat) (body : Body)
    (wire : Option (List Byte) := none) : State :=
  if (s.sw.localQ cls).length < Config.localCap then
    let i := ownItem s cls stream dest len body wire
    arbitrate (s.setSw (s.sw.setLocalQ cls (s.sw.localQ cls ++ [i]))).nextSeq
  else s.countSw (dropLocal cls)

/-- Count a T or C frame that found the urgent queue full (R37). -/
def countUrgentDrop (s : State) : State :=
  s.countSw fun c => { c with urgentDrop := bump c.urgentDrop }

/-- Whether an item is a locally originated C frame (R38). -/
def QItem.isLocalC (i : QItem) : Bool := i.origin == .own && i.frame.hdr.cls == .c

/-- Put a new item in the place of the waiting local C frame (R38). -/
def replaceLocalC (new : QItem) (q : List QItem) : List QItem :=
  q.map fun i => if i.isLocalC then new else i

/-- Queue a locally originated T frame; TRIP_SENT is counted when it enters the queue (R37, R161). The
Bool says whether the frame was dropped, which the caller reports as RING_CONGESTION. -/
def queueTrip (s : State) (stream : Nat) (t : TripBody) : State × Bool :=
  if s.sw.urgent.length < Config.urgentCap then
    let i := ownItem s .t stream 63 4 (.bytes (tripBytes t))
    let s := (s.setSw { s.sw with urgent := s.sw.urgent ++ [i] }).nextSeq
    let s := s.setTrip { s.trip with ctr := { s.trip.ctr with sent := bump s.trip.ctr.sent } }
    (arbitrate s, false)
  else (countUrgentDrop s, true)

/-- Queue a locally originated C frame: it replaces an unsent earlier one, or joins the tail, or is
dropped (R37, R38). The Bool says whether it was dropped. -/
def queueCycle (s : State) (stream : Nat) (c : CycleBody) : State × Bool :=
  let i := ownItem s .c stream 63 16 (.bytes (cycleBytes c))
  if s.sw.urgent.any QItem.isLocalC then
    let s := (s.setSw { s.sw with urgent := replaceLocalC i s.sw.urgent }).nextSeq
    (arbitrate (s.countSw fun n => { n with cSuperseded := bump n.cSuperseded }), false)
  else if s.sw.urgent.length < Config.urgentCap then
    (arbitrate (s.setSw { s.sw with urgent := s.sw.urgent ++ [i] }).nextSeq, false)
  else (countUrgentDrop s, true)

/-- Put a frame in the frame port receive queue, or count PORT_DROP (R33). -/
def deliverPort (s : State) (f : Frame) : State :=
  if s.station.recvQ.length < Config.receiveCap then
    s.setStation { s.station with recvQ := s.station.recvQ ++ [(s.clock, f)] }
  else s.countStation fun c => { c with portDrop := bump c.portDrop }

end Sys2Proof.Machine
end

