-- ==== Sys2Proof/Machine/Panel.lean ====
section
/-! DEFINITION. The Screen Unit (chapter 9): the panel link arbiter, the banner job, tile routing, REPAINT
notices and the waterfall viewport. -/

namespace Sys2Proof.Machine

/-! ## Geometry -/

/-- Whether a row is a banner row (R169). -/
def bannerHas (p : PanelRecord) (row : Nat) : Bool :=
  decide (p.bannerRow ≤ row) && decide (row < p.bannerRow + p.bannerHeight)

/-- Whether a tile lies in the viewport while the viewport stream is present (R172). -/
def viewHas (p : PanelRecord) (col row : Nat) : Bool :=
  p.viewStream.isSome && decide (p.viewCol ≤ col) && decide (col < p.viewCol + p.viewWidth) &&
  decide (p.viewRow ≤ row) && decide (row < p.viewRow + p.viewHeight)

/-- Whether the banner is active: the effective level is 1 or higher (R177). -/
def State.bannerActive (s : State) : Bool := s.trip.levels.eff != .clear

/-- The background colour of a tile (R171). -/
def ScreenUnit.background (u : ScreenUnit) (col row : Nat) : Byte :=
  BitVec.ofNat 8 ((u.tiles.getD (row * u.panel.width + col) emptyTile).background)

/-- Change the tile map entry at an index. -/
def ScreenUnit.updateTile (u : ScreenUnit) (i : Nat) (g : TileEntry → TileEntry) : ScreenUnit :=
  { u with tiles := u.tiles.modify i g }

/-- Change every tile map entry, given its row. -/
def ScreenUnit.mapTiles (u : ScreenUnit) (g : Nat → TileEntry → TileEntry) : ScreenUnit :=
  { u with tiles := u.tiles.mapIdx fun i e => g (i / u.panel.width) e }

/-- Mark a tile stale if its tile map source is a stream (R170, R177). -/
def markStreamStale (e : TileEntry) : TileEntry :=
  match e.source with
  | .stream _ => { e with stale := true }
  | .none => e

/-- Whether a tile counts in a stream's stale count (R171). -/
def staleFor (stream : Nat) (e : TileEntry) : Bool := e.source == .stream stream && e.stale

/-- The stale count of a stream (R171). -/
def ScreenUnit.staleCount (u : ScreenUnit) (stream : Nat) : Nat := u.tiles.countP (staleFor stream)

/-! ## The banner job and the panel link -/

/-- How many tile writes a pass makes (R176). -/
def passTiles (p : PanelRecord) : BannerJob → Nat
  | .idle => 0
  | .draw _ _ | .restore _ => p.bannerHeight * p.width
  | .clear _ => p.height * p.width

/-- The next tile of a pass. -/
def passPos : BannerJob → Nat
  | .idle => 0
  | .draw _ n | .restore n | .clear n => n

/-- A pass moved on by one tile. -/
def passNext : BannerJob → BannerJob
  | .idle => .idle
  | .draw l n => .draw l (n + 1)
  | .restore n => .restore (n + 1)
  | .clear n => .clear (n + 1)

/-- The first banner store entry of a level's strip (R176). -/
def stripBase : Level → Nat
  | .clear | .notice => 0
  | .rampStop => 16
  | .driveOff => 32

/-- The strip tile of banner row `i` and column `c` (R176). -/
def stripTile (bannerHeight i c : Nat) : Nat :=
  if bannerHeight = 1 then c % 16 else 8 * i + c % 8

/-- The tile write a pass makes at its position (R176). -/
def passWrite (u : ScreenUnit) : LinkWrite :=
  let n := passPos u.job
  let c := n % u.panel.width
  let i := n / u.panel.width
  match u.job with
  | .draw l _ =>
    { col := c, row := u.panel.bannerRow + i,
      content := .pixels (u.store.getD (stripBase l + stripTile u.panel.bannerHeight i c) []) }
  | .restore _ =>
    { col := c, row := u.panel.bannerRow + i,
      content := .fill (u.background c (u.panel.bannerRow + i)) }
  | .clear _ | .idle => { col := c, row := i, content := .fill (u.background c i) }

/-- The panel link's choice: the next tile of the pass in progress, else the head of the panel queue
(R175). While a pass waits for its last tile write to complete, the link is busy. That a pass's position
moves on when the link takes a tile, and not at the tile's completion, is the model's choice (R176;
assumption log 51). -/
def ScreenUnit.arbitrate (u : ScreenUnit) : ScreenUnit :=
  if u.link.isSome then u
  else if passPos u.job < passTiles u.panel u.job then
    { u with link := some (passWrite u), job := passNext u.job }
  else
    match u.queue with
    | w :: q =>
      { u with link := some { col := w.col, row := w.row, content := w.content }, queue := q }
    | [] => u

/-- Start a pass; a pass with no tiles ends as it starts (R176). -/
def ScreenUnit.startPass (u : ScreenUnit) (j : BannerJob) : ScreenUnit :=
  { u with job := if passTiles u.panel j = 0 then .idle else j }

/-- The end of a pass: a CLEAR pass that ends while the banner is active is followed by a DRAW pass for
the level in force (R176). -/
def ScreenUnit.finishPass (u : ScreenUnit) (eff : Level) : ScreenUnit :=
  match u.job with
  | .clear _ => if eff = .clear then { u with job := .idle } else u.startPass (.draw eff 0)
  | _ => { u with job := .idle }

/-- A tile write has completed: a pass ends with its last tile write (R176), and the link chooses again
(R175). -/
def ScreenUnit.completeWrite (u : ScreenUnit) (eff : Level) : ScreenUnit :=
  let v := { u with link := none }
  let v :=
    if v.job ≠ .idle ∧ passTiles v.panel v.job ≤ passPos v.job then v.finishPass eff else v
  v.arbitrate

/-- Put a write at the tail of the panel queue; an idle link takes it (R174, R175). -/
def ScreenUnit.enqueue (u : ScreenUnit) (w : TileWrite) : ScreenUnit :=
  ({ u with queue := u.queue ++ [w] } : ScreenUnit).arbitrate

/-! ## REPAINT notices -/

/-- The runs of `true` in a row from column `col`, each as its first column and its count; `run` is the
run under way. -/
def runsFrom (col : Nat) (run : Option (Nat × Nat)) : List Bool → List (Nat × Nat)
  | [] => run.toList
  | true :: bs =>
    match run with
    | some (c, n) => runsFrom (col + 1) (some (c, n + 1)) bs
    | none => runsFrom (col + 1) (some (col, 1)) bs
  | false :: bs => run.toList ++ runsFrom (col + 1) none bs

/-- The stale spans of a stream, in row order and then column order (R178). -/
def ScreenUnit.staleSpans (u : ScreenUnit) (stream : Nat) : List Span :=
  (List.range u.panel.height).flatMap fun row =>
    let tiles := (u.tiles.drop (row * u.panel.width)).take u.panel.width
    (runsFrom 0 none (tiles.map (staleFor stream))).map fun r =>
      { row := row, col := r.1, count := r.2 }

/-- The body of a REPAINT notice: more than 64 spans become ALL (R178). -/
def ScreenUnit.repaintBody (u : ScreenUnit) (stream : Nat) : Body :=
  let spans := u.staleSpans stream
  if 64 < spans.length then .repaint stream true [] else .repaint stream false spans

/-- The length of a REPAINT body: the 4-byte body header and 3 bytes a span (R11; assumption log 7). -/
def repaintLen : Body → Nat
  | .repaint _ _ spans => 4 + 3 * spans.length
  | _ => 4

/-- Send the notice of one stream, if it has stale tiles (R178). -/
def sendNotice (s : State) (e : ScreenStream) : State :=
  if s.screen.staleCount e.stream = 0 then s
  else
    let body := s.screen.repaintBody e.stream
    insertLocal s .s e.stream e.owner (repaintLen body) body

/-- Send a REPAINT notice for every stream with stale tiles, none while the address is 0 (R178). -/
def sendNotices (s : State) : State :=
  if s.station.address = 0 then s else s.screen.streams.foldl sendNotice s

/-! ## Level changes -/

/-- The tile map after the writes of a list were removed: the tiles of stream writes are stale
(R177). -/
def ScreenUnit.markRemoved (u : ScreenUnit) (removed : List TileWrite) : ScreenUnit :=
  removed.foldl
    (fun v w =>
      if w.stream.isSome then
        v.updateTile (w.row * u.panel.width + w.col) fun e => { e with stale := true }
      else v) u

/-- Start a pass unless a CLEAR pass is in progress (R177). -/
def ScreenUnit.startUnlessClear (u : ScreenUnit) (j : BannerJob) : ScreenUnit :=
  match u.job with
  | .clear _ => u
  | _ => u.startPass j

/-- The banner becomes active: banner-row writes leave the queue, and a DRAW pass starts (R177). -/
def ScreenUnit.raiseBanner (u : ScreenUnit) (new : Level) : ScreenUnit :=
  let onBanner (w : TileWrite) : Bool := bannerHas u.panel w.row
  let v := ({ u with queue := u.queue.filter fun w => !onBanner w } : ScreenUnit).markRemoved
    (u.queue.filter onBanner)
  (v.startUnlessClear (.draw new 0)).arbitrate

/-- The banner is withdrawn: its stream tiles are stale, and a RESTORE pass starts (R177). -/
def ScreenUnit.withdrawBanner (u : ScreenUnit) : ScreenUnit :=
  let v := u.mapTiles fun row e => if bannerHas u.panel row then markStreamStale e else e
  (v.startUnlessClear (.restore 0)).arbitrate

/-- The Screen Unit takes a change of the effective level (R177). -/
def screenLevel (old new : Level) (s : State) : State :=
  if old = new then s
  else if old = .clear then s.setScreen (s.screen.raiseBanner new)
  else if new = .clear then sendNotices (s.setScreen s.screen.withdrawBanner)
  else s.setScreen (s.screen.startUnlessClear (.draw new 0)).arbitrate

/-! ## Tile routing -/

/-- Whether some tile map entry names a stream (R171). -/
def ScreenUnit.names (u : ScreenUnit) (stream : Nat) : Bool :=
  u.tiles.any fun e => e.source == .stream stream

/-- Whether the screen stream table has an entry for a stream. -/
def ScreenUnit.hasStream (u : ScreenUnit) (stream : Nat) : Bool :=
  u.streams.any fun e => e.stream == stream

/-- The screen stream table at the delivery of a TILES frame: the entry is created where it may be, and
its owner is the frame's source (R171). -/
def ScreenUnit.takeStream (u : ScreenUnit) (stream owner : Nat) : ScreenUnit :=
  if u.hasStream stream then
    { u with streams := u.streams.map fun e =>
        if e.stream = stream then { e with owner := owner } else e }
  else if u.names stream ∧ u.streams.length < Config.streamCap then
    { u with streams := u.streams ++ [{ stream := stream, owner := owner }] }
  else u

/-- Mark a tile stale in place of queueing its write (R173). -/
def ScreenUnit.staleTile (u : ScreenUnit) (i : Nat) : ScreenUnit :=
  let v := u.updateTile i fun e => { e with stale := true }
  { v with ctr := { v.ctr with tileStale := bump v.ctr.tileStale } }

/-- Route one tile record of a stream (R173). -/
def routeTile (active : Bool) (stream : Nat) (u : ScreenUnit) (r : TileRec) : ScreenUnit :=
  let i := r.row * u.panel.width + r.col
  if u.panel.width ≤ r.col ∨ u.panel.height ≤ r.row then
    { u with ctr := { u.ctr with badTile := bump u.ctr.badTile } }
  else if viewHas u.panel r.col r.row ∨
      (u.tiles.getD i emptyTile).source ≠ .stream stream ∨ !u.hasStream stream then
    { u with ctr := { u.ctr with unrouted := bump u.ctr.unrouted } }
  else if active ∧ bannerHas u.panel r.row then u.staleTile i
  else if Config.panelCap ≤ u.queue.length then u.staleTile i
  else
    match r.content with
    | some c =>
      (u.updateTile i fun e => { e with stale := false }).enqueue
        { stream := some stream, col := r.col, row := r.row, content := c }
    | none => u

/-- The bytes a tile record takes (R11). -/
def tileRecLen (r : TileRec) : Nat :=
  match r.content with
  | some (.pixels _) => 260
  | _ => 4

/-- Whether a TILES list of a body of `len` bytes passes the checks of R173. -/
def tilesOk (len : Nat) (rs : List TileRec) : Bool :=
  decide (1 ≤ rs.length) && decide (rs.length ≤ 64) && rs.all (fun r => r.content.isSome) &&
  len == 4 + (rs.map tileRecLen).sum

/-- Count a malformed S body or I segment (R173, R179). -/
def ScreenUnit.badFormat (u : ScreenUnit) : ScreenUnit :=
  { u with ctr := { u.ctr with format := bump u.ctr.format } }

/-- An S frame delivered to the Screen Unit (R173). -/
def deliverScreen (s : State) (f : Frame) : State :=
  match f.body with
  | .tiles stream rs =>
    if tilesOk f.hdr.len rs then
      s.setScreen (rs.foldl (routeTile s.bannerActive stream)
        (s.screen.takeStream stream f.hdr.src))
    else s.setScreen s.screen.badFormat
  | b => if isRepaint b then s else s.setScreen s.screen.badFormat

/-! ## The viewport -/

/-- A view write: lost on the banner rows while the banner is active, and counted when the queue is full
(R174, R181). -/
def ScreenUnit.viewWrite (u : ScreenUnit) (active : Bool) (col row : Nat) (c : TileContent) :
    ScreenUnit :=
  if active ∧ bannerHas u.panel row then u
  else if Config.panelCap ≤ u.queue.length then
    { u with ctr := { u.ctr with viewDrop := bump u.ctr.viewDrop } }
  else u.enqueue { stream := none, col := col, row := row, content := c }

/-- The next viewport row, with an empty buffer (R181). -/
def ScreenUnit.nextRow (u : ScreenUnit) : ScreenUnit :=
  { u with view := { u.view with buffer := [], row := (u.view.row + 1) % u.panel.viewHeight } }

/-- Emit a row of tiles whose contents are given by tile number (R181). -/
def ScreenUnit.emitTiles (u : ScreenUnit) (active : Bool) (content : Nat → TileContent) :
    ScreenUnit :=
  ((List.range u.panel.viewWidth).foldl
    (fun v t => v.viewWrite active (u.panel.viewCol + t) (u.panel.viewRow + u.view.row) (content t))
    u).nextRow

/-- Emit the row buffer as PIXELS writes (R181). That a tile's 256 pixels stand line by line, the first buffered
line first, each from left to right, is the model's choice (assumption log 66). -/
def ScreenUnit.emitRow (u : ScreenUnit) (active : Bool) : ScreenUnit :=
  u.emitTiles active fun t => .pixels (u.view.buffer.flatMap fun l => (l.drop (16 * t)).take 16)

/-- The gap colour. -/
def ScreenUnit.gap (u : ScreenUnit) : Byte := BitVec.ofNat 8 u.panel.gapColour

/-- A line entirely in the gap colour (R179, R180). -/
def ScreenUnit.gapLine (u : ScreenUnit) : List Byte := List.replicate (u.panel.viewWidth * 16) u.gap

/-- Emit a row entirely in the gap colour as FILL writes (R180). -/
def ScreenUnit.emitGapRow (u : ScreenUnit) (active : Bool) : ScreenUnit :=
  u.emitTiles active fun _ => .fill u.gap

/-- A completed line joins the buffer, and 16 lines emit the row (R180). -/
def ScreenUnit.addLine (u : ScreenUnit) (active : Bool) (l : List Byte) : ScreenUnit :=
  let v := { u with view := { u.view with buffer := u.view.buffer ++ [l] } }
  if v.view.buffer.length = 16 then v.emitRow active else v

/-- Add `n` lines in the gap colour one at a time (R180). -/
def ScreenUnit.addGapLines (active : Bool) : Nat → ScreenUnit → ScreenUnit
  | 0, u => u
  | n + 1, u => addGapLines active n (u.addLine active u.gapLine)

/-- The pixels of a line at its completion: from the line width on, the background of the viewport tile
each falls in (R180). -/
def ScreenUnit.finishPixels (u : ScreenUnit) (l : ViewLine) : List Byte :=
  let n := u.panel.viewWidth * 16
  l.pixels.take l.width ++
    (List.range' l.width (n - l.width)).map fun x =>
      u.background (u.panel.viewCol + x / 16) (u.panel.viewRow + u.view.row)

/-- Complete the current line if it is open (R180). -/
def ScreenUnit.completeLine (u : ScreenUnit) (active : Bool) : ScreenUnit :=
  match u.view.current with
  | some l =>
    if l.isOpen then
      let v := u.addLine active (u.finishPixels l)
      { v with view := { v.view with current := some { l with isOpen := false } } }
    else u
  | none => u

/-- The pixels of a line with a segment placed in it (R179). -/
def placePixels (line : List Byte) (g : Segment) : List Byte :=
  (line.take g.offset ++ g.pixels.take (line.length - g.offset) ++
    line.drop (g.offset + g.count)).take line.length

/-- Place a segment in a line, and complete the line if it was its last (R179). -/
def ScreenUnit.placeSegment (u : ScreenUnit) (active : Bool) (l : ViewLine) (g : Segment) :
    ScreenUnit :=
  let v := { u with view := { u.view with
    current := some { l with width := g.width, pixels := placePixels l.pixels g } } }
  if g.offset + g.count = g.width then v.completeLine active else v

/-- A fresh current line, open, in the gap colour (R179). Pixels that no segment fills keep the gap colour of the
line's opening, whatever a WRITE of PANEL makes of it later: the model's choice (R170; assumption log
49). -/
def ScreenUnit.freshLine (u : ScreenUnit) (g : Segment) : ViewLine :=
  { line := g.line, isOpen := true, width := g.width, pixels := u.gapLine }

/-- Draw the lines missing before a later line (R180). -/
def ScreenUnit.drawMissing (u : ScreenUnit) (active : Bool) (g : Int) : ScreenUnit :=
  if g ≤ 0 then u
  else if g ≤ 16 then ScreenUnit.addGapLines active g.toNat u
  else
    let v :=
      if u.view.buffer.isEmpty then u
      else ScreenUnit.addGapLines active (16 - u.view.buffer.length) u
    v.emitGapRow active

/-- A valid segment of the viewport stream (R179). -/
def ScreenUnit.takeSegment (u : ScreenUnit) (active : Bool) (g : Segment) : ScreenUnit :=
  match u.view.current with
  | none => u.placeSegment active (u.freshLine g) g
  | some l =>
    let d := (g.line - l.line).toInt
    if d = 0 ∧ l.isOpen then u.placeSegment active l g
    else if d ≤ 0 then { u with ctr := { u.ctr with lateLine := bump u.ctr.lateLine } }
    else
      let v := (u.completeLine active).drawMissing active (d / g.step - 1)
      v.placeSegment active (v.freshLine g) g

/-- A segment of an image stream at the Screen Unit (R179, R145). -/
def viewSegment (s : State) (stream : Nat) (g : Segment) : State :=
  if s.screen.panel.viewStream = some stream then
    s.setScreen (s.screen.takeSegment s.bannerActive g)
  else s

/-- Whether a segment of an I body is valid (R179). -/
def segmentOk (g : Segment) : Bool :=
  decide (1 ≤ g.count) && decide (g.count ≤ 1008) && decide (1 ≤ g.step) && decide (g.step ≤ 64) &&
  decide (g.offset + g.count ≤ g.width) && g.pixels.length == g.count

/-- The segments of an I body in order, cut at the first bad one (R179). -/
def takeSegments (stream : Nat) (tail : Bool) : List Segment → State → State
  | [], s => if tail then s.setScreen s.screen.badFormat else s
  | g :: gs, s =>
    if segmentOk g then takeSegments stream tail gs (viewSegment s stream g)
    else s.setScreen s.screen.badFormat

/-- An I frame delivered to the Screen Unit (R179). -/
def deliverImage (s : State) (f : Frame) : State :=
  match f.body with
  | .image gs tail => takeSegments f.hdr.stream tail gs s
  | _ => s.setScreen s.screen.badFormat

/-- The viewport after a change of its stream, place or size (R170). -/
def ScreenUnit.resetView (u : ScreenUnit) : ScreenUnit :=
  { u with view := { buffer := [], current := none, row := 0 } }

end Sys2Proof.Machine
end

