-- ==== Sys2Proof/Machine/Motion.lean ====
section
/-! DEFINITION. The master generator's state and ramp (R70, R71, R74), the axis states and the stop-confirm
timer (R97, R108, R109), before any fault is reported. -/

namespace Sys2Proof.Machine

/-! ## Master generator -/

/-- The master state of a speed, a target and a limit in force (R71). -/
def masterState (v target : Nat) (limit : RampLimit) : MasterState :=
  if v = 0 ∧ target = 0 then .stopped
  else if limit = .trip then .stopping
  else if v = target then .running
  else .ramping

/-- Recompute the master state (R71). -/
def Generator.settle (g : Generator) : Generator :=
  { g with state := masterState g.speed g.target g.limit }

/-- The deceleration of the limit in force (R70, step 2). -/
def Generator.decel (g : Generator) : Nat :=
  match g.limit with
  | .accel => g.cfg.accel
  | .stop => g.cfg.stopDecel
  | .trip => g.cfg.tripDecel

/-- The speed after one ramp step (R70, step 2). -/
def Generator.ramped (g : Generator) : Nat :=
  if g.speed < g.target then min (g.speed + g.cfg.accel) g.target
  else if g.target < g.speed then max (g.speed - g.decel) g.target
  else g.speed

/-- The master generator takes a change of the effective level (R74). -/
def Generator.level (old new : Level) (g : Generator) : Generator :=
  if new.rank ≤ old.rank then g
  else if new = .driveOff then ({ g with speed := 0, target := 0 } : Generator).settle
  else if new = .rampStop then
    ({ g with target := 0, limit := if 0 < g.speed then .trip else g.limit } : Generator).settle
  else g

/-! ## Axis states -/

/-- Whether an axis state is one of the enabled states (5.2). -/
def axisEnabled : AxisState → Bool
  | .standby | .coupled | .coastdown | .held => true
  | .disabled | .off => false

/-- Whether some axis is COUPLED. -/
def AxisTable.anyCoupled (t : AxisTable) : Bool := t.recs.toList.any fun r => r.state == .coupled

/-- A running stop-confirm timer is cancelled when no axis is COUPLED (R109). -/
def AxisTable.settleStop (t : AxisTable) : AxisTable :=
  if t.anyCoupled then t else { t with stopTimer := none }

/-- The stop-confirm timer starts if an axis is COUPLED and it is not running (R108). -/
def AxisTable.startStop (due : Nat) (t : AxisTable) : AxisTable :=
  if t.anyCoupled ∧ t.stopTimer = none then { t with stopTimer := some due } else t

/-- An enabled axis passes to OFF (R97). -/
def axisToOff (r : AxisRecord) : AxisRecord :=
  if axisEnabled r.state then { r with state := .off, capture := false } else r

/-- A COUPLED axis passes to COASTDOWN, and on to HELD if its last step was 0 (R105). -/
def axisToCoast (r : AxisRecord) : AxisRecord :=
  if r.state = .coupled then { r with state := if r.step = 0 then .held else .coastdown } else r

/-- Every COUPLED axis passes to COASTDOWN (R105), which leaves none COUPLED (R109). -/
def AxisTable.coast (t : AxisTable) : AxisTable :=
  ({ t with recs := t.recs.map axisToCoast } : AxisTable).settleStop

/-- Every enabled axis passes to OFF (R97). -/
def AxisTable.off (t : AxisTable) : AxisTable :=
  ({ t with recs := t.recs.map axisToOff } : AxisTable).settleStop

/-- One enabled axis passes to OFF (R97). -/
def AxisTable.offOne (a : Fin 4) (t : AxisTable) : AxisTable :=
  ({ t with recs := t.recs.set a (axisToOff (t.recs.get a)) } : AxisTable).settleStop

/-- The axis table takes a change of the effective level: the stop-confirm timer starts at a rise to
RAMP_STOP, and a rise to DRIVE_OFF takes every enabled axis to OFF (R97, R108). -/
def AxisTable.level (old new : Level) (due : Nat) (t : AxisTable) : AxisTable :=
  let t := if old.rank < 2 ∧ 2 ≤ new.rank then t.startStop due else t
  if old.rank < 3 ∧ new.rank = 3 then t.off else t

/-- The Motion Unit takes a change of the effective level (R158). -/
def motionLevel (old new : Level) (s : State) : State :=
  let s := s.setGen (s.gen.level old new)
  s.setAxes (s.axes.level old new (s.clock + s.station.cfg.stopConfirm * Config.msec))

/-- One axis record. -/
def State.axis (s : State) (a : Fin 4) : AxisRecord := s.axes.recs.get a

/-- Replace one axis record. -/
def State.setAxis (s : State) (a : Fin 4) (r : AxisRecord) : State :=
  s.setAxes { s.axes with recs := s.axes.recs.set a r }

end Sys2Proof.Machine
end

