-- ==== Sys2Proof/Machine/Trip.lean ====
section
/-! DEFINITION. The Trip Unit (chapter 8): the recomputation of the levels and what it passes to the other
blocks, fault reports, T frames and the remote trip table; and the corrections of R103, whose
condition the Trip Unit takes. -/

namespace Sys2Proof.Machine

/-! ## Levels -/

/-- TRIP OUT is asserted while the effective level is DRIVE_OFF; it changes when a recomputation crosses
DRIVE_OFF (R157). -/
def setTripOut (new : Level) (s : State) : State :=
  s.setTrip { s.trip with tripOut := new == .driveOff }

/-- A change of the effective level is an event at the Motion Unit, TRIP OUT and the Screen Unit (R156,
R158). -/
def levelChange (old new : Level) (s : State) : State :=
  if old = new then s else screenLevel old new (setTripOut new (motionLevel old new s))

/-- The trip stream the station publishes on, if it publishes (R161). -/
def State.publishStream (s : State) : Option Nat :=
  if s.station.address = 0 then none else s.station.cfg.tripStream

/-- The T body of the published level as it stands (R161, R162). -/
def State.tripBody (s : State) (refresh : Bool) : TripBody :=
  { level := s.trip.levels.pub, code := s.trip.levels.pubCode, count := s.trip.levels.pubCount,
    refresh := refresh }

/-- Originate a T frame if the station publishes; the Bool says whether it was dropped (R161, R162). -/
def originateTrip (refresh : Bool) (s : State) : State × Bool :=
  match s.publishStream with
  | some stream => queueTrip s stream (s.tripBody refresh)
  | none => (s, false)

/-- Recompute the levels, pass a change of the effective level on, and send a CHANGE frame at a change
of the published level (R156, R161). The Bool says whether that frame was dropped. That the readers of
the effective level take it before the CHANGE frame is originated, so that REPAINT notices take their
sequence numbers first, is the model's choice (assumption log 48). -/
def recomputeOnce (s : State) : State × Bool :=
  let old := s.trip.levels
  let new := s.trip.compute
  let s := levelChange old.eff new.eff (s.setTrip { s.trip with levels := new })
  if old.pub = new.pub then (s, false) else originateTrip false s

/-- Report RING_CONGESTION (R37). A CHANGE frame this gives rise to can only be dropped again, with the
fault already latched. -/
def reportCongestion (s : State) : State :=
  if s.trip.isLatched .ringCongestion then s
  else (recomputeOnce (s.setTrip (s.trip.latch .ringCongestion))).1

/-- Report RING_CONGESTION if a frame was dropped. -/
def afterQueue (r : State × Bool) : State := if r.2 then reportCongestion r.1 else r.1

/-- Recompute the levels with all that follows (R156). -/
def recompute (s : State) : State := afterQueue (recomputeOnce s)

/-- Send a T frame of the published level as it stands, if the station publishes (R161, R162). -/
def sendTrip (refresh : Bool) (s : State) : State := afterQueue (originateTrip refresh s)

/-! ## Fault reports -/

/-- What the latching of an axis fault does to its own axis (R97). -/
def axisFault (f : FaultId) (s : State) : State :=
  match f with
  | .driveFault a | .driveLink a => s.setAxes (s.axes.offOne a)
  | .followError a =>
    if (treeGet s.trip.tree f).level = .driveOff then s.setAxes (s.axes.offOne a) else s
  | _ => s

/-- Latch a fault; where its bit changes, its axis takes it and the levels are recomputed (R150, R97). -/
def report (f : FaultId) (s : State) : State :=
  if s.trip.isLatched f then s
  else recompute (axisFault f (s.setTrip (s.trip.latch f)))

/-- The condition of a persistent fault becomes present or absent (R150). -/
def setCondition (f : FaultId) (present : Bool) (s : State) : State :=
  let s' := s.setTrip (s.trip.setCond f present)
  if present then report f s' else s'

/-! ## T frames received -/

/-- A T frame taken by the Trip Unit (R163). -/
def takeTrip (src : Nat) (t : TripBody) (s : State) : State :=
  let old := remoteFind s.trip.remote src
  if t.level = .clear then
    match old with
    | some _ => recompute (s.setTrip { s.trip with remote := remoteErase s.trip.remote src })
    | none => s
  else
    let e : RemoteEntry :=
      { source := src, level := t.level, code := t.code, last := s.clock, stale := false }
    let s' := s.setTrip { s.trip with remote := remoteInsert e s.trip.remote }
    if (old.map (·.level)) = some t.level then s' else recompute s'

/-- A T frame delivered to the Trip Unit (R163). -/
def deliverTrip (s : State) (f : Frame) : State :=
  match f.body with
  | .bytes b =>
    match readTrip b with
    | some t => takeTrip f.hdr.src t s
    | none => s
  | _ => s

/-- Make an entry STALE and count it (R164). -/
def staleEntry (source : Nat) (s : State) : State :=
  s.setTrip { s.trip with
    remote := s.trip.remote.map fun e => if e.source = source then { e with stale := true } else e,
    ctr := { s.trip.ctr with staleRemote := bump s.trip.ctr.staleRemote } }

/-- Make every entry STALE whose silence has reached 4 × Rf (R164). -/
def staleSilent (s : State) : State :=
  let silent (e : RemoteEntry) : Bool :=
    !e.stale && remoteSilent s.clock s.station.cfg.refresh e
  s.setTrip { s.trip with
    remote := s.trip.remote.map fun e => if silent e then { e with stale := true } else e,
    ctr := { s.trip.ctr with
      staleRemote := bumpBy s.trip.ctr.staleRemote (s.trip.remote.countP silent) } }

/-! ## Corrections -/

/-- Whether the correction target stands at its limit (R104). -/
def atCorrLimit (r : AxisRecord) : Bool :=
  decide (0 < r.cfg.corrMax) && r.corrTarget.natAbs == r.cfg.corrMax

/-- Report the CORRECTION_LIMIT condition of an axis as it now stands (R104). -/
def reportCorrLimit (a : Fin 4) (s : State) : State :=
  setCondition (.correctionLimit a) (atCorrLimit (s.axis a)) s

/-- One correction record (R103). -/
def takeCorrection (s : State) (c : CorrRec) : State :=
  let r := s.axis c.axis
  if r.state = .coupled then
    let sum := r.corrTarget + c.amount
    let lim := clampInt (-(r.cfg.corrMax : Int)) r.cfg.corrMax sum
    let s := s.setAxis c.axis { r with corrTarget := lim }
    let s := if sum = lim then s
      else s.countMotion fun n => { n with corrClamped := bump n.corrClamped }
    reportCorrLimit c.axis s
  else s.countMotion fun n => { n with corrIgnored := bump n.corrIgnored }

/-- Correction records in order, each whole before the next (R103). -/
def takeCorrections (cs : List CorrRec) (s : State) : State := cs.foldl takeCorrection s

/-- A K frame delivered to the Motion Unit (R25, R103). -/
def deliverCorrections (s : State) (f : Frame) : State :=
  match f.body with
  | .bytes b =>
    match readCorr b with
    | some c => takeCorrections c.records s
    | none => s
  | _ => s

end Sys2Proof.Machine
end

