-- ==== Sys2Proof/Machine/Ring.lean ====
section
/-! DEFINITION. The receive sides of the fibre ports and the ring role (R3 to R5, R13, R16, R35, R46 to
R56), down to the frame start; and the commands that only concern them. -/

namespace Sys2Proof.Machine

/-! ## Reservations -/

/-- Remove the reservation of the frame being received on a port, without a choice of the outputs. -/
def removeResv (s : State) (q : PortId) : State :=
  let keep (l : List QItem) : List QItem := l.filter fun i => !i.reservedFor q
  let s := s.setSw { s.sw with
    urgent := keep s.sw.urgent, transit := keep s.sw.transit, counter := keep s.sw.counter }
  abortCopyOn (abortCopyOn s q .a) q .b

/-- A frame cut short: it is discarded and counted (R13). -/
def truncate (s : State) (p : PortId) : State :=
  let s := s.countPort p fun c => { c with truncated := bump c.truncated }
  removeResv (s.setPort p { s.port p with reception := none }) p

/-! ## Ring role -/

/-- A frame being received whose side changes use is marked, so that it is discarded at its arrival
(R52). Port B changes use between WRAP_A and THROUGH by the table of R49, against the last example of R52
(assumption log 53). -/
def markUse (s : State) (role : RingRole) (p : PortId) : State :=
  match (s.port p).reception with
  | some r =>
    if r.use = rxUse role p then s
    else s.setPort p { s.port p with reception := some { r with use := .unused } }
  | none => s

/-- The effects of a role change (R53). DESIGN CHOICE: R53 lets the arbiter choose again at the transmit
completion of "the aborted frame" and names no port; here it waits only for one on the new forward output, chooses
at once where the frame aborted is on the other port or none was being sent, and drains at once on a change to
ISOLATED (assumption log 60). A frame still in reception whose place in the repeat FIFO is removed counts ROLE_DISCARD
here and, by R52, once more at its good arrival: the model's choice (assumption log 13). -/
def changeRole (s : State) (role : RingRole) : State :=
  let s := abortTx (abortTx s .a) .b
  let removed := if role = .through then 0 else s.sw.counter.length
  let s := s.setSw { s.sw with
    role := role, counter := [],
    ctr := { s.sw.ctr with
      roleChanges := bump s.sw.ctr.roleChanges,
      roleDiscard := bumpBy s.sw.ctr.roleDiscard removed } }
  arbitrate (markUse (markUse s role .a) role .b)

/-- Recompute the ring role from the side states (R48). -/
def updateRole (s : State) : State :=
  let role := roleOf s.portA.side s.portB.side
  if role = s.sw.role then arbitrate s else changeRole s role

/-- Report the ring conditions as they stand (R55, R56). -/
def reportRing (p : PortId) (s : State) : State :=
  let s := setCondition (.portDown p) ((s.port p).side == .failed) s
  setCondition .ringIsolated (s.sw.role == .isolated) s

/-! ## Receive states -/

/-- The receive state leaves SYNC for another: SYNC_LOSS, the frame in reception is truncated, the side
fails with its heal hold cancelled, the frame being sent is aborted, and the role follows (R3, R5,
R13, R46). `short` says that a frame whose 16th header byte has not come was being received. That leaving SYNC ends
the skipping of symbols after a 1,045th byte is the model's choice (R13; assumption log 44). -/
def leaveSync (s : State) (p : PortId) (rx : RxState) (short : Bool) : State :=
  let s := s.countPort p fun c => { c with syncLoss := bump c.syncLoss }
  let s := s.setPort p { s.port p with
    rx := rx, side := .failed, hold := none, fillRun := 0, breakRun := 0, skipping := false }
  let s := if short || (s.port p).reception.isSome then truncate s p else s
  reportRing p (updateRole (abortTx s p))

/-- The receive state enters SYNC: the side heals and its heal hold starts (R5, R46, R47). No symbols are skipped
then (assumption log 44). -/
def enterSync (s : State) (p : PortId) : State :=
  let s := s.setPort p { s.port p with
    rx := .sync, side := .healing, fillRun := 0, breakRun := 0, skipping := false,
    hold := some (s.clock + s.station.cfg.heal * Config.msec) }
  reportRing p (updateRole s)

/-- The receive state changes (R4, R5); `short` as in `leaveSync`. -/
def changeRx (s : State) (p : PortId) (rx : RxState) (short : Bool := false) : State :=
  match (s.port p).rx, rx with
  | .sync, .sync => s
  | .sync, rx => leaveSync s p rx short
  | _, .sync => enterSync s p
  | _, rx => s.setPort p { s.port p with rx := rx, fillRun := 0, breakRun := 0 }

/-- Enter SYNC or BREAK from HUNT, which empties the record of invalid symbols (R4). -/
def leaveHunt (s : State) (p : PortId) (rx : RxState) : State :=
  changeRx (s.setPort p { s.port p with invalid := [] }) p rx

/-- Whether a side's symbols enter the record of invalid symbols (R4). -/
def aligned (rx : RxState) : Bool := rx == .sync || rx == .brk

/-- The record of invalid symbols with one more position: those among the last 256 symbols (R4). -/
def recordInvalid (pos : Nat) (l : List Nat) : List Nat :=
  (l.filter fun q => decide (pos < q + 256)) ++ [pos]

/-- An invalid or stray symbol in SYNC or BREAK: counted and recorded; the fourth within 256 symbols sends
the side to HUNT (R4, R18). -/
def badSymbol (s : State) (p : PortId) (pos : Nat) : State :=
  if aligned (s.port p).rx then
    let s := s.countPort p fun c => { c with symbolErrors := bump c.symbolErrors }
    let l := recordInvalid pos (s.port p).invalid
    let s := s.setPort p { s.port p with invalid := l, breakRun := 0 }
    if 4 ≤ l.length then changeRx s p .hunt else s
  else s

/-- An invalid symbol cuts short the frame open on a SYNC port, if there is one (R13). -/
def cutOpenFrame (s : State) (p : PortId) : State :=
  if (s.port p).rx = .sync ∧ (s.port p).reception.isSome then arbitrate (truncate s p) else s

/-- What the symbol that cut a frame short does outside the frame (R13). That a 1,045th byte is the first of the
symbols skipped, and no stray symbol itself, is the model's choice (assumption log 44). -/
def cutSymbol (s : State) (p : PortId) : CutBy → State
  | .invalid pos => badSymbol s p pos
  | .brk => s.setPort p { s.port p with breakRun := (s.port p).breakRun + 1 }
  | .overlong => s.setPort p { s.port p with skipping := true }
  | .startDelimiter | .idle | .breakHeard => s

/-! ## Frame start -/

/-- The hop count after one more station; past 127 the field cannot hold it (assumption log 9). -/
def hopOn (h : Nat) : Nat := if h < 127 then h + 1 else Config.hopPast h

/-- Whether a frame entering the forward input takes a reservation, room apart (R35). At an unassigned station the
own address as it stands is 0 (assumption log 16). -/
def mayReserve (address : Nat) (h : Header) (isCommand : Bool) : Bool :=
  let toSelf := (h.cls == .k || h.cls == .m) && h.dest == address
  let sweep := h.cls == .m && h.dest == 0 && isCommand
  !toSelf && !sweep

/-- The reservation of a frame being received on a port. -/
def resvItem (p : PortId) (stamp : Nat) (h : Header) : QItem :=
  { frame := { hdr := { h with hop := hopOn h.hop }, body := .bytes [] }, since := stamp,
    origin := .reserved p, ready := false }

/-- The Ring Switch reserves a place for a frame at its start, if it may and there is room (R35, R50,
R51). The Bool says whether it did. -/
def reserve (s : State) (p : PortId) (stamp : Nat) (h : Header) (isCommand : Bool) : State × Bool :=
  let i := resvItem p stamp h
  match rxUse s.sw.role p with
  | .forwardInput =>
    if mayReserve s.station.address h isCommand then
      if usesUrgent h.cls then
        if s.sw.urgent.length < Config.urgentCap then
          (s.setSw { s.sw with urgent := s.sw.urgent ++ [i] }, true)
        else (s, false)
      else if queueBytes s.sw.transit + i.bytes ≤ Config.transitCap then
        (s.setSw { s.sw with transit := s.sw.transit ++ [i] }, true)
      else (s, false)
    else (s, false)
  | .counterInput =>
    if h.hop + 1 < Config.hopLimit ∧ queueBytes s.sw.counter + i.bytes ≤ Config.repeatCap then
      (s.setSw { s.sw with counter := s.sw.counter ++ [i] }, true)
    else (s, false)
  | .unused => (s, false)

/-- A frame's header has been received (R16, R35). A frame still open on the port is cut short by the
start delimiter (R13). That a start delimiter met while the symbols after a 1,045th byte are skipped opens a
frame, and ends the skipping, is the model's choice (assumption log 44). -/
def beginFrame (s : State) (p : PortId) (stamp : Nat) (h : Header) (isCommand : Bool) : State :=
  let s := if (s.port p).reception.isSome then arbitrate (truncate s p) else s
  let use := rxUse s.sw.role p
  let r := reserve s p stamp h isCommand
  r.1.setPort p { r.1.port p with
    skipping := false, breakRun := 0,
    reception := some { stamp := stamp, hdr := h, use := use,
                        resv := if r.2 then .held else .none, got32 := false } }

/-- A reservation has its 32 bytes (R35). -/
def readyItem (p : PortId) (i : QItem) : QItem :=
  if i.reservedFor p then { i with ready := true } else i

/-- The frame being received on a port reaches 32 bytes, and its reservation may be picked (R35, R42). -/
def reach32 (s : State) (p : PortId) : State :=
  match (s.port p).reception with
  | some r =>
    let s := s.setPort p { s.port p with reception := some { r with got32 := true } }
    arbitrate (s.setSw { s.sw with
      urgent := s.sw.urgent.map (readyItem p), transit := s.sw.transit.map (readyItem p),
      counter := s.sw.counter.map (readyItem p) })
  | none => s

/-! ## Commands -/

/-- LOSS_OF_LIGHT: the receive side passes to DARK (R4). -/
def execLossOfLight (m : Moment) (p : PortId) (s : State) : Host.Outcome State Fault Refusal :=
  let s := s.tick m
  .next (changeRx (s.setPort p { s.port p with light := false }) p .dark (m.short p))

/-- LIGHT_PRESENT: a DARK side passes to HUNT (R4). -/
def execLightPresent (m : Moment) (p : PortId) (s : State) : Host.Outcome State Fault Refusal :=
  let s := s.tick m
  let s := s.setPort p { s.port p with light := true }
  .next (if (s.port p).rx = .dark then changeRx s p .hunt else s)

/-- HUNT_FILL_RUN: 64 consecutive fill symbols take a HUNT side to BREAK when the last is a break symbol,
else to SYNC (R4). -/
def execHuntFillRun (m : Moment) (p : PortId) (last : FillSymbol) (s : State) :
    Host.Outcome State Fault Refusal :=
  let s := s.tick m
  .next (if (s.port p).rx = .hunt then
    leaveHunt s p (if last = .brk then .brk else .sync) else s)

/-- BREAK_SYMBOL_RUN: 16 consecutive break symbols take a SYNC side to BREAK (R4). -/
def execBreakSymbolRun (m : Moment) (p : PortId) (s : State) :
    Host.Outcome State Fault Refusal :=
  let s := s.tick m
  .next (if (s.port p).rx = .sync then changeRx s p .brk else s)

/-- BREAK_TO_SYNC_SYMBOL: an idle symbol, a break-heard symbol or a start delimiter takes a BREAK side to
SYNC; the frame a start delimiter opens is received in SYNC (R4). -/
def execBreakToSyncSymbol (m : Moment) (p : PortId) (_sym : SyncSymbol) (s : State) :
    Host.Outcome State Fault Refusal :=
  let s := s.tick m
  .next (if (s.port p).rx = .brk then changeRx s p .sync else s)

/-- INVALID_SYMBOL_LIMIT: the 4th invalid symbol within 256 sends a SYNC or BREAK side to HUNT, whatever
the state's other counts (R4). -/
def execInvalidSymbolLimit (m : Moment) (p : PortId) (pos : Nat) (s : State) :
    Host.Outcome State Fault Refusal :=
  let s := s.tick m
  .next (if aligned (s.port p).rx then
    let s := s.countPort p fun c => { c with symbolErrors := bump c.symbolErrors }
    let s := s.setPort p { s.port p with
      invalid := recordInvalid pos (s.port p).invalid, breakRun := 0 }
    changeRx s p .hunt (m.short p) else s)

/-- INVALID_SYMBOL: an invalid or stray symbol in SYNC or BREAK is counted and recorded; an invalid symbol
first cuts short a frame open on the port (R4, R13, R18). The data symbols after a 1,045th byte are
skipped without count (R13); that the delimiter which ends them counts nothing either is the model's
choice (assumption log 44). -/
def execInvalidSymbol (m : Moment) (p : PortId) (sym : BadSymbol) (pos : Nat) (s : State) :
    Host.Outcome State Fault Refusal :=
  let s := s.tick m
  .next (match (s.port p).skipping, sym with
    | true, .strayData => s
    | true, .strayEnd | true, .strayAbort => s.setPort p { s.port p with skipping := false }
    | _, .invalid => badSymbol (cutOpenFrame s p) p pos
    | _, _ => badSymbol s p pos)

/-- HEAL_HOLD_EXPIRY: a HEALING side whose hold has run becomes USABLE, and the role follows (R46, R48). -/
def execHealHoldExpiry (m : Moment) (p : PortId) (s : State) :
    Host.Outcome State Fault Refusal :=
  let s := s.tick m
  .next (match (s.port p).side, (s.port p).hold with
    | .healing, some due =>
      if due ≤ s.clock then
        reportRing p (updateRole (s.setPort p { s.port p with side := .usable, hold := none }))
      else s
    | _, _ => s)

/-- FRAME_START: the 16 header bytes of a frame have been received on a SYNC side (R16). -/
def execFrameStart (m : Moment) (p : PortId) (stamp : Nat) (hdr : List Byte) (isCommand : Bool)
    (s : State) : Host.Outcome State Fault Refusal :=
  if hdr.length = 16 then
    let s := s.tick m
    .next (if (s.port p).rx = .sync then
      beginFrame s p stamp (readHeader hdr) isCommand else s)
  else .fault .noSuchEvent

/-- RESERVATION_ELIGIBLE: the frame being received on a port reaches 32 bytes (R35). -/
def execReservationEligible (m : Moment) (p : PortId) (s : State) :
    Host.Outcome State Fault Refusal :=
  .next (reach32 (s.tick m) p)

/-- TRANSMIT_COMPLETION: the port's frame and its 10 fill symbols have been sent, and the output chooses
again. FRAMES_OUT is counted here for a frame ended by its end delimiter (R2, R18; assumption log
8). A copy still being received has not completed. -/
def execTransmitCompletion (m : Moment) (p : PortId) (s : State) :
    Host.Outcome State Fault Refusal :=
  let s := s.tick m
  .next (match (s.port p).tx with
    | some t =>
      if t.copyOf.isSome then s
      else
        let s := s.setPort p { s.port p with tx := none }
        arbitrate (if t.aborted then s
          else s.countPort p fun c => { c with framesOut := bump c.framesOut })
    | none => s)

end Sys2Proof.Machine
end

