-- ==== Sys2Proof/Machine/Drive.lean ====
section
/-! DEFINITION. The Drive Link (chapter 6): outcomes, the arbiter, the batch, the release exchange, and what
a passage to DISABLED or an ENABLE AXIS does to it. -/

namespace Sys2Proof.Machine

/-! ## Per-axis records -/

/-- What the Drive Link keeps for one axis. -/
def State.driveAxis (s : State) (a : Fin 4) : DriveAxis := s.drive.axes.get a

/-- Replace what the Drive Link keeps for one axis. -/
def State.setDriveAxis (s : State) (a : Fin 4) (d : DriveAxis) : State :=
  s.setDrive { s.drive with axes := s.drive.axes.set a d }

/-- Count a batch outcome other than GOOD (R119, R124). -/
def countOutcome (o : DriveOutcome) (c : DriveCounters) : DriveCounters :=
  match o with
  | .crcBad => { c with crcBad := bump c.crcBad }
  | .seqBad => { c with seqBad := bump c.seqBad }
  | .noReady => { c with notReady := bump c.notReady }
  | .readyDrop => { c with readyDrop := bump c.readyDrop }
  | .skipped => { c with skipped := bump c.skipped }
  | .none | .good => c

/-- Report the DRIVE_LINK condition of an axis as its count and E now stand (R119). -/
def reportDriveLink (a : Fin 4) (s : State) : State :=
  setCondition (.driveLink a) (decide (s.station.cfg.driveLimit ≤ (s.driveAxis a).bad)) s

/-- A batch outcome other than GOOD (R119). -/
def badOutcome (a : Fin 4) (o : DriveOutcome) (s : State) : State :=
  let d := s.driveAxis a
  let s := s.setDriveAxis a { d with outcome := o, bad := min (d.bad + 1) 15 }
  reportDriveLink a (s.countDrive (countOutcome o))

/-! ## The arbiter -/

/-- The ENABLE bit of a batch exchange (R114). -/
def batchEnable (r : AxisRecord) : Bool :=
  axisEnabled r.state && !(r.state == .standby && r.capture)

/-- The command record is built and the exchange starts (R114, R115). -/
def startExchange (a : Fin 4) (release : Bool) (s : State) : State :=
  let r := s.axis a
  let d := s.driveAxis a
  let enable := !release && batchEnable r
  let level := s.trip.levels.eff
  let x : Exchange :=
    { axis := a, release := release, setpoint := r.setpoint, enable := enable, level := level,
      sequence := d.sequence, record := commandRecord r.setpoint enable level d.sequence,
      limit := r.cfg.followLimit, noCapture := false, void := false }
  let s := s.setDriveAxis a { d with sequence := d.sequence + 1 }
  s.setDrive { s.drive with exchange := some x }

/-- The lowest-numbered axis whose release exchange is pending (R113). -/
def releaseAxis (t : AxisTable) : Option (Fin 4) :=
  [(0 : Fin 4), 1, 2, 3].find? fun a => (t.recs.get a).release

/-- The release exchange of an axis has had its outcome (R122). -/
def endRelease (a : Fin 4) (s : State) : State :=
  s.setAxis a { s.axis a with release := false }

/-- The batch ends when axis 3 has been passed over or its exchange has completed (R112). -/
def endBatch (s : State) : State :=
  match s.drive.batch with
  | some p => if 4 ≤ p then s.setDrive { s.drive with batch := none } else s
  | none => s

/-- The drive link's arbiter with the ready lines read as each exchange is picked (R113, R115). The
number bounds the choices made at one moment: four release exchanges, four turns and one to find no
more work. -/
def driveArb : Nat → State → State
  | 0, s => s
  | n + 1, s =>
    if s.drive.exchange.isSome then s
    else
      let s := endBatch s
      match releaseAxis s.axes with
      | some a =>
        if s.ready.get a then startExchange a true s else driveArb n (endRelease a s)
      | none =>
        match s.drive.batch with
        | none => s
        | some p =>
          let a := Fin.ofNat 4 p
          let s := s.setDrive { s.drive with batch := some (p + 1) }
          if (s.axis a).state = .disabled then driveArb n s
          else if s.ready.get a then startExchange a false s
          else driveArb n (badOutcome a .noReady s)

/-- The drive link's arbiter chooses (R113). -/
def driveArbitrate (s : State) : State := driveArb 9 s

/-! ## The batch -/

/-- Abandon the batch in progress: every axis whose turn has not come and which is not DISABLED is
SKIPPED (R112). That they are taken in the order 0 to 3 is the model's choice (assumption log 54). -/
def abandonBatch (s : State) : State :=
  match s.drive.batch with
  | none => s
  | some p =>
    ([(0 : Fin 4), 1, 2, 3].filter fun a => decide (p ≤ a.val)).foldl
      (fun s a => if (s.axis a).state = .disabled then s else badOutcome a .skipped s) s

/-- Begin a new batch (R112). -/
def startBatch (s : State) : State :=
  let s := abandonBatch s
  driveArbitrate (s.setDrive { s.drive with batch := some 0 })

/-! ## Outcomes -/

/-- The following-error check of a GOOD exchange (R118). -/
def followCheck (a : Fin 4) (limit : Nat) (last : Option (BitVec 32)) (actual : BitVec 32)
    (s : State) : State :=
  match last with
  | some sp =>
    if limit ≠ 0 ∧ limit < (actual - sp).toInt.natAbs then
      report (.followError a)
        (s.countDrive fun c => { c with followExcess := bump c.followExcess })
    else s
  | none => s

/-- The effects of a GOOD batch exchange, each on the axis's state at the completion (R117). The following
error is checked by the limit F of the exchange's start, since a WRITE of F is used from the next
exchange (R87). -/
def goodOutcome (x : Exchange) (st : DriveStatus) (s : State) : State :=
  let a := x.axis
  let r := s.axis a
  let last := (s.driveAxis a).lastSetpoint
  let s := s.setDriveAxis a
    { s.driveAxis a with outcome := .good, bad := 0, status := some st,
                         lastSetpoint := some x.setpoint }
  let s := setCondition (.driveFault a) st.fault (setCondition (.driveLink a) false s)
  if r.state = .standby ∧ r.capture ∧ !x.noCapture then
    s.setAxis a { s.axis a with setpoint := st.actual, capture := false }
  else if r.state = .off then s.setAxis a { s.axis a with setpoint := st.actual }
  else if r.state = .coupled then followCheck a x.limit last st.actual s
  else s

/-- The outcome of a batch exchange that ran to its end (R116, R117, R119, R121). -/
def batchOutcome (x : Exchange) (b : List Byte) (s : State) : State :=
  if (s.axis x.axis).state = .disabled then s
  else
    match judgeStatus x.sequence b with
    | .good => goodOutcome x (readStatus b) s
    | o =>
      badOutcome x.axis o
        (s.setDriveAxis x.axis { s.driveAxis x.axis with lastSetpoint := some x.setpoint })

/-- The exchange under way has run to its end (R116, R122, R125). -/
def completeExchange (x : Exchange) (b : List Byte) (s : State) : State :=
  let s := s.setDrive { s.drive with exchange := none }
  let s :=
    if x.release then
      let s := endRelease x.axis s
      if x.void then s
      else s.setDriveAxis x.axis { s.driveAxis x.axis with lastSetpoint := some x.setpoint }
    else if x.void then s
    else batchOutcome x b s
  driveArbitrate s

/-- The exchange under way is ended by its ready line (R115, R121, R122, R125). -/
def dropExchange (x : Exchange) (s : State) : State :=
  let s := s.setDrive { s.drive with exchange := none }
  let s :=
    if x.release then endRelease x.axis s
    else if x.void ∨ (s.axis x.axis).state = .disabled then s
    else badOutcome x.axis .readyDrop s
  driveArbitrate s

/-! ## Changes of an axis's use -/

/-- The Drive Link's effects of a passage to DISABLED (R123). -/
def driveDisabled (a : Fin 4) (s : State) : State :=
  let s := s.setDriveAxis a { s.driveAxis a with outcome := .none, bad := 0 }
  setCondition (.driveLink a) false (setCondition (.driveFault a) false s)

/-- An exchange of an axis that an ENABLE AXIS found under way captures nothing (R91, R121, R122). -/
def noCapture (a : Fin 4) (x : Exchange) : Exchange :=
  if x.axis = a then { x with noCapture := true } else x

/-- The Drive Link's effects of an ENABLE AXIS that changes the axis's state (R123). -/
def driveEnabled (a : Fin 4) (s : State) : State :=
  let s := s.setDriveAxis a { s.driveAxis a with outcome := .none, status := none }
  s.setDrive { s.drive with exchange := s.drive.exchange.map (noCapture a) }

/-! ## Commands -/

/-- READY_DROP: the ready line of an axis's drive falls; an exchange of that axis under way ends at once
(R115). -/
def execReadyDrop (m : Moment) (a : Fin 4) (s : State) : Host.Outcome State Fault Refusal :=
  let s := s.tick m
  let s := { s with ready := s.ready.set a false }
  .next (match s.drive.exchange with
    | some x => if x.axis = a then dropExchange x s else s
    | none => s)

/-- EXCHANGE_COMPLETION: the 12th status byte has been received (R116). -/
def execExchangeCompletion (m : Moment) (status : List Byte) (s : State) :
    Host.Outcome State Fault Refusal :=
  if status.length = 12 then
    let s := s.tick m
    .next (match s.drive.exchange with
      | some x => completeExchange x status s
      | none => s)
  else .fault .noSuchEvent

end Sys2Proof.Machine
end

