-- ==== Sys2Proof/Machine/Image.lean ====
section
/-! DEFINITION. The Image Unit (chapter 7): the line trigger, web presence, register mark windows,
corrections at the repeat boundary and the image stream. -/

namespace Sys2Proof.Machine

/-! ## The line trigger -/

/-- The distance of two grid points in fine counts: Λ × 256 (R128). -/
def gridStep (c : CameraRecord) : Nat := 2 ^ (c.pitch + 8)

/-- The first grid point at or after a master position (R128). -/
def gridAt (step : Nat) (p : BitVec 28) : BitVec 28 :=
  BitVec.ofNat 28 ((p.toNat + step - 1) / step * step)

/-- The next trigger position at a base (R128). -/
def ImageUnit.placeNext (u : ImageUnit) (take : Bool) (p : BitVec 28) : ImageUnit :=
  let step := gridStep u.cam
  match take, u.next with
  | false, some q =>
    let behind := (p - q).toInt
    if 0 < behind then
      { u with
        next := some (gridAt step p),
        ctr := { u.ctr with skipped := bumpBy u.ctr.skipped ((behind.toNat + step - 1) / step) } }
    else u
  | _, _ => { u with next := some (gridAt step p) }

/-- Schedule the next trigger from the base in force (R129). -/
def ImageUnit.schedule (u : ImageUnit) : ImageUnit :=
  match u.base, u.next with
  | some b, some q =>
    let t := ((q - b.pos).toNat * 1000 + b.speed - 1) / b.speed
    { u with trigger :=
        if 0 < b.speed ∧ t < b.period then some (b.at_ + t * Config.usec) else none }
  | _, _ => { u with trigger := none }

/-- The trigger unit receives a base (R128, R129). -/
def ImageUnit.takeBase (u : ImageUnit) (take : Bool) (b : ImageBase) : ImageUnit :=
  (({ u with trigger := none, base := some b } : ImageUnit).placeNext take b.pos).schedule

/-- The repeat number of a line triggered at Q (R129, step 1). -/
def lineRepeat (b : ImageBase) (q : BitVec 28) : BitVec 16 :=
  if q.toNat < b.pos.toNat then b.repeats + 1 else b.repeats

/-- A scheduled trigger fires; the Bool says that the camera was busy (R129). -/
def ImageUnit.fire (u : ImageUnit) (now : Nat) : ImageUnit × Bool :=
  match u.base, u.next with
  | some b, some q =>
    let busy := u.line.isSome
    let u :=
      if busy then { u with ctr := { u.ctr with overruns := bump u.ctr.overruns } }
      else
        let l : CameraLine :=
          { num := u.lineNo, stamp := q.toNat / 256, repeatNo := lineRepeat b q, start := now }
        { u with line := some l }
    let u := { u with
      lineNo := u.lineNo + 1, next := some (q + BitVec.ofNat 28 (gridStep u.cam)), trigger := none }
    (u.schedule, busy)
  | _, _ => (u, false)

/-! ## Lines -/

/-- Report the CAMERA_LOST condition as the consecutive-abandoned count stands (R130). -/
def reportCamera (s : State) : State :=
  setCondition .cameraLost (decide (4 ≤ s.image.abandoned)) s

/-- Abandon the line in progress (R130). -/
def abandonLine (s : State) : State :=
  let u := s.image
  reportCamera (s.setImage { u with
    line := none, abandoned := min (u.abandoned + 1) 255,
    ctr := { u.ctr with abandoned := bump u.ctr.abandoned } })

/-- The camera timeout has run from the trigger of the line in progress (R130). -/
def timedOut (s : State) : Bool :=
  match s.image.line with
  | some l => decide (l.start + s.image.cam.timeout * Config.usec ≤ s.clock)
  | none => false

/-- The floor of the mean of pixels `a` to `b − 1` (R132, R135, R143). -/
def stripMean (pixels : List Byte) (a b : Nat) : Nat :=
  (((pixels.drop a).take (b - a)).map BitVec.toNat).sum / (b - a)

/-- Report the WEB_BREAK condition as the run count and W stand (R132). -/
def reportWeb (s : State) : State :=
  setCondition .webBreak (decide (s.image.cam.webRun ≤ s.image.webRun)) s

/-- Web presence (R132). -/
def webCheck (pixels : List Byte) (s : State) : State :=
  let u := s.image
  let above := decide (u.cam.webThreshold < stripMean pixels u.cam.webStart u.cam.webEnd)
  reportWeb (s.setImage { u with webRun := if above then min (u.webRun + 1) 4096 else 0 })

/-- A line's index within the repeat (R131, step 2). -/
def lineIndex (c : CameraRecord) (l : CameraLine) : Nat := l.stamp / 2 ^ c.pitch

/-- Whether a line begins a new repeat (R131, step 2). -/
def ImageUnit.newRepeat (u : ImageUnit) (l : CameraLine) : Bool :=
  match u.prevIndex with
  | some i => l.repeatNo != u.repeatNo || decide (lineIndex u.cam l ≤ i)
  | none => false

/-! ## Register mark windows -/

/-- The window of an id. -/
def ImageUnit.window (u : ImageUnit) (i : Nat) : Window := u.windows.getD i Window.reset

/-- Change the window of an id. -/
def ImageUnit.setWindow (u : ImageUnit) (i : Nat) (w : Window) : ImageUnit :=
  { u with windows := u.windows.set i w }

/-- Whether a line's strip has crossed the threshold since the one before (R135). -/
def crosses (dark : Bool) (th prev cur : Nat) : Bool :=
  if dark then decide (cur < th) && decide (th ≤ prev) else decide (th < cur) && decide (prev ≤ th)

/-- The edge between two lines by linear interpolation (R135). -/
def edgeAt (dark : Bool) (th q0 v0 q1 v1 : Nat) : Nat :=
  let d := (q1 + 2 ^ 20 - q0) % 2 ^ 20
  if dark then q0 + d * (v0 - th) / (v0 - v1) else q0 + d * (th - v0) / (v1 - v0)

/-- A window examines an in-range line (R135). -/
def Window.examine (w : Window) (stamp : Nat) (pixels : List Byte) : Window :=
  let v := stripMean pixels w.cfg.x0 w.cfg.x1
  match w.prev with
  | some (q0, v0) =>
    if crosses w.cfg.dark w.cfg.threshold v0 v then
      { w with edge := some (edgeAt w.cfg.dark w.cfg.threshold q0 v0 stamp v) }
    else { w with prev := some (stamp, v) }
  | none => { w with prev := some (stamp, v) }

/-- A window that measures, is open and has no edge looks at a line's stamp (R135). -/
def Window.look (stamp : Nat) (pixels : List Byte) (w : Window) : Window :=
  if w.cfg.enabled && w.measuring && w.isOpen && w.edge.isNone && decide (w.cfg.p0 ≤ stamp) &&
      decide (stamp < w.cfg.p1) then
    w.examine stamp pixels
  else w

/-- Put a correction record in the list of its target station, kept in rising order (R141). The Bool says
that the list was full. -/
def addPending (target : Nat) (r : CorrRec) :
    List (Nat × List CorrRec) → List (Nat × List CorrRec) × Bool
  | [] => ([(target, [r])], false)
  | (t, rs) :: l =>
    if target < t then ((target, [r]) :: (t, rs) :: l, false)
    else if target = t then
      if rs.length < Config.corrCap then ((t, rs ++ [r]) :: l, false) else ((t, rs) :: l, true)
    else
      let x := addPending target r l
      ((t, rs) :: x.1, x.2)

/-- A correction record joins its pending list, or is counted CORR_DROP (R141). -/
def ImageUnit.addCorrection (u : ImageUnit) (target : Nat) (r : CorrRec) : ImageUnit :=
  let x := addPending target r u.pending
  { u with
    pending := x.1,
    ctr := if x.2 then { u.ctr with corrDrop := bump u.ctr.corrDrop } else u.ctr }

/-- A window's outcome for a repeat (R137). -/
inductive CloseOutcome where
  | miss (st : MarkStatus)
  | valid (error : Int)
  deriving DecidableEq, Repr

/-- The outcome of a window at its close (R137). -/
def ImageUnit.outcome (u : ImageUnit) (w : Window) : CloseOutcome :=
  match w.edge, w.cfg.reference with
  | none, _ => .miss .noEdge
  | some e, none => .valid (wrapSigned 20 ((e : Int) - w.cfg.expected))
  | some e, some r =>
    match (u.window r).edge with
    | none => .miss .refMissing
    | some e0 => .valid (wrapSigned 20 ((e : Int) - (e0 : Int)) - w.cfg.expected)

/-- The amount of a mean: truncated toward 0, then limited (R139, step 3). -/
def amountOf (gain mean : Int) : Int := clampInt (-32767) 32767 (Int.tdiv (-(mean * gain)) 256)

/-- A window with a valid error, and the correction record it produces (R139). -/
def Window.validError (w : Window) (id : Nat) (repeatNo : BitVec 16) (e : Int) :
    Window × Option CorrRec :=
  let sum := w.sum + e
  let count := w.count + 1
  let r := { w.result with
    repeatNo := repeatNo, edge := w.edge, error := some e, misses := 0 }
  if count < w.cfg.averaging then
    ({ w with sum := sum, count := count, result := { r with status := .averaging } }, none)
  else
    let mean := Int.tdiv sum w.cfg.averaging
    let amount := amountOf w.cfg.gain mean
    let w := { w with sum := 0, count := 0 }
    if mean.natAbs ≤ w.cfg.deadBand ∨ amount = 0 then
      ({ w with result := { r with mean := some mean, status := .inBand } }, none)
    else
      ({ w with result := { r with mean := some mean, lastAmount := some amount,
                                   status := .fresh } },
       some { axis := Fin.ofNat 4 w.cfg.targetAxis, amount := amount, window := id })

/-- A window with a miss; the Bool says that MARK_LOST is reported (R138). -/
def Window.miss (w : Window) (repeatNo : BitVec 16) (st : MarkStatus) : Window × Bool :=
  let misses := min (w.result.misses + 1) 255
  let lost := decide (8 ≤ misses)
  ({ w with
      sum := if lost then 0 else w.sum, count := if lost then 0 else w.count,
      result := { w.result with
        repeatNo := repeatNo, edge := w.edge, error := none, status := st, misses := misses } },
   lost)

/-- A window closes (R136 to R139). -/
def closeWindow (s : State) (i : Nat) : State :=
  let u := s.image
  let w := { u.window i with isOpen := false }
  match u.outcome w with
  | .miss st =>
    let x := w.miss u.repeatNo st
    let s := s.setImage (u.setWindow i x.1)
    if x.2 then report .markLost s else s
  | .valid e =>
    let x := w.validError i u.repeatNo e
    let u := u.setWindow i x.1
    s.setImage (match x.2 with
      | some r => u.addCorrection w.cfg.targetStation r
      | none => u)

/-- The ids of the windows that close, those without a reference first (R136). -/
def ImageUnit.closing (u : ImageUnit) (f : Window → Bool) : List Nat :=
  let ids := (List.range 16).filter fun i =>
    let w := u.window i
    w.cfg.enabled && w.measuring && w.isOpen && f w
  ids.filter (fun i => (u.window i).cfg.reference.isNone) ++
  ids.filter (fun i => (u.window i).cfg.reference.isSome)

/-- Close every open window that a test names (R136). -/
def closeWindows (f : Window → Bool) (s : State) : State :=
  (s.image.closing f).foldl closeWindow s

/-- A window waits for the next repeat boundary (R134). -/
def Window.wait (w : Window) : Window :=
  { w with measuring := false, isOpen := false, prev := none, edge := none }

/-- Every enabled window begins to measure a repeat (R131, step 3). -/
def Window.beginRepeat (w : Window) : Window :=
  if w.cfg.enabled then { w with measuring := true, isOpen := true, prev := none, edge := none }
  else w

/-! ## Corrections at the boundary -/

/-- Send the corrections of one target station (R142). -/
def sendCorrections (repeatNo : BitVec 16) (s : State) (e : Nat × List CorrRec) : State :=
  if e.1 = s.station.address then takeCorrections e.2 s
  else
    insertLocal s .k 0 e.1 (4 + 4 * e.2.length)
      (.bytes (corrBytes { repeatNo := repeatNo, records := e.2 }))

/-- Empty the pending lists at a repeat boundary (R142, R148). -/
def flushCorrections (s : State) : State :=
  let u := s.image
  let s := s.setImage { u with pending := [] }
  if s.station.address = 0 then s else u.pending.foldl (sendCorrections u.repeatNo) s

/-- The repeat boundary: corrections sent, the line's repeat number taken, and every enabled window
begins (R131, step 3). -/
def repeatBoundary (l : CameraLine) (s : State) : State :=
  let s := flushCorrections s
  s.setImage { s.image with
    repeatNo := l.repeatNo, windows := s.image.windows.map Window.beginRepeat }

/-! ## The image stream -/

/-- Body bytes of a list of segments (R144). -/
def segmentBytes (gs : List Segment) : Nat := (gs.map fun g => 16 + g.count).sum

/-- Queue the frame in assembly, if it holds a segment (R144). -/
def queueAssembly (s : State) : State :=
  let u := s.image
  if u.asm.isEmpty then s
  else
    let s := s.setImage { u with asm := [] }
    if s.station.address = 0 then s
    else insertLocal s .i u.asmStream 63 (segmentBytes u.asm) (.image u.asm false)

/-- Place a segment in the assembly and hand it to the Screen Unit; a frame it fills is queued (R144,
R145). -/
def placeSegment (s : State) (g : Segment) : State :=
  let u := s.image
  let s := s.setImage { u with
    asm := u.asm ++ [g], asmStream := if u.asm.isEmpty then u.cam.stream else u.asmStream }
  let s := viewSegment s u.cam.stream g
  if segmentBytes s.image.asm = 1024 then queueAssembly s else s

/-- A line cropped and decimated (R143). -/
def streamedLine (c : CameraRecord) (pixels : List Byte) : List Byte :=
  (List.range (c.cropWidth / c.decimation)).map fun i =>
    let a := c.cropStart + i * c.decimation
    BitVec.ofNat 8 (stripMean pixels a (a + c.decimation))

/-- The segment of a line from an offset (R144). -/
def segmentOf (c : CameraRecord) (l : CameraLine) (line : List Byte) (off : Nat) : Segment :=
  let px := (line.drop off).take 1008
  { line := l.num, step := c.lineStep, stamp := l.stamp, offset := off, count := px.length,
    width := line.length, pixels := px }

/-- Place a streamed line (R144). -/
def placeLine (l : CameraLine) (line : List Byte) (s : State) : State :=
  let c := s.image.cam
  let s := if line.length + 16 + segmentBytes s.image.asm ≤ 1024 then s else queueAssembly s
  ((List.range ((line.length + 1007) / 1008)).map fun i => segmentOf c l line (1008 * i)).foldl
    placeSegment s

/-- Image streaming (R143, R144). -/
def streamLine (l : CameraLine) (fresh : Bool) (pixels : List Byte) (s : State) : State :=
  let s := if fresh then queueAssembly s else s
  let c := s.image.cam
  if c.streaming ∧ l.num.toNat % c.lineStep = 0 then placeLine l (streamedLine c pixels) s else s

/-! ## Line end -/

/-- The steps at the end of a line (R131). -/
def endLine (l : CameraLine) (pixels : List Byte) (s : State) : State :=
  let s := webCheck pixels (reportCamera (s.setImage { s.image with line := none, abandoned := 0 }))
  let fresh := s.image.newRepeat l
  let s := if fresh then closeWindows (fun _ => true) s else s
  let s :=
    if fresh then repeatBoundary l s
    else if s.image.prevIndex.isNone then s.setImage { s.image with repeatNo := l.repeatNo }
    else s
  let s := s.setImage { s.image with windows := s.image.windows.map (Window.look l.stamp pixels) }
  let s := closeWindows (fun w => decide (w.cfg.p1 ≤ l.stamp)) s
  let s := streamLine l fresh pixels s
  s.setImage { s.image with prevIndex := some (lineIndex s.image.cam l) }

/-! ## Commands -/

/-- TRIGGER_EXPIRY: the scheduled line trigger fires (R129). -/
def execTriggerExpiry (m : Moment) (s : State) : Host.Outcome State Fault Refusal :=
  let s := s.tick m
  .next (match s.image.trigger with
    | some t =>
      if t ≤ s.clock then
        let x := s.image.fire s.clock
        let s := s.setImage x.1
        if x.2 then report .lineOverrun s else s
      else s
    | none => s)

/-- LINE_END: the Wc-th pixel of the line in progress has been received. Pixels while no line is in
progress are discarded (R130, R131). A line ends at its Wc-th pixel, so another number of pixels is no event; it
changes nothing (assumption log 10). -/
def execLineEnd (m : Moment) (pixels : List Byte) (s : State) :
    Host.Outcome State Fault Refusal :=
  let s := s.tick m
  .next (match s.image.line with
    | some l => if pixels.length = s.image.cam.pixels then endLine l pixels s else s
    | none => s)

/-- CAMERA_TIMEOUT: the line in progress has not ended in its time and is abandoned (R130). -/
def execCameraTimeout (m : Moment) (s : State) : Host.Outcome State Fault Refusal :=
  let s := s.tick m
  .next (if timedOut s then abandonLine s else s)

end Sys2Proof.Machine
end

