-- ==== Sys2Proof/Machine/Cycle.lean ====
section
/-! DEFINITION. The axis step (5.3, 5.5), the apply events of the cycle context, the delivery of a C frame
(4.3), and the commands that are expiries of the Motion Unit's timers. -/

namespace Sys2Proof.Machine

/-! ## The axis step -/

/-- Move a value toward a target by at most a slew (R101, R102). -/
def slew (x target : Int) (by_ : Nat) : Int :=
  if x < target then min (x + by_) target
  else if target < x then max (x - by_) target
  else x

/-- The setpoint of a gear position, a phase and a correction (R102, R106). -/
def setpointOf (gear : BitVec 32) (phase corr : Int) : BitVec 32 :=
  gear + BitVec.ofInt 32 (phase + corr)

/-- The whole axis counts owed for an advance (R100, steps 1 and 2). -/
def gearCounts (r : AxisRecord) (adv : Int) : Int :=
  ((r.acc : Int) + r.cfg.num * adv) / ((256 * r.cfg.den : Nat) : Int)

/-- The remainder kept (R100, step 3). -/
def gearRest (r : AxisRecord) (adv : Int) : Nat :=
  (((r.acc : Int) + r.cfg.num * adv) % ((256 * r.cfg.den : Nat) : Int)).toNat

/-- The step of a COUPLED axis: gear, phase, correction, setpoint (R100 to R102). -/
def gearStep (adv : Int) (r : AxisRecord) : AxisRecord :=
  let q := gearCounts r adv
  let gear := r.gear + BitVec.ofInt 32 q
  let phase := slew r.phase r.phaseTarget r.cfg.phaseSlew
  let corr := slew r.corr r.corrTarget r.cfg.corrSlew
  { r with
    acc := gearRest r adv, gear := gear, step := q, phase := phase, corr := corr,
    setpoint := setpointOf gear phase corr }

/-- The coastdown step (R106). -/
def coastStep (r : AxisRecord) : AxisRecord :=
  let step := slew r.step 0 r.cfg.decel
  let gear := r.gear + BitVec.ofInt 32 step
  { r with
    step := step, gear := gear, setpoint := setpointOf gear r.phase r.corr,
    state := if step = 0 then .held else .coastdown }

/-- The step of one axis at an apply event (R99). -/
def axisStep (adv : Int) (r : AxisRecord) : AxisRecord :=
  match r.state with
  | .coupled => gearStep adv r
  | .coastdown => coastStep r
  | .standby | .held | .off | .disabled => r

/-- The axis table takes its four steps (R99). -/
def stepAxes (adv : Int) (s : State) : State :=
  s.setAxes { s.axes with recs := s.axes.recs.map (axisStep adv) }

/-! ## Apply events -/

/-- The miss timer starts for the period in force (R80). -/
def startMiss (s : State) : State :=
  let t := s.ctx.period
  s.setCtx { s.ctx with missTimer := some (s.clock + (t + t / 4) * Config.usec) }

/-- The base the Image Unit receives (R82, step 7). -/
def State.imageBase (s : State) : ImageBase :=
  { pos := s.ctx.pos, speed := s.ctx.speed, period := s.ctx.period, at_ := s.clock,
    repeats := s.ctx.repeats }

/-- Hand the base to the Image Unit (R82, step 7). -/
def handBase (take : Bool) (s : State) : State :=
  s.setImage (s.image.takeBase take s.imageBase)

/-- Whether an advance departs from the nominal one by more than J (R82, step 2). -/
def jumped (limit : Nat) (adv nominal : Int) : Bool :=
  limit != 0 && decide (limit * 256 < (adv - nominal).natAbs)

/-- Report MASTER_JUMP if the check found a jump (R82, step 2). -/
def reportJump (jump : Bool) (s : State) : State := if jump then report .masterJump s else s

/-- The repeat counter after an apply (R83). -/
def repeatsAfter (repeats : BitVec 16) (diff : Int) (old new : BitVec 28) : BitVec 16 :=
  if 0 < diff ∧ new.toNat < old.toNat then repeats + 1
  else if diff < 0 ∧ old.toNat < new.toNat then repeats - 1
  else repeats

/-- Steps 5 to 7 of R82. -/
def applySteps (take : Bool) (adv : Int) (s : State) : State :=
  handBase take (startBatch (stepAxes adv s))

/-- An exact apply whose frame's master state is STOPPING or STOPPED cancels the stop-confirm timer
(R82, step 8; R109). -/
def confirmStop (st : MasterState) (s : State) : State :=
  match st with
  | .stopping | .stopped => s.setAxes { s.axes with stopTimer := none }
  | .ramping | .running => s

/-- The master difference of an exact apply (R82, step 1). -/
def exactDifference (c : CycleCtx) (f : PendingCycle) : Int :=
  (f.pos - c.pos).toInt + c.delta.getD 0

/-- An exact apply (R82). -/
def applyExact (f : PendingCycle) (s : State) : State :=
  let c := s.ctx
  let diff := exactDifference c f
  let nominal : Int := ((c.speed * c.period / 1000 : Nat) : Int)
  let jump := jumped s.station.cfg.jumpLimit diff nominal
  let s := reportJump jump s
  let s := s.setCtx { s.ctx with
    state := .tracking, lastCycle := f.num, pos := f.pos, speed := f.speed, period := f.period,
    lastMaster := f.state, rem := 0, pending := none, delta := none, misses := 0,
    repeats := repeatsAfter c.repeats diff c.pos f.pos }
  let s := applySteps false (if jump then nominal else diff) s
  startMiss (confirmStop f.state s)

/-- The context goes LOST (R81, R105). -/
def enterLost (s : State) : State :=
  let s := s.setCtx { s.ctx with
    state := .lost, pending := none, delta := none, missTimer := none,
    localTimer := some (s.clock + s.ctx.period * Config.usec) }
  let s := setCondition .cycleLoss true s
  s.setAxes s.axes.coast

/-- An extrapolated apply (R80, R82), with the passage to LOST at its end (R81). -/
def applyExtrapolated (s : State) : State :=
  let c := s.ctx
  let x := c.speed * c.period + c.rem
  let nominal : Int := ((x / 1000 : Nat) : Int)
  let diff := nominal + c.delta.getD 0
  let pos := c.pos + BitVec.ofNat 28 (x / 1000)
  let jump := jumped s.station.cfg.jumpLimit diff nominal
  let s := reportJump jump s
  let s := s.countMotion fun n => { n with missedCycle := bump n.missedCycle }
  let s := s.setCtx { s.ctx with
    state := .coasting, lastCycle := c.lastCycle + 1, pos := pos, rem := x % 1000, delta := none,
    misses := c.misses + 1, repeats := repeatsAfter c.repeats diff c.pos pos }
  let s := startMiss (applySteps false (if jump then nominal else diff) s)
  if s.station.cfg.missLimit ≤ c.misses + 1 then enterLost s else s

/-- A base take (R82). -/
def baseTake (f : PendingCycle) (s : State) : State :=
  let s := setCondition .cycleLoss false s
  let s := s.setCtx { s.ctx with
    state := .tracking, lastCycle := f.num, pos := f.pos, speed := f.speed, period := f.period,
    lastMaster := f.state, rem := 0, pending := none, delta := none, misses := 0,
    localTimer := none }
  startMiss (applySteps true 0 s)

/-- The pending frame falls due, and is examined again after each extrapolated apply it causes (R79). The
number bounds the applies: at the miss limit the context goes LOST and the frame is discarded. -/
def pendingDue : Nat → State → State
  | 0, s => s
  | n + 1, s =>
    match s.ctx.pending with
    | some f =>
      if s.clock < f.due then s
      else
        match s.ctx.state with
        | .idle | .lost => baseTake f s
        | .tracking | .coasting =>
          if f.num = s.ctx.lastCycle + 1 then applyExact f s
          else pendingDue n (applyExtrapolated s)
    | none => s

/-! ## Delivery of a C frame -/

/-- Count a stale frame (R78, R79). -/
def countStale (s : State) : State :=
  s.countMotion fun n => { n with staleCycle := bump n.staleCycle }

/-- A frame whose apply time has passed is counted and reported (R77). -/
def lateCycle (late : Bool) (s : State) : State :=
  if late then
    report .cycleLate (s.countMotion fun n => { n with lateCycle := bump n.lateCycle })
  else s

/-- Whether the apply time of a frame has passed at its arrival (R77). -/
def isLate (age : Nat) (c : CycleBody) : Bool := decide (100 * c.offset < 100 * (age / 100))

/-- The pending frame a C frame becomes: its apply time, or its arrival if that has passed (R77). -/
def pendingOf (clock age : Nat) (c : CycleBody) : PendingCycle :=
  { num := c.num, pos := c.pos, speed := c.speed, period := c.period, offset := c.offset,
    state := c.state,
    due := if isLate age c then clock else clock + 100 * c.offset - 100 * (age / 100) }

/-- Whether cycle number `x` is ahead of `y` by 1 to 32,767 (R78). -/
def aheadOf (x y : BitVec 16) : Bool := decide (0 < (x - y).toInt)

/-- A C frame becomes the pending frame, or is compared with the one that waits (R78, R79). That a late frame
discarded in that comparison counts STALE_CYCLE alone, and no LATE_CYCLE, is the model's choice (R77; assumption
log 62). -/
def pendCycle (late : Bool) (f : PendingCycle) (s : State) : State :=
  match s.ctx.pending with
  | none => lateCycle late (s.setCtx { s.ctx with pending := some f })
  | some p =>
    if aheadOf f.num p.num then
      lateCycle late (countStale (s.setCtx { s.ctx with pending := some f }))
    else countStale s

/-- A resync: the base is corrected and δ is set (R78). -/
def resync (late : Bool) (f : PendingCycle) (s : State) : State :=
  let c := s.ctx
  lateCycle late (s.setCtx { c with
    delta := some (f.pos - c.pos).toInt, pos := f.pos, speed := f.speed, period := f.period,
    lastMaster := f.state, rem := 0 })

/-- A C frame that passes the source check is classified (R77, R78). -/
def classifyCycle (age : Nat) (c : CycleBody) (s : State) : State :=
  let late := isLate age c
  let f := pendingOf s.clock age c
  match s.ctx.state with
  | .idle | .lost => pendCycle late f s
  | .tracking | .coasting =>
    if c.num = s.ctx.lastCycle then
      if s.ctx.state = .coasting ∧ s.ctx.delta = none then resync late f s else countStale s
    else if aheadOf c.num s.ctx.lastCycle then pendCycle late f s
    else countStale s

/-- Whether any source is learnt anew: no source has been applied and no base frame waits (R76). -/
def CycleCtx.learns (c : CycleCtx) : Bool :=
  match c.state, c.pending with
  | .idle, none | .lost, none => true
  | _, _ => false

/-- A C frame delivered to the Motion Unit (R76). -/
def takeCycle (src : Nat) (tag : BitVec 16) (age : Nat) (c : CycleBody) (s : State) : State :=
  if s.ctx.learns then
    classifyCycle age c (s.setCtx { s.ctx with learnt := some (src, tag) })
  else if s.ctx.learnt = some (src, tag) then classifyCycle age c s
  else
    report .cycleConflict (s.countMotion fun n => { n with foreignCycle := bump n.foreignCycle })

/-- A C frame from the ring delivered to the Motion Unit (R29, R76). -/
def deliverCycle (s : State) (f : Frame) : State :=
  match f.body with
  | .bytes b =>
    match readCycle b with
    | some c => takeCycle f.hdr.src f.hdr.tag f.hdr.age c s
    | none => s
  | _ => s

/-! ## The cycle timer -/

/-- Steps 1 to 4 of an expiry of the cycle timer, and the restart of the timer (R69, R70). -/
def Generator.advance (g : Generator) (t : CycleTimer) (now : Nat) : Generator :=
  let x := g.speed * t.period + g.rem
  let g := { g with pos := g.pos + BitVec.ofNat 28 (x / 1000), rem := x % 1000 }
  let g := ({ g with speed := g.ramped } : Generator).settle
  { g with
    cycle := g.cycle + 1,
    timer := some { period := g.cfg.period, due := now + g.cfg.period * Config.usec } }

/-- The C body of the cycle now starting (R70, step 5). -/
def Generator.body (g : Generator) (level : Level) : CycleBody :=
  { num := g.cycle, pos := g.pos, speed := g.speed, period := g.cfg.period, offset := g.cfg.offset,
    state := g.state, level := level }

/-- The issue of a C frame: to the urgent queue unless the address is 0, and to the station's own context
(R70, step 5; R85). -/
def issueCycle (s : State) : State :=
  let c := s.gen.body s.trip.levels.eff
  let s := if s.station.address = 0 then s else afterQueue (queueCycle s s.gen.cfg.stream c)
  takeCycle s.station.address s.tag 0 c s

/-! ## Commands -/

/-- CYCLE_TIMER_EXPIRY: the generator advances, ramps and issues a cycle (R70). -/
def execCycleTimerExpiry (m : Moment) (s : State) : Host.Outcome State Fault Refusal :=
  let s := s.tick m
  .next (match s.gen.timer with
    | some t =>
      if t.due ≤ s.clock then issueCycle (s.setGen (s.gen.advance t s.clock)) else s
    | none => s)

/-- PENDING_FRAME_DUE: the pending frame reaches its apply time (R79). -/
def execPendingFrameDue (m : Moment) (s : State) : Host.Outcome State Fault Refusal :=
  let s := s.tick m
  .next (pendingDue (s.station.cfg.missLimit + 1) s)

/-- MISS_TIMER_EXPIRY: an extrapolated apply, unless the next cycle is pending (R80). -/
def execMissTimerExpiry (m : Moment) (s : State) : Host.Outcome State Fault Refusal :=
  let s := s.tick m
  .next (match s.ctx.missTimer with
    | some due =>
      if due ≤ s.clock then
        let s := s.setCtx { s.ctx with missTimer := none }
        if s.ctx.pending.any fun f => f.num == s.ctx.lastCycle + 1 then s else applyExtrapolated s
      else s
    | none => s)

/-- LOCAL_TIMER_EXPIRY: a local apply in LOST (R81). -/
def execLocalTimerExpiry (m : Moment) (s : State) : Host.Outcome State Fault Refusal :=
  let s := s.tick m
  .next (match s.ctx.localTimer with
    | some due =>
      if due ≤ s.clock then
        startBatch (stepAxes 0 (s.setCtx { s.ctx with
          localTimer := some (s.clock + s.ctx.period * Config.usec) }))
      else s
    | none => s)

/-- STOP_CONFIRM_EXPIRY: every COUPLED axis coasts down and STOP_UNCONFIRMED is reported (R110). -/
def execStopConfirmExpiry (m : Moment) (s : State) : Host.Outcome State Fault Refusal :=
  let s := s.tick m
  .next (match s.axes.stopTimer with
    | some due =>
      if due ≤ s.clock then
        report .stopUnconfirmed (s.setAxes { s.axes.coast with stopTimer := none })
      else s
    | none => s)

end Sys2Proof.Machine
end

