-- ==== Sys2Proof/Machine/Control.lean ====
section
/-! DEFINITION. Station Control: answers, the management timers, what every management command does around
its own effects (R184, R191), and a change of the station address (R63, R148, R166). -/

namespace Sys2Proof.Machine

/-! ## Answers -/

/-- What a command answers: the response code, the entry count and the response data (R184). -/
structure Answer where
  status : Resp
  count : Nat
  data : RespData
  deriving DecidableEq, Repr

/-- An answer without data. -/
def Answer.plain (status : Resp) : Answer := { status := status, count := 0, data := .none }

/-- Whether a response code says that the command was executed (R184). -/
def executed : Resp → Bool
  | .ok | .clamped => true
  | _ => false

/-- The body length of a response: the 8-byte management header and its data, 16 bytes a digest (R12, R190).
How many bytes other data takes is a free value below 1,017 (assumption log 4). -/
def responseLen (d : RespData) : Nat :=
  match d with
  | .none => 8
  | .digests ds => 8 + 16 * ds.length
  | d => 8 + Config.dataSize d % 1017

/-- The body of a response. Of `cmd` only the command code is meant (R184). -/
def responseBody (cmd : MgmtCmd) (hostTag : BitVec 16) (a : Answer) (overflow : Bool) : Body :=
  .mgmt { kind := .response, cmd := cmd, hostTag := hostTag, status := a.status, force := false,
          overflow := overflow, count := a.count, lengthOk := true, data := a.data }

/-- Place an answer directly in the frame port receive queue, under the station's own header; the sequence
counter is not advanced (R184, R7). That the answer to a sweep refused at its move has FORCE and OVERFLOW clear is
the model's choice (R190; assumption log 59). -/
def answerPort (cmd : MgmtCmd) (hostTag : BitVec 16) (a : Answer) (s : State) : State :=
  deliverPort s
    { hdr := s.ownHeader .m 0 s.station.address (responseLen a.data),
      body := responseBody cmd hostTag a false }

/-- Send the response of a command to where the command came from; a broadcast has none (R184). -/
def respond (e : Envelope) (cmd : MgmtCmd) (a : Answer) (s : State) : State :=
  match e.via with
  | .ring src =>
    insertLocal s .m 0 src (responseLen a.data) (responseBody cmd e.hostTag a false)
  | .broadcast => s
  | .port => answerPort cmd e.hostTag a s

/-- Count a broadcast command that failed a check (R184). -/
def countRefused (e : Envelope) (status : Resp) (s : State) : State :=
  if e.via = .broadcast ∧ executed status = false then
    s.countStation fun c => { c with broadcastRefused := bump c.broadcastRefused }
  else s

/-- A command that fails checks 1 to 3 of R184: it is answered and changes nothing. -/
def refuse (e : Envelope) (cmd : MgmtCmd) (status : Resp) (s : State) : State :=
  respond e cmd (Answer.plain status) (countRefused e status s)

/-! ## Management timers -/

/-- The expiry of a management timer started now, none when its timeout is 0 (R191). -/
def timerFrom (clock ms : Nat) : Option Nat :=
  if ms = 0 then none else some (clock + ms * Config.msec)

/-- Both management timers restart, and their conditions end (R191). -/
def restartTimers (s : State) : State :=
  let c := s.station.cfg
  let s := s.setStation { s.station with
    shortTimer := timerFrom s.clock c.shortTimeout, longTimer := timerFrom s.clock c.longTimeout }
  setCondition .mgmtLost false (setCondition .mgmtSilent false s)

/-! ## The course of a command -/

/-- Count a command that passed checks 1 to 3 (R184). -/
def countTaken (s : State) : State :=
  s.countStation fun c => { c with commandsTaken := bump c.commandsTaken }

/-- A management command at Station Control (R184, R191): check 3, COMMANDS_TAKEN, the command's own
effects, the restart of the timers, and the response. `wellFormed` is check 3; `fromBroadcast` says
whether a broadcast of the command is executed. That one which is not is made none of its own checks, and so is
counted COMMANDS_TAKEN and never BROADCAST_REFUSED by them, is the model's choice (assumption log 69). A station
with address 0 is delivered no command (R24, R192). -/
def stationCommand (e : Envelope) (cmd : MgmtCmd) (wellFormed fromBroadcast : Bool)
    (run : State → State × Answer) (s : State) : State :=
  if s.station.address = 0 then s
  else if !(e.lengthOk && wellFormed) then refuse e cmd .badLength s
  else
    let s := countTaken s
    if e.via = .broadcast ∧ fromBroadcast = false then restartTimers s
    else
      let r := run s
      respond e cmd r.2 (restartTimers (countRefused e r.2.status r.1))

/-- A command whose own checks are one function and whose effects are another. -/
def checked (check : State → Option Resp) (act : State → State × Answer) (s : State) :
    State × Answer :=
  match check s with
  | some r => (s, Answer.plain r)
  | none => act s

/-- Effects answered OK. -/
def okAfter (f : State → State) (s : State) : State × Answer := (f s, Answer.plain .ok)

/-- A command that names an axis: an index above 3 is refused with BAD_INDEX. -/
def onAxis (axis : Nat) (run : Fin 4 → State → State × Answer) (s : State) : State × Answer :=
  if axis < 4 then run (Fin.ofNat 4 axis) s else (s, Answer.plain .badIndex)

/-! ## Publishing and the address -/

/-- A CHANGE frame where the station begins to publish or its trip stream changes (R161). -/
def settlePublish (before : Option Nat) (s : State) : State :=
  match before, s.publishStream with
  | none, some _ => sendTrip false s
  | some x, some y => if x = y then s else sendTrip false s
  | _, none => s

/-- The four local insert queues are emptied (R63, R45). -/
def Switch.emptyLocal (w : Switch) : Switch :=
  { w with localK := [], localM := [], localS := [], localI := [] }

/-- The remote entry of the station's own new address is removed (R166). -/
def dropOwnRemote (s : State) : State :=
  match remoteFind s.trip.remote s.station.address with
  | some _ =>
    recompute (s.setTrip { s.trip with remote := remoteErase s.trip.remote s.station.address })
  | none => s

/-- The station address changes, publishing apart (R63, R148, R166). -/
def changeAddress (new : Nat) (s : State) : State :=
  if new = s.station.address then s
  else
    let s := s.setStation { s.station with address := new }
    let w := { s.sw with clash := none }
    dropOwnRemote (s.setSw (if new = 0 then w.emptyLocal else w))

/-- The station takes an address by enumeration, and publishes from then on if it did not (R63). -/
def setAddress (new : Nat) (s : State) : State :=
  settlePublish s.publishStream (changeAddress new s)

end Sys2Proof.Machine
end

