-- ==== Sys2Proof/Machine/Commands.lean ====
section
/-! DEFINITION. The axis commands (R90 to R96), the master commands (R72, R73) and the fault commands (R159,
R160, R165). -/

namespace Sys2Proof.Machine

/-! ## Axis commands -/

/-- Whether a fault that keeps an axis from being enabled is latched (R90, check 4). -/
def axisFaulted (a : Fin 4) (s : State) : Bool :=
  s.trip.isLatched (.driveFault a) || s.trip.isLatched (.driveLink a) ||
  s.trip.isLatched (.followError a)

/-- The axis and the Drive Link at an ENABLE AXIS that is taken (R90, R123). -/
def enableAxis (a : Fin 4) (s : State) : State :=
  let r := s.axis a
  driveEnabled a (s.setAxis a { r with state := .standby, capture := true, release := false })

/-- ENABLE AXIS on an axis of the table (R90). -/
def runEnable (a : Fin 4) (s : State) : State × Answer :=
  if axisEnabled (s.axis a).state then (s, Answer.plain .ok)
  else if s.trip.levels.eff = .driveOff then (s, Answer.plain .tripped)
  else if axisFaulted a s then (s, Answer.plain .notReady)
  else okAfter (enableAxis a) s

/-- Checks 2 to 8 of COUPLE (R92). -/
def checkCouple (a : Fin 4) (s : State) : Option Resp :=
  let r := s.axis a
  match r.state with
  | .coupled => some .inUse
  | .coastdown => some .notAtRest
  | .disabled | .off => some .notReady
  | .standby | .held =>
    if 1 < s.trip.levels.eff.rank then some .tripped
    else if s.ctx.state ≠ .tracking then some .notReady
    else if s.ctx.speed ≠ 0 then some .notAtRest
    else
      match (s.driveAxis a).status with
      | some st => if r.capture || !st.ready || !st.enabled then some .notReady else none
      | none => some .notReady

/-- The axis record at a COUPLE that is taken (R92). -/
def coupledRecord (actual : BitVec 32) (r : AxisRecord) : AxisRecord :=
  { r with
    state := .coupled, corr := 0, corrTarget := 0, phase := r.phaseTarget,
    gear := actual - BitVec.ofInt 32 r.phaseTarget, acc := 0, step := 0, setpoint := actual }

/-- The last actual position the drive of an axis reported, 0 where there is no record. -/
def State.lastActual (s : State) (a : Fin 4) : BitVec 32 :=
  match (s.driveAxis a).status with
  | some st => st.actual
  | none => 0

/-- COUPLE on an axis of the table (R92). -/
def runCouple (a : Fin 4) (s : State) : State × Answer :=
  checked (checkCouple a)
    (okAfter fun s =>
      reportCorrLimit a (s.setAxis a (coupledRecord (s.lastActual a) (s.axis a)))) s

/-- DECOUPLE on an axis of the table (R93). -/
def runDecouple (a : Fin 4) (s : State) : State × Answer :=
  let r := s.axis a
  if r.state ≠ .coupled then (s, Answer.plain .notReady)
  else if s.ctx.speed ≠ 0 then (s, Answer.plain .notAtRest)
  else
    let s := s.setAxis a { r with state := .standby }
    (s.setAxes s.axes.settleStop, Answer.plain .ok)

/-- An axis passes to DISABLED with its release exchange pending (R94, R123, R109). -/
def disableAxis (a : Fin 4) (s : State) : State :=
  let s := s.setAxis a { s.axis a with state := .disabled, release := true, capture := false }
  driveArbitrate (driveDisabled a (s.setAxes s.axes.settleStop))

/-- DISABLE AXIS on an axis of the table (R94). -/
def runDisable (a : Fin 4) (s : State) : State × Answer :=
  if (s.axis a).state = .disabled then (s, Answer.plain .ok) else okAfter (disableAxis a) s

/-- SET PHASE on an axis of the table (R95). -/
def runSetPhase (target : Int) (a : Fin 4) (s : State) : State × Answer :=
  let r := s.axis a
  if axisEnabled r.state then
    let lim := clampInt (-(2 ^ 30)) (2 ^ 30) target
    (s.setAxis a { r with phaseTarget := lim },
     Answer.plain (if lim = target then .ok else .clamped))
  else (s, Answer.plain .notReady)

/-- RESET CORRECTION on an axis of the table (R96). -/
def runResetCorrection (a : Fin 4) (s : State) : State × Answer :=
  okAfter (fun s => reportCorrLimit a (s.setAxis a { s.axis a with corrTarget := 0 })) s

/-! ## Master commands -/

/-- SET SPEED (R72). -/
def runSetSpeed (target : Nat) (s : State) : State × Answer :=
  let g := s.gen
  if s.strap = false then (s, Answer.plain .notMaster)
  else if 8388607 < target then (s, Answer.plain .badValue)
  else if g.cfg.cycleRun = 0 then (s, Answer.plain .notReady)
  else if 2 ≤ s.trip.levels.eff.rank then (s, Answer.plain .tripped)
  else
    (s.setGen ({ g with target := min target g.cfg.vMax, limit := .accel } : Generator).settle,
     Answer.plain (if target ≤ g.cfg.vMax then .ok else .clamped))

/-- MASTER STOP (R73). -/
def runMasterStop (s : State) : State × Answer :=
  let g := s.gen
  if s.strap = false then (s, Answer.plain .notMaster)
  else if g.state = .stopping then (s, Answer.plain .ok)
  else
    (s.setGen ({ g with target := 0, limit := .stop } : Generator).settle, Answer.plain .ok)

/-! ## Fault commands -/

/-- Latched faults of the named groups that a clear retains (R159). -/
def retained (groups : List Nat) (tree : List FaultEntry) : Nat :=
  tree.countP fun e => groups.contains (faultGroup e.id) && e.latched

/-- The Trip Unit after a CLEAR FAULTS, the levels apart (R159). -/
def clearTree (groups : List Nat) (t : TripUnit) : TripUnit :=
  { t with
    tree := t.tree.map (clearEntry groups),
    hostLevel := if groups.contains 6 then none else t.hostLevel }

/-- CLEAR FAULTS (R159). -/
def runClearFaults (groups : List Nat) (s : State) : State × Answer :=
  if groups.isEmpty || groups.any (fun g => g == 0 || decide (7 < g)) then
    (s, Answer.plain .badValue)
  else
    let t := clearTree groups s.trip
    (recompute (s.setTrip t),
     { status := .ok, count := 0, data := .retained (retained groups t.tree) })

/-- HOST_TRIP latches or rises to a level; the Bool says whether the bit or the level changed (R160). -/
def hostTrip (level : Level) (t : TripUnit) : TripUnit × Bool :=
  let old := if t.isLatched .hostTrip then t.hostLevel.getD .clear else .clear
  if old.rank < level.rank then ({ t.latch .hostTrip with hostLevel := some level }, true)
  else (t, false)

/-- TRIP (R160). -/
def runTrip (level : Nat) (s : State) : State × Answer :=
  match Level.ofNat? level with
  | none | some .clear => (s, Answer.plain .badValue)
  | some l =>
    let x := hostTrip l s.trip
    (if x.2 then recompute (s.setTrip x.1) else s, Answer.plain .ok)

/-- CLEAR REMOTE (R165). -/
def runClearRemote (s : State) : State × Answer :=
  let kept := s.trip.remote.filter fun e => !e.stale
  let removed := s.trip.remote.length - kept.length
  (recompute (s.setTrip { s.trip with remote := kept }),
   { status := .ok, count := 0, data := .remotes removed kept.length })

/-! ## The commands as Station Control takes them -/

/-- ENABLE AXIS at Station Control. -/
def commandEnable (e : Envelope) (axis : Nat) (s : State) : State :=
  stationCommand e (.enableAxis axis) true true (onAxis axis runEnable) s

/-- COUPLE at Station Control. -/
def commandCouple (e : Envelope) (axis : Nat) (s : State) : State :=
  stationCommand e (.couple axis) true true (onAxis axis runCouple) s

/-- DECOUPLE at Station Control. -/
def commandDecouple (e : Envelope) (axis : Nat) (s : State) : State :=
  stationCommand e (.decouple axis) true true (onAxis axis runDecouple) s

/-- DISABLE AXIS at Station Control. -/
def commandDisable (e : Envelope) (axis : Nat) (s : State) : State :=
  stationCommand e (.disableAxis axis) true true (onAxis axis runDisable) s

/-- SET PHASE at Station Control. -/
def commandSetPhase (e : Envelope) (axis : Nat) (target : Int) (s : State) : State :=
  stationCommand e (.setPhase axis target) true true (onAxis axis (runSetPhase target)) s

/-- RESET CORRECTION at Station Control. -/
def commandResetCorrection (e : Envelope) (axis : Nat) (s : State) : State :=
  stationCommand e (.resetCorrection axis) true true (onAxis axis runResetCorrection) s

/-- SET SPEED at Station Control. -/
def commandSetSpeed (e : Envelope) (target : Nat) (s : State) : State :=
  stationCommand e (.setSpeed target) true true (runSetSpeed target) s

/-- MASTER STOP at Station Control. -/
def commandMasterStop (e : Envelope) (s : State) : State :=
  stationCommand e .masterStop true true runMasterStop s

/-- CLEAR FAULTS at Station Control. -/
def commandClearFaults (e : Envelope) (groups : List Nat) (s : State) : State :=
  stationCommand e (.clearFaults groups) true true (runClearFaults groups) s

/-- TRIP at Station Control. -/
def commandTrip (e : Envelope) (level : Nat) (s : State) : State :=
  stationCommand e (.trip level) true true (runTrip level) s

/-- CLEAR REMOTE at Station Control. -/
def commandClearRemote (e : Envelope) (s : State) : State :=
  stationCommand e .clearRemote true true runClearRemote s

/-! ## Commands -/

/-- ENABLE_AXIS (R90). -/
def execEnableAxis (m : Moment) (e : Envelope) (axis : Nat) (s : State) :
    Host.Outcome State Fault Refusal :=
  .next (commandEnable e axis (s.tick m))

/-- COUPLE (R92). -/
def execCouple (m : Moment) (e : Envelope) (axis : Nat) (s : State) :
    Host.Outcome State Fault Refusal :=
  .next (commandCouple e axis (s.tick m))

/-- DECOUPLE (R93). -/
def execDecouple (m : Moment) (e : Envelope) (axis : Nat) (s : State) :
    Host.Outcome State Fault Refusal :=
  .next (commandDecouple e axis (s.tick m))

/-- DISABLE_AXIS (R94). -/
def execDisableAxis (m : Moment) (e : Envelope) (axis : Nat) (s : State) :
    Host.Outcome State Fault Refusal :=
  .next (commandDisable e axis (s.tick m))

/-- SET_PHASE (R95). -/
def execSetPhase (m : Moment) (e : Envelope) (axis : Nat) (target : Int) (s : State) :
    Host.Outcome State Fault Refusal :=
  .next (commandSetPhase e axis target (s.tick m))

/-- RESET_CORRECTION (R96). -/
def execResetCorrection (m : Moment) (e : Envelope) (axis : Nat) (s : State) :
    Host.Outcome State Fault Refusal :=
  .next (commandResetCorrection e axis (s.tick m))

/-- SET_SPEED (R72). -/
def execSetSpeed (m : Moment) (e : Envelope) (target : Nat) (s : State) :
    Host.Outcome State Fault Refusal :=
  .next (commandSetSpeed e target (s.tick m))

/-- MASTER_STOP (R73). -/
def execMasterStop (m : Moment) (e : Envelope) (s : State) : Host.Outcome State Fault Refusal :=
  .next (commandMasterStop e (s.tick m))

/-- CLEAR_FAULTS (R159). -/
def execClearFaults (m : Moment) (e : Envelope) (groups : List Nat) (s : State) :
    Host.Outcome State Fault Refusal :=
  .next (commandClearFaults e groups (s.tick m))

/-- TRIP (R160). -/
def execTrip (m : Moment) (e : Envelope) (level : Nat) (s : State) :
    Host.Outcome State Fault Refusal :=
  .next (commandTrip e level (s.tick m))

/-- CLEAR_REMOTE (R165). -/
def execClearRemote (m : Moment) (e : Envelope) (s : State) : Host.Outcome State Fault Refusal :=
  .next (commandClearRemote e (s.tick m))

end Sys2Proof.Machine
end

