-- ==== Sys2Proof/Machine/Writes.lean ====
section
/-! DEFINITION. WRITE (R187): the checks and the effects of each of the eleven writable tables. -/

namespace Sys2Proof.Machine

/-! ## All or none -/

/-- A check of an entry that fails with a code. -/
def failIf (b : Bool) (r : Resp) : Option Resp := if b then some r else none

/-- The first of an entry's checks that fails, in the order its table's rule lists them (R187). -/
def firstFail (l : List (Option Resp)) : Option Resp := l.findSome? id

/-- The first entry that fails its checks, with its position counted from `n` (R187). -/
def firstFailure {α : Type} (check : α → Option Resp) : Nat → List α → Option (Resp × Nat)
  | _, [] => none
  | n, e :: es =>
    match check e with
    | some r => some (r, n)
    | none => firstFailure check (n + 1) es

/-- A WRITE carries 1 to 8 entries (R187). -/
def countOk {α : Type} (es : List α) : Bool := decide (1 ≤ es.length) && decide (es.length ≤ 8)

/-- A WRITE: every entry is checked, and all are written or none (R187). -/
def runWrite {α : Type} (check : State → α → Option Resp) (es : List α)
    (act : State → State × Answer) (s : State) : State × Answer :=
  match firstFailure (check s) 0 es with
  | some (r, n) => (s, { status := r, count := 0, data := .failing n })
  | none => act s

/-- Whether a number lies in a range with both ends. -/
def within (lo x hi : Nat) : Bool := decide (lo ≤ x) && decide (x ≤ hi)

/-- The record a single-entry table takes: the last one written (R187). -/
def lastRecord {α : Type} (old : α) (es : List (Nat × α)) : α := es.foldl (fun _ e => e.2) old

/-- A stream id is 0 to 255. -/
def streamOk : Option Nat → Bool
  | some n => decide (n ≤ 255)
  | none => true

/-! ## STATION -/

/-- The ranges of R188, the address apart. -/
def stationRanges (r : StationRecord) : Bool :=
  within 0 r.linkA 65535 && within 0 r.linkB 65535 && within 1 r.heal 1000 &&
  within 1 r.missLimit 15 && within 0 r.jumpLimit 1048575 && within 10 r.stopConfirm 1000 &&
  within 1 r.driveLimit 7 && r.filter.all (fun t => decide (t ≤ 10)) && streamOk r.tripStream &&
  within 5 r.refresh 1000 && (r.shortTimeout == 0 || within 10 r.shortTimeout 10000) &&
  (r.longTimeout == 0 || within 100 r.longTimeout 60000)

/-- The checks of a STATION entry (R188), the index first: the model's choice (assumption log 63). -/
def checkStation (via : Via) (_s : State) (e : Nat × StationEntry) : Option Resp :=
  firstFail [failIf (e.1 != 0) .badIndex,
    failIf (!(decide (e.2.address ≤ 62) && stationRanges e.2.fields)) .badValue,
    failIf (via == .broadcast && e.2.address != 0) .badValue]

/-- The address after the entries of a write: 0 keeps (R188). -/
def writtenAddress (old : Nat) (es : List (Nat × StationEntry)) : Nat :=
  es.foldl (fun a e => if e.2.address = 0 then a else e.2.address) old

/-- Report the DRIVE_LINK condition of every axis (R119). That they are taken in the order 0 to 3 is the model's
choice (assumption log 54). -/
def reportLinks (s : State) : State :=
  [(0 : Fin 4), 1, 2, 3].foldl (fun s a => reportDriveLink a s) s

/-- A timer of a timeout written to 0 stops and its condition ends (R191). -/
def stopZeroTimeouts (s : State) : State :=
  let c := s.station.cfg
  let s :=
    if c.shortTimeout = 0 then
      setCondition .mgmtSilent false (s.setStation { s.station with shortTimer := none })
    else s
  if c.longTimeout = 0 then
    setCondition .mgmtLost false (s.setStation { s.station with longTimer := none })
  else s

/-- The effects of a WRITE of the STATION table (R188 and the rules its fields name). -/
def writeStation (es : List (Nat × StationEntry)) (s : State) : State :=
  let before := s.publishStream
  let old := s.station.cfg
  let new := es.foldl (fun _ e => e.2.fields) old
  let s := changeAddress (writtenAddress s.station.address es)
    (s.setStation { s.station with cfg := new })
  let s := if new.driveLimit = old.driveLimit then s else reportLinks s
  let s := if new.refresh < old.refresh then staleSilent s else s
  settlePublish before (stopZeroTimeouts s)

/-- WRITE of the STATION table (R187, R188). -/
def runWriteStation (via : Via) (es : List (Nat × StationEntry)) (s : State) : State × Answer :=
  runWrite (checkStation via) es (okAfter (writeStation es)) s

/-! ## MASTER -/

/-- The ranges of R66, U tested against the T of the record `new` as it would stand after the write (R67). -/
def masterRanges (new r : MasterRecord) : Bool :=
  within 0 r.cycleRun 1 && within 0 r.stream 255 && within 250 r.period 4000 &&
  within 20 r.offset (new.period - 20) && within 0 r.vMax 8388607 && within 1 r.accel 65535 &&
  within 1 r.tripDecel 65535 && within 1 r.stopDecel 65535

/-- The checks of a MASTER entry (R67); `new` is the record as it would stand after the write. NOT_MASTER comes first
(assumption log 25), then the index, before R67's checks of the values: that place of the index is the model's choice
(R67, R187; assumption log 63). -/
def checkMaster (new : MasterRecord) (s : State) (e : Nat × MasterRecord) : Option Resp :=
  let g := s.gen
  firstFail [failIf (!s.strap) .notMaster, failIf (e.1 != 0) .badIndex,
    failIf (!masterRanges new e.2) .badValue,
    failIf ((new.stream != g.cfg.stream && g.cfg.cycleRun == 1 && new.cycleRun == 1) ||
      decide (new.vMax < g.speed)) .inUse,
    failIf (g.cfg.cycleRun == 1 && new.cycleRun == 0 && g.state != .stopped) .notAtRest]

/-- The cycle timer after a write of cycle_run (R67, R69). That the first period has the T of the record as
written, also where the same WRITE changes T, is the model's choice (assumption log 65). -/
def timerAfter (old new : MasterRecord) (now : Nat) (t : Option CycleTimer) : Option CycleTimer :=
  if old.cycleRun = new.cycleRun then t
  else if new.cycleRun = 1 then
    some { period := new.period, due := now + new.period * Config.usec }
  else none

/-- The generator after a write that is taken (R67). -/
def Generator.write (g : Generator) (new : MasterRecord) (now : Nat) : Generator :=
  let timer := timerAfter g.cfg new now g.timer
  if new.vMax < g.target then
    ({ g with cfg := new, timer := timer, target := new.vMax } : Generator).settle
  else { g with cfg := new, timer := timer }

/-- WRITE of the MASTER table (R67). -/
def runWriteMaster (es : List (Nat × MasterRecord)) (s : State) : State × Answer :=
  let new := lastRecord s.gen.cfg es
  runWrite (checkMaster new) es
    (fun s => (s.setGen (s.gen.write new s.clock),
      Answer.plain (if new.vMax < s.gen.target then .clamped else .ok))) s

/-! ## CAMERA -/

/-- The ranges of R126, tested against the Wc and k_d of the record `new` as it would stand after the write
(R127). `streaming` has two values in an entry, so it has no range to check (assumption log 55). -/
def cameraRanges (new r : CameraRecord) : Bool :=
  within 16 r.pixels 4096 && within 4 r.pitch 16 && within 10 r.timeout 10000 &&
  decide (r.webStart < new.pixels) && within (r.webStart + 1) r.webEnd new.pixels &&
  within 0 r.webThreshold 255 && within 1 r.webRun 4096 && within 0 r.stream 255 &&
  decide (r.cropStart < new.pixels) && within 1 r.cropWidth (new.pixels - r.cropStart) &&
  [1, 2, 4, 8].contains r.decimation && r.cropWidth % new.decimation == 0 && within 1 r.lineStep 64

/-- Whether Wc or k changes (R127). -/
def cameraGeometry (old new : CameraRecord) : Bool :=
  old.pixels != new.pixels || old.pitch != new.pitch

/-- The checks of a CAMERA entry (R127), the index first: the model's choice (assumption log 63); `new` is the
record as it would stand after the write. -/
def checkCamera (new : CameraRecord) (s : State) (e : Nat × CameraRecord) : Option Resp :=
  let u := s.image
  firstFail [failIf (e.1 != 0) .badIndex, failIf (!cameraRanges new e.2) .badValue,
    failIf (cameraGeometry u.cam new && s.ctx.speed != 0) .inUse,
    failIf (decide (new.pixels < u.cam.pixels) &&
      u.windows.any fun w => w.cfg.enabled && decide (new.pixels < w.cfg.x1)) .inUse]

/-- The effects of a change of Wc or k (R127). -/
def ImageUnit.restart (u : ImageUnit) : ImageUnit :=
  { u with
    line := none, next := none, trigger := none, prevIndex := none,
    windows := u.windows.map Window.wait, pending := [] }

/-- Whether the stream fields change so that the frame in assembly is queued (R127). -/
def streamChanged (old new : CameraRecord) : Bool :=
  old.stream != new.stream || old.cropStart != new.cropStart || old.cropWidth != new.cropWidth ||
  old.decimation != new.decimation || old.lineStep != new.lineStep ||
  (old.streaming && !new.streaming)

/-- The effects of a WRITE of the CAMERA table (R127, R130, R132). Their order is the model's choice (assumption
log 56). -/
def writeCamera (new : CameraRecord) (s : State) : State :=
  let old := s.image.cam
  let s := if streamChanged old new then queueAssembly s else s
  let u := { s.image with cam := new }
  let s := s.setImage (if cameraGeometry old new then u.restart else u)
  let s := if old.timeout ≠ new.timeout ∧ timedOut s then abandonLine s else s
  reportWeb s

/-- WRITE of the CAMERA table (R127). -/
def runWriteCamera (es : List (Nat × CameraRecord)) (s : State) : State × Answer :=
  let new := lastRecord s.image.cam es
  runWrite (checkCamera new) es (okAfter (writeCamera new)) s

/-! ## PANEL -/

/-- The ranges and sums of R169, tested against the W and H of the record `new` as it would stand after the
write. -/
def panelRanges (new r : PanelRecord) : Bool :=
  within 1 r.width 80 && within 1 r.height 48 && decide (r.bannerRow < new.height) &&
  within 0 r.bannerHeight 2 && streamOk r.viewStream && decide (r.viewCol < new.width) &&
  decide (r.viewRow < new.height) && within 1 r.viewWidth 80 && within 1 r.viewHeight 48 &&
  within 0 r.gapColour 255 && within 10 r.repaint 1000 &&
  decide (r.bannerRow + r.bannerHeight ≤ new.height) &&
  decide (r.viewCol + r.viewWidth ≤ new.width) && decide (r.viewRow + r.viewHeight ≤ new.height)

/-- The checks of a PANEL entry (R169), the index first: the model's choice (assumption log 63); `new` is the
record as it would stand after the write. -/
def checkPanel (new : PanelRecord) (_s : State) (e : Nat × PanelRecord) : Option Resp :=
  firstFail [failIf (e.1 != 0) .badIndex, failIf (!panelRanges new e.2) .badValue]

/-- Whether the viewport's stream, position or size changes (R170). -/
def viewChanged (old new : PanelRecord) : Bool :=
  old.viewStream != new.viewStream || old.viewCol != new.viewCol || old.viewRow != new.viewRow ||
  old.viewWidth != new.viewWidth || old.viewHeight != new.viewHeight

/-- The viewport is reset and its writes leave the queue (R170). -/
def ScreenUnit.dropView (u : ScreenUnit) : ScreenUnit :=
  ({ u with queue := u.queue.filter fun w => w.stream.isSome } : ScreenUnit).resetView

/-- The effects of a WRITE of the PANEL table (R170). -/
def ScreenUnit.writePanel (u : ScreenUnit) (new : PanelRecord) : ScreenUnit :=
  let old := u.panel
  let v := { u with panel := new }
  let v :=
    if old.width ≠ new.width ∨ old.height ≠ new.height then
      ({ v with
        tiles := List.replicate (new.width * new.height) emptyTile, streams := [],
        queue := [] } : ScreenUnit).resetView.startPass (.clear 0)
    else
      let v := if viewChanged old new then v.dropView else v
      if old.bannerRow ≠ new.bannerRow ∨ old.bannerHeight ≠ new.bannerHeight then
        ({ v with queue := [], tiles := v.tiles.map markStreamStale } : ScreenUnit).startPass
          (.clear 0)
      else v
  v.arbitrate

/-- WRITE of the PANEL table (R170). -/
def runWritePanel (es : List (Nat × PanelRecord)) (s : State) : State × Answer :=
  let new := lastRecord s.screen.panel es
  runWrite (checkPanel new) es (okAfter fun s => s.setScreen (s.screen.writePanel new)) s

/-! ## TAP -/

/-- The tap entry of the fields a WRITE carries, once its values are checked (R29). -/
def tapEntryOf (f : TapFields) : Option TapEntry :=
  match f.action, f.target with
  | some a, some t => some { cls := f.cls, stream := f.stream, action := a, target := t }
  | _, _ => none

/-- The classes of the tap table (R29). -/
def tapClass : FrameClass → Bool
  | .t | .c | .i | .s => true
  | .k | .m | .bad _ => false

/-- Whether the fields of a TAP entry are in their ranges (R30). -/
def tapOk : Option TapFields → Bool
  | some f => tapClass f.cls && decide (f.stream ≤ 255) && (tapEntryOf f).isSome
  | none => true

/-- The tap table after the entries of a write (R30). An entry whose action or deliver-to is out of range
counts as empty in the table on which the other entries are checked: the model's choice (assumption log
45). -/
def writeTapEntries (es : List (Nat × Option TapFields)) (tap : List (Option TapEntry)) :
    List (Option TapEntry) :=
  es.foldl (fun t e => t.set e.1 (e.2.bind tapEntryOf)) tap

/-- Whether two tap entries have one key (R30). -/
def sameKey (x y : Option TapEntry) : Bool :=
  match x, y with
  | some a, some b => a.cls == b.cls && a.stream == b.stream
  | _, _ => false

/-- Whether a tap entry delivers C frames to the unit (R30). -/
def deliversCycle : Option TapEntry → Bool
  | some e => e.cls == .c && e.target == .unit && e.action != .drop
  | none => false

/-- The checks of a TAP entry; `new` is the table as it would stand after the write (R30). DUPLICATE and IN_USE
are judged of what stands at the entry's index there, so an entry that a later one of the same index
overwrites fails by the later one's key, under its own position (assumption log 30). -/
def checkTap (new : List (Option TapEntry)) (_s : State) (e : Nat × Option TapFields) :
    Option Resp :=
  let mine := new.getD e.1 none
  firstFail [failIf (decide (31 < e.1)) .badIndex, failIf (!tapOk e.2) .badValue,
    failIf (decide (1 < new.countP (sameKey mine))) .duplicate,
    failIf (deliversCycle mine && decide (1 < new.countP deliversCycle)) .inUse]

/-- WRITE of the TAP table (R30, R31). -/
def runWriteTap (es : List (Nat × Option TapFields)) (s : State) : State × Answer :=
  let new := writeTapEntries es s.sw.tap
  runWrite (checkTap new) es (okAfter fun s => s.setSw { s.sw with tap := new }) s

/-! ## AXIS -/

/-- The ranges of R86. -/
def axisRanges (c : AxisConfig) : Bool :=
  decide (-32768 ≤ c.num) && decide (c.num ≤ 32767) && c.num != 0 && within 1 c.den 65535 &&
  within 1 c.phaseSlew 65535 && within 0 c.corrMax 1000000 && within 1 c.corrSlew 65535 &&
  within 1 c.decel 65535 && within 0 c.followLimit 2147483647

/-- The gear takes part in the step, or will again, in these states (R87). -/
def gearInUse : AxisState → Bool
  | .coupled | .coastdown | .held => true
  | .disabled | .standby | .off => false

/-- Whether a write changes the gear (R87). -/
def gearChanged (old new : AxisConfig) : Bool := old.num != new.num || old.den != new.den

/-- The configuration of axis `a` after the entries of a write, the later of one axis standing (R187). -/
def writtenAxis (es : List (Nat × AxisConfig)) (a : Fin 4) (old : AxisConfig) : AxisConfig :=
  es.foldl (fun c e => if e.1 = a.val then e.2 else c) old

/-- The checks of an AXIS entry: its ranges, and IN_USE on the record of its axis as it would stand after
every entry was written (R87, R187). -/
def checkAxis (es : List (Nat × AxisConfig)) (s : State) (e : Nat × AxisConfig) : Option Resp :=
  let a := Fin.ofNat 4 e.1
  let r := s.axis a
  let new := writtenAxis es a r.cfg
  firstFail [failIf (decide (3 < e.1)) .badIndex, failIf (!axisRanges e.2) .badValue,
    failIf (gearChanged r.cfg new && gearInUse r.state) .inUse,
    failIf (decide (new.corrMax < r.corrTarget.natAbs) || decide (new.corrMax < r.corr.natAbs))
      .inUse]

/-- An axis record under a written configuration: a write that changes the gear sets the accumulator to 0
(R87). -/
def writeAxisRecord (new : AxisConfig) (r : AxisRecord) : AxisRecord :=
  { r with cfg := new, acc := if gearChanged r.cfg new then 0 else r.acc }

/-- Every entry of a WRITE of the AXIS table is written. That two entries for one axis act as one change from
the record held before to the later entry is the model's reading (assumption log 26). -/
def writeAxes (es : List (Nat × AxisConfig)) (s : State) : State :=
  let new (a : Fin 4) : AxisRecord :=
    writeAxisRecord (writtenAxis es a (s.axis a).cfg) (s.axis a)
  s.setAxes { s.axes with recs := ⟨new 0, new 1, new 2, new 3⟩ }

/-- The CORRECTION_LIMIT conditions after a WRITE of the AXIS table, in entry order (R104, R187). -/
def reportWrittenLimits (es : List (Nat × AxisConfig)) (s : State) : State :=
  es.foldl (fun s e => reportCorrLimit (Fin.ofNat 4 e.1) s) s

/-- WRITE of the AXIS table (R87). -/
def runWriteAxis (es : List (Nat × AxisConfig)) (s : State) : State × Answer :=
  runWrite (checkAxis es) es (okAfter fun s => reportWrittenLimits es (writeAxes es s)) s

/-! ## WINDOW -/

/-- The range of the expected position (R133). -/
def expectedOk (w : WindowConfig) : Bool :=
  match w.reference with
  | none => decide (0 ≤ w.expected) && decide (w.expected ≤ 1048575)
  | some _ => decide (-524288 ≤ w.expected) && decide (w.expected ≤ 524287)

/-- The ranges of R133, the strip tested against the present Wc. `enabled` and the polarity have two values in an
entry, so neither has a range to check (assumption log 55). -/
def windowRanges (pixels : Nat) (w : WindowConfig) : Bool :=
  decide (w.x0 < w.x1) && decide (w.x1 ≤ pixels) && decide (w.x1 - w.x0 ≤ 256) &&
  decide (w.p0 < w.p1) && decide (w.p1 ≤ 1048576) && within 0 w.threshold 255 && expectedOk w &&
  (match w.reference with | some r => decide (r ≤ 15) | none => true) &&
  [1, 2, 4, 8].contains w.averaging && within 0 w.deadBand 65535 &&
  decide (-32768 ≤ w.gain) && decide (w.gain ≤ 32767) && within 1 w.targetStation 62 &&
  within 0 w.targetAxis 3

/-- The window configurations after the entries of a write (R134). -/
def writeWindowConfigs (es : List (Nat × WindowConfig)) (ws : List WindowConfig) :
    List WindowConfig :=
  es.foldl (fun l e => l.set e.1 e.2) ws

/-- Whether the reference of window `i` is broken in a table (R134, REF_ORDER). -/
def refBroken (ws : List WindowConfig) (i : Nat) : Bool :=
  let w := ws.getD i defaultWindow
  match w.reference with
  | some r =>
    let ref := ws.getD r defaultWindow
    w.enabled && (decide (ws.length ≤ r) || !ref.enabled || ref.reference.isSome || r == i ||
      decide (w.p1 < ref.p1))
  | none => false

/-- Whether writing window `j` takes part in a broken reference of a table (R134). -/
def breaksRef (ws : List WindowConfig) (j : Nat) : Bool :=
  (List.range 16).any fun i =>
    refBroken ws i && (i == j || (ws.getD i defaultWindow).reference == some j)

/-- The checks of a WINDOW entry; `new` holds the entries as they would stand after the write (R134). -/
def checkWindow (new : List WindowConfig) (s : State) (e : Nat × WindowConfig) : Option Resp :=
  firstFail [failIf (decide (15 < e.1)) .badIndex,
    failIf (!windowRanges s.image.cam.pixels e.2) .badValue,
    failIf (breaksRef new e.1) .refOrder]

/-- A window as a write leaves it: its measurement and its result discarded (R134). -/
def freshWindow (c : WindowConfig) : Window := { Window.reset with cfg := c }

/-- WRITE of the WINDOW table (R134). -/
def runWriteWindow (es : List (Nat × WindowConfig)) (s : State) : State × Answer :=
  let new := writeWindowConfigs es (s.image.windows.map (·.cfg))
  runWrite (checkWindow new) es
    (okAfter fun s =>
      s.setImage (es.foldl (fun u e => u.setWindow e.1 (freshWindow e.2)) s.image)) s

/-! ## FAULT CONFIG and MASKS -/

/-- The checks of a FAULT CONFIG entry (R151). -/
def checkFaultConfig (_s : State) (e : Nat × FaultSetting) : Option Resp :=
  firstFail [failIf (faultOfCode? e.1).isNone .badIndex,
    failIf (!within 1 e.2.level 3) .badValue]

/-- One entry of a WRITE of FAULT CONFIG (R151). -/
def writeFaultEntry (tree : List FaultEntry) (e : Nat × FaultSetting) : List FaultEntry :=
  match faultOfCode? e.1, Level.ofNat? e.2.level with
  | some f, some l => treeUpdate tree f fun x => { x with level := l, publish := e.2.publish }
  | _, _ => tree

/-- WRITE of FAULT CONFIG (R151). -/
def runWriteFaultConfig (es : List (Nat × FaultSetting)) (s : State) : State × Answer :=
  runWrite checkFaultConfig es
    (okAfter fun s =>
      recompute (s.setTrip { s.trip with tree := es.foldl writeFaultEntry s.trip.tree })) s

/-- The check of a MASKS entry (R152). -/
def checkMasks (_s : State) (e : Nat × List Bool) : Option Resp := failIf (e.1 != 0) .badIndex

/-- WRITE of MASKS (R152). -/
def runWriteMasks (es : List (Nat × List Bool)) (s : State) : State × Answer :=
  runWrite checkMasks es
    (okAfter fun s => recompute (s.setTrip { s.trip with masks := lastRecord s.trip.masks es })) s

/-! ## TILE MAP and BANNER -/

/-- Whether a tile source is in its range (R171). -/
def sourceOk : TileSource → Bool
  | .stream n => decide (n ≤ 255)
  | .none => true

/-- The checks of a TILE MAP entry (R171), the index first: the model's choice (assumption log 63). -/
def checkTile (s : State) (e : Nat × TileFields) : Option Resp :=
  let p := s.screen.panel
  firstFail [failIf (decide (p.width * p.height ≤ e.1)) .badIndex,
    failIf (!(sourceOk e.2.source && decide (e.2.background ≤ 255))) .badValue]

/-- A tile map entry after a write: a change of its source clears its stale mark (R171). -/
def writeTile (f : TileFields) (t : TileEntry) : TileEntry :=
  { source := f.source, background := f.background,
    stale := if f.source = t.source then t.stale else false }

/-- The effects of a WRITE of the TILE MAP: a stream that no tile names any more loses its entry
(R171). That two entries for one tile act one after the other is the model's choice (assumption log
58). -/
def ScreenUnit.writeTiles (u : ScreenUnit) (es : List (Nat × TileFields)) : ScreenUnit :=
  let v := es.foldl (fun v e => v.updateTile e.1 (writeTile e.2)) u
  { v with streams := v.streams.filter fun e => v.names e.stream }

/-- WRITE of the TILE MAP (R171). -/
def runWriteTileMap (es : List (Nat × TileFields)) (s : State) : State × Answer :=
  runWrite checkTile es (okAfter fun s => s.setScreen (s.screen.writeTiles es)) s

/-- The check of a BANNER entry (R176, R185). -/
def checkBanner (_s : State) (e : Nat × List Byte) : Option Resp :=
  failIf (decide (47 < e.1)) .badIndex

/-- WRITE of the BANNER table (R176). -/
def runWriteBanner (es : List (Nat × List Byte)) (s : State) : State × Answer :=
  runWrite checkBanner es
    (okAfter fun s => s.setScreen { s.screen with
      store := es.foldl (fun l e => l.set e.1 e.2) s.screen.store }) s

/-! ## The writes as Station Control takes them -/

/-- WRITE of the STATION table at Station Control. -/
def commandWriteStation (e : Envelope) (es : List (Nat × StationEntry)) (s : State) : State :=
  stationCommand e (.write (.station es))
    (countOk es && es.all fun x => x.2.fields.filter.length == 8) true
    (runWriteStation e.via es) s

/-- WRITE of the MASTER table at Station Control. -/
def commandWriteMaster (e : Envelope) (es : List (Nat × MasterRecord)) (s : State) : State :=
  stationCommand e (.write (.master es)) (countOk es) true (runWriteMaster es) s

/-- WRITE of the CAMERA table at Station Control. -/
def commandWriteCamera (e : Envelope) (es : List (Nat × CameraRecord)) (s : State) : State :=
  stationCommand e (.write (.camera es)) (countOk es) true (runWriteCamera es) s

/-- WRITE of the PANEL table at Station Control. -/
def commandWritePanel (e : Envelope) (es : List (Nat × PanelRecord)) (s : State) : State :=
  stationCommand e (.write (.panel es)) (countOk es) true (runWritePanel es) s

/-- WRITE of the TAP table at Station Control. -/
def commandWriteTap (e : Envelope) (es : List (Nat × Option TapFields)) (s : State) : State :=
  stationCommand e (.write (.tap es)) (countOk es) true (runWriteTap es) s

/-- WRITE of the AXIS table at Station Control. -/
def commandWriteAxis (e : Envelope) (es : List (Nat × AxisConfig)) (s : State) : State :=
  stationCommand e (.write (.axis es)) (countOk es) true (runWriteAxis es) s

/-- WRITE of the WINDOW table at Station Control. -/
def commandWriteWindow (e : Envelope) (es : List (Nat × WindowConfig)) (s : State) : State :=
  stationCommand e (.write (.window es)) (countOk es) true (runWriteWindow es) s

/-- WRITE of FAULT CONFIG at Station Control. -/
def commandWriteFaultConfig (e : Envelope) (es : List (Nat × FaultSetting)) (s : State) : State :=
  stationCommand e (.write (.faultConfig es)) (countOk es) true (runWriteFaultConfig es) s

/-- WRITE of MASKS at Station Control; an entry gives all seven flags (R152). -/
def commandWriteMasks (e : Envelope) (es : List (Nat × List Bool)) (s : State) : State :=
  stationCommand e (.write (.masks es)) (countOk es && es.all fun x => x.2.length == 7) true
    (runWriteMasks es) s

/-- WRITE of the TILE MAP at Station Control. -/
def commandWriteTileMap (e : Envelope) (es : List (Nat × TileFields)) (s : State) : State :=
  stationCommand e (.write (.tileMap es)) (countOk es) true (runWriteTileMap es) s

/-- WRITE of the BANNER table at Station Control; an entry gives 256 pixels (R176). -/
def commandWriteBanner (e : Envelope) (es : List (Nat × List Byte)) (s : State) : State :=
  stationCommand e (.write (.banner es)) (countOk es && es.all fun x => x.2.length == 256) true
    (runWriteBanner es) s

/-- WRITE of a table that is unknown or read-only (R187). -/
def commandWriteOther (e : Envelope) (table : TableId) (count : Nat) (s : State) : State :=
  let r : Resp := match table with | .unknown _ => .badTable | _ => .readOnly
  stationCommand e (.write (.other table count)) (within 1 count 8) true
    (fun s => (s, Answer.plain r)) s

/-! ## Commands -/

/-- WRITE_STATION (R188). -/
def execWriteStation (m : Moment) (e : Envelope) (es : List (Nat × StationEntry)) (s : State) :
    Host.Outcome State Fault Refusal :=
  .next (commandWriteStation e es (s.tick m))

/-- WRITE_MASTER (R67). -/
def execWriteMaster (m : Moment) (e : Envelope) (es : List (Nat × MasterRecord)) (s : State) :
    Host.Outcome State Fault Refusal :=
  .next (commandWriteMaster e es (s.tick m))

/-- WRITE_CAMERA (R127). -/
def execWriteCamera (m : Moment) (e : Envelope) (es : List (Nat × CameraRecord)) (s : State) :
    Host.Outcome State Fault Refusal :=
  .next (commandWriteCamera e es (s.tick m))

/-- WRITE_PANEL (R170). -/
def execWritePanel (m : Moment) (e : Envelope) (es : List (Nat × PanelRecord)) (s : State) :
    Host.Outcome State Fault Refusal :=
  .next (commandWritePanel e es (s.tick m))

/-- WRITE_TAP (R30). -/
def execWriteTap (m : Moment) (e : Envelope) (es : List (Nat × Option TapFields)) (s : State) :
    Host.Outcome State Fault Refusal :=
  .next (commandWriteTap e es (s.tick m))

/-- WRITE_AXIS (R87). -/
def execWriteAxis (m : Moment) (e : Envelope) (es : List (Nat × AxisConfig)) (s : State) :
    Host.Outcome State Fault Refusal :=
  .next (commandWriteAxis e es (s.tick m))

/-- WRITE_WINDOW (R134). -/
def execWriteWindow (m : Moment) (e : Envelope) (es : List (Nat × WindowConfig)) (s : State) :
    Host.Outcome State Fault Refusal :=
  .next (commandWriteWindow e es (s.tick m))

/-- WRITE_FAULT_CONFIG (R151). -/
def execWriteFaultConfig (m : Moment) (e : Envelope) (es : List (Nat × FaultSetting)) (s : State) :
    Host.Outcome State Fault Refusal :=
  .next (commandWriteFaultConfig e es (s.tick m))

/-- WRITE_MASKS (R152). -/
def execWriteMasks (m : Moment) (e : Envelope) (es : List (Nat × List Bool)) (s : State) :
    Host.Outcome State Fault Refusal :=
  .next (commandWriteMasks e es (s.tick m))

/-- WRITE_TILE_MAP (R171). -/
def execWriteTileMap (m : Moment) (e : Envelope) (es : List (Nat × TileFields)) (s : State) :
    Host.Outcome State Fault Refusal :=
  .next (commandWriteTileMap e es (s.tick m))

/-- WRITE_BANNER (R176). -/
def execWriteBanner (m : Moment) (e : Envelope) (es : List (Nat × List Byte)) (s : State) :
    Host.Outcome State Fault Refusal :=
  .next (commandWriteBanner e es (s.tick m))

end Sys2Proof.Machine
end

