-- ==== Sys2Proof/Machine/Reads.lean ====
section
/-! DEFINITION. READ (R185, R186), STATUS (R189) and the digest of COLLECT (R190). -/

namespace Sys2Proof.Machine

/-! ## Counters -/

/-- A port's counters in the order of R18. -/
def PortCounters.values (c : PortCounters) : List Nat :=
  [c.framesIn, c.crcBad, c.formatBad, c.aborted, c.truncated, c.symbolErrors, c.syncLoss,
   c.framesOut, c.abortsSent]

/-- The Ring Switch's counters in the order of R44 and R64. -/
def SwitchCounters.values (c : SwitchCounters) : List Nat :=
  [c.hopLimit, c.stripped, c.urgentDrop, c.transitDrop, c.cSuperseded, c.kDrop, c.mDrop, c.sDrop,
   c.imageDrop, c.repeatDrop, c.roleDiscard, c.isolatedDiscard, c.roleChanges, c.clashSeen]

/-- The counters of a block, by its index in COUNTERS (R185). -/
def State.counters (s : State) : Nat → List Nat
  | 0 => s.portA.ctr.values
  | 1 => s.portB.ctr.values
  | 2 => s.sw.ctr.values
  | 3 => let c := s.station.ctr
    [c.commandsTaken, c.broadcastRefused, c.portDrop, c.portRefused]
  | 4 => let c := s.axes.ctr
    [c.lateCycle, c.staleCycle, c.missedCycle, c.foreignCycle, c.corrIgnored, c.corrClamped]
  | 5 => let c := s.drive.ctr
    [c.crcBad, c.seqBad, c.notReady, c.readyDrop, c.skipped, c.followExcess]
  | 6 => let c := s.image.ctr
    [c.skipped, c.overruns, c.abandoned, c.corrDrop]
  | 7 => [s.trip.ctr.sent, s.trip.ctr.staleRemote]
  | 8 => let c := s.screen.ctr
    [c.badTile, c.unrouted, c.tileStale, c.viewDrop, c.lateLine, c.format]
  | _ => []

/-- Set every counter of a block to 0, by its index in COUNTERS (R186). -/
def clearCounters (i : Nat) (s : State) : State :=
  match i with
  | 0 => s.countPort .a fun _ => Port.reset.ctr
  | 1 => s.countPort .b fun _ => Port.reset.ctr
  | 2 => s.countSw fun _ => Switch.reset.ctr
  | 3 => s.countStation fun _ => StationCtl.reset.ctr
  | 4 => s.countMotion fun _ => AxisTable.reset.ctr
  | 5 => s.countDrive fun _ => DriveLink.reset.ctr
  | 6 => s.countImage fun _ => ImageUnit.reset.ctr
  | 7 => s.setTrip { s.trip with ctr := TripUnit.reset.ctr }
  | 8 => s.countScreen fun _ => ScreenUnit.reset.ctr
  | _ => s

/-! ## Tables -/

/-- The entries of a list, numbered from 0. -/
def numbered {α : Type} (f : α → EntryData) (l : List α) : List (Nat × EntryData) :=
  l.mapIdx fun i x => (i, f x)

/-- An entry of FAULTS (R167). -/
def faultEntry (t : TripUnit) (e : FaultEntry) : Nat × EntryData :=
  (faultCode e.id,
   .fault (faultCode e.id) e.latched (if faultPersistent e.id then some e.cond else none)
     (entryLevel t.hostLevel e) e.publish (faultCounts t.masks t.hostLevel e))

/-- An entry of REMOTE (R167). The time since the last arrival is rounded down to whole milliseconds, which is
the model's choice (assumption log 47). -/
def remoteData (clock : Nat) (e : RemoteEntry) : EntryData :=
  .remote e.source e.level e.code (min ((clock - e.last) / Config.msec) 65535) e.stale

/-- The entries of a table in index order (R185). -/
def State.entries (s : State) : TableId → List (Nat × EntryData)
  | .station => [(0, .station s.station.address s.station.cfg)]
  | .master => [(0, .master s.gen.cfg)]
  | .camera => [(0, .camera s.image.cam)]
  | .panel => [(0, .panel s.screen.panel)]
  | .tap => numbered .tap s.sw.tap
  | .axis => numbered .axis s.axes.recs.toList
  | .window => numbered (fun w => .window w.cfg) s.image.windows
  | .faultConfig =>
    s.trip.tree.map fun e => (faultCode e.id, .faultConfig (faultCode e.id) e.level e.publish)
  | .masks => [(0, .masks s.trip.masks)]
  | .tileMap => numbered .tile s.screen.tiles
  | .banner => numbered .banner s.screen.store
  | .result => s.image.windows.mapIdx fun i w => (i, .result i w.result)
  | .faults =>
    s.trip.tree.map (faultEntry s.trip) ++
      [(0xFF, .levels s.trip.levels (s.trip.inputs.map (·.filtered)))]
  | .remote => numbered (remoteData s.clock) s.trip.remote
  | .screenStreams =>
    numbered (fun e => .screenStream e.stream e.owner (s.screen.staleCount e.stream))
      s.screen.streams
  | .counters => (List.range 9).map fun i => (i, .counters (s.counters i))
  | .unknown _ => []

/-- The first index beyond a table (R185); none for a table number not in R185. -/
def State.tableEnd (s : State) : TableId → Option Nat
  | .station | .master | .camera | .panel | .masks => some 1
  | .tap => some 32
  | .axis => some 4
  | .window | .result => some 16
  | .faultConfig => some 0x64
  | .tileMap => some (s.screen.panel.width * s.screen.panel.height)
  | .banner => some 48
  | .faults => some 0x100
  | .remote => some s.trip.remote.length
  | .screenStreams => some 8
  | .counters => some 9
  | .unknown _ => none

/-- The bytes an entry takes in the response data: a free value, at least the 256 pixels of a BANNER entry,
of which three fit, and never more than the response holds (R186; assumption log 5). -/
def entryBytes (e : EntryData) : Nat :=
  match e with
  | .banner _ => 256 + Config.entrySize e % 83
  | e => 1 + Config.entrySize e % 1016

/-- Entries from the front of a list while they fit in the room and the count is not reached (R186). -/
def takeFitting : Nat → Nat → List (Nat × EntryData) → List (Nat × EntryData)
  | 0, _, _ => []
  | _, _, [] => []
  | n + 1, room, e :: es =>
    if entryBytes e.2 ≤ room then e :: takeFitting n (room - entryBytes e.2) es else []

/-- The entries a READ returns (R186). -/
def State.readEntries (s : State) (t : TableId) (first count : Nat) : List (Nat × EntryData) :=
  takeFitting count 1016 ((s.entries t).filter fun e => decide (first ≤ e.1))

/-- The checks of READ (R186). -/
def checkRead (t : TableId) (first count : Nat) (clear : Bool) (s : State) : Option Resp :=
  match s.tableEnd t with
  | none => some .badTable
  | some n =>
    firstFail [failIf (decide (n ≤ first)) .badIndex,
      failIf (!within 1 count 16 || (clear && t != .counters)) .badValue]

/-- READ (R186). -/
def runRead (t : TableId) (first count : Nat) (clear : Bool) (s : State) : State × Answer :=
  checked (checkRead t first count clear)
    (fun s =>
      let es := s.readEntries t first count
      (if clear then es.foldl (fun s e => clearCounters e.1 s) s else s,
       { status := .ok, count := es.length, data := .entries (es.map (·.2)) })) s

/-! ## STATUS -/

/-- The time left of a timer. -/
def timeLeft (clock : Nat) (due : Option Nat) : Option Nat := due.map fun d => d - clock

/-- What STATUS reports of a port (R189). -/
def Port.report (p : Port) (clock : Nat) : PortReport :=
  { rx := p.rx, fill := p.fillMode, side := p.side, holdLeft := timeLeft clock p.hold }

/-- What STATUS reports of the generator (R68). -/
def Generator.report (g : Generator) : GeneratorReport :=
  { pos := g.pos, speed := g.speed, target := g.target, state := g.state, cycle := g.cycle }

/-- What STATUS reports of the cycle context (R75). -/
def CycleCtx.report (c : CycleCtx) : CtxReport :=
  { state := c.state, learnt := c.learnt, lastCycle := c.lastCycle, pos := c.pos, speed := c.speed,
    period := c.period, misses := c.misses, lastMaster := c.lastMaster, repeats := c.repeats }

/-- What STATUS reports of an axis (R111). -/
def axisReport (r : AxisRecord) : AxisReport :=
  { state := r.state, setpoint := r.setpoint, gear := r.gear, step := r.step, phase := r.phase,
    phaseTarget := r.phaseTarget, corr := r.corr, corrTarget := r.corrTarget,
    capture := r.capture, release := r.release }

/-- What STATUS reports of an axis of the Drive Link (R124). -/
def DriveAxis.report (d : DriveAxis) : DriveReport :=
  { outcome := d.outcome, bad := d.bad, status := d.status, lastSetpoint := d.lastSetpoint,
    sequence := d.sequence }

/-- What STATUS reports of the Image Unit (R146). -/
def ImageUnit.report (u : ImageUnit) : ImageReport :=
  { next := u.next, line := u.lineNo, busy := u.line.isSome, abandoned := u.abandoned,
    webRun := u.webRun, repeatNo := u.repeatNo, segments := u.asm.length,
    bytes := segmentBytes u.asm, pending := u.pending.map fun e => (e.1, e.2.length) }

/-- What STATUS reports of the Screen Unit (R182). The current viewport line is its number; that its open or
complete flag (R179) is not reported is the model's choice (assumption log 52). -/
def ScreenUnit.report (u : ScreenUnit) : ScreenReport :=
  { job := u.job, queued := u.queue.length, line := u.view.current.map (·.line),
    lines := u.view.buffer.length, row := u.view.row }

/-- The response data of STATUS (R189). -/
def State.statusReport (s : State) : StatusReport :=
  { address := s.station.address, serial := s.serial, tag := s.tag, strap := s.strap,
    headInUse := s.station.headInUse, portA := s.portA.report s.clock,
    portB := s.portB.report s.clock, role := s.sw.role, clash := s.sw.clash,
    generator := if s.strap then some s.gen.report else none, ctx := s.ctx.report,
    axes := s.axes.recs.map axisReport, stopConfirmLeft := timeLeft s.clock s.axes.stopTimer,
    drives := s.drive.axes.map DriveAxis.report, driveLimit := s.station.cfg.driveLimit,
    batch := s.drive.batch.isSome, image := s.image.report, effective := s.trip.levels.eff,
    summary := s.trip.levels.summary, tripOut := s.trip.tripOut, screen := s.screen.report,
    shortTimeout := s.station.cfg.shortTimeout, shortLeft := timeLeft s.clock s.station.shortTimer,
    longTimeout := s.station.cfg.longTimeout, longLeft := timeLeft s.clock s.station.longTimer,
    sendFill := s.station.sendQ.length, receiveFill := s.station.recvQ.length }

/-- STATUS (R189). -/
def runStatus (s : State) : State × Answer :=
  (s, { status := .ok, count := 0, data := .status s.statusReport })

/-- The station's digest (R190). -/
def State.digest (s : State) : Digest :=
  { address := s.station.address, tag := s.tag, role := s.sw.role,
    effective := s.trip.levels.eff, summary := s.trip.levels.summary, ctx := s.ctx.state,
    axes := s.axes.recs.map (·.state),
    master := if s.strap then s.gen.state else s.ctx.lastMaster, strap := s.strap }

/-! ## Commands -/

/-- READ at Station Control; none is executed from a broadcast (R184). -/
def commandRead (e : Envelope) (t : TableId) (first count : Nat) (clear : Bool) (s : State) :
    State :=
  stationCommand e (.read t first count clear) true false (runRead t first count clear) s

/-- STATUS at Station Control; none is executed from a broadcast (R184). -/
def commandStatus (e : Envelope) (s : State) : State :=
  stationCommand e .status true false runStatus s

/-- READ (R186). -/
def execRead (m : Moment) (e : Envelope) (t : TableId) (first count : Nat) (clear : Bool)
    (s : State) : Host.Outcome State Fault Refusal :=
  .next (commandRead e t first count clear (s.tick m))

/-- STATUS (R189). -/
def execStatus (m : Moment) (e : Envelope) (s : State) : Host.Outcome State Fault Refusal :=
  .next (commandStatus e (s.tick m))

end Sys2Proof.Machine
end

