-- ==== Sys2Proof/Machine/Resets.lean ====
section
/-! DEFINITION. Power-on, the RESET pin and RESET STATION (R194, R195 and each block's reset rule). -/

namespace Sys2Proof.Machine

/-! ## Power-on and the RESET pin -/

/-- A port after power-on: DARK, and at once HUNT if light is present (R4, R19). -/
def Port.powered (light : Bool) : Port :=
  { Port.reset with light := light, rx := if light then .hunt else .dark }

/-- A trip input after power-on: inactive, with its filter timer running if it is found active (R153). -/
def TripInput.powered (now : Nat) (raw : Bool) : TripInput :=
  { raw := raw, filtered := false,
    timer := if raw then some (now + 2 * Config.msec) else none }

/-- The station after power-on or the RESET pin: every block in its reset state, the pins as they stand, the
part's serial number and strap, and the timers of R162 and R178 started now (R195; assumption log
2). That a tile write in transmission at the RESET pin is gone, the CLEAR pass's first tile in its
place, is the model's choice (R175, R183; assumption log 50), and that a SEND or TAKE in progress ends as
an ordinary one (R195; assumption log 57). -/
def powerUp (s : State) : State :=
  let inputs := s.trip.inputs.map fun i => TripInput.powered s.clock i.raw
  { State.reset with
    pending := s.pending, clock := s.clock, ready := s.ready, serial := s.serial, strap := s.strap,
    portA := Port.powered s.portA.light, portB := Port.powered s.portB.light,
    trip := { TripUnit.reset with inputs := inputs, refreshAt := s.clock + 20 * Config.msec },
    screen := { ScreenUnit.reset with repaintAt := s.clock + 100 * Config.msec } }

/-! ## RESET STATION -/

/-- An axis record after RESET STATION (R88). -/
def resetAxis (r : AxisRecord) : AxisRecord :=
  { defaultAxis with
    setpoint := r.setpoint, release := r.release || r.state != .disabled }

/-- The Motion Unit after RESET STATION (R66, R68, R75, R88, R108). -/
def resetMotion (s : State) : State :=
  ((s.setGen Generator.reset).setCtx CycleCtx.reset).setAxes
    { AxisTable.reset with recs := s.axes.recs.map resetAxis }

/-- The Drive Link after RESET STATION: an exchange under way runs on, its outcome not taken (R125). -/
def resetDrive (s : State) : State :=
  s.setDrive { DriveLink.reset with
    exchange := s.drive.exchange.map fun x => { x with void := true } }

/-- Whether the condition of a fault is present right after RESET STATION (R168): only the ring and the
trip inputs still hold one. -/
def heldCondition (s : State) : FaultId → Bool
  | .portDown p => (s.port p).side == .failed
  | .ringIsolated => s.sw.role == .isolated
  | .tripInput n => (s.trip.inputs.map (·.filtered)).getD n.val false
  | _ => false

/-- The fault tree right after RESET STATION (R168). -/
def treeAfterReset (s : State) : List FaultEntry :=
  allFaults.map fun f =>
    { freshFault f with
      cond := heldCondition s f, latched := heldCondition s f || f == .stationReset }

/-- The Trip Unit after RESET STATION, the levels apart (R168). -/
def resetTrip (s : State) : State :=
  let t := s.trip
  s.setTrip { t with
    tree := treeAfterReset s, hostLevel := none, masks := List.replicate 7 false,
    refreshAt := s.clock + 20 * Config.msec, ctr := TripUnit.reset.ctr }

/-- The Screen Unit after RESET STATION: a write being sent completes, and a fresh CLEAR pass starts
(R183). -/
def resetScreen (s : State) : State :=
  let u : ScreenUnit :=
    { ScreenUnit.reset with
      link := s.screen.link, job := .clear 0, repaintAt := s.clock + 100 * Config.msec }
  s.setScreen u.arbitrate

/-- Station Control after RESET STATION: the address and the sequence counter are kept (R195, R7). -/
def resetControl (s : State) : State :=
  let c := s.station
  s.setStation { StationCtl.reset with
    address := c.address, seq := c.seq, sendStatus := c.sendStatus, taken := c.taken,
    resetAt := some s.clock }

/-- The Ring Switch and the port counters after RESET STATION (R19, R45, R65). -/
def resetSwitch (s : State) : State :=
  let s := (s.countPort .a fun _ => Port.reset.ctr).countPort .b fun _ => Port.reset.ctr
  s.setSw { s.sw.emptyLocal with
    tap := Switch.reset.tap, clash := none, ctr := Switch.reset.ctr }

/-- RESET STATION: every block's reset, one recomputation of the levels on the result, and the release
exchanges (R194, R168, R125). -/
def resetStation (s : State) : State :=
  let s := resetControl (resetSwitch s)
  let s := resetScreen ((resetDrive (resetMotion s)).setImage ImageUnit.reset)
  driveArbitrate (recompute (resetTrip s))

/-! ## Commands -/

/-- RESET STATION at Station Control (R194). -/
def commandReset (e : Envelope) (s : State) : State :=
  stationCommand e .resetStation true true (okAfter resetStation) s

/-- POWER_ON (R195). -/
def execPowerOn (m : Moment) (s : State) : Host.Outcome State Fault Refusal :=
  .next (powerUp (s.tick m))

/-- RESET_PIN: the same in effect as power-on (R19). -/
def execResetPin (m : Moment) (s : State) : Host.Outcome State Fault Refusal :=
  .next (powerUp (s.tick m))

/-- RESET_STATION (R194). -/
def execResetStation (m : Moment) (e : Envelope) (s : State) : Host.Outcome State Fault Refusal :=
  .next (commandReset e (s.tick m))

end Sys2Proof.Machine
end

