-- ==== Sys2Proof/Machine/Sweeps.lean ====
section
/-! DEFINITION. The sweeps ENUMERATE (R58 to R63) and COLLECT (R190): at the head station's move, in place,
and at their return. -/

namespace Sys2Proof.Machine

/-- The fields of a sweep's body: the management header, with FORCE and OVERFLOW and the entry count, and the
bytes it came with while nothing in it has changed. -/
structure Sweep where
  wire : Option (List Byte)
  hostTag : BitVec 16
  status : Resp
  force : Bool
  overflow : Bool
  count : Nat
  lengthOk : Bool
  deriving DecidableEq, Repr

/-- The sweep fields of a management body that came in the bytes `wire`. -/
def sweepOf (wire : Option (List Byte)) (b : MgmtBody) : Sweep :=
  { wire := wire, hostTag := b.hostTag, status := b.status, force := b.force, overflow := b.overflow,
    count := b.count, lengthOk := b.lengthOk }

/-- The body of a sweep (R58, R190). -/
def sweepBody (cmd : MgmtCmd) (w : Sweep) (d : RespData) : Body :=
  .mgmt { kind := .command, cmd := cmd, hostTag := w.hostTag, status := w.status, force := w.force,
          overflow := w.overflow, count := w.count, lengthOk := w.lengthOk, data := d }

/-- A sweep as a frame. -/
def sweepFrameOf (h : Header) (cmd : MgmtCmd) (w : Sweep) (d : RespData) : Frame :=
  { hdr := h, body := sweepBody cmd w d, wire := w.wire }

/-- A sweep that sets OVERFLOW; its bytes change unless the flag was set before (R61, R190). -/
def Sweep.setOverflow (w : Sweep) : Sweep :=
  { w with overflow := true, wire := if w.overflow then w.wire else none }

/-- The response to a returned sweep: a RESPONSE in the frame port receive queue, with the sweep's header
(R62, R184, R190). That it has FORCE clear is the model's choice (assumption log 59). -/
def answerSweep (h : Header) (cmd : MgmtCmd) (w : Sweep) (a : Answer) (s : State) : State :=
  deliverPort s { hdr := h, body := responseBody cmd w.hostTag a w.overflow }

/-! ## ENUMERATE -/

/-- Whether a station takes an address from the sweep (R59, R60). -/
def takesAddress (s : State) (force : Bool) : Bool := s.station.address == 0 || force

/-- An ENUMERATE at the head station's move into the local M queue (R59). That a CHANGE T frame which the new
address gives rise to takes its sequence number before the sweep is the model's choice (R7, R161; assumption
log 64). -/
def enumerateMove (stream len : Nat) (first next : Nat) (w : Sweep) (s : State) : State :=
  let cmd := MgmtCmd.enumerate first next
  if !w.lengthOk then answerPort cmd w.hostTag (Answer.plain .badLength) s
  else
    let s := countTaken s
    if next < 1 ∨ 62 < next ∨ first ≠ next then
      answerPort cmd w.hostTag (Answer.plain .badValue) s
    else
      let takes := takesAddress s w.force
      let s := if takes then setAddress next s else s
      insertLocal s .m stream 0 len
        (sweepBody (.enumerate first (if takes then next + 1 else next)) w .none)
        (if takes then none else w.wire)

/-- An ENUMERATE acted on in place: the station's state, and the sweep's next address and OVERFLOW as they
leave (R60, R61). -/
def enumerateInPlace (next : Nat) (w : Sweep) (s : State) : State × Nat × Sweep :=
  if takesAddress s w.force then
    if 1 ≤ next ∧ next ≤ 62 then (setAddress next s, next + 1, { w with wire := none })
    else if next = 63 then (setAddress 0 s, next, w.setOverflow)
    else (s, next, w)
  else (s, next, w)

/-- An ENUMERATE at the forward input of a station that does not strip it: acted on and placed in the
transit FIFO (R60, R27). -/
def enumeratePass (h : Header) (first next : Nat) (w : Sweep) (d : RespData) (s : State) : State :=
  let r := enumerateInPlace next w s
  placeTransit r.1 (sweepFrameOf h (.enumerate first r.2.1) r.2.2 d)

/-- The response to a returned ENUMERATE (R62). -/
def enumerateReturn (h : Header) (first next : Nat) (w : Sweep) (s : State) : State :=
  let count := next - first
  answerSweep h (.enumerate first next) w
    { status := .ok, count := 0,
      data := .enumerated next count (if count = 0 then none else some (next - 1)) } s

/-! ## COLLECT -/

/-- The digests in a sweep's body. -/
def digestsOf : RespData → List Digest
  | .digests ds => ds
  | _ => []

/-- A station appends its digest to a sweep whose body is `len` bytes long, or sets OVERFLOW (R190). -/
def appendDigest (s : State) (len : Nat) (w : Sweep) (ds : List Digest) :
    Nat × Sweep × List Digest :=
  if 1024 < len + 16 then (len, w.setOverflow, ds)
  else (len + 16, { w with count := w.count + 1, wire := none }, ds ++ [s.digest])

/-- A COLLECT at the head station's move into the local M queue (R190). -/
def collectMove (stream len : Nat) (w : Sweep) (ds : List Digest) (s : State) : State :=
  if w.count ≠ 0 then answerPort .collect w.hostTag (Answer.plain .badValue) (countTaken s)
  else if !w.lengthOk then answerPort .collect w.hostTag (Answer.plain .badLength) s
  else
    let s := countTaken s
    let r := appendDigest s len w ds
    insertLocal s .m stream 0 r.1 (sweepBody .collect r.2.1 (.digests r.2.2)) r.2.1.wire

/-- A COLLECT at the forward input of a station that does not strip it: the digest is appended and the
sweep placed in the transit FIFO; a station with address 0 passes it unchanged (R190, R27). -/
def collectPass (h : Header) (w : Sweep) (ds : List Digest) (s : State) : State :=
  let r := if s.station.address = 0 then (h.len, w, ds) else appendDigest s h.len w ds
  placeTransit s (sweepFrameOf { h with len := r.1 } .collect r.2.1 (.digests r.2.2))

/-- The response to a returned COLLECT (R190). -/
def collectReturn (h : Header) (w : Sweep) (ds : List Digest) (s : State) : State :=
  answerSweep h .collect w { status := .ok, count := w.count, data := .digests ds } s

/-! ## Sweep commands that are no sweep -/

/-- ENUMERATE or COLLECT sent to a station address or to 63 (R58, R184): BAD_COMMAND to the first; the second
executes nothing and is answered by nothing. -/
def sweepAddressed (via : Via) (cmd : MgmtCmd) (hostTag : BitVec 16) (lengthOk : Bool) (s : State) :
    State :=
  let e : Envelope := { via := via, hostTag := hostTag, lengthOk := lengthOk }
  if via = .broadcast then
    stationCommand e cmd true false (fun s => (s, Answer.plain .ok)) s
  else if s.station.address = 0 then s
  else refuse e cmd .badCommand s

/-- A frame at the head of the send queue is removed at address 0 (R193). -/
def countPortRefused (s : State) : State :=
  s.countStation fun c => { c with portRefused := bump c.portRefused }

/-! ## Commands -/

/-- The body length of an ENUMERATE that no frame gives: the 8-byte management header and its parameters,
whose size is a free value (R12, R58; assumption log 4). -/
def enumerateLen : Nat := 8 + Config.enumerateSize % 1017

/-- ENUMERATE (R58 to R62), wherever the sweep stands. Offered at the frame port it waits while the local M
queue is full (R41). -/
def execEnumerate (m : Moment) (at_ : SweepPoint) (hostTag : BitVec 16) (first next : Nat)
    (force overflow lengthOk : Bool) (s : State) : Host.Outcome State Fault Refusal :=
  let s := s.tick m
  let w : Sweep :=
    { wire := none, hostTag := hostTag, status := .ok, force := force, overflow := overflow, count := 0,
      lengthOk := lengthOk }
  .next (match at_ with
    | .offered =>
      if s.sw.localM.length < Config.localCap then enumerateMove 0 enumerateLen first next w s else s
    | .passing h => enumeratePass h first next w .none s
    | .returned h => enumerateReturn h first next w s
    | .addressed via => sweepAddressed via (.enumerate first next) hostTag lengthOk s)

/-- COLLECT (R190), wherever the sweep stands. -/
def execCollect (m : Moment) (at_ : SweepPoint) (hostTag : BitVec 16) (count : Nat)
    (overflow lengthOk : Bool) (ds : List Digest) (s : State) :
    Host.Outcome State Fault Refusal :=
  let s := s.tick m
  let w : Sweep :=
    { wire := none, hostTag := hostTag, status := .ok, force := false, overflow := overflow,
      count := count, lengthOk := lengthOk }
  .next (match at_ with
    | .offered =>
      if s.station.address = 0 then countPortRefused s
      else if s.sw.localM.length < Config.localCap then collectMove 0 8 w ds s else s
    | .passing h => collectPass h w ds s
    | .returned h => collectReturn h w ds s
    | .addressed via => sweepAddressed via .collect hostTag lengthOk s)

end Sys2Proof.Machine
end

