-- ==== Sys2Proof/Machine/Deliver.lean ====
section
/-! DEFINITION. What the Ring Switch does with a frame at its arrival (R13 to R16, R20 to R33, R36, R50 to R52)
and the commands Station Control takes from frames (R26, R184). -/

namespace Sys2Proof.Machine

/-! ## Management commands in frames -/

/-- A WRITE at Station Control, by its table (R187). -/
def commandWrite (e : Envelope) (w : WriteSet) (s : State) : State :=
  match w with
  | .station es => commandWriteStation e es s
  | .master es => commandWriteMaster e es s
  | .camera es => commandWriteCamera e es s
  | .panel es => commandWritePanel e es s
  | .tap es => commandWriteTap e es s
  | .axis es => commandWriteAxis e es s
  | .window es => commandWriteWindow e es s
  | .faultConfig es => commandWriteFaultConfig e es s
  | .masks es => commandWriteMasks e es s
  | .tileMap es => commandWriteTileMap e es s
  | .banner es => commandWriteBanner e es s
  | .other table count => commandWriteOther e table count s

/-- A management command at Station Control, by its code (R184). -/
def commandCode (e : Envelope) (cmd : MgmtCmd) (s : State) : State :=
  match cmd with
  | .read t first count clear => commandRead e t first count clear s
  | .write w => commandWrite e w s
  | .status => commandStatus e s
  | .clearFaults groups => commandClearFaults e groups s
  | .clearRemote => commandClearRemote e s
  | .trip level => commandTrip e level s
  | .enableAxis axis => commandEnable e axis s
  | .couple axis => commandCouple e axis s
  | .decouple axis => commandDecouple e axis s
  | .disableAxis axis => commandDisable e axis s
  | .setPhase axis target => commandSetPhase e axis target s
  | .resetCorrection axis => commandResetCorrection e axis s
  | .setSpeed target => commandSetSpeed e target s
  | .masterStop => commandMasterStop e s
  | .enumerate first next => sweepAddressed e.via (.enumerate first next) e.hostTag e.lengthOk s
  | .collect => sweepAddressed e.via .collect e.hostTag e.lengthOk s
  | .resetStation => commandReset e s
  | .unknown code => refuse e (.unknown code) .badCommand s

/-- A management frame taken as a COMMAND: a kind that is neither COMMAND nor RESPONSE is answered
BAD_COMMAND (R184, checks 1 and 2). -/
def takeCommand (via : Via) (b : MgmtBody) (s : State) : State :=
  let e : Envelope := { via := via, hostTag := b.hostTag, lengthOk := b.lengthOk }
  match b.kind with
  | .command => commandCode e b.cmd s
  | .response | .other => refuse e b.cmd .badCommand s

/-! ## Forwarding -/

/-- Put a forwarded T or C frame at the tail of the urgent queue, or drop it and report RING_CONGESTION
(R36, R37). -/
def placeUrgent (s : State) (f : Frame) : State :=
  if s.sw.urgent.length < Config.urgentCap then
    arbitrate (s.setSw { s.sw with urgent := s.sw.urgent ++ [passingItem f s.clock] })
  else reportCongestion (countUrgentDrop s)

/-- Settle a frame that is to be forwarded (R36). -/
def settleForward (s : State) (q : PortId) (f : Frame) : State :=
  match s.resvOf q with
  | .held =>
    arbitrate (s.setSw { s.sw with
      urgent := s.sw.urgent.map (confirmItem q f s.clock),
      transit := s.sw.transit.map (confirmItem q f s.clock) })
  | .picked => completeCopyOn (completeCopyOn s q .a f) q .b f
  | .none => if usesUrgent f.hdr.cls then placeUrgent s f else placeTransit s f

/-- Forward a frame, or settle it as not forwarded. -/
def settleFrame (forward : Bool) (s : State) (q : PortId) (f : Frame) : State :=
  if forward then settleForward s q f else settleDrop s q

/-! ## The forward input -/

/-- Deliver a frame to the unit of its class (R29, R32). -/
def deliverUnit (s : State) (f : Frame) : State :=
  match f.hdr.cls with
  | .t => deliverTrip s f
  | .c => deliverCycle s f
  | .i => deliverImage s f
  | .s => deliverScreen s f
  | .k | .m | .bad _ => s

/-- The tap entry of a class and stream, if there is one (R29). -/
def tapFind (tap : List (Option TapEntry)) (cls : FrameClass) (stream : Nat) : Option TapEntry :=
  (tap.find? fun e => match e with
    | some t => t.cls == cls && t.stream == stream
    | none => false).join

/-- A T, C, I or S frame at the tap table (R29); `deliver` is false for a frame whose source clashes
(R23). -/
def tapFrame (deliver : Bool) (q : PortId) (f : Frame) (s : State) : State :=
  match tapFind s.sw.tap f.hdr.cls f.hdr.stream with
  | none => settleForward s q f
  | some t =>
    match t.action with
    | .drop => settleDrop s q
    | a =>
      let s :=
        if deliver then (match t.target with | .unit => deliverUnit s f | .port => deliverPort s f)
        else s
      settleFrame (a == .passCopy) s q f

/-- A K frame (R25). -/
def corrFrame (deliver : Bool) (q : PortId) (f : Frame) (s : State) : State :=
  let own := s.station.address
  let s := if deliver ∧ (f.hdr.dest = own ∨ f.hdr.dest = 63) then deliverCorrections s f else s
  settleFrame (f.hdr.dest != own) s q f

/-- A sweep at the forward input, acted on in place and placed in the transit FIFO; a sweep with a command
code that is no sweep's passes unchanged, and so does a COLLECT at address 0 (R27, R60, R190). -/
def sweepFrame (q : PortId) (f : Frame) (b : MgmtBody) (s : State) : State :=
  match b.cmd with
  | .enumerate first next => enumeratePass f.hdr first next (sweepOf f.wire b) b.data (settleDrop s q)
  | .collect =>
    if s.station.address = 0 then settleForward s q f
    else collectPass f.hdr (sweepOf f.wire b) (digestsOf b.data) (settleDrop s q)
  | _ => settleForward s q f

/-- Deliver an M frame to Station Control or to the frame port by its kind (R26). -/
def deliverMgmt (via : Via) (f : Frame) (b : MgmtBody) (s : State) : State :=
  match b.kind with
  | .response => deliverPort s f
  | .command | .other => takeCommand via b s

/-- An M frame (R26). -/
def mgmtFrame (deliver : Bool) (q : PortId) (f : Frame) (s : State) : State :=
  let b := mgmtOf f.body
  let own := s.station.address
  if f.hdr.dest = own then
    settleDrop (if deliver then deliverMgmt (.ring f.hdr.src) f b s else s) q
  else if f.hdr.dest = 63 then
    settleForward (if deliver then deliverMgmt .broadcast f b s else s) q f
  else if f.hdr.dest = 0 ∧ b.kind = .command then sweepFrame q f b s
  else settleForward s q f

/-- Class handling, delivery and forwarding at a station with an address (R20, steps 3 to 5). -/
def classFrame (deliver : Bool) (q : PortId) (f : Frame) (s : State) : State :=
  match f.hdr.cls with
  | .k => corrFrame deliver q f s
  | .m => mgmtFrame deliver q f s
  | .s =>
    if isRepaint f.body ∧ f.hdr.dest = s.station.address then
      settleDrop (if deliver then deliverPort s f else s) q
    else tapFrame deliver q f s
  | .t | .c | .i | .bad _ => tapFrame deliver q f s

/-- A frame at a station with address 0: an ENUMERATE sweep is acted on in place, and every frame is
forwarded (R24). -/
def unassignedFrame (q : PortId) (f : Frame) (s : State) : State :=
  let b := mgmtOf f.body
  if f.hdr.cls = .m ∧ f.hdr.dest = 0 ∧ b.kind = .command then sweepFrame q f b s
  else settleForward s q f

/-- A returned sweep at Station Control (R22, R62, R190). -/
def returnedSweep (f : Frame) (s : State) : State :=
  let b := mgmtOf f.body
  if f.hdr.cls = .m ∧ f.hdr.dest = 0 ∧ b.kind = .command then
    match b.cmd with
    | .enumerate first next => enumerateReturn f.hdr first next (sweepOf f.wire b) s
    | .collect => collectReturn f.hdr (sweepOf f.wire b) (digestsOf b.data) s
    | _ => s
  else s

/-- A clash: counted, recorded and reported (R23, R57). -/
def clash (tag : BitVec 16) (s : State) : State :=
  let s := s.countSw fun c => { c with clashSeen := bump c.clashSeen }
  report .addressClash (s.setSw { s.sw with clash := some tag })

/-- A good frame at the forward input (R20 to R24). -/
def forwardInput (q : PortId) (f : Frame) (s : State) : State :=
  if Config.hopLimit ≤ f.hdr.hop + 1 then
    settleDrop (s.countSw fun c => { c with hopLimit := bump c.hopLimit }) q
  else
    let f : Frame := { f with hdr := { f.hdr with hop := f.hdr.hop + 1 } }
    if s.station.address = 0 then unassignedFrame q f s
    else if f.hdr.src = s.station.address then
      if f.hdr.tag = s.tag then
        returnedSweep f
          (settleDrop (s.countSw fun c => { c with stripped := bump c.stripped }) q)
      else classFrame false q f (clash f.hdr.tag s)
    else classFrame true q f s

/-! ## The counter-path input and unused sides -/

/-- A good frame at the counter-path input (R50, R51). -/
def counterInput (q : PortId) (f : Frame) (s : State) : State :=
  if Config.hopLimit ≤ f.hdr.hop + 1 then
    settleDrop (s.countSw fun c => { c with hopLimit := bump c.hopLimit }) q
  else settleCounter s q { f with hdr := { f.hdr with hop := f.hdr.hop + 1 } }

/-- A good frame on an unused side, or on a side whose use has changed (R52, R54). -/
def unusedInput (q : PortId) (s : State) : State :=
  settleDrop (s.countSw fun c => { c with roleDiscard := bump c.roleDiscard }) q

/-! ## Arrival -/

/-- The use of the side a frame arrived on: that of its frame start, or the present one where it had
none (R52). -/
def State.arrivalUse (s : State) (q : PortId) : RxUse :=
  match (s.port q).reception with
  | some r => r.use
  | none => rxUse s.sw.role q

/-- The frame being received on a port has closed. -/
def closeReception (q : PortId) (s : State) : State :=
  s.setPort q { s.port q with reception := none, skipping := false, breakRun := 0 }

/-- A good frame arrives (R16, R20, R50, R52). -/
def goodArrival (q : PortId) (f : Frame) (s : State) : State :=
  let s := s.countPort q fun c => { c with framesIn := bump c.framesIn }
  match s.arrivalUse q with
  | .forwardInput => forwardInput q f s
  | .counterInput => counterInput q f s
  | .unused => unusedInput q s

/-- A frame closed by an end delimiter (R13 to R15). -/
def endedArrival (q : PortId) (bytes : List Byte) (reading : Body) (s : State) : State :=
  closeReception q
    (match judgeFrame bytes with
    | .good => goodArrival q (readFrame bytes reading) s
    | .crcBad => settleDrop (s.countPort q fun c => { c with crcBad := bump c.crcBad }) q
    | .formatBad => settleDrop (s.countPort q fun c => { c with formatBad := bump c.formatBad }) q)

/-- A frame closed by an abort mark (R13). -/
def abortedArrival (q : PortId) (s : State) : State :=
  closeReception q (settleDrop (s.countPort q fun c => { c with aborted := bump c.aborted }) q)

/-- A frame cut short, and what the symbol that cut it does outside the frame (R13). -/
def truncatedArrival (q : PortId) (by_ : CutBy) (s : State) : State :=
  let s := s.setPort q { s.port q with skipping := false, breakRun := 0 }
  cutSymbol (arbitrate (truncate s q)) q by_

/-- Whether the bytes of a closed frame are those of the frame start taken on the port (R16). -/
def arrivalFits (s : State) (q : PortId) (bytes : List Byte) : Bool :=
  decide (bytes.length ≤ 1044) &&
  match (s.port q).reception with
  | some r => decide (16 ≤ bytes.length) && readHeader (bytes.take 16) == r.hdr
  | none => true

/-- FRAME_ARRIVAL: a frame closes at a port in SYNC (R16). -/
def execFrameArrival (m : Moment) (p : PortId) (closing : Closing) (s : State) :
    Host.Outcome State Fault Refusal :=
  let s := s.tick m
  match closing with
  | .ended bytes reading =>
    if (s.port p).rx ≠ .sync then .next s
    else if arrivalFits s p bytes then .next (endedArrival p bytes reading s)
    else .fault .noSuchEvent
  | .aborted => .next (if (s.port p).rx = .sync then abortedArrival p s else s)
  | .truncated by_ => .next (if (s.port p).rx = .sync then truncatedArrival p by_ s else s)

end Sys2Proof.Machine
end

