-- ==== Sys2Proof/Machine/FramePort.lean ====
section
/-! DEFINITION. The frame port: SEND and TAKE transactions (R192, R193) and the move of the send queue's head
into its local insert queue (R41). -/

namespace Sys2Proof.Machine

/-- The body of an offered frame. -/
def offeredBody (f : Offered) : Body := bodyOf f.cls f.bytes f.reading

/-- The management header of an offered M frame, none for another class. -/
def offeredMgmt (f : Offered) : Option MgmtBody :=
  if f.cls = .m then some (mgmtOf (offeredBody f)) else none

/-- Whether an offered frame is an ENUMERATE sweep (R192, UNASSIGNED). -/
def isEnumerate (dest : Nat) (b : Option MgmtBody) : Bool :=
  match b with
  | some m =>
    dest == 0 && m.kind == .command && (match m.cmd with | .enumerate _ _ => true | _ => false)
  | none => false

/-- Whether an accepted frame is executed locally: at address 0 no frame is the station's own, destination 0
marking a sweep (R6, R193). -/
def executesHere (s : State) (f : Offered) : Bool :=
  match offeredMgmt f with
  | some m => s.station.address != 0 && f.dest == s.station.address && m.kind != .response
  | none => false

/-- Whether an offered frame is malformed (R192, BAD_FRAME). -/
def badOffer (f : Offered) : Bool :=
  f.len != f.bytes.length || decide (1024 < f.len) || decide (63 < f.dest) ||
  (f.dest == 0 && match offeredMgmt f with | some m => m.kind != .command | none => false)

/-- Whether the class of an offered frame is refused (R192, REFUSED_CLASS). -/
def refusedClass : FrameClass → Bool
  | .t | .c | .bad _ => true
  | .k | .i | .s | .m => false

/-- The status of a SEND transaction: the first check that fails decides (R192). -/
def sendStatusOf (s : State) (f : Offered) : SendStatus :=
  if badOffer f then .badFrame
  else if refusedClass f.cls then .refusedClass
  else if s.station.address = 0 ∧ isEnumerate f.dest (offeredMgmt f) = false then .unassigned
  else if executesHere s f then .accepted
  else if Config.sendCap ≤ s.station.sendQ.length then .full
  else .accepted

/-- The frame an offered frame waits as; its source fields, hop count and age are written at its move
(R41, R192). -/
def offeredFrame (f : Offered) : Frame :=
  { hdr := { cls := f.cls, stream := f.stream, dest := f.dest, src := 0, tag := 0, seq := 0,
             hop := 0, age := 0, len := f.len },
    body := offeredBody f, wire := keptBytes (offeredBody f) f.bytes }

/-- An accepted frame at the end of its transaction (R193). -/
def acceptFrame (f : Offered) (s : State) : State :=
  if executesHere s f then takeCommand .port (mgmtOf (offeredBody f)) s
  else s.setStation { s.station with sendQ := s.station.sendQ ++ [offeredFrame f] }

/-- The result the host reads at the end of a SEND (R192). -/
def setSendStatus (r : SendStatus) (s : State) : State :=
  s.setStation { s.station with sendStatus := some r }

/-- The frame port is in use as head station (R189). -/
def setInUse (s : State) : State := s.setStation { s.station with headInUse := true }

/-- The ready output TXRDY: the send queue holds fewer than 4 frames (R192). -/
def State.txReady (s : State) : Bool := decide (s.station.sendQ.length < Config.sendCap)

/-- The ready output RXRDY: the receive queue holds a frame (R192). -/
def State.rxReady (s : State) : Bool := !s.station.recvQ.isEmpty

/-- Whether a transaction was in progress at the last RESET STATION (R195). One in progress at the RESET pin or
at power-on is not cut, which is the model's choice (assumption log 57). -/
def cutByReset (s : State) (begun : Nat) : Bool :=
  match s.station.resetAt with
  | some t => decide (begun < t)
  | none => false

/-- A SEND transaction that no reset cut ends (R192, R193). -/
def sendFrame (f : Offered) (s : State) : State :=
  let r := sendStatusOf s f
  let s := setSendStatus r (setInUse s)
  if r = .accepted then acceptFrame f s else countPortRefused s

/-- The head of the receive queue leaves it, if it was there when the transaction began; a frame delivered
during a TAKE is not the frame returned (R192). -/
def takeFrame (begun : Nat) (s : State) : State :=
  match s.station.recvQ with
  | (at_, f) :: q =>
    if at_ ≤ begun then s.setStation { s.station with recvQ := q, taken := some f }
    else s.setStation { s.station with taken := none }
  | [] => s.setStation { s.station with taken := none }

/-- The head of the send queue moves into its local insert queue, taking its source, tag and sequence
number there; a broadcast COMMAND is executed locally first, and a sweep is acted on (R41, R59,
R190, R193). That its stream and its destination stay the host's, the stream in K and M frames and the
destination in I and S frames too, is the model's choice (R6, R41; assumption log 61); so it is that a sweep with
another command code, answered BAD_COMMAND here, is not counted COMMANDS_TAKEN (R184, R193; assumption log 67). -/
def moveFrame (f : Frame) (s : State) : State :=
  let h := f.hdr
  let b := mgmtOf f.body
  if h.cls = .m ∧ b.kind = .command ∧ h.dest = 63 then
    insertLocal (takeCommand .broadcast b s) .m h.stream h.dest h.len f.body f.wire
  else if h.cls = .m ∧ b.kind = .command ∧ h.dest = 0 then
    match b.cmd with
    | .enumerate first next => enumerateMove h.stream h.len first next (sweepOf f.wire b) s
    | .collect => collectMove h.stream h.len (sweepOf f.wire b) (digestsOf b.data) s
    | cmd => answerPort cmd b.hostTag (Answer.plain .badCommand) s
  else insertLocal s h.cls h.stream h.dest h.len f.body f.wire

/-- The send queue moves its head, if it may (R41, R193). -/
def moveHead (s : State) : State :=
  match s.station.sendQ with
  | f :: q =>
    let popped := s.setStation { s.station with sendQ := q }
    let b := if f.hdr.cls = .m then some (mgmtOf f.body) else none
    if s.station.address = 0 ∧ isEnumerate f.hdr.dest b = false then countPortRefused popped
    else if (s.sw.localQ f.hdr.cls).length < Config.localCap then moveFrame f popped
    else s
  | [] => s

/-! ## Commands -/

/-- SEND_TRANSACTION: a SEND transaction ends; one that was in progress at a RESET STATION ends with FULL
(R192, R195). -/
def execSendTransaction (m : Moment) (begun : Nat) (f : Offered) (s : State) :
    Host.Outcome State Fault Refusal :=
  let s := s.tick m
  .next (if cutByReset s begun then countPortRefused (setSendStatus .full s) else sendFrame f s)

/-- TAKE_TRANSACTION: a TAKE transaction ends; one that was in progress at a RESET STATION ends with the
empty indication (R192, R195). That a TAKE of an empty queue marks the frame port in use too is the model's choice
(R189, R192; assumption log 68). -/
def execTakeTransaction (m : Moment) (begun : Nat) (s : State) :
    Host.Outcome State Fault Refusal :=
  let s := s.tick m
  .next (if cutByReset s begun then s.setStation { s.station with taken := none }
    else takeFrame begun (setInUse s))

/-- SEND_QUEUE_MOVE (R41). -/
def execSendQueueMove (m : Moment) (s : State) : Host.Outcome State Fault Refusal :=
  .next (moveHead (s.tick m))

end Sys2Proof.Machine
end

