-- ==== Sys2Proof/Machine/Timers.lean ====
section
/-! DEFINITION. The trip inputs (R153), the expiries of the Trip Unit's, Screen Unit's and Station Control's
timers, and the completion of a tile write. -/

namespace Sys2Proof.Machine

/-! ## Trip inputs -/

/-- A trip input. -/
def State.tripInput (s : State) (n : Fin 8) : TripInput :=
  s.trip.inputs.getD n.val { raw := false, filtered := false, timer := none }

/-- Replace a trip input. -/
def State.setTripInput (s : State) (n : Fin 8) (i : TripInput) : State :=
  s.setTrip { s.trip with inputs := s.trip.inputs.set n.val i }

/-- The filter time of a trip input, in milliseconds (R153). -/
def State.filterTime (s : State) (n : Fin 8) : Nat := s.station.cfg.filter.getD n.val 2

/-- The filtered state of an input follows its level, and its condition follows the filtered state
(R153). -/
def followInput (n : Fin 8) (s : State) : State :=
  let i := s.tripInput n
  setCondition (.tripInput n) i.raw
    (s.setTripInput n { i with filtered := i.raw, timer := none })

/-- A trip input changes level: its filter timer starts, or is cancelled (R153). -/
def changeInput (n : Fin 8) (active : Bool) (s : State) : State :=
  let i := s.tripInput n
  if i.raw = active then s
  else if i.filtered = active then s.setTripInput n { i with raw := active, timer := none }
  else
    let t := s.filterTime n
    let s := s.setTripInput n
      { i with raw := active, timer := some (s.clock + t * Config.msec) }
    if t = 0 then followInput n s else s

/-! ## Commands -/

/-- TRIP_INPUT_CHANGE (R153). -/
def execTripInputChange (m : Moment) (n : Fin 8) (active : Bool) (s : State) :
    Host.Outcome State Fault Refusal :=
  .next (changeInput n active (s.tick m))

/-- FILTER_TIMER_EXPIRY (R153). -/
def execFilterTimerExpiry (m : Moment) (n : Fin 8) (s : State) :
    Host.Outcome State Fault Refusal :=
  let s := s.tick m
  .next (match (s.tripInput n).timer with
    | some due => if due ≤ s.clock then followInput n s else s
    | none => s)

/-- REFRESH_TIMER_EXPIRY: the timer restarts, and a station that publishes sends a REFRESH frame (R162). -/
def execRefreshTimerExpiry (m : Moment) (s : State) : Host.Outcome State Fault Refusal :=
  let s := s.tick m
  .next (if s.trip.refreshAt ≤ s.clock then
    sendTrip true (s.setTrip { s.trip with
      refreshAt := s.clock + s.station.cfg.refresh * Config.msec }) else s)

/-- REMOTE_ENTRY_STALE: a source has been silent for 4 × Rf (R164). -/
def execRemoteEntryStale (m : Moment) (source : Nat) (s : State) :
    Host.Outcome State Fault Refusal :=
  let s := s.tick m
  .next (match remoteFind s.trip.remote source with
    | some e =>
      if !e.stale && remoteSilent s.clock s.station.cfg.refresh e then staleEntry source s else s
    | none => s)

/-- TILE_WRITE_COMPLETION: the panel link has sent a tile write and chooses again (R175). -/
def execTileWriteCompletion (m : Moment) (s : State) : Host.Outcome State Fault Refusal :=
  let s := s.tick m
  .next (if s.screen.link.isSome then
    s.setScreen (s.screen.completeWrite s.trip.levels.eff) else s)

/-- REPAINT_TIMER_EXPIRY: the timer restarts, and the notices are sent (R178). -/
def execRepaintTimerExpiry (m : Moment) (s : State) : Host.Outcome State Fault Refusal :=
  let s := s.tick m
  .next (if s.screen.repaintAt ≤ s.clock then
    sendNotices (s.setScreen { s.screen with
      repaintAt := s.clock + s.screen.panel.repaint * Config.msec }) else s)

/-- SHORT_TIMER_EXPIRY: MGMT_SILENT becomes present (R191). -/
def execShortTimerExpiry (m : Moment) (s : State) : Host.Outcome State Fault Refusal :=
  let s := s.tick m
  .next (match s.station.shortTimer with
    | some due =>
      if due ≤ s.clock then
        setCondition .mgmtSilent true (s.setStation { s.station with shortTimer := none })
      else s
    | none => s)

/-- LONG_TIMER_EXPIRY: MGMT_LOST becomes present (R191). -/
def execLongTimerExpiry (m : Moment) (s : State) : Host.Outcome State Fault Refusal :=
  let s := s.tick m
  .next (match s.station.longTimer with
    | some due =>
      if due ≤ s.clock then
        setCondition .mgmtLost true (s.setStation { s.station with longTimer := none })
      else s
    | none => s)

end Sys2Proof.Machine
end

