-- ==== Sys2Proof/Machine/Dispatch.lean ====
section
/-! DEFINITION. The meaning of every command of the block, one arm per row of the table. -/

namespace Sys2Proof.Machine

/-- What a command does to everything but the queue of waiting commands. -/
def exec (i : Instr) (s : State) : Host.Outcome State Fault Refusal :=
  match i with
  | .powerOn m => Sys2Proof.Machine.execPowerOn m s
  | .resetPin m => Sys2Proof.Machine.execResetPin m s
  | .lossOfLight m p => Sys2Proof.Machine.execLossOfLight m p s
  | .lightPresent m p => Sys2Proof.Machine.execLightPresent m p s
  | .huntFillRun m p last => Sys2Proof.Machine.execHuntFillRun m p last s
  | .breakSymbolRun m p => Sys2Proof.Machine.execBreakSymbolRun m p s
  | .breakToSyncSymbol m p sym => Sys2Proof.Machine.execBreakToSyncSymbol m p sym s
  | .invalidSymbolLimit m p pos => Sys2Proof.Machine.execInvalidSymbolLimit m p pos s
  | .healHoldExpiry m p => Sys2Proof.Machine.execHealHoldExpiry m p s
  | .frameStart m p stamp hdr isCommand => Sys2Proof.Machine.execFrameStart m p stamp hdr isCommand s
  | .reservationEligible m p => Sys2Proof.Machine.execReservationEligible m p s
  | .frameArrival m p closing => Sys2Proof.Machine.execFrameArrival m p closing s
  | .transmitCompletion m p => Sys2Proof.Machine.execTransmitCompletion m p s
  | .sendQueueMove m => Sys2Proof.Machine.execSendQueueMove m s
  | .cycleTimerExpiry m => Sys2Proof.Machine.execCycleTimerExpiry m s
  | .setSpeed m e target => Sys2Proof.Machine.execSetSpeed m e target s
  | .masterStop m e => Sys2Proof.Machine.execMasterStop m e s
  | .pendingFrameDue m => Sys2Proof.Machine.execPendingFrameDue m s
  | .missTimerExpiry m => Sys2Proof.Machine.execMissTimerExpiry m s
  | .localTimerExpiry m => Sys2Proof.Machine.execLocalTimerExpiry m s
  | .enableAxis m e axis => Sys2Proof.Machine.execEnableAxis m e axis s
  | .couple m e axis => Sys2Proof.Machine.execCouple m e axis s
  | .decouple m e axis => Sys2Proof.Machine.execDecouple m e axis s
  | .disableAxis m e axis => Sys2Proof.Machine.execDisableAxis m e axis s
  | .setPhase m e axis target => Sys2Proof.Machine.execSetPhase m e axis target s
  | .resetCorrection m e axis => Sys2Proof.Machine.execResetCorrection m e axis s
  | .stopConfirmExpiry m => Sys2Proof.Machine.execStopConfirmExpiry m s
  | .readyDrop m axis => Sys2Proof.Machine.execReadyDrop m axis s
  | .exchangeCompletion m status => Sys2Proof.Machine.execExchangeCompletion m status s
  | .triggerExpiry m => Sys2Proof.Machine.execTriggerExpiry m s
  | .lineEnd m pixels => Sys2Proof.Machine.execLineEnd m pixels s
  | .cameraTimeout m => Sys2Proof.Machine.execCameraTimeout m s
  | .tripInputChange m n active => Sys2Proof.Machine.execTripInputChange m n active s
  | .filterTimerExpiry m n => Sys2Proof.Machine.execFilterTimerExpiry m n s
  | .clearFaults m e groups => Sys2Proof.Machine.execClearFaults m e groups s
  | .trip m e level => Sys2Proof.Machine.execTrip m e level s
  | .refreshTimerExpiry m => Sys2Proof.Machine.execRefreshTimerExpiry m s
  | .remoteEntryStale m source => Sys2Proof.Machine.execRemoteEntryStale m source s
  | .clearRemote m e => Sys2Proof.Machine.execClearRemote m e s
  | .tileWriteCompletion m => Sys2Proof.Machine.execTileWriteCompletion m s
  | .repaintTimerExpiry m => Sys2Proof.Machine.execRepaintTimerExpiry m s
  | .read m e table first count clear => Sys2Proof.Machine.execRead m e table first count clear s
  | .writeStation m e es => Sys2Proof.Machine.execWriteStation m e es s
  | .writeMaster m e es => Sys2Proof.Machine.execWriteMaster m e es s
  | .writeCamera m e es => Sys2Proof.Machine.execWriteCamera m e es s
  | .writePanel m e es => Sys2Proof.Machine.execWritePanel m e es s
  | .writeTap m e es => Sys2Proof.Machine.execWriteTap m e es s
  | .writeAxis m e es => Sys2Proof.Machine.execWriteAxis m e es s
  | .writeWindow m e es => Sys2Proof.Machine.execWriteWindow m e es s
  | .writeFaultConfig m e es => Sys2Proof.Machine.execWriteFaultConfig m e es s
  | .writeMasks m e es => Sys2Proof.Machine.execWriteMasks m e es s
  | .writeTileMap m e es => Sys2Proof.Machine.execWriteTileMap m e es s
  | .writeBanner m e es => Sys2Proof.Machine.execWriteBanner m e es s
  | .status m e => Sys2Proof.Machine.execStatus m e s
  | .enumerate m at_ hostTag first next force overflow lengthOk => Sys2Proof.Machine.execEnumerate m at_ hostTag first next force overflow lengthOk s
  | .collect m at_ hostTag count overflow lengthOk ds => Sys2Proof.Machine.execCollect m at_ hostTag count overflow lengthOk ds s
  | .resetStation m e => Sys2Proof.Machine.execResetStation m e s
  | .shortTimerExpiry m => Sys2Proof.Machine.execShortTimerExpiry m s
  | .longTimerExpiry m => Sys2Proof.Machine.execLongTimerExpiry m s
  | .sendTransaction m begun f => Sys2Proof.Machine.execSendTransaction m begun f s
  | .takeTransaction m begun => Sys2Proof.Machine.execTakeTransaction m begun s
  | .invalidSymbol m p sym pos => Sys2Proof.Machine.execInvalidSymbol m p sym pos s

end Sys2Proof.Machine
end

