-- ==== Sys2Proof/Safety.lean ====
section
/-! DEFINITION. What claims about the station are stated in: how much of the state an operation may change,
and the conditions that every step keeps. -/

namespace Sys2Proof.Machine

/-! ## How much may change -/

/-- The receive side of a port and its side state are the same (R4, R46). -/
structure SameSide (x y : Port) : Prop where
  light : y.light = x.light
  rx : y.rx = x.rx
  fillRun : y.fillRun = x.fillRun
  breakRun : y.breakRun = x.breakRun
  invalid : y.invalid = x.invalid
  skipping : y.skipping = x.skipping
  side : y.side = x.side
  hold : y.hold = x.hold

/-- The receive sides, the role, the tap table and the clash record are the same: of the ports and the
Ring Switch only queues, frames being sent, what is held for a frame being received, and counters may
differ. -/
structure SameRing (s t : State) : Prop where
  sideA : SameSide s.portA t.portA
  sideB : SameSide s.portB t.portB
  role : t.sw.role = s.sw.role
  tap : t.sw.tap = s.sw.tap
  clash : t.sw.clash = s.sw.clash

/-- What no command changes: the waiting commands and the part's own properties; and the clock and ready
lines, which only the taking of a command moves. -/
structure SameMoment (s t : State) : Prop where
  pending : t.pending = s.pending
  clock : t.clock = s.clock
  ready : t.ready = s.ready
  serial : t.serial = s.serial
  strap : t.strap = s.strap

/-- The control blocks are the same: generator, cycle context, axes, Drive Link, Image, Trip and Screen
Unit. -/
structure SameControl (s t : State) : Prop where
  gen : t.gen = s.gen
  ctx : t.ctx = s.ctx
  axes : t.axes = s.axes
  drive : t.drive = s.drive
  image : t.image = s.image
  trip : t.trip = s.trip
  screen : t.screen = s.screen

/-- Only queues of the Ring Switch, frames being sent and counters of the ports and the Ring Switch may
have changed. -/
structure RingOnly (s t : State) : Prop where
  moment : SameMoment s t
  ring : SameRing s t
  control : SameControl s t
  station : t.station = s.station

/-- As `RingOnly`, and Station Control's sequence counter, frame port queues, flags, timers and counters;
its address and its record are the same. -/
structure QueueOnly (s t : State) : Prop where
  moment : SameMoment s t
  ring : SameRing s t
  control : SameControl s t
  address : t.station.address = s.station.address
  cfg : t.station.cfg = s.station.cfg

/-- What a change of the levels may change (R156, R158, R161): queues and frames being sent; the
generator's speed, target, limit and state; axis states and the stop-confirm timer; the Trip Unit's
tree, levels, output and counters; the Screen Unit; the sequence counter. -/
structure LevelOnly (s t : State) : Prop where
  moment : SameMoment s t
  ring : SameRing s t
  gen : t.gen = { s.gen with speed := t.gen.speed, target := t.gen.target, limit := t.gen.limit,
                             state := t.gen.state }
  ctx : t.ctx = s.ctx
  counters : t.axes.ctr = s.axes.ctr
  drive : t.drive = s.drive
  image : t.image = s.image
  trip : t.trip = { s.trip with tree := t.trip.tree, levels := t.trip.levels,
                                tripOut := t.trip.tripOut, ctr := t.trip.ctr }
  panel : t.screen.panel = s.screen.panel
  store : t.screen.store = s.screen.store
  station : t.station = { s.station with seq := t.station.seq }

/-! ## Management commands and their answers -/

/-- The forward output is sending, or may send nothing, and so is the counter-path output, or it has nothing
to send: no output makes a choice (R42, R43, R51). -/
def OutputsBusy (s : State) : Prop :=
  (s.sw.counter = [] ∨ s.sw.role ≠ .through ∨ s.portA.tx ≠ none ∨ s.portA.side ≠ .usable) ∧
  ∃ p, forwardOutput s.sw.role = some p ∧ ((s.port p).tx ≠ none ∨ (s.port p).side ≠ .usable)

/-- The management commands but the two sweeps: each with its envelope and its command (R184). -/
def commandOf : Instr → Option (Envelope × MgmtCmd)
  | .setSpeed _ e target => some (e, .setSpeed target)
  | .masterStop _ e => some (e, .masterStop)
  | .enableAxis _ e axis => some (e, .enableAxis axis)
  | .couple _ e axis => some (e, .couple axis)
  | .decouple _ e axis => some (e, .decouple axis)
  | .disableAxis _ e axis => some (e, .disableAxis axis)
  | .setPhase _ e axis target => some (e, .setPhase axis target)
  | .resetCorrection _ e axis => some (e, .resetCorrection axis)
  | .clearFaults _ e groups => some (e, .clearFaults groups)
  | .trip _ e level => some (e, .trip level)
  | .clearRemote _ e => some (e, .clearRemote)
  | .read _ e table first count clear => some (e, .read table first count clear)
  | .writeStation _ e es => some (e, .write (.station es))
  | .writeMaster _ e es => some (e, .write (.master es))
  | .writeCamera _ e es => some (e, .write (.camera es))
  | .writePanel _ e es => some (e, .write (.panel es))
  | .writeTap _ e es => some (e, .write (.tap es))
  | .writeAxis _ e es => some (e, .write (.axis es))
  | .writeWindow _ e es => some (e, .write (.window es))
  | .writeFaultConfig _ e es => some (e, .write (.faultConfig es))
  | .writeMasks _ e es => some (e, .write (.masks es))
  | .writeTileMap _ e es => some (e, .write (.tileMap es))
  | .writeBanner _ e es => some (e, .write (.banner es))
  | .status _ e => some (e, .status)
  | .resetStation _ e => some (e, .resetStation)
  | .powerOn _ | .resetPin _ | .lossOfLight _ _ | .lightPresent _ _ | .huntFillRun _ _ _
  | .breakSymbolRun _ _ | .breakToSyncSymbol _ _ _ | .invalidSymbolLimit _ _ _
  | .healHoldExpiry _ _ | .frameStart _ _ _ _ _ | .reservationEligible _ _ | .frameArrival _ _ _
  | .transmitCompletion _ _ | .sendQueueMove _ | .cycleTimerExpiry _ | .pendingFrameDue _
  | .missTimerExpiry _ | .localTimerExpiry _ | .stopConfirmExpiry _ | .readyDrop _ _
  | .exchangeCompletion _ _ | .triggerExpiry _ | .lineEnd _ _ | .cameraTimeout _
  | .tripInputChange _ _ _ | .filterTimerExpiry _ _ | .refreshTimerExpiry _
  | .remoteEntryStale _ _ | .tileWriteCompletion _ | .repaintTimerExpiry _
  | .enumerate _ _ _ _ _ _ _ _ | .collect _ _ _ _ _ _ _ | .shortTimerExpiry _
  | .longTimerExpiry _ | .sendTransaction _ _ _ | .takeTransaction _ _ | .invalidSymbol _ _ _ _ =>
    none

/-- The moment at which a command is taken. -/
def momentOf : Instr → Moment
  | .powerOn m | .resetPin m | .lossOfLight m _ | .lightPresent m _ | .huntFillRun m _ _
  | .breakSymbolRun m _ | .breakToSyncSymbol m _ _ | .invalidSymbolLimit m _ _
  | .healHoldExpiry m _ | .frameStart m _ _ _ _ | .reservationEligible m _ | .frameArrival m _ _
  | .transmitCompletion m _ | .sendQueueMove m | .cycleTimerExpiry m | .setSpeed m _ _
  | .masterStop m _ | .pendingFrameDue m | .missTimerExpiry m | .localTimerExpiry m
  | .enableAxis m _ _ | .couple m _ _ | .decouple m _ _ | .disableAxis m _ _ | .setPhase m _ _ _
  | .resetCorrection m _ _ | .stopConfirmExpiry m | .readyDrop m _ | .exchangeCompletion m _
  | .triggerExpiry m | .lineEnd m _ | .cameraTimeout m | .tripInputChange m _ _
  | .filterTimerExpiry m _ | .clearFaults m _ _ | .trip m _ _ | .refreshTimerExpiry m
  | .remoteEntryStale m _ | .clearRemote m _ | .tileWriteCompletion m | .repaintTimerExpiry m
  | .read m _ _ _ _ _ | .writeStation m _ _ | .writeMaster m _ _ | .writeCamera m _ _
  | .writePanel m _ _ | .writeTap m _ _ | .writeAxis m _ _ | .writeWindow m _ _
  | .writeFaultConfig m _ _ | .writeMasks m _ _ | .writeTileMap m _ _ | .writeBanner m _ _
  | .status m _ | .enumerate m _ _ _ _ _ _ _ | .collect m _ _ _ _ _ _ | .resetStation m _
  | .shortTimerExpiry m | .longTimerExpiry m | .sendTransaction m _ _ | .takeTransaction m _
  | .invalidSymbol m _ _ _ => m

/-- The frame an answer to the frame port is: under the station's own header, the sequence counter not
advanced (R7, R184). -/
def portAnswer (cmd : MgmtCmd) (hostTag : BitVec 16) (ans : Answer) (u : State) : Frame :=
  { hdr := u.ownHeader .m 0 u.station.address (responseLen ans.data),
    body := responseBody cmd hostTag ans false }

/-- The receive queue with one more frame; a full queue is left as it is (R33). -/
def receiveWith (u : State) (f : Frame) : List (Nat × Frame) :=
  if u.station.recvQ.length < Config.receiveCap then u.station.recvQ ++ [(u.clock, f)]
  else u.station.recvQ

/-- The state once a frame has come to the frame port's receive queue: it is there, or counted PORT_DROP (R33). -/
def State.received (u : State) (f : Frame) : State :=
  u.setStation { u.station with
    recvQ := receiveWith u f,
    ctr := { u.station.ctr with
      portDrop :=
        if u.station.recvQ.length < Config.receiveCap then u.station.ctr.portDrop
        else bump u.station.ctr.portDrop } }

/-- The response over the ring to the station `src` (R184): from the station's address under its tag and next
sequence number, stream 0, with the command's code and host tag, the status and the data. -/
def ringAnswer (src : Nat) (cmd : MgmtCmd) (hostTag : BitVec 16) (ans : Answer) (u : State) : QItem :=
  { frame :=
      { hdr := { cls := .m, stream := 0, dest := src, src := u.station.address, tag := u.tag,
                 seq := u.station.seq, hop := 0, age := 0, len := responseLen ans.data },
        body := .mgmt { kind := .response, cmd := cmd, hostTag := hostTag, status := ans.status,
                        force := false, overflow := false, count := ans.count, lengthOk := true,
                        data := ans.data } },
    since := u.clock, origin := .own, ready := true }

/-- Where an answer goes (R184): over the ring it takes a sequence number and joins the local M queue, where it
stays while the outputs are busy, or is counted M_DROP; a broadcast has none; at the frame port it joins
the receive queue, or is counted PORT_DROP. -/
def ReplyGoes (e : Envelope) (cmd : MgmtCmd) (ans : Answer) (u t : State) : Prop :=
  match e.via with
  | .ring src =>
    t.station.recvQ = u.station.recvQ ∧ t.station.ctr.portDrop = u.station.ctr.portDrop ∧
    if u.sw.localM.length < Config.localCap then
      t.station.seq = u.station.seq + 1 ∧ t.sw.ctr.mDrop = u.sw.ctr.mDrop ∧
      (OutputsBusy u →
        t.sw = { u.sw with localM := u.sw.localM ++ [ringAnswer src cmd e.hostTag ans u] })
    else
      t.station.seq = u.station.seq ∧
      t.sw = { u.sw with ctr := { u.sw.ctr with mDrop := bump u.sw.ctr.mDrop } }
  | .broadcast =>
    t.station.recvQ = u.station.recvQ ∧ t.station.ctr.portDrop = u.station.ctr.portDrop ∧
    t.station.seq = u.station.seq ∧ t.sw = u.sw
  | .port =>
    let v := u.received (portAnswer cmd e.hostTag ans u)
    t.station.recvQ = v.station.recvQ ∧ t.station.ctr.portDrop = v.station.ctr.portDrop ∧
    t.station.seq = u.station.seq ∧ t.sw = u.sw

/-- The course of a command that was taken, after its own effects have given `u` (R184, R191): the control
blocks, the record and the frame port's send queue, flags and transaction results stay, both management
timers restart and their conditions end, a refused broadcast is counted, and the answer goes its way. -/
structure Answered (e : Envelope) (cmd : MgmtCmd) (ans : Answer) (u t : State) : Prop where
  moment : SameMoment u t
  ring : SameRing u t
  gen : t.gen = u.gen
  ctx : t.ctx = u.ctx
  axes : t.axes = u.axes
  drive : t.drive = u.drive
  image : t.image = u.image
  screen : t.screen = u.screen
  trip : t.trip = (u.trip.setCond .mgmtSilent false).setCond .mgmtLost false
  address : t.station.address = u.station.address
  cfg : t.station.cfg = u.station.cfg
  sendQ : t.station.sendQ = u.station.sendQ
  headInUse : t.station.headInUse = u.station.headInUse
  sendStatus : t.station.sendStatus = u.station.sendStatus
  lastTaken : t.station.taken = u.station.taken
  resetAt : t.station.resetAt = u.station.resetAt
  taken : t.station.ctr.commandsTaken = u.station.ctr.commandsTaken
  portRefused : t.station.ctr.portRefused = u.station.ctr.portRefused
  shortTimer : t.station.shortTimer =
    if u.station.cfg.shortTimeout = 0 then none
    else some (u.clock + u.station.cfg.shortTimeout * 100000)
  longTimer : t.station.longTimer =
    if u.station.cfg.longTimeout = 0 then none
    else some (u.clock + u.station.cfg.longTimeout * 100000)
  refused : t.station.ctr.broadcastRefused =
    if e.via = .broadcast ∧ executed ans.status = false then bump u.station.ctr.broadcastRefused
    else u.station.ctr.broadcastRefused
  reply : ReplyGoes e cmd ans u t

/-- The course of a command that fails checks 1 to 3 (R184, R191): it is answered `r` and changes nothing else.
COMMANDS_TAKEN, both management timers and the rest of Station Control stay; from a broadcast it is counted
BROADCAST_REFUSED. -/
structure Refused (e : Envelope) (cmd : MgmtCmd) (r : Resp) (u t : State) : Prop where
  queue : QueueOnly u t
  station : t.station = { u.station with
    seq := t.station.seq, recvQ := t.station.recvQ,
    ctr := { u.station.ctr with
      broadcastRefused :=
        if e.via = .broadcast then bump u.station.ctr.broadcastRefused
        else u.station.ctr.broadcastRefused,
      portDrop := t.station.ctr.portDrop } }
  reply : ReplyGoes e cmd (.plain r) u t

/-- A WRITE whose number of entries is not 1 to 8, or one of whose entries has the wrong size: a STATION entry
that does not give all 8 filter times, a MASKS entry that does not give all 7 flags, a BANNER entry that is
not 256 pixels (R187). -/
def wrongEntries (c : Instr) : Prop :=
  let number (n : Nat) : Prop := n = 0 ∨ 8 < n
  match c with
  | .writeStation _ _ es => number es.length ∨ ∃ x ∈ es, x.2.fields.filter.length ≠ 8
  | .writeMaster _ _ es => number es.length
  | .writeCamera _ _ es => number es.length
  | .writePanel _ _ es => number es.length
  | .writeTap _ _ es => number es.length
  | .writeAxis _ _ es => number es.length
  | .writeWindow _ _ es => number es.length
  | .writeFaultConfig _ _ es => number es.length
  | .writeMasks _ _ es => number es.length ∨ ∃ x ∈ es, x.2.length ≠ 7
  | .writeTileMap _ _ es => number es.length
  | .writeBanner _ _ es => number es.length ∨ ∃ x ∈ es, x.2.length ≠ 256
  | _ => False

/-! ## Events of the fibre -/

/-- The other fibre port. -/
def otherPort : PortId → PortId
  | .a => .b
  | .b => .a

/-- The six events of the table that move a receive state, each with its port (R4). -/
def lineEvent : Instr → Option PortId
  | .lossOfLight _ p | .lightPresent _ p | .huntFillRun _ p _ | .breakSymbolRun _ p
  | .breakToSyncSymbol _ p _ | .invalidSymbolLimit _ p _ => some p
  | _ => none

/-- The receive state after such an event (R4). -/
def rxAfter (i : Instr) (rx : RxState) : RxState :=
  match i with
  | .lossOfLight _ _ => .dark
  | .lightPresent _ _ => if rx = .dark then .hunt else rx
  | .huntFillRun _ _ last => if rx = .hunt then (if last = .brk then .brk else .sync) else rx
  | .breakSymbolRun _ _ => if rx = .sync then .brk else rx
  | .breakToSyncSymbol _ _ _ => if rx = .brk then .sync else rx
  | .invalidSymbolLimit _ _ _ => if rx = .sync ∨ rx = .brk then .hunt else rx
  | _ => rx

/-- Whether such an event says that a frame short of its 16th header byte was being received (R13). -/
def shortFrame : Instr → Bool
  | .lossOfLight m p | .invalidSymbolLimit m p _ => m.short p
  | _ => false

/-- No queue holds a reservation for the frame being received on a port. -/
def NoReservation (s : State) (p : PortId) : Prop :=
  ∀ i ∈ s.sw.urgent ++ s.sw.transit ++ s.sw.counter, i.origin ≠ .reserved p

/-- The frame being sent on a port is ended with an abort mark, counted ABORTS_SENT (R17). -/
def AbortedOn (s t : State) (o : PortId) (x : Tx) : Prop :=
  (t.port o).tx = some { x with aborted := true, copyOf := none } ∧
  (t.port o).ctr.abortsSent = bump (s.port o).ctr.abortsSent

/-- A ring role's forward output is sending a frame, and so chooses no other before that one's transmit
completion (R42). -/
def ForwardSending (s : State) (role : RingRole) : Prop :=
  ∃ o, forwardOutput role = some o ∧ (s.port o).tx ≠ none

/-- What a change of the ring role does, if there is one (R48, R52, R53): it is counted, the frames being sent
are ended with an abort mark, the repeat FIFO is emptied, and a frame being received whose side changes use is
to be discarded at its arrival. `w` is the Ring Switch as the change finds it; `cut` names the ports whose
frame in reception the event has cut. The queues of the forward output keep their items and order while the
forward outputs of both roles are sending; CHANGE frames of the two ring reports, no more, may join the urgent
queue's tail (R161). -/
structure RoleEffects (s t : State) (now : Nat) (w : Switch) (cut : PortId → Prop) : Prop where
  changes : t.sw.ctr.roleChanges =
    if t.sw.role = s.sw.role then s.sw.ctr.roleChanges else bump s.sw.ctr.roleChanges
  discards : t.sw.ctr.roleDiscard =
    if t.sw.role = s.sw.role then s.sw.ctr.roleDiscard
    else min (s.sw.ctr.roleDiscard + if t.sw.role = .through then 0 else w.counter.length) 65535
  counter : t.sw.role ≠ s.sw.role → t.sw.counter = []
  sending : t.sw.role ≠ s.sw.role → ∀ o x, (s.port o).tx = some x → x.aborted = false →
    x.copyOf ≠ none ∨ now < x.endAt → AbortedOn s t o x
  receiving : ∀ q r, ¬ cut q → (s.port q).reception = some r →
    ∃ v, (t.port q).reception = some { r with
      resv := v,
      use := if t.sw.role ≠ s.sw.role ∧ r.use ≠ rxUse t.sw.role q then .unused else r.use }
  queues : ForwardSending s s.sw.role → ForwardSending s t.sw.role → s.trip.levels = s.trip.compute →
    t.sw.transit = w.transit ∧ t.sw.localK = w.localK ∧ t.sw.localM = w.localM ∧
    t.sw.localS = w.localS ∧ t.sw.localI = w.localI ∧
    ∃ l, t.sw.urgent = w.urgent ++ l ∧ l.length ≤ 2 ∧ ∀ i ∈ l,
      i.origin = .own ∧ i.frame.hdr.cls = .t ∧ s.publishStream = some i.frame.hdr.stream

/-! ## What an output sends -/

/-- What a port sends when its output takes an item (R2, R14, R17, R34): the frame with its age grown by its
residence, to its end delimiter or for a cut-through copy from start to start, and by the port's link delay;
its end delimiter after its 22 symbols beside the body; its check value once its body is known. -/
def sentTx (s : State) (p : PortId) (i : QItem) : Tx :=
  let h := i.frame.hdr
  let link := match p with | .a => s.station.cfg.linkA | .b => s.station.cfg.linkB
  let copy : Option PortId := match i.origin with | .reserved q => some q | _ => none
  let stay := if copy = none then s.clock + (22 + h.len) - i.since else s.clock - i.since
  let f : Frame := { i.frame with hdr := { h with age := min (h.age + stay + link) 16777215 } }
  { frame := f, copyOf := copy, endAt := s.clock + (22 + h.len), aborted := false,
    check := if copy = none then some (crc32 (headerBytes f.hdr ++ sentBytes f)) else none }

/-- The state once an output has taken an item, the switch without it being `w`: the port sends it, and where it
was a reservation, the frame being received knows that it was picked (R35, R42, R51). -/
def State.sends (s : State) (p : PortId) (i : QItem) (w : Switch) : State :=
  let x := s.setSw w
  let y := match i.origin with
    | .reserved q => x.setPort q { x.port q with
        reception := (x.port q).reception.map fun r : Reception => { r with resv := .picked } }
    | _ => x
  y.setPort p { y.port p with tx := some (sentTx s p i) }

/-- The forward output makes no choice: it is sending, may send nothing, or the arbiter has nothing to pick
(R42, R43). -/
def ForwardStill (s : State) : Prop :=
  ∃ p, forwardOutput s.sw.role = some p ∧
    ((s.port p).tx ≠ none ∨ (s.port p).side ≠ .usable ∨ s.sw.pick = none)

/-- The counter-path output makes no choice: it is sending, may send nothing, or has no eligible head (R51). -/
def CounterStill (s : State) : Prop :=
  s.sw.role ≠ .through ∨ s.portA.tx ≠ none ∨ s.portA.side ≠ .usable ∨
    ∀ i ∈ s.sw.counter.head?, i.eligible = false

/-! ## Frames at their arrival -/

/-- On a SYNC side a frame closes with an end delimiter, a good check value and a good form, and fits the frame
start taken on the port (R13 to R16). -/
structure GoodArrival (s : State) (m : Moment) (p : PortId) (bytes : List Byte) : Prop where
  sync : (s.port p).rx = .sync
  fits : arrivalFits (s.tick m) p bytes = true
  good : judgeFrame bytes = .good

/-- The frame in the bytes of a good frame, with its hop count increased by 1 (R21, R50). -/
def hoppedFrame (bytes : List Byte) (reading : Body) : Frame :=
  let g := readFrame bytes reading
  { g with hdr := { g.hdr with hop := g.hdr.hop + 1 } }

/-- The body bytes between the header and the check value (R2). -/
def bodyBytes (bytes : List Byte) : List Byte := (bytes.take (bytes.length - 4)).drop 16

/-- The state at which a good frame is handled: the command's moment, and FRAMES_IN counted (R18). -/
def State.arrived (s : State) (m : Moment) (p : PortId) : State :=
  (s.tick m).setPort p { s.port p with
    ctr := { (s.port p).ctr with framesIn := bump (s.port p).ctr.framesIn } }

/-- The frame being received on a port is over. -/
def State.closed (s : State) (p : PortId) : State :=
  s.setPort p { s.port p with reception := none, skipping := false, breakRun := 0 }

/-- A frame that no unit, and not the frame port, takes at the station, and that goes on (R24 to R29): at
address 0 any but a sweep; elsewhere another station's frame whose destination or tap table entry names
nothing here. -/
def PassesOn (s : State) (f : Frame) : Prop :=
  let own := s.station.address
  let h := f.hdr
  let sweep := h.cls = .m ∧ h.dest = 0 ∧ (mgmtOf f.body).kind = .command
  if own = 0 then ¬ sweep
  else h.src ≠ own ∧ match h.cls with
    | .k => h.dest ≠ own ∧ h.dest ≠ 63
    | .m => h.dest ≠ own ∧ h.dest ≠ 63 ∧ ¬ sweep
    | .s => ¬ (isRepaint f.body = true ∧ h.dest = own) ∧ tapFind s.sw.tap h.cls h.stream = none
    | .t | .c | .i => tapFind s.sw.tap h.cls h.stream = none
    | .bad _ => False

/-- The queues once a frame received on port `p` is forwarded, while the outputs make no choice (R36, R37, R39):
in place of its reservation; nowhere, if that was picked; else at the tail of the urgent queue (T, C) or
of the transit FIFO, or counted URGENT_DROP or TRANSIT_DROP. -/
def forwardedSw (p : PortId) (r : Resv) (f : Frame) (now : Nat) (w : Switch) : Switch :=
  let i : QItem := { frame := f, since := now, origin := .passing, ready := true }
  let inPlace (l : List QItem) : List QItem := l.map fun j => if j.origin = .reserved p then i else j
  match r with
  | .held => { w with urgent := inPlace w.urgent, transit := inPlace w.transit }
  | .picked => w
  | .none =>
    if f.hdr.cls = .t ∨ f.hdr.cls = .c then
      if w.urgent.length < 8 then { w with urgent := w.urgent ++ [i] }
      else { w with ctr := { w.ctr with urgentDrop := bump w.ctr.urgentDrop } }
    else if queueBytes w.transit + (20 + f.hdr.len) ≤ 4096 then { w with transit := w.transit ++ [i] }
    else { w with ctr := { w.ctr with transitDrop := bump w.ctr.transitDrop } }

/-- The queues once a frame is repeated on the counter path, while the outputs make no choice (R51). -/
def repeatedSw (p : PortId) (r : Resv) (f : Frame) (now : Nat) (w : Switch) : Switch :=
  let i : QItem := { frame := f, since := now, origin := .passing, ready := true }
  match r with
  | .held => { w with counter := w.counter.map fun j => if j.origin = .reserved p then i else j }
  | .picked => w
  | .none =>
    if queueBytes w.counter + (20 + f.hdr.len) ≤ 2048 then { w with counter := w.counter ++ [i] }
    else { w with ctr := { w.ctr with repeatDrop := bump w.ctr.repeatDrop } }

/-- The queues without the reservation of the frame being received on a port (R36). -/
def withoutResv (p : PortId) (w : Switch) : Switch :=
  let keep (l : List QItem) : List QItem := l.filter fun j => decide (j.origin ≠ .reserved p)
  { w with urgent := keep w.urgent, transit := keep w.transit, counter := keep w.counter }

/-- No frame reached a unit or the frame port: corrections, cycle context, Drive Link, Image Unit, remote trip
table, and of the Screen Unit streams, viewport and counters are the same; beside them at most a change of
the levels has acted. -/
structure NotDelivered (s t : State) : Prop where
  ctx : t.ctx = s.ctx
  drive : t.drive = s.drive
  image : t.image = s.image
  motion : t.axes.ctr = s.axes.ctr
  corr : ∀ a, (t.axis a).corrTarget = (s.axis a).corrTarget ∧ (t.axis a).corr = (s.axis a).corr
  remote : t.trip.remote = s.trip.remote
  screen : t.screen = { s.screen with tiles := t.screen.tiles, queue := t.screen.queue,
                                      link := t.screen.link, job := t.screen.job }
  station : t.station = { s.station with seq := t.station.seq }

/-- The state once the station has taken an address (R63, R161, R166): another one ends the clash record and, at 0,
empties the local insert queues; a remote entry of that source goes, with a recomputation; and a station that begins
to publish sends a CHANGE frame. -/
def State.readdressed (s : State) (own : Nat) : State :=
  if own = s.station.address then s
  else
    let w := { s.sw with clash := none }
    let a := (s.setStation { s.station with address := own }).setSw
      (if own = 0 then { w with localK := [], localM := [], localS := [], localI := [] } else w)
    let b := if s.trip.remote.any (fun x => x.source == own) then
      recompute (a.setTrip { s.trip with
        remote := s.trip.remote.filter fun x => x.source != own }) else a
    if s.station.address = 0 ∧ own ≠ 0 ∧ s.station.cfg.tripStream ≠ none then sendTrip false b else b

/-- The commands that are sweeps (R58, R190). -/
def sweepCommand : MgmtCmd → Bool
  | .enumerate _ _ | .collect => true
  | _ => false

/-- No turn of a batch is left and every ready line is high: the arbiter of the drive link finds no drive
that is not ready (R113, R115). -/
def DrivesReady (s : State) (m : Moment) : Prop :=
  s.drive.batch = none ∧ ∀ a, m.ready.get a = true

/-! ## Axis gearing over many cycles -/

/-- A COUPLED axis over a list of advances: its record after them, and the axis counts stepped in all. -/
def gearRun (r : AxisRecord) : List Int → AxisRecord × Int
  | [] => (r, 0)
  | adv :: advs =>
    let r' := gearStep adv r
    ((gearRun r' advs).1, r'.step + (gearRun r' advs).2)

/-! ## Conditions every step keeps -/

/-- The sources of a remote trip table rise strictly (R163). -/
def RemoteSorted (rs : List RemoteEntry) : Prop := rs.Pairwise fun x y => x.source < y.source

/-- The fault tree has one entry for each fault, in order of code, and there are 8 trip inputs and 7 mask
flags (R149, R152, R153). -/
structure TripWhole (s : State) : Prop where
  tree : s.trip.tree.map (·.id) = allFaults
  inputs : s.trip.inputs.length = 8
  masks : s.trip.masks.length = 7

/-- The Trip Unit's tables are whole; the remote trip table is in order of source; the levels are those
the tables give; TRIP OUT is asserted exactly at DRIVE_OFF (R149, R154, R155, R157, R163). -/
structure TripInv (s : State) : Prop where
  whole : TripWhole s
  sorted : RemoteSorted s.trip.remote
  levels : s.trip.levels = s.trip.compute
  tripOut : s.trip.tripOut = (s.trip.levels.eff == .driveOff)

/-- Entries of the remote trip table are of other stations and not CLEAR (R163, R166). -/
def RemoteInv (s : State) : Prop :=
  ∀ e ∈ s.trip.remote, e.level ≠ .clear ∧ 1 ≤ e.source ∧ e.source ≤ 62 ∧
    e.source ≠ s.station.address

/-- At DRIVE_OFF no axis is enabled and the master generator stands still; from RAMP_STOP its target is 0;
and no exchange under way at level DRIVE_OFF has the ENABLE bit (R74, R90, R97, R114). -/
def DriveOffInv (s : State) : Prop :=
  (s.trip.levels.eff = .driveOff →
    (∀ a, axisEnabled (s.axis a).state = false) ∧ s.gen.speed = 0) ∧
  (2 ≤ s.trip.levels.eff.rank → s.gen.target = 0) ∧
  ∀ x ∈ s.drive.exchange, x.level = .driveOff → x.enable = false

/-- The generator's record is in range, speed and target are within v_max, the state is the one R71 gives,
and the cycle timer runs exactly while cycle_run is 1 (R66, R67, R69, R71). -/
def GeneratorInv (s : State) : Prop :=
  masterRanges s.gen.cfg s.gen.cfg = true ∧ s.gen.speed ≤ s.gen.cfg.vMax ∧ s.gen.target ≤ s.gen.cfg.vMax ∧
  s.gen.rem < 1000 ∧ s.gen.state = masterState s.gen.speed s.gen.target s.gen.limit ∧
  (s.gen.timer.isSome = true ↔ s.gen.cfg.cycleRun = 1)

/-- An axis record in range: the gear remainder is below 256 × D, the corrections are within the maximum,
the phases within 2^30; a capture is pending only in STANDBY, a release only in DISABLED (R86, R90,
R94, R95, R100, R103). -/
structure AxisOk (r : AxisRecord) : Prop where
  ranges : axisRanges r.cfg = true
  acc : r.acc < 256 * r.cfg.den
  corrTarget : r.corrTarget.natAbs ≤ r.cfg.corrMax
  corr : r.corr.natAbs ≤ r.cfg.corrMax
  phaseTarget : r.phaseTarget.natAbs ≤ 2 ^ 30
  phase : r.phase.natAbs ≤ 2 ^ 30
  capture : r.capture = true → r.state = .standby
  release : r.release = true → r.state = .disabled

/-- Every axis record is in range, and the stop-confirm timer runs only while an axis is COUPLED (R109). -/
def AxisInv (s : State) : Prop :=
  (∀ a, AxisOk (s.axis a)) ∧ (s.axes.stopTimer.isSome = true → s.axes.anyCoupled = true)

/-- The cycle context: the local timer runs exactly in LOST, the miss timer only in TRACKING and COASTING,
δ waits only in COASTING; a source is learnt in every state but IDLE and for every pending frame; the
misses are 0 in TRACKING and not in COASTING (R75, R76, R78, R80, R81, R82). -/
structure CycleInv (s : State) : Prop where
  localTimer : s.ctx.localTimer.isSome = true ↔ s.ctx.state = .lost
  missTimer : s.ctx.missTimer.isSome = true → s.ctx.state = .tracking ∨ s.ctx.state = .coasting
  delta : s.ctx.delta.isSome = true → s.ctx.state = .coasting
  learnt : s.ctx.state ≠ .idle → s.ctx.learnt.isSome = true
  source : s.ctx.pending.isSome = true → s.ctx.learnt.isSome = true
  tracking : s.ctx.state = .tracking → s.ctx.misses = 0
  coasting : s.ctx.state = .coasting → 1 ≤ s.ctx.misses
  rem : s.ctx.rem < 1000

/-- A port: its side is FAILED exactly while its receive state is not SYNC, its heal hold runs exactly
while it is HEALING, and only a SYNC side receives a frame (R5, R16, R46). -/
structure PortOk (p : Port) : Prop where
  failed : p.side = .failed ↔ p.rx ≠ .sync
  hold : p.hold.isSome = true ↔ p.side = .healing
  reception : p.rx ≠ .sync → p.reception = none

/-- Both ports are in order, and the role is the one their sides give (R46, R48). -/
def RingInv (s : State) : Prop :=
  PortOk s.portA ∧ PortOk s.portB ∧ s.sw.role = roleOf s.portA.side s.portB.side

/-- A reservation in a queue is that of the frame being received on its port: there is at most one for a port,
it is recorded as held there, counts the body length that frame's header gives, and waits on the path of
the frame's side, unless the side's use has changed (R35, R51, R52). -/
structure ReservationInv (s : State) : Prop where
  once : ∀ p, (s.sw.urgent ++ s.sw.transit ++ s.sw.counter).countP (QItem.reservedFor p) ≤ 1
  forward : ∀ p, ∀ i ∈ s.sw.urgent ++ s.sw.transit, i.origin = .reserved p →
    ∃ r, (s.port p).reception = some r ∧ r.resv = .held ∧ r.use ≠ .counterInput ∧
      i.frame.hdr.len = r.hdr.len
  counter : ∀ p, ∀ i ∈ s.sw.counter, i.origin = .reserved p →
    ∃ r, (s.port p).reception = some r ∧ r.resv = .held ∧ r.use ≠ .forwardInput ∧
      i.frame.hdr.len = r.hdr.len

/-- Every queue and list holds at most what it may: the urgent queue and the local insert queues 8 frames, one
of the urgent ones at most a C frame of this station (R37, R40), the transit FIFO 4,096 bytes and the
repeat FIFO 2,048 (R39, R51), the send queue 4 and the receive queue 8 (R33, R192), the panel queue 64 writes (R174),
the screen stream table 8 entries and the tile map one entry a tile (R171), a pending correction list
1 to 16 records (R141), the frame in assembly 1,024 bytes (R144), and the viewport's row buffer fewer
than the 16 lines of a row, its row within the viewport (R180, R181). -/
structure QueueInv (s : State) : Prop where
  reservations : ReservationInv s
  urgent : s.sw.urgent.length ≤ Config.urgentCap
  cycle : s.sw.urgent.countP QItem.isLocalC ≤ 1
  transit : queueBytes s.sw.transit ≤ Config.transitCap
  counter : queueBytes s.sw.counter ≤ Config.repeatCap
  locals : ∀ cls, (s.sw.localQ cls).length ≤ Config.localCap
  send : s.station.sendQ.length ≤ Config.sendCap
  receive : s.station.recvQ.length ≤ Config.receiveCap
  panel : s.screen.queue.length ≤ Config.panelCap
  streams : s.screen.streams.length ≤ Config.streamCap
  tiles : s.screen.tiles.length = s.screen.panel.width * s.screen.panel.height
  pending : ∀ e ∈ s.image.pending, 1 ≤ e.2.length ∧ e.2.length ≤ Config.corrCap
  assembly : segmentBytes s.image.asm ≤ 1024
  lines : s.screen.view.buffer.length < 16
  viewRow : s.screen.view.row < s.screen.panel.viewHeight

/-- The tap table: 32 entries of class T, C, I or S with a stream of 0 to 255, no two of one class and stream,
and at most one that delivers C frames to the unit (R29, R30). -/
structure TapInv (s : State) : Prop where
  size : s.sw.tap.length = 32
  ranges : ∀ e, some e ∈ s.sw.tap → tapClass e.cls = true ∧ e.stream ≤ 255
  keys : s.sw.tap.Pairwise fun x y => sameKey x y = false
  cycle : s.sw.tap.countP deliversCycle ≤ 1

/-- Every counter is at most 65,535 (Conventions, "Counters"). -/
def CounterInv (s : State) : Prop := ∀ i, ∀ n ∈ s.counters i, n ≤ Config.counterMax

end Sys2Proof.Machine
end

