-- ==== Sys2Proof/Certificates/Slice0/Obligations.lean ====
section
/-! DEFINITION. The statements about the station that are to be proved. `s.tick m` is the state at the
moment a command is taken; `Answered`, `LevelOnly` and their like (Safety) say what may change beside
the effect a statement gives. -/

open Sys2Proof Sys2Proof.Machine

/-! ## The machine as a whole -/

/-- One step is the command at the front of the queue, run with the queue's rest. On an empty queue the
block idles, which is the model's choice (assumption log 1). -/
def Obligations.StepRunsFrontCommand : Prop :=
  (∀ (c : Instr) (q : List Instr) (s : State), s.pending = c :: q →
    step s = exec c { s with pending := q }) ∧
  ∀ s : State, s.pending = [] → step s = .next s

/-- Every command leaves the waiting commands, the serial number and the strap alone, moves the clock to
its moment and never back, and reads the ready lines; READY_DROP reads its own line low. The queue, the
clock and the reading of the ready lines are the model's choice (assumption logs 1 and 40). -/
def Obligations.CommandsKeepQueueAndPart : Prop :=
  ∀ (c : Instr) (s t : State), exec c s = .next t →
    t.pending = s.pending ∧ t.serial = s.serial ∧ t.strap = s.strap ∧
    t.clock = max s.clock (momentOf c).time ∧
    t.ready = match c with
      | .readyDrop m a => m.ready.set a false
      | _ => (momentOf c).ready

/-- No command is refused, and a command stops the machine only where the hardware has no such event:
header bytes that are not 16, status bytes that are not 12, or a closed frame that is not the one whose
start was taken or holds more than 1,044 bytes. The stops are the model's choice (assumption log 10). -/
def Obligations.OnlyImpossibleEventsStop : Prop :=
  ∀ (c : Instr) (s : State),
    (∀ r, exec c s ≠ .refused r) ∧
    ∀ f, exec c s = .fault f → match c with
      | .frameStart _ _ _ hdr _ => hdr.length ≠ 16
      | .exchangeCompletion _ b => b.length ≠ 12
      | .frameArrival m p (.ended bytes _) =>
        (s.port p).rx = .sync ∧ arrivalFits (s.tick m) p bytes = false
      | _ => False

/-! ## Conditions every step keeps -/

/-- Every step keeps the fault tree whole, the remote trip table in order, the levels equal to those the
tables give, and TRIP OUT asserted exactly at DRIVE_OFF; and the remote trip table free of CLEAR entries
and of the station's own address. -/
def Obligations.StepKeepsTripInv : Prop :=
  (∀ s t : State, TripInv s → step s = .next t → TripInv t) ∧
  ∀ s t : State, RemoteInv s → step s = .next t → RemoteInv t

/-- Every step keeps this: at DRIVE_OFF no axis is enabled and the generator stands still, from RAMP_STOP
its target is 0, and no exchange at level DRIVE_OFF carries the ENABLE bit. -/
def Obligations.StepKeepsDriveOffInv : Prop :=
  ∀ s t : State, DriveOffInv s → step s = .next t → DriveOffInv t

/-- Every step keeps every axis record in range, captures in STANDBY, releases in DISABLED, and the
stop-confirm timer running only while an axis is COUPLED. -/
def Obligations.StepKeepsAxisInv : Prop :=
  ∀ s t : State, AxisInv s → step s = .next t → AxisInv t

/-- Every step keeps the generator's record in range, its speeds within v_max, its state the one R71 gives
and its timer running exactly while cycle_run is 1. The state is STOPPED exactly at speed 0 and target 0; else
STOPPING exactly under the trip limit D; else RUNNING exactly where speed and target are equal, and RAMPING where they
differ: so it is after every such step, and so `masterState` gives it of any speed, target and limit. -/
def Obligations.StepKeepsGeneratorInv : Prop :=
  let table (v target : Nat) (limit : RampLimit) (x : MasterState) : Prop :=
    let rest := v = 0 ∧ target = 0
    (x = .stopped ↔ rest) ∧ (x = .stopping ↔ ¬ rest ∧ limit = .trip) ∧
    (x = .running ↔ ¬ rest ∧ limit ≠ .trip ∧ v = target) ∧
    (x = .ramping ↔ ¬ rest ∧ limit ≠ .trip ∧ v ≠ target)
  (∀ s t : State, GeneratorInv s → step s = .next t →
    GeneratorInv t ∧ table t.gen.speed t.gen.target t.gen.limit t.gen.state) ∧
  ∀ (v target : Nat) (limit : RampLimit), table v target limit (masterState v target limit)

/-- Every step keeps the timers, the learnt source, δ and the misses of the cycle context as its state has
them. -/
def Obligations.StepKeepsCycleInv : Prop :=
  ∀ s t : State, CycleInv s → step s = .next t → CycleInv t

/-- Every step keeps both ports in order and the ring role the one the side states give. -/
def Obligations.StepKeepsRingInv : Prop :=
  ∀ s t : State, RingInv s → step s = .next t → RingInv t

/-- Every step keeps every queue and list within its capacity (the transit FIFO within 4,096 bytes and the
repeat FIFO within 2,048, at most one locally originated C frame in the urgent queue, every reservation
that of a frame being received), every counter at 65,535 or below, and the tap table free of two entries
of one class and stream and of two C entries that deliver to the unit. -/
def Obligations.StepKeepsBounds : Prop :=
  (∀ s t : State, QueueInv s → step s = .next t → QueueInv t) ∧
  (∀ s t : State, CounterInv s → step s = .next t → CounterInv t) ∧
  ∀ s t : State, TapInv s → step s = .next t → TapInv t


/-! ## Power-on -/

/-- The state after reset: role, queues and tap table, generator, cycle context, axes, Drive Link, Image,
Trip and Screen Unit and Station Control at the values the reset rules give; and it meets every condition
that steps keep. -/
def Obligations.ResetState : Prop :=
  let s := State.reset
  (s.sw.role = .isolated ∧ s.portA.side = .failed ∧ s.portB.side = .failed ∧
    s.sw.urgent = [] ∧ s.sw.transit = [] ∧ s.sw.counter = [] ∧ s.sw.localK = [] ∧
    s.sw.localM = [] ∧ s.sw.localS = [] ∧ s.sw.localI = [] ∧
    s.sw.tap = List.replicate 32 none ∧ s.sw.clash = none) ∧
  (s.gen.cfg = ⟨0, 0, 1000, 500, 0, 1024, 8192, 2048⟩ ∧ s.gen.pos = 0 ∧ s.gen.speed = 0 ∧
    s.gen.state = .stopped ∧ s.gen.timer = none ∧ s.ctx.state = .idle ∧ s.ctx.learnt = none) ∧
  (∀ a, (s.axis a).state = .disabled ∧ (s.axis a).setpoint = 0 ∧
    (s.axis a).cfg = ⟨1, 1, 256, 0, 16, 64, 0⟩ ∧ (s.driveAxis a).status = none ∧
    (s.driveAxis a).bad = 0) ∧
  (s.image.cam.pixels = 4096 ∧ s.image.cam.pitch = 10 ∧ s.image.lineNo = 0 ∧
    s.image.next = none ∧ s.image.line = none) ∧
  (s.trip.levels.loc = .rampStop ∧ s.trip.levels.eff = .rampStop ∧ s.trip.tripOut = false ∧
    s.trip.isLatched .ringIsolated = true ∧ s.trip.isLatched (.portDown .a) = true ∧
    s.trip.isLatched (.portDown .b) = true ∧ s.trip.remote = []) ∧
  (s.screen.panel.width = 40 ∧ s.screen.panel.height = 30 ∧ s.screen.queue = [] ∧
    s.screen.streams = []) ∧
  s.station.address = 0 ∧ s.station.seq = 0 ∧ s.station.sendQ = [] ∧ s.station.recvQ = [] ∧
  s.station.cfg.heal = 50 ∧ s.station.cfg.missLimit = 3 ∧ s.station.shortTimer = none ∧
  (TripInv s ∧ DriveOffInv s ∧ AxisInv s ∧ RemoteInv s ∧ GeneratorInv s ∧ CycleInv s ∧ RingInv s ∧
    QueueInv s ∧ CounterInv s ∧ TapInv s)

/-- Power-on and the RESET pin put every block in its reset state. The waiting commands, the clock, the
part's serial number and strap, the light at the receivers and the levels of the trip inputs are not
the station's to reset (assumption log 2); that a tile write in transmission is gone, and that a SEND or TAKE in
progress is not cut, is the model's choice too (assumption logs 50 and 57); a receiver that has light is in HUNT, an input found active
has its filter timer running, and the timers of R162 and R178 start. -/
def Obligations.PowerUpResetsEverything : Prop :=
  ∀ (m : Moment) (s : State) (c : Instr), c = .powerOn m ∨ c = .resetPin m →
    let now := max s.clock m.time
    exec c s = .next { State.reset with
      pending := s.pending, clock := now, ready := m.ready, serial := s.serial, strap := s.strap,
      portA := { Port.reset with
        light := s.portA.light, rx := if s.portA.light then .hunt else .dark },
      portB := { Port.reset with
        light := s.portB.light, rx := if s.portB.light then .hunt else .dark },
      trip := { TripUnit.reset with
        inputs := s.trip.inputs.map fun i =>
          { raw := i.raw, filtered := false, timer := if i.raw then some (now + 200000) else none },
        refreshAt := now + 2000000 },
      screen := { ScreenUnit.reset with repaintAt := now + 10000000 } }

/-! ## Fibre ports and ring integrity -/

/-- The six events of the receive sides move the receive state as R4 says, and with it the side state as
R46 says: a side that leaves SYNC fails, its hold is cancelled and its frame in reception is gone, counted
TRUNCATED also where its 16th header byte had not come (told by the moment: assumption log 12), SYNC_LOSS is
counted, and PORT_DOWN is present and latched; a side that enters SYNC is HEALING, its hold runs, and PORT_DOWN
is absent; the role is then the one of R48, and RING_ISOLATED is present exactly as it says, latched when present. The other side, the cycle context, the
Drive Link, the Image Unit and Station Control but its sequence counter are as before. A HEALING side
whose hold has run is USABLE, the role is that of R48, and PORT_DOWN and RING_ISOLATED are present exactly
as R55 and R56 say; before the hold has run nothing happens. The frame being sent on a side that leaves SYNC
is aborted, and so is a copy of the frame cut there. A change of the role is counted, aborts the frames being
sent, empties the repeat FIFO, counted ROLE_DISCARD where the new role is not THROUGH, and marks a frame being
received whose side changes use. The six queues of the forward output keep frames, reservations and order while the
forward outputs of the old and the new role are sending, the cut frame's reservation apart; CHANGE frames of the two
ring reports may join the urgent queue's tail. Entry to SYNC and its loss end with these reports, PORT_DOWN first, of a
state in which no control block has changed. Model's choices: the order of the reports; the cut comes before
the change of role, which decides ROLE_DISCARD, and a frame in reception whose place in the repeat FIFO
goes counts there beside its arrival (assumption log 13); a marked frame stays marked (assumption log
41); and port B changes use between WRAP_A and THROUGH (read from R49, assumption log 53). -/
def Obligations.ReceiveStateAndSide : Prop :=
  (∀ (c : Instr) (p : PortId) (s : State), lineEvent c = some p →
      let now := max s.clock (momentOf c).time
      let left := (s.port p).rx = .sync ∧ rxAfter c (s.port p).rx ≠ .sync
      let cut := left ∧ ((s.port p).reception.isSome = true ∨ shortFrame c = true)
      let w := if cut then withoutResv p s.sw else s.sw
      ∃ t, exec c s = .next t ∧
        RoleEffects s t now w (fun q => left ∧ q = p) ∧
        (¬ ((s.port p).rx = .sync ↔ (t.port p).rx = .sync) → ∃ v,
          t = setCondition .ringIsolated (decide (t.sw.role = .isolated))
            (setCondition (.portDown p) (decide left) v) ∧
          SameMoment (s.tick (momentOf c)) v ∧ SameControl s v ∧ v.station = s.station ∧
          (ForwardSending s s.sw.role → ForwardSending s t.sw.role →
            v.sw = { w with role := t.sw.role, counter := v.sw.counter, ctr := { s.sw.ctr with
              roleChanges := t.sw.ctr.roleChanges, roleDiscard := t.sw.ctr.roleDiscard } })) ∧
        (∀ o x, (s.port o).tx = some x → x.aborted = false →
          (left ∧ o = p ∧ (x.copyOf ≠ none ∨ now < x.endAt)) ∨ (cut ∧ x.copyOf = some p) →
          AbortedOn s t o x) ∧
        (t.port p).rx = rxAfter c (s.port p).rx ∧
        SameSide (s.port (otherPort p)) (t.port (otherPort p)) ∧
        t.ctx = s.ctx ∧ t.drive = s.drive ∧ t.image = s.image ∧
        t.station = { s.station with seq := t.station.seq } ∧
        ((s.port p).rx = .sync → (t.port p).rx ≠ .sync →
          (t.port p).side = .failed ∧ (t.port p).hold = none ∧ (t.port p).reception = none ∧
          (t.port p).ctr.syncLoss = bump (s.port p).ctr.syncLoss ∧
          (t.port p).ctr.truncated =
            (if (s.port p).reception.isSome = true ∨ shortFrame c = true then
              bump (s.port p).ctr.truncated else (s.port p).ctr.truncated) ∧
          t.sw.role = roleOf t.portA.side t.portB.side ∧
          (TripWhole s → t.trip.isPresent (.portDown p) = true ∧
            t.trip.isLatched (.portDown p) = true ∧
            t.trip.isPresent .ringIsolated = (t.sw.role == .isolated) ∧
            (t.sw.role = .isolated → t.trip.isLatched .ringIsolated = true))) ∧
        ((s.port p).rx ≠ .sync → (t.port p).rx = .sync →
          (t.port p).side = .healing ∧
          (t.port p).hold =
            some (max s.clock (momentOf c).time + s.station.cfg.heal * 100000) ∧
          t.sw.role = roleOf t.portA.side t.portB.side ∧
          (TripWhole s → t.trip.isPresent (.portDown p) = false ∧
            t.trip.isPresent .ringIsolated = (t.sw.role == .isolated) ∧
            (t.sw.role = .isolated → t.trip.isLatched .ringIsolated = true))) ∧
        (((s.port p).rx = .sync ↔ (t.port p).rx = .sync) →
          (t.port p).side = (s.port p).side ∧ (t.port p).hold = (s.port p).hold ∧
          t.sw.role = s.sw.role ∧ t.gen = s.gen ∧ t.axes = s.axes ∧ t.trip = s.trip ∧
          t.screen = s.screen ∧ t.station = s.station)) ∧
  ∀ (m : Moment) (p : PortId) (s : State) (due : Nat), TripWhole s →
    (s.port p).side = .healing → (s.port p).hold = some due →
    (due ≤ max s.clock m.time →
      ∃ t, exec (.healHoldExpiry m p) s = .next t ∧
        (t.port p).side = .usable ∧ (t.port p).hold = none ∧ (t.port p).rx = (s.port p).rx ∧
        SameSide (s.port (otherPort p)) (t.port (otherPort p)) ∧
        t.sw.role = roleOf t.portA.side t.portB.side ∧
        t.trip.isPresent (.portDown p) = false ∧
        t.trip.isPresent .ringIsolated = (t.sw.role == .isolated) ∧
        t.ctx = s.ctx ∧ t.drive = s.drive ∧ t.image = s.image ∧
        t.station = { s.station with seq := t.station.seq } ∧
        RoleEffects s t (max s.clock m.time) s.sw (fun _ => False) ∧
        (t.sw.role ≠ s.sw.role → (∀ o ∈ forwardOutput t.sw.role, (s.port o).tx ≠ none) →
          t.sw = { s.sw with role := t.sw.role, counter := [], ctr := { s.sw.ctr with
            roleChanges := t.sw.ctr.roleChanges, roleDiscard := t.sw.ctr.roleDiscard } })) ∧
    (max s.clock m.time < due → exec (.healHoldExpiry m p) s = .next (s.tick m))

/-- An invalid symbol in SYNC or BREAK is counted and recorded among those of the last 256; the fourth
sends the side to HUNT, and before that nothing else changes but that an invalid symbol cuts short the
frame being received, counted TRUNCATED, its place given back. Outside SYNC and BREAK, and for a data
symbol skipped after a 1,045th byte, nothing happens; the delimiter that ends the skipped symbols counts
nothing, which is the model's choice (assumption log 44). -/
def Obligations.InvalidSymbolCounted : Prop :=
  ∀ (m : Moment) (p : PortId) (sym : BadSymbol) (pos : Nat) (s : State),
    let x := s.port p
    let l := (x.invalid.filter fun q => decide (pos < q + 256)) ++ [pos]
    let cuts := sym = .invalid ∧ x.rx = .sync ∧ x.reception ≠ none
    (x.skipping = false → x.rx ≠ .sync → x.rx ≠ .brk →
      exec (.invalidSymbol m p sym pos) s = .next (s.tick m)) ∧
    (x.skipping = true → sym = .strayData →
      exec (.invalidSymbol m p sym pos) s = .next (s.tick m)) ∧
    (x.skipping = true → sym = .strayEnd ∨ sym = .strayAbort →
      exec (.invalidSymbol m p sym pos) s =
        .next ((s.tick m).setPort p { x with skipping := false })) ∧
    ((x.skipping = false ∨ sym = .invalid) → (x.rx = .sync ∨ x.rx = .brk) →
      (l.length < 4 → ¬ cuts → exec (.invalidSymbol m p sym pos) s =
        .next ((s.tick m).setPort p { x with
          invalid := l, breakRun := 0,
          ctr := { x.ctr with symbolErrors := bump x.ctr.symbolErrors } })) ∧
      (l.length < 4 → cuts → ∃ t, exec (.invalidSymbol m p sym pos) s = .next t ∧
        RingOnly (s.tick m) (t.setPort p { t.port p with invalid := x.invalid, breakRun := x.breakRun }) ∧
        (t.port p).invalid = l ∧ (t.port p).breakRun = 0 ∧ (t.port p).reception = none ∧
        NoReservation t p ∧
        (t.port p).ctr.symbolErrors = bump x.ctr.symbolErrors ∧
        (t.port p).ctr.truncated = bump x.ctr.truncated) ∧
      (4 ≤ l.length → ∃ t, exec (.invalidSymbol m p sym pos) s = .next t ∧
        (t.port p).rx = .hunt ∧ (t.port p).reception =
          (if x.rx = .sync then none else x.reception) ∧
        (t.port p).ctr.symbolErrors = bump x.ctr.symbolErrors))

/-- A frame start on a SYNC side with no frame open: the reception is recorded with the use of its side,
and at the forward input a place is reserved at the tail of the urgent queue (T, C) or of the transit
FIFO, at the counter-path input in the repeat FIFO, where the rules allow one and there is room.
Nothing else changes. That at address 0 a K or M frame with destination 0 is one to the own address, and takes no
place, is read from R35 and R24 (assumption log 16); that header bytes which are not 16 stop the machine (assumption
log 10), and that a frame start ends the skipping after a 1,045th byte (assumption log 44), are the model's
choices. -/
def Obligations.FrameStartReserves : Prop :=
  ∀ (m : Moment) (p : PortId) (stamp : Nat) (hdr : List Byte) (isCommand : Bool) (s : State),
    let h := readHeader hdr
    let i : QItem := resvItem p stamp h
    let toSelf := (h.cls = .k ∨ h.cls = .m) ∧ h.dest = s.station.address
    let sweep := h.cls = .m ∧ h.dest = 0 ∧ isCommand = true
    let open_ (r : Resv) (u : State) : State := u.setPort p { u.port p with
      skipping := false, breakRun := 0,
      reception := some { stamp := stamp, hdr := h, use := rxUse s.sw.role p, resv := r,
                          got32 := false } }
    (hdr.length ≠ 16 →
      exec (.frameStart m p stamp hdr isCommand) s = .fault .noSuchEvent) ∧
    (hdr.length = 16 → (s.port p).rx = .sync → (s.port p).reception = none →
      (rxUse s.sw.role p = .forwardInput → ¬ toSelf → ¬ sweep → (h.cls = .t ∨ h.cls = .c) →
        s.sw.urgent.length < 8 →
        exec (.frameStart m p stamp hdr isCommand) s = .next (open_ .held
          ((s.tick m).setSw { s.sw with urgent := s.sw.urgent ++ [i] }))) ∧
      (rxUse s.sw.role p = .forwardInput → ¬ toSelf → ¬ sweep → h.cls ≠ .t → h.cls ≠ .c →
        queueBytes s.sw.transit + (20 + h.len) ≤ 4096 →
        exec (.frameStart m p stamp hdr isCommand) s = .next (open_ .held
          ((s.tick m).setSw { s.sw with transit := s.sw.transit ++ [i] }))) ∧
      (rxUse s.sw.role p = .counterInput → h.hop + 1 < 127 →
        queueBytes s.sw.counter + (20 + h.len) ≤ 2048 →
        exec (.frameStart m p stamp hdr isCommand) s = .next (open_ .held
          ((s.tick m).setSw { s.sw with counter := s.sw.counter ++ [i] }))) ∧
      (rxUse s.sw.role p = .unused ∨
        (rxUse s.sw.role p = .forwardInput ∧ (toSelf ∨ sweep ∨
          ((h.cls = .t ∨ h.cls = .c) ∧ 8 ≤ s.sw.urgent.length) ∨
          (h.cls ≠ .t ∧ h.cls ≠ .c ∧ 4096 < queueBytes s.sw.transit + (20 + h.len)))) ∨
        (rxUse s.sw.role p = .counterInput ∧
          (127 ≤ h.hop + 1 ∨ 2048 < queueBytes s.sw.counter + (20 + h.len))) →
        exec (.frameStart m p stamp hdr isCommand) s = .next (open_ .none (s.tick m))))

/-- When the frame being received on a port reaches 32 bytes, its reservation becomes eligible and the outputs
choose; with no frame being received nothing happens. At the head of the urgent queue, or of the transit
FIFO behind no eligible urgent frame, with the forward output idle, its cut-through copy begins; at the head of
the repeat FIFO with the counter-path output idle likewise; the copy carries the age R34 gives. What else the
forward output's arbiter picks is sent in its place, and with no choice to make the reservation waits. In ISOLATED
every frame picked is discarded, counted ISOLATED_DISCARD. Only queues and frames being sent change. -/
def Obligations.ReservationReaches32 : Prop :=
  ∀ (m : Moment) (p : PortId) (s : State),
    let c : Instr := .reservationEligible m p
    ((s.port p).reception = none → exec c s = .next (s.tick m)) ∧
    ∀ r : Reception, (s.port p).reception = some r →
      let w : Switch := { s.sw with
        urgent := s.sw.urgent.map (readyItem p), transit := s.sw.transit.map (readyItem p),
        counter := s.sw.counter.map (readyItem p) }
      let u := ((s.tick m).setPort p { s.port p with reception := some { r with got32 := true } }).setSw w
      let begins (q : PortId) (i : QItem) (v : Switch) : Prop :=
        exec c s = .next (u.sends q { i with ready := true } v) ∧
        ((u.sends q { i with ready := true } v).port q).tx = some
          { frame := { i.frame with hdr := { i.frame.hdr with
              age := min (i.frame.hdr.age + (max s.clock m.time - i.since) +
                (match q with | .a => s.station.cfg.linkA | .b => s.station.cfg.linkB)) 16777215 } },
            copyOf := some p, endAt := max s.clock m.time + (22 + i.frame.hdr.len),
            aborted := false, check := none }
      (∃ t v, exec c s = .next t ∧ RingOnly (s.tick m) t ∧
        (t.port p).reception = some { r with got32 := true, resv := v }) ∧
      (ForwardStill u → CounterStill u → exec c s = .next u) ∧
      (∀ o i v, forwardOutput w.role = some o → (u.port o).tx = none →
        (u.port o).side = .usable → w.pick = some (i, v) → CounterStill u →
        exec c s = .next (u.sends o i v)) ∧
      (∀ i rest, w.role = .through → u.portA.tx = none → u.portA.side = .usable →
        w.counter = i :: rest → i.eligible = true → ForwardStill u →
        exec c s = .next (u.sends .a i { w with counter := rest })) ∧
      (∀ i v j rest, w.role = .through → u.portB.tx = none → u.portB.side = .usable →
        w.pick = some (i, v) → u.portA.tx = none → u.portA.side = .usable →
        w.counter = j :: rest → j.eligible = true →
        exec c s = .next ((u.sends .b i v).sends .a j { v with counter := rest })) ∧
      (∀ (q : PortId) (i : QItem) (rest : List QItem), i.origin = .reserved p →
        (forwardOutput w.role = some q → (s.port q).tx = none → (s.port q).side = .usable →
          CounterStill u →
          (s.sw.urgent = i :: rest → begins q i { w with urgent := rest.map (readyItem p) }) ∧
          ((∀ j ∈ w.urgent.head?, j.eligible = false) → s.sw.transit = i :: rest →
            begins q i { w with transit := rest.map (readyItem p) })) ∧
        (w.role = .through → s.portA.tx = none → s.portA.side = .usable → ForwardStill u →
          s.sw.counter = i :: rest → begins .a i { w with counter := rest.map (readyItem p) })) ∧
      (w.role = .isolated → (∀ i ∈ w.urgent ++ w.transit, i.eligible = true) →
        w.ctr.isolatedDiscard ≤ 65535 →
        ∃ t, exec c s = .next t ∧ t.sw = { w with
          urgent := [], transit := [], localK := [], localM := [], localS := [], localI := [],
          ctr := { w.ctr with
            isolatedDiscard := min (w.ctr.isolatedDiscard + w.forwardItems) 65535 } })

/-- A frame that closes badly is discarded: counted by its verdict (CRC_BAD, FORMAT_BAD, ABORTED or
TRUNCATED, where the 1,045th byte of a frame is not counted in SYMBOL_ERRORS besides, which is the model's choice,
assumption log 44) and not FRAMES_IN, its reservation removed, a copy of it being sent ended with an abort mark, and no
control block and nothing of Station Control touched. An invalid symbol that cuts a frame is then counted and
recorded among those of the last 256, the fourth of which takes the side to HUNT and fails it. The verdict: fewer
than 20 bytes is FORMAT_BAD; then the last 4 bytes must be the CRC-32 of those before them, else CRC_BAD; then the
form check of R15, of the zero bits, the length, the source, the class and a C, T or K body, else FORMAT_BAD. -/
def Obligations.BadFrameDiscarded : Prop :=
  (∀ (m : Moment) (p : PortId) (s : State) (closing : Closing) (f : PortCounters → PortCounters),
    (s.port p).rx = .sync →
    ((∃ bytes reading, closing = .ended bytes reading ∧ arrivalFits (s.tick m) p bytes = true ∧
        ((judgeFrame bytes = .crcBad ∧ f = fun c => { c with crcBad := bump c.crcBad }) ∨
         (judgeFrame bytes = .formatBad ∧ f = fun c => { c with formatBad := bump c.formatBad }))) ∨
      (closing = .aborted ∧ f = fun c => { c with aborted := bump c.aborted }) ∨
      ((closing = .truncated .startDelimiter ∨ closing = .truncated .idle ∨
        closing = .truncated .breakHeard ∨ closing = .truncated .brk ∨
        closing = .truncated .overlong) ∧ f = fun c => { c with truncated := bump c.truncated })) →
    ∃ t, exec (.frameArrival m p closing) s = .next t ∧
      SameMoment (s.tick m) t ∧ SameControl (s.tick m) t ∧ t.station = s.station ∧
      (t.port p).reception = none ∧ (t.port p).rx = .sync ∧ NoReservation t p ∧
      (t.port p).ctr = { f (s.port p).ctr with abortsSent := (t.port p).ctr.abortsSent } ∧
      t.sw.role = s.sw.role ∧ t.sw.tap = s.sw.tap ∧
      (OutputsBusy s → t.sw = withoutResv p s.sw) ∧
      ∀ o x, (s.port o).tx = some x → x.copyOf = some p → x.aborted = false →
        AbortedOn s t o x) ∧
  (∀ (m : Moment) (p : PortId) (s : State) (pos : Nat), (s.port p).rx = .sync →
    let l := ((s.port p).invalid.filter fun q => decide (pos < q + 256)) ++ [pos]
    ∃ t, exec (.frameArrival m p (.truncated (.invalid pos))) s = .next t ∧
      SameMoment (s.tick m) t ∧ NoReservation t p ∧ (t.port p).reception = none ∧
      (t.port p).ctr.truncated = bump (s.port p).ctr.truncated ∧
      (t.port p).ctr.symbolErrors = bump (s.port p).ctr.symbolErrors ∧
      (∀ o x, (s.port o).tx = some x → x.copyOf = some p → x.aborted = false →
        AbortedOn s t o x) ∧
      (l.length < 4 → SameControl (s.tick m) t ∧ t.station = s.station ∧
        (t.port p).rx = .sync ∧ (t.port p).side = (s.port p).side ∧ (t.port p).invalid = l ∧
        (t.port p).ctr.syncLoss = (s.port p).ctr.syncLoss) ∧
      (4 ≤ l.length → (t.port p).rx = .hunt ∧ (t.port p).side = .failed ∧
        (t.port p).ctr.syncLoss = bump (s.port p).ctr.syncLoss)) ∧
  (∀ bytes : List Byte,
    let n := bytes.length
    let body := bodyBytes bytes
    let at_ (i : Nat) : Nat := byteAt bytes i
    let right := numAt bytes (n - 4) 4 = (crc32 (bytes.take (n - 4))).toNat
    let trip := body.length = 4 ∧ byteAt body 0 ≤ 3 ∧ byteAt body 2 ≤ 63 ∧ byteAt body 3 ≤ 1
    let cycle := body.length = 16 ∧ numAt body 2 4 < 2 ^ 28 ∧ numAt body 6 4 ≤ 8388607 ∧
      250 ≤ numAt body 10 2 ∧ numAt body 10 2 ≤ 4000 ∧ 20 ≤ numAt body 12 2 ∧
      numAt body 12 2 + 20 ≤ numAt body 10 2 ∧ byteAt body 14 ≤ 3 ∧ byteAt body 15 ≤ 3
    let corr := body.length = 4 + 4 * byteAt body 2 ∧ 1 ≤ byteAt body 2 ∧ byteAt body 2 ≤ 16 ∧
      byteAt body 3 = 0 ∧ ∀ i, i < byteAt body 2 →
        byteAt body (4 + 4 * i) / 4 % 4 = 0 ∧ numAt body (5 + 4 * i) 2 ≠ 0x8000 ∧
        byteAt body (7 + 4 * i) = 0
    let formed := at_ 2 < 64 ∧ at_ 3 < 64 ∧ at_ 8 < 128 ∧ at_ 14 = 0 ∧ at_ 15 = 0 ∧
      numAt bytes 12 2 = body.length ∧ body.length ≤ 1024 ∧ 1 ≤ at_ 3 ∧ at_ 3 ≤ 62 ∧
      ((at_ 0 = 1 ∧ trip) ∨ (at_ 0 = 2 ∧ cycle) ∨ (at_ 0 = 3 ∧ corr) ∨ at_ 0 = 4 ∨ at_ 0 = 5 ∨
        at_ 0 = 6)
    (n < 20 → judgeFrame bytes = .formatBad) ∧
    (20 ≤ n → ¬ right → judgeFrame bytes = .crcBad) ∧
    (20 ≤ n → right → ¬ formed → judgeFrame bytes = .formatBad) ∧
    (20 ≤ n → right → formed → judgeFrame bytes = .good)) ∧
  (crc32 [] = 0 ∧ ∀ (bytes : List Byte) (b : Byte),
    let bit (r : BitVec 32) : BitVec 32 := if r.msb then (r <<< 1) ^^^ 0x04C11DB7 else r <<< 1
    ~~~ crc32 (bytes ++ [b]) =
      bit (bit (bit (bit (bit (bit (bit (bit (~~~ crc32 bytes ^^^ (b.setWidth 32 <<< 24))))))))))


/-- A good frame that ends at the Ring Switch: at hop count 127 on either path, on an unused side, or as
the station's own frame come home (ENUMERATE and COLLECT sweeps apart), it is counted FRAMES_IN and HOP_LIMIT, ROLE_DISCARD or
STRIPPED, is neither delivered nor forwarded, and no control block is touched: its reservation leaves the
queues, nothing joins them, and a copy of it being sent is ended with an abort mark. That an own M frame to 0 of
another kind or command code ends here too, and reaches no Station Control, is the model's choice (assumption
logs 15 and 17). -/
def Obligations.FrameEndsAtTheSwitch : Prop :=
  ∀ (m : Moment) (p : PortId) (s : State) (bytes : List Byte) (reading : Body)
    (f : SwitchCounters → SwitchCounters), GoodArrival s m p bytes →
    let g := readFrame bytes reading
    let use := s.arrivalUse p
    ((use ≠ .unused ∧ 127 ≤ g.hdr.hop + 1 ∧ f = fun c => { c with hopLimit := bump c.hopLimit }) ∨
     (use = .unused ∧ f = fun c => { c with roleDiscard := bump c.roleDiscard }) ∨
     (use = .forwardInput ∧ g.hdr.hop + 1 < 127 ∧ s.station.address ≠ 0 ∧
       g.hdr.src = s.station.address ∧ g.hdr.tag = s.tag ∧
       ¬ (g.hdr.cls = .m ∧ g.hdr.dest = 0 ∧ (mgmtOf g.body).kind = .command ∧
         sweepCommand (mgmtOf g.body).cmd = true) ∧
       f = fun c => { c with stripped := bump c.stripped })) →
    ∃ t, exec (.frameArrival m p (.ended bytes reading)) s = .next t ∧
      SameMoment (s.tick m) t ∧ SameControl (s.tick m) t ∧ t.station = s.station ∧
      (t.port p).reception = none ∧ NoReservation t p ∧
      (t.port p).ctr.framesIn = bump (s.port p).ctr.framesIn ∧
      t.sw.ctr = { f s.sw.ctr with isolatedDiscard := t.sw.ctr.isolatedDiscard } ∧
      (OutputsBusy s → t.sw = { withoutResv p s.sw with ctr := f s.sw.ctr }) ∧
      ∀ (o : PortId) (x : Tx), (s.port o).tx = some x → x.copyOf = some p → x.aborted = false →
        (t.port o).tx = some { x with aborted := true, copyOf := none } ∧
        (t.port o).ctr.abortsSent = bump (s.port o).ctr.abortsSent

/-- A good frame that passes the station goes on with its hop count increased by 1. While the outputs make no
choice it takes the place of its reservation; the cut-through copy being sent gets its body and its check
value and runs on; a frame without reservation joins the tail of the urgent queue (T, C) or of the transit
FIFO, on the counter path of the repeat FIFO, or is counted URGENT_DROP, which latches RING_CONGESTION,
TRANSIT_DROP or REPEAT_DROP. Nothing else changes. Where RING_CONGESTION newly latches and this changes what the
station publishes, its CHANGE frame finds the urgent queue full too and is counted URGENT_DROP after the frame,
which is the model's deduction (assumption log 36).
That an M frame of kind neither COMMAND nor RESPONSE with destination 0 passes as no sweep is the model's
deduction (assumption log 15). -/
def Obligations.FrameForwarded : Prop :=
  ∀ (m : Moment) (p : PortId) (s : State) (bytes : List Byte) (reading : Body),
    GoodArrival s m p bytes → (readFrame bytes reading).hdr.hop + 1 < 127 → OutputsBusy s →
    let f := hoppedFrame bytes reading
    let u := s.arrived m p
    let c : Instr := .frameArrival m p (.ended bytes reading)
    let use := s.arrivalUse p
    (use = .forwardInput ∧ PassesOn s (readFrame bytes reading) →
      ((s.resvOf p ≠ .none ∨ (f.hdr.cls ≠ .t ∧ f.hdr.cls ≠ .c) ∨ s.sw.urgent.length < 8 ∨
          s.trip.isLatched .ringCongestion = true) →
        (∀ o x, (s.port o).tx = some x → x.copyOf ≠ some p) →
        exec c s = .next ((u.closed p).setSw (forwardedSw p (s.resvOf p) f u.clock s.sw))) ∧
      ((f.hdr.cls = .t ∨ f.hdr.cls = .c) → s.resvOf p = .none → 8 ≤ s.sw.urgent.length →
        TripWhole s → ∃ t, exec c s = .next t ∧ t.trip.isLatched .ringCongestion = true ∧
          NotDelivered (s.tick m) t ∧
          (s.trip.isLatched .ringCongestion = false → t.sw.ctr.urgentDrop =
            if s.publishStream ≠ none ∧
                s.trip.levels.pub ≠ (s.trip.latch .ringCongestion).compute.pub then
              bump (bump s.sw.ctr.urgentDrop)
            else bump s.sw.ctr.urgentDrop))) ∧
    (use = .counterInput →
      (s.sw.role ≠ .through ∨ s.portA.tx ≠ none ∨ s.portA.side ≠ .usable) →
      (∀ o x, (s.port o).tx = some x → x.copyOf ≠ some p) →
      exec c s = .next ((u.closed p).setSw (repeatedSw p (s.resvOf p) f u.clock s.sw))) ∧
    (use = .counterInput ∨ (use = .forwardInput ∧ PassesOn s (readFrame bytes reading)) →
      s.resvOf p = .picked → ∀ o x, (s.port o).tx = some x → x.copyOf = some p →
      (∀ y, (s.port (otherPort o)).tx = some y → y.copyOf ≠ some p) →
      exec c s = .next ((u.setPort o { u.port o with tx := some { x with
        frame := { f with hdr := x.frame.hdr }, copyOf := none,
        check := some (crc32 (headerBytes x.frame.hdr ++ bodyBytes bytes)) } }).closed p))

/-- A frame at the forward input with the station's own address and a foreign tag: it is
counted CLASH_SEEN and recorded, ADDRESS_CLASH is latched, and it is delivered to no unit and not to
the frame port; where ADDRESS_CLASH was latched before and the frame is not dropped with RING_CONGESTION
new, no control block changes at all. The report made, it is forwarded where class handling says so: a K or M frame
to another address than the own, a T, C, I or S frame with no tap table entry or with PASS+COPY, but no REPAINT to
the own address. While the outputs make no choice it takes the place of its reservation, its copy being sent gets
its body and runs on, or it joins the tail of its queue, or is counted URGENT_DROP, which reports RING_CONGESTION, or
TRANSIT_DROP; not forwarded, its reservation is gone and its copy ends with an abort mark. That an M frame of kind
neither COMMAND nor RESPONSE to 0 passes as no sweep is the model's deduction (assumption log 15). A sweep is still acted on in place: an ENUMERATE under FORCE gives the station
the next address 1 to 62, or takes its address at 63, and a changed address makes the record absent again; how it
passes on is said in ManagementFrames. That a sweep of another code is acted on by no station is the model's deduction
(assumption log 17), and so it is that a passing sweep is acted on whatever its length and counted taken nowhere
(assumption log 18). -/
def Obligations.ClashOfAddress : Prop :=
  ∀ (m : Moment) (p : PortId) (s : State) (bytes : List Byte) (reading : Body), TripWhole s →
    GoodArrival s m p bytes → s.arrivalUse p = .forwardInput →
    let g := readFrame bytes reading
    g.hdr.hop + 1 < 127 → s.station.address ≠ 0 → g.hdr.src = s.station.address →
    g.hdr.tag ≠ s.tag →
    let b := mgmtOf g.body
    let sweep := g.hdr.cls = .m ∧ g.hdr.dest = 0 ∧ b.kind = .command
    (¬ sweep → ∃ t, exec (.frameArrival m p (.ended bytes reading)) s = .next t ∧
      t.sw.clash = some g.hdr.tag ∧ t.sw.ctr.clashSeen = bump s.sw.ctr.clashSeen ∧
      t.trip.isLatched .addressClash = true ∧ NotDelivered (s.tick m) t ∧
      (s.trip.isLatched .addressClash = true →
        (s.sw.urgent.length < 8 ∨ s.trip.isLatched .ringCongestion = true) →
        SameControl (s.tick m) t ∧ t.station = s.station)) ∧
    (¬ sweep → OutputsBusy s →
      let f := hoppedFrame bytes reading
      let h := g.hdr
      let c : Instr := .frameArrival m p (.ended bytes reading)
      let u := s.arrived m p
      let w := report .addressClash (u.setSw { s.sw with
        clash := some h.tag, ctr := { s.sw.ctr with clashSeen := bump s.sw.ctr.clashSeen } })
      let entry := tapFind s.sw.tap h.cls h.stream
      let urgent := h.cls = .t ∨ h.cls = .c
      let forwards := match h.cls with
        | .k | .m => h.dest ≠ s.station.address
        | .s => ¬ (isRepaint g.body = true ∧ h.dest = s.station.address) ∧
            (entry = none ∨ ∃ x, entry = some x ∧ x.action = .passCopy)
        | _ => entry = none ∨ ∃ x, entry = some x ∧ x.action = .passCopy
      let copied (o : PortId) (x : Tx) : Prop :=
        (s.port o).tx = some x ∧ x.copyOf = some p ∧ x.aborted = false ∧
          ∀ y, (s.port (otherPort o)).tx = some y → y.copyOf ≠ some p
      (forwards →
        (s.resvOf p ≠ .none ∨ ¬ urgent ∨ w.sw.urgent.length < 8 →
          (s.resvOf p = .picked → ∀ o x, (s.port o).tx = some x → x.copyOf ≠ some p) →
          exec c s = .next ((w.setSw (forwardedSw p (s.resvOf p) f u.clock w.sw)).closed p)) ∧
        (s.resvOf p = .none → urgent → 8 ≤ w.sw.urgent.length →
          exec c s = .next ((reportCongestion (countUrgentDrop w)).closed p)) ∧
        (s.resvOf p = .picked → ∀ o x, copied o x →
          exec c s = .next ((w.setPort o { u.port o with tx := some { x with
            frame := { f with hdr := x.frame.hdr }, copyOf := none,
            check := some (crc32 (headerBytes x.frame.hdr ++ bodyBytes bytes)) } }).closed p))) ∧
      (¬ forwards →
        let v := w.setSw (withoutResv p w.sw)
        ((∀ o x, (s.port o).tx = some x → x.copyOf ≠ some p) → exec c s = .next (v.closed p)) ∧
        ∀ o x, copied o x →
          exec c s = .next ((v.setPort o { u.port o with
            tx := some { x with aborted := true, copyOf := none },
            ctr := { (u.port o).ctr with
              abortsSent := bump (u.port o).ctr.abortsSent } }).closed p))) ∧
    (sweep → ∃ t, exec (.frameArrival m p (.ended bytes reading)) s = .next t ∧
      t.sw.ctr.clashSeen = bump s.sw.ctr.clashSeen ∧ t.trip.isLatched .addressClash = true ∧
      (∀ first next, b.cmd = .enumerate first next → t.station.address =
        if b.force = true ∧ 1 ≤ next ∧ next ≤ 62 then next
        else if b.force = true ∧ next = 63 then 0 else s.station.address) ∧
      ((∀ first next, b.cmd ≠ .enumerate first next) →
        t.station.address = s.station.address) ∧
      t.sw.clash =
        (if t.station.address = s.station.address then some g.hdr.tag else none) ∧
      (t.station.address = s.station.address → NotDelivered (s.tick m) t) ∧
      t.ctx = s.ctx ∧ t.drive = s.drive ∧ t.image = s.image ∧ t.axes.ctr = s.axes.ctr ∧
      t.station.recvQ = s.station.recvQ ∧ t.station.sendQ = s.station.sendQ ∧
      t.station.cfg = s.station.cfg ∧ t.station.ctr = s.station.ctr)

/-- A T, C, I or S frame of another station at the tap table. TAKE and PASS+COPY deliver it, with its hop count
increased, to the unit of its class or to the tail of the receive queue, unless that is full; DROP, and no
entry, deliver it to nothing. PASS+COPY and no entry forward it, TAKE and DROP do not: its reservation is
gone. A T or C frame that goes on without a reservation joins the tail of the urgent queue as the delivery leaves
it, or finds it full and is counted URGENT_DROP, which latches RING_CONGESTION; a CHANGE frame this gives rise to
is counted URGENT_DROP too (the model's deduction, assumption log 36). Beside the delivery and that report no
control block changes. The unit takes a T or C frame by the fields of its body, an
I frame at the viewport and an S frame at the tile map, by what its body reads as. -/
def Obligations.TapTableDelivers : Prop :=
  ∀ (m : Moment) (p : PortId) (s : State) (bytes : List Byte) (reading : Body),
    GoodArrival s m p bytes → s.arrivalUse p = .forwardInput →
    let g := readFrame bytes reading
    let f := hoppedFrame bytes reading
    let entry := tapFind s.sw.tap g.hdr.cls g.hdr.stream
    let u := s.arrived m p
    g.hdr.hop + 1 < 127 → s.station.address ≠ 0 → g.hdr.src ≠ s.station.address →
    (g.hdr.cls = .t ∨ g.hdr.cls = .c ∨ g.hdr.cls = .i ∨
      (g.hdr.cls = .s ∧ ¬ (isRepaint g.body = true ∧ g.hdr.dest = s.station.address))) →
    let v := match entry with
      | some ⟨_, _, .drop, _⟩ | none => u
      | some ⟨_, _, _, .unit⟩ => deliverUnit u f
      | some ⟨_, _, _, .port⟩ => deliverPort u f
    (g.hdr.cls = .t → ∃ b, readTrip (bodyBytes bytes) = some b ∧
      deliverUnit u f = takeTrip g.hdr.src b u) ∧
    (g.hdr.cls = .c → ∃ b, readCycle (bodyBytes bytes) = some b ∧
      deliverUnit u f = takeCycle g.hdr.src g.hdr.tag g.hdr.age b u) ∧
    (g.hdr.cls = .i → deliverUnit u f = deliverImage u f ∧
      ∀ gs tail, reading = .image gs tail → f.body = .image gs tail) ∧
    (g.hdr.cls = .s → deliverUnit u f = deliverScreen u f ∧
      ∀ stream rs, reading = .tiles stream rs → bodyBytes bytes ≠ [] →
        f.body = if byteAt (bodyBytes bytes) 0 = 1 then .tiles stream rs
          else .bytes (bodyBytes bytes)) ∧
    let forwards := entry = none ∨ ∃ x, entry = some x ∧ x.action = .passCopy
    ∃ t, exec (.frameArrival m p (.ended bytes reading)) s = .next t ∧
      (t.port p).reception = none ∧
      (¬ forwards → SameControl v t ∧ t.station = v.station ∧ NoReservation t p ∧
        (OutputsBusy s → t.sw = withoutResv p v.sw)) ∧
      (forwards → s.resvOf p ≠ .none ∨ g.hdr.cls = .i ∨ g.hdr.cls = .s →
        SameControl v t ∧ t.station = v.station ∧
        (OutputsBusy s → t.sw = forwardedSw p (s.resvOf p) f u.clock v.sw)) ∧
      (forwards → s.resvOf p = .none → (g.hdr.cls = .t ∨ g.hdr.cls = .c) →
        (v.sw.urgent.length < 8 → SameControl v t ∧ t.station = v.station ∧
          (OutputsBusy s → t.sw = forwardedSw p .none f u.clock v.sw)) ∧
        (NoReservation s p → 8 ≤ v.sw.urgent.length →
          t = (reportCongestion (countUrgentDrop v)).closed p ∧
          (TripWhole s → t.trip.isLatched .ringCongestion = true) ∧
          (v.trip.isLatched .ringCongestion = true →
            t.sw.ctr.urgentDrop = bump v.sw.ctr.urgentDrop) ∧
          (OutputsBusy s → v.trip.isLatched .ringCongestion = false → t.sw.ctr.urgentDrop =
            if v.publishStream ≠ none ∧
                v.trip.levels.pub ≠ (v.trip.latch .ringCongestion).compute.pub then
              bump (bump v.sw.ctr.urgentDrop)
            else bump v.sw.ctr.urgentDrop))) ∧
      ((entry = none ∨ ∃ x, entry = some x ∧ x.action = .drop) → NotDelivered (s.tick m) t) ∧
      ∀ x, entry = some x → x.action ≠ .drop → x.target = .port →
        t.station.recvQ = receiveWith (s.tick m) f ∧
        t.station = { ((s.tick m).received f).station with seq := t.station.seq }

/-- Corrections. A record for a COUPLED axis moves its correction target by the amount, limited to the maximum,
counted CORR_CLAMPED where it was, and CORRECTION_LIMIT is present exactly while the target stands at a
maximum above 0; for any other axis it is counted CORR_IGNORED. Records act in order, each whole before
the next. A K frame of another station to this one, or to all, acts on the axes by its records; one to
another station only passes. It is forwarded unless it is for this station alone. -/
def Obligations.CorrectionsTaken : Prop :=
  (∀ (s : State) (c : CorrRec),
    let r := s.axis c.axis
    let t := takeCorrections [c] s
    let max : Int := r.cfg.corrMax
    let sum := r.corrTarget + c.amount
    let target := if sum < -max then -max else if max < sum then max else sum
    let full := 0 < r.cfg.corrMax ∧ target.natAbs = r.cfg.corrMax
    let ctr := if target = sum then s.axes.ctr else
      { s.axes.ctr with corrClamped := bump s.axes.ctr.corrClamped }
    (r.state ≠ .coupled → t = s.setAxes { s.axes with
      ctr := { s.axes.ctr with corrIgnored := bump s.axes.ctr.corrIgnored } }) ∧
    (r.state = .coupled →
      (t.axis c.axis).corrTarget = target ∧ t.axes.ctr = ctr ∧
      (∀ a, (t.axis a).corr = (s.axis a).corr) ∧
      (∀ a, a ≠ c.axis → (t.axis a).corrTarget = (s.axis a).corrTarget) ∧
      t.ctx = s.ctx ∧ t.drive = s.drive ∧ t.image = s.image ∧
      (TripWhole s → t.trip.isPresent (.correctionLimit c.axis) = decide full ∧
        (full → t.trip.isLatched (.correctionLimit c.axis) = true)) ∧
      (¬ full ∨ s.trip.isLatched (.correctionLimit c.axis) = true →
        t = (s.setAxes { s.axes with
          recs := s.axes.recs.set c.axis { r with corrTarget := target }, ctr := ctr }).setTrip
            (s.trip.setCond (.correctionLimit c.axis) (decide full))))) ∧
  (∀ (s : State) (cs ds : List CorrRec),
    takeCorrections (cs ++ ds) s = takeCorrections ds (takeCorrections cs s)) ∧
  ∀ (m : Moment) (p : PortId) (s : State) (bytes : List Byte) (reading : Body) (k : CorrBody),
    GoodArrival s m p bytes → s.arrivalUse p = .forwardInput → s.station.address ≠ 0 →
    let h := (readFrame bytes reading).hdr
    let u := s.arrived m p
    h.cls = .k → h.hop + 1 < 127 → h.src ≠ s.station.address → readCorr (bodyBytes bytes) = some k →
    let v := if h.dest = s.station.address ∨ h.dest = 63 then takeCorrections k.records u else u
    ∃ t, exec (.frameArrival m p (.ended bytes reading)) s = .next t ∧ SameControl v t ∧
      t.station = v.station ∧ (t.port p).reception = none ∧
      (h.dest = s.station.address → NoReservation t p) ∧
      (OutputsBusy s → t.sw = if h.dest = s.station.address then withoutResv p v.sw
        else forwardedSw p (s.resvOf p) (hoppedFrame bytes reading) u.clock v.sw)

/-- Management and REPAINT frames of another station at the forward input. A RESPONSE to this station, and one
to 63, joins the receive queue; any other M frame to this station or to 63 is taken as a command from its
source or from a broadcast; one to 63 is forwarded too. A REPAINT to this station joins the receive queue.
A command taken so is the command of the table, a sweep sent to a station or to all among them; a frame that is
neither COMMAND nor RESPONSE, and a command code that is none, is answered BAD_COMMAND and changes nothing
else: COMMANDS_TAKEN and the management timers stay, and from a broadcast it is counted BROADCAST_REFUSED. A sweep that is passing, which holds no place, is acted on as Sweeps states and placed at the tail of the
transit FIFO, its bytes as they came while no field of it changes; so is one with the station's own address and a
foreign tag, after its clash is counted, recorded and reported; one with another command code passes unchanged (the
model's deduction, assumption log 17). One come home is stripped and answered in the receive queue, or
counted PORT_DROP, and changes nothing else. What a passing
sweep does not check, and what its response carries beside R62, is the model's (assumption logs 18 and 59). -/
def Obligations.ManagementFrames : Prop :=
  (∀ (m : Moment) (p : PortId) (s : State) (bytes : List Byte) (reading : Body),
    GoodArrival s m p bytes → s.arrivalUse p = .forwardInput →
    let g := readFrame bytes reading
    let f := hoppedFrame bytes reading
    let b := mgmtOf g.body
    let own := s.station.address
    let u := s.arrived m p
    g.hdr.hop + 1 < 127 → own ≠ 0 → g.hdr.src ≠ own →
    (g.hdr.cls = .m → g.hdr.dest = own ∨ g.hdr.dest = 63 →
      let via : Via := if g.hdr.dest = own then .ring g.hdr.src else .broadcast
      let v := if b.kind = .response then deliverPort u f else takeCommand via b u
      ∃ t, exec (.frameArrival m p (.ended bytes reading)) s = .next t ∧ SameControl v t ∧
        t.station = v.station ∧ (t.port p).reception = none ∧
        (b.kind = .response → SameControl u t ∧ t.station = (u.received f).station) ∧
        (g.hdr.dest = own → NoReservation t p) ∧
        (OutputsBusy v → t.sw = if g.hdr.dest = own then withoutResv p v.sw
          else forwardedSw p (v.resvOf p) f v.clock v.sw)) ∧
    (g.hdr.cls = .s → isRepaint g.body = true → g.hdr.dest = own →
      ∃ t, exec (.frameArrival m p (.ended bytes reading)) s = .next t ∧ SameControl u t ∧
        t.station = (u.received f).station ∧ (t.port p).reception = none ∧ NoReservation t p)) ∧
  (∀ (m : Moment) (p : PortId) (s : State) (bytes : List Byte) (reading : Body) (first next : Nat),
    GoodArrival s m p bytes → s.arrivalUse p = .forwardInput → OutputsBusy s → NoReservation s p →
    s.resvOf p = .none → (∀ o x, (s.port o).tx = some x → x.copyOf ≠ some p) →
    let g := readFrame bytes reading
    let f := hoppedFrame bytes reading
    let b := mgmtOf g.body
    let own := s.station.address
    let u := s.arrived m p
    let ds : List Digest := match b.data with | .digests ds => ds | _ => []
    let c : Instr := .frameArrival m p (.ended bytes reading)
    let passes (v : State) (len : Nat) (b' : MgmtBody) (wire : Option (List Byte)) : Prop :=
      exec c s = .next ((placeTransit v
        { hdr := { f.hdr with len := len }, body := .mgmt b', wire := wire }).closed p)
    let answers (cmd : MgmtCmd) (ans : Answer) : Prop :=
      exec c s = .next (((u.setSw { s.sw with
          ctr := { s.sw.ctr with stripped := bump s.sw.ctr.stripped } }).received
        { hdr := f.hdr,
          body := .mgmt { kind := .response, cmd := cmd, hostTag := b.hostTag,
                          status := ans.status, force := false, overflow := b.overflow,
                          count := ans.count, lengthOk := true, data := ans.data } }).closed p)
    let takes := own = 0 ∨ b.force = true
    g.hdr.cls = .m → g.hdr.dest = 0 → b.kind = .command → g.hdr.hop + 1 < 127 →
    (∀ w : State,
      ((own = 0 ∨ g.hdr.src ≠ own) ∧ w = u) ∨
        (own ≠ 0 ∧ g.hdr.src = own ∧ g.hdr.tag ≠ s.tag ∧
          w = report .addressClash (u.setSw { s.sw with
            clash := some g.hdr.tag,
            ctr := { s.sw.ctr with clashSeen := bump s.sw.ctr.clashSeen } })) →
      (b.cmd = .enumerate first next →
        (¬ takes ∨ next = 0 ∨ 63 < next → passes w f.hdr.len b f.wire) ∧
        (takes → 1 ≤ next → next ≤ 62 → let v := w.readdressed next
          v.station.address = next ∧ v.ctx = s.ctx ∧
          v.image = s.image ∧ v.drive = s.drive ∧
          passes v f.hdr.len { b with cmd := .enumerate first (next + 1) } none) ∧
        (takes → next = 63 → let v := w.readdressed 0
          v.station.address = 0 ∧ v.ctx = s.ctx ∧
          v.image = s.image ∧ v.drive = s.drive ∧ (own = 0 → v = w) ∧
          passes v f.hdr.len { b with overflow := true } (if b.overflow then f.wire else none))) ∧
      (b.cmd = .collect →
        (own = 0 → passes w f.hdr.len b f.wire) ∧
        (own ≠ 0 → 1024 < f.hdr.len + 16 → passes w f.hdr.len
          { b with overflow := true, data := .digests ds } (if b.overflow then f.wire else none)) ∧
        (own ≠ 0 → f.hdr.len + 16 ≤ 1024 → passes w (f.hdr.len + 16)
          { b with count := b.count + 1, data := .digests (ds ++ [w.digest]) } none)) ∧
      (sweepCommand b.cmd = false → passes w f.hdr.len b f.wire)) ∧
    (own ≠ 0 → g.hdr.src = own → g.hdr.tag = s.tag →
      (b.cmd = .enumerate first next → answers (.enumerate first next) ⟨.ok, 0,
        .enumerated next (next - first)
          (if next - first = 0 then none else some (next - 1))⟩) ∧
      (b.cmd = .collect → answers .collect ⟨.ok, b.count, .digests ds⟩))) ∧
  ∀ (via : Via) (b : MgmtBody) (s : State), s.station.address ≠ 0 →
    let e : Envelope := ⟨via, b.hostTag, b.lengthOk⟩
    (b.kind = .command → ∀ c, commandOf c = some (e, b.cmd) →
      exec c s = .next (takeCommand via b (s.tick (momentOf c)))) ∧
    (b.kind = .command → ∀ (m : Moment) (first next : Nat) (force overflow : Bool),
      b.cmd = .enumerate first next →
      exec (.enumerate m (.addressed via) b.hostTag first next force overflow b.lengthOk) s =
        .next (takeCommand via b (s.tick m))) ∧
    (b.kind = .command → ∀ (m : Moment) (count : Nat) (overflow : Bool) (ds : List Digest),
      b.cmd = .collect →
      exec (.collect m (.addressed via) b.hostTag count overflow b.lengthOk ds) s =
        .next (takeCommand via b (s.tick m))) ∧
    (b.kind = .other ∨ (b.kind = .command ∧ ∃ code, b.cmd = .unknown code) →
      Refused e b.cmd .badCommand s (takeCommand via b s))

/-- At a transmit completion the frame leaves the port, FRAMES_OUT is counted unless the frame was aborted,
and the outputs choose again: what the forward output's arbiter picks leaves its queue and is the port's
frame from then on, its age grown by residence and link delay, and so the eligible head of the repeat FIFO at
the counter-path output; with nothing to pick, nothing else changes. In ISOLATED every eligible frame is picked
and discarded, counted ISOLATED_DISCARD. A copy still being received has not completed. That FRAMES_OUT is
counted here is the model's choice (assumption log 8). The arbiter's order: an eligible head of the urgent
queue; else an eligible head of the transit FIFO; and only while that FIFO is empty the heads of the local
insert queues, K before M before S before I. The item picked leaves its queue and nothing else does. -/
def Obligations.TransmitCompletion : Prop :=
  (∀ (m : Moment) (p : PortId) (s : State),
    let c : Instr := .transmitCompletion m p
    ((s.port p).tx = none → exec c s = .next (s.tick m)) ∧
    ∀ x : Tx, (s.port p).tx = some x →
      let w := s.sw
      let u := (s.tick m).setPort p { s.port p with
        tx := none,
        ctr := { (s.port p).ctr with framesOut :=
          if x.aborted then (s.port p).ctr.framesOut else bump (s.port p).ctr.framesOut } }
      (x.copyOf ≠ none → exec c s = .next (s.tick m)) ∧
      (x.copyOf = none →
        (∃ t, exec c s = .next t ∧ RingOnly (s.tick m) t ∧
          (t.port p).ctr.framesOut =
            if x.aborted then (s.port p).ctr.framesOut else bump (s.port p).ctr.framesOut) ∧
        (w.forwardItems = 0 → w.counter = [] → exec c s = .next u) ∧
        (ForwardStill u → CounterStill u → exec c s = .next u) ∧
        (∀ o i v, forwardOutput w.role = some o → (u.port o).tx = none →
          (u.port o).side = .usable → w.pick = some (i, v) → CounterStill u →
          exec c s = .next (u.sends o i v)) ∧
        (∀ i q, w.role = .through → u.portA.tx = none → u.portA.side = .usable →
          w.counter = i :: q → i.eligible = true → ForwardStill u →
          exec c s = .next (u.sends .a i { w with counter := q })) ∧
        (w.role = .isolated → (∀ i ∈ w.urgent ++ w.transit, i.eligible = true) →
          w.ctr.isolatedDiscard ≤ 65535 →
          ∃ t, exec c s = .next t ∧ t.sw = { w with
            urgent := [], transit := [], localK := [], localM := [], localS := [], localI := [],
            ctr := { w.ctr with
              isolatedDiscard := min (w.ctr.isolatedDiscard + w.forwardItems) 65535 } }))) ∧
  ∀ (w : Switch) (i : QItem) (q : List QItem),
    let noUrgent := ∀ j l, w.urgent = j :: l → j.eligible = false
    (w.urgent = i :: q → i.eligible = true → w.pick = some (i, { w with urgent := q })) ∧
    (noUrgent → w.transit = i :: q → i.eligible = true →
      w.pick = some (i, { w with transit := q })) ∧
    (noUrgent → w.transit = i :: q → i.eligible = false → w.pick = none) ∧
    (noUrgent → w.transit = [] → w.localK = i :: q → w.pick = some (i, { w with localK := q })) ∧
    (noUrgent → w.transit = [] → w.localK = [] → w.localM = i :: q →
      w.pick = some (i, { w with localM := q })) ∧
    (noUrgent → w.transit = [] → w.localK = [] → w.localM = [] → w.localS = i :: q →
      w.pick = some (i, { w with localS := q })) ∧
    (noUrgent → w.transit = [] → w.localK = [] → w.localM = [] → w.localS = [] →
      w.localI = i :: q → w.pick = some (i, { w with localI := q }))

/-- The move of the send queue's head: with room in its local insert queue it moves there and takes the
station's address, its tag and the next sequence number, hop count 0 and age 0; it waits while that queue
is full, and at address 0 it is removed and counted PORT_REFUSED. A COMMAND to 63 is first executed by the
station itself, as from a broadcast. A sweep is acted on at its move as Sweeps states of one offered: an ENUMERATE
that is right gives this station the next address, where it takes one, a COLLECT this station's digest, and
joins the local M queue with the host's stream and length; one that is wrong is answered in the receive queue, and
so is any other command code with destination 0, counted PORT_DROP where that queue is full, and nothing else changes
but COMMANDS_TAKEN at BAD_VALUE (assumption log 19): no management timer restarts. That such another code is not counted taken
(assumption log 67) is the model's choice. That a sweep is counted COMMANDS_TAKEN at its move (assumption
log 18), and that a frame to 63 of a kind neither COMMAND nor RESPONSE moves without being executed (assumption
log 15), are the model's deductions; that stream and destination stay the host's (assumption log 61), that a CHANGE frame its
new address gives rise to is numbered first (assumption log 64), and that the answer to a
sweep refused has both its flags clear (assumption log 59), are its choices. -/
def Obligations.SendQueueMoves : Prop :=
  ∀ (m : Moment) (s : State) (f : Frame) (q : List Frame), s.station.sendQ = f :: q →
    let popped := (s.tick m).setStation { s.station with sendQ := q }
    let moved (v : State) : QItem :=
      { frame :=
          { f with hdr := { f.hdr with src := v.station.address, tag := v.tag, seq := v.station.seq,
                                       hop := 0, age := 0 } },
        since := v.clock, origin := .own, ready := true }
    ((f.hdr.cls = .k ∨ f.hdr.cls = .s ∨ f.hdr.cls = .i ∨
        (f.hdr.cls = .m ∧ ((mgmtOf f.body).kind ≠ .command ∨ (f.hdr.dest ≠ 0 ∧ f.hdr.dest ≠ 63)))) →
      (s.station.address = 0 → exec (.sendQueueMove m) s = .next (popped.setStation {
        popped.station with
          ctr := { s.station.ctr with portRefused := bump s.station.ctr.portRefused } })) ∧
      (s.station.address ≠ 0 → 8 ≤ (s.sw.localQ f.hdr.cls).length →
        exec (.sendQueueMove m) s = .next (s.tick m)) ∧
      (s.station.address ≠ 0 → (s.sw.localQ f.hdr.cls).length < 8 →
        ∃ t, exec (.sendQueueMove m) s = .next t ∧ SameMoment (s.tick m) t ∧
          SameRing (s.tick m) t ∧ SameControl (s.tick m) t ∧
          t.station = { s.station with sendQ := q, seq := s.station.seq + 1 } ∧
          (OutputsBusy s → t.sw = s.sw.setLocalQ f.hdr.cls
            (s.sw.localQ f.hdr.cls ++ [moved popped])))) ∧
    (f.hdr.cls = .m → (mgmtOf f.body).kind = .command → f.hdr.dest = 63 →
      s.station.address = 0 → exec (.sendQueueMove m) s = .next (popped.setStation {
        popped.station with
          ctr := { s.station.ctr with portRefused := bump s.station.ctr.portRefused } })) ∧
    (f.hdr.cls = .m → (mgmtOf f.body).kind = .command → f.hdr.dest = 63 →
      s.station.address ≠ 0 →
      let v := takeCommand .broadcast (mgmtOf f.body) popped
      (8 ≤ s.sw.localM.length → exec (.sendQueueMove m) s = .next (s.tick m)) ∧
      (s.sw.localM.length < 8 → v.sw.localM.length < 8 →
        ∃ t, exec (.sendQueueMove m) s = .next t ∧ SameControl v t ∧
          t.station = { v.station with seq := v.station.seq + 1 } ∧
          (OutputsBusy v → t.sw = { v.sw with localM := v.sw.localM ++ [moved v] }))) ∧
    (f.hdr.cls = .m → (mgmtOf f.body).kind = .command → f.hdr.dest = 0 →
      let b := mgmtOf f.body
      let c : Instr := .sendQueueMove m
      let counted := countTaken popped
      let ds : List Digest := match b.data with | .digests ds => ds | _ => []
      let joins (v : State) (len : Nat) (b' : MgmtBody) (wire : Option (List Byte)) : Prop :=
        exec c s = .next (insertLocal v .m f.hdr.stream 0 len (.mgmt b') wire)
      let atPort (cmd : MgmtCmd) (r : Resp) (v : State) : Prop :=
        exec c s = .next (v.received (portAnswer cmd b.hostTag (.plain r) v))
      let takes := s.station.address = 0 ∨ b.force = true
      ((s.station.address ≠ 0 ∨ ∃ first next, b.cmd = .enumerate first next) →
        8 ≤ s.sw.localM.length → exec c s = .next (s.tick m)) ∧
      (s.sw.localM.length < 8 → ∀ first next, b.cmd = .enumerate first next →
        (b.lengthOk = false → atPort (.enumerate first next) .badLength popped) ∧
        (b.lengthOk = true → first ≠ next ∨ next = 0 ∨ 62 < next →
          atPort (.enumerate first next) .badValue counted) ∧
        (b.lengthOk = true → first = next → 1 ≤ next → next ≤ 62 →
          (¬ takes → joins counted f.hdr.len { b with data := .none } f.wire) ∧
          (takes → let v := counted.readdressed next
            v.station.address = next ∧ v.ctx = s.ctx ∧ v.image = s.image ∧
            v.drive = s.drive ∧ v.station.ctr.commandsTaken = bump s.station.ctr.commandsTaken ∧
            joins v f.hdr.len { b with cmd := .enumerate first (next + 1), data := .none }
              none))) ∧
      (s.station.address = 0 → (∀ first next, b.cmd ≠ .enumerate first next) →
        exec c s = .next (popped.setStation { popped.station with
          ctr := { s.station.ctr with portRefused := bump s.station.ctr.portRefused } })) ∧
      (s.station.address ≠ 0 → s.sw.localM.length < 8 → b.cmd = .collect →
        (b.count ≠ 0 → atPort .collect .badValue counted) ∧
        (b.count = 0 → b.lengthOk = false → atPort .collect .badLength popped) ∧
        (b.count = 0 → b.lengthOk = true →
          (f.hdr.len + 16 ≤ 1024 → joins counted (f.hdr.len + 16)
            { b with count := 1, data := .digests (ds ++ [s.digest]) } none) ∧
          (1024 < f.hdr.len + 16 → joins counted f.hdr.len
            { b with overflow := true, data := .digests ds }
            (if b.overflow then f.wire else none)))) ∧
      (s.station.address ≠ 0 → s.sw.localM.length < 8 → sweepCommand b.cmd = false →
        atPort b.cmd .badCommand popped))

/-! ## Master axis and cycle -/

/-- An expiry of the cycle timer: the position advances by speed × period
with its remainder kept, the speed takes one ramp step, the cycle number goes up by 1, the timer
restarts with the period in force. The cycle just issued is then taken as any C frame of the station's own would
be, at age 0: where no cycle has been taken yet it is the base that waits; at a station that follows another
source it is counted FOREIGN_CYCLE, CYCLE_CONFLICT is latched, and the context stays. Unless the address is 0 its C frame takes the place of one of the station's own still in
the urgent queue, counted C_SUPERSEDED, or joins its tail, or finds it full and is counted URGENT_DROP;
where RING_CONGESTION is new it is latched then, before the cycle is taken, and a CHANGE frame this gives rise to is
counted URGENT_DROP too (the model's deduction, assumption log 36). -/
def Obligations.CycleTimerIssues : Prop :=
  ∀ (m : Moment) (s : State) (x : CycleTimer), s.gen.timer = some x →
    (max s.clock m.time < x.due → exec (.cycleTimerExpiry m) s = .next (s.tick m)) ∧
    (x.due ≤ max s.clock m.time →
      let g := s.gen
      let way := g.speed * x.period + g.rem
      let pos := g.pos + BitVec.ofNat 28 (way / 1000)
      let down := match g.limit with
        | .accel => g.cfg.accel | .stop => g.cfg.stopDecel | .trip => g.cfg.tripDecel
      let speed :=
        if g.speed < g.target then min (g.speed + g.cfg.accel) g.target
        else if g.target < g.speed then max (g.speed - down) g.target else g.speed
      let state := masterState speed g.target g.limit
      let now := max s.clock m.time
      let body : CycleBody :=
        { num := g.cycle + 1, pos := pos, speed := speed, period := g.cfg.period,
          offset := g.cfg.offset, state := state, level := s.trip.levels.eff }
      let next : Generator := { g with
        pos := pos, rem := way % 1000, speed := speed, state := state, cycle := g.cycle + 1,
        timer := some { period := g.cfg.period, due := now + g.cfg.period * 100 } }
      let item : QItem :=
        { frame :=
            { hdr := { cls := .c, stream := g.cfg.stream, dest := 63, src := s.station.address,
                       tag := s.tag, seq := s.station.seq, hop := 0, age := 0, len := 16 },
              body := .bytes (cycleBytes body) },
          since := now, origin := .own, ready := true }
      let mine := s.sw.urgent.any QItem.isLocalC
      let own := (s.station.address, s.tag)
      let full := s.station.address ≠ 0 ∧ mine = false ∧ 8 ≤ s.sw.urgent.length ∧
        s.trip.isLatched .ringCongestion = false
      let issued (t : State) : Prop :=
        t.gen = next ∧
        t.axes.recs = s.axes.recs ∧ t.drive = s.drive ∧ t.image = s.image ∧ t.trip = s.trip ∧
        t.screen = s.screen ∧ t.station = { s.station with seq := t.station.seq } ∧
        (s.station.address = 0 → t.station.seq = s.station.seq ∧ t.sw = s.sw) ∧
        (s.station.address ≠ 0 →
          t.station.seq = (if mine = true ∨ s.sw.urgent.length < 8 then s.station.seq + 1
            else s.station.seq) ∧
          (OutputsBusy s → t.sw =
            if mine then { s.sw with
              urgent := s.sw.urgent.map fun i => if i.isLocalC then item else i,
              ctr := { s.sw.ctr with cSuperseded := bump s.sw.ctr.cSuperseded } }
            else if s.sw.urgent.length < 8 then { s.sw with urgent := s.sw.urgent ++ [item] }
            else { s.sw with
              ctr := { s.sw.ctr with urgentDrop := bump s.sw.ctr.urgentDrop } }))
      (full →
        let u := reportCongestion (countUrgentDrop ((s.tick m).setGen next))
        exec (.cycleTimerExpiry m) s = .next (takeCycle s.station.address s.tag 0 body u) ∧
        LevelOnly (countUrgentDrop ((s.tick m).setGen next)) u ∧
        (TripWhole s → u.trip.isLatched .ringCongestion = true) ∧
        (OutputsBusy s → u.sw.ctr.urgentDrop =
          if s.publishStream ≠ none ∧
              s.trip.levels.pub ≠ (s.trip.latch .ringCongestion).compute.pub then
            bump (bump s.sw.ctr.urgentDrop)
          else bump s.sw.ctr.urgentDrop)) ∧
      (¬ full → ∃ u, issued u ∧ u.ctx = s.ctx ∧ u.axes = s.axes ∧
        exec (.cycleTimerExpiry m) s = .next (takeCycle s.station.address s.tag 0 body u) ∧
        (s.ctx.learns = false → s.ctx.learnt ≠ some own →
          exec (.cycleTimerExpiry m) s = .next (report .cycleConflict (u.setAxes { s.axes with
            ctr := { s.axes.ctr with foreignCycle := bump s.axes.ctr.foreignCycle } })) ∧
          ∃ t, exec (.cycleTimerExpiry m) s = .next t ∧ t.ctx = s.ctx ∧
            t.axes.ctr.foreignCycle = bump s.axes.ctr.foreignCycle ∧
            t.gen.pos = pos ∧ t.gen.cycle = g.cycle + 1 ∧
            (TripWhole s → t.trip.isLatched .cycleConflict = true))) ∧
      (¬ full → s.ctx.learns = true ∨ s.ctx.learnt = some own →
        ∃ t, exec (.cycleTimerExpiry m) s = .next t ∧ issued t ∧
          (s.ctx.learns = true →
            t.ctx = { s.ctx with
              learnt := some own,
              pending := some { num := g.cycle + 1, pos := pos, speed := speed, period := g.cfg.period,
                                offset := g.cfg.offset, state := state,
                                due := now + 100 * g.cfg.offset } })))

/-- The master commands. SET SPEED is answered NOT_MASTER without the strap, then BAD_VALUE above 8,388,607,
NOT_READY while cycle_run is 0, TRIPPED from RAMP_STOP; else the target is the speed, limited to v_max,
and the limit in force is the acceleration. MASTER STOP sets the target to 0 under the stop limit, and
changes nothing while STOPPING. Neither changes anything else. -/
def Obligations.MasterCommands : Prop :=
  ∀ (m : Moment) (e : Envelope) (s : State), s.station.address ≠ 0 → e.lengthOk = true →
    let u := countTaken (s.tick m)
    let g := s.gen
    (∀ target : Nat, ∃ t, exec (.setSpeed m e target) s = .next t ∧
      let answer (r : Resp) (v : State) := Answered e (.setSpeed target) (.plain r) v t
      if s.strap = false then answer .notMaster u
      else if 8388607 < target then answer .badValue u
      else if g.cfg.cycleRun = 0 then answer .notReady u
      else if 2 ≤ s.trip.levels.eff.rank then answer .tripped u
      else
        answer (if target ≤ g.cfg.vMax then .ok else .clamped) (u.setGen { g with
          target := min target g.cfg.vMax, limit := .accel,
          state := masterState g.speed (min target g.cfg.vMax) .accel })) ∧
    ∃ t, exec (.masterStop m e) s = .next t ∧
      let answer (r : Resp) (v : State) := Answered e .masterStop (.plain r) v t
      if s.strap = false then answer .notMaster u
      else if g.state = .stopping then answer .ok u
      else answer .ok (u.setGen { g with
        target := 0, limit := .stop, state := masterState g.speed 0 .stop })

/-- A pending frame before its apply time stays. At its apply time the frame of the next cycle is an exact
apply: the context takes its values, the repeat counter follows the zero crossing of the difference with δ
in it (read from R82 and R83, assumption log 24), the miss timer starts, the Image Unit gets the base, and
every axis takes its step with the advance, after which the Drive Link begins a new batch; where MASTER_JUMP
is found it is reported first, and the axes then step, from the state the report leaves, with the nominal
advance: that order is the model's choice (assumption log 23). A frame n cycles ahead first makes n − 1 extrapolated applies, each
counted MISSED_CYCLE, or takes the context to LOST at the miss limit. In IDLE and LOST the frame is the
base: the condition of CYCLE_LOSS ends, the axes step with advance 0, the Drive Link begins a new batch, and the
Image Unit makes a base take; that is the whole next state. What the step leaves in the axes is said of the state
the batch leaves, and, where no batch was left and every drive is ready, of the axes alone. -/
def Obligations.PendingFrameApplied : Prop :=
  ∀ (m : Moment) (s : State) (f : PendingCycle), s.ctx.pending = some f →
    let now := max s.clock m.time
    let c := s.ctx
    (now < f.due → exec (.pendingFrameDue m) s = .next (s.tick m)) ∧
    (f.due ≤ now → (c.state = .tracking ∨ c.state = .coasting) → f.num = c.lastCycle + 1 →
      let diff := (f.pos - c.pos).toInt + c.delta.getD 0
      let nominal : Int := ((c.speed * c.period / 1000 : Nat) : Int)
      let jump := s.station.cfg.jumpLimit ≠ 0 ∧
        s.station.cfg.jumpLimit * 256 < (diff - nominal).natAbs
      ∃ t, exec (.pendingFrameDue m) s = .next t ∧
        t.ctx = { c with
          state := .tracking, lastCycle := f.num, pos := f.pos, speed := f.speed,
          period := f.period, lastMaster := f.state, rem := 0, pending := none, delta := none,
          misses := 0,
          repeats :=
            if 0 < diff ∧ f.pos.toNat < c.pos.toNat then c.repeats + 1
            else if diff < 0 ∧ c.pos.toNat < f.pos.toNat then c.repeats - 1 else c.repeats,
          missTimer := some (now + (f.period + f.period / 4) * 100) } ∧
        t.image = s.image.takeBase false { pos := f.pos, speed := f.speed, period := f.period,
                                           at_ := now, repeats := t.ctx.repeats } ∧
        ((f.state = .stopping ∨ f.state = .stopped) → t.axes.stopTimer = none) ∧
        (TripWhole s → jump → t.trip.isLatched .masterJump = true) ∧
        (∀ (r : State) (adv : Int),
          (¬ jump ∧ r = s.tick m ∧ adv = diff) ∨
            (jump ∧ r = report .masterJump (s.tick m) ∧ adv = nominal) →
          let x := startBatch ((r.setCtx { t.ctx with missTimer := c.missTimer }).setAxes
            { r.axes with recs := r.axes.recs.map (axisStep adv) })
          t.drive = x.drive ∧ t.axes.recs = x.axes.recs ∧ t.axes.ctr = x.axes.ctr ∧
          t.gen = x.gen ∧ t.trip = x.trip ∧ t.screen = x.screen ∧ t.sw = x.sw ∧
          t.station = x.station) ∧
        (DrivesReady s m → (¬ jump → ∀ a, t.axis a = axisStep diff (s.axis a)) ∧
          (jump → ∀ a, t.axis a =
            axisStep nominal ((report .masterJump (s.tick m)).axis a)))) ∧
    (f.due ≤ now → (c.state = .tracking ∨ c.state = .coasting) →
      2 ≤ (f.num - c.lastCycle).toNat →
      let n := (f.num - c.lastCycle).toNat
      ∃ t, exec (.pendingFrameDue m) s = .next t ∧ t.ctx.pending = none ∧
        (c.misses + n ≤ s.station.cfg.missLimit →
          t.ctx.state = .tracking ∧ t.ctx.lastCycle = f.num ∧ t.ctx.pos = f.pos ∧
          t.ctx.speed = f.speed ∧ t.ctx.period = f.period ∧ t.ctx.misses = 0 ∧
          t.axes.ctr.missedCycle = bumpBy s.axes.ctr.missedCycle (n - 1)) ∧
        (s.station.cfg.missLimit < c.misses + n →
          t.ctx.state = .lost ∧ t.ctx.localTimer ≠ none ∧ t.ctx.missTimer = none)) ∧
    (f.due ≤ now → (c.state = .idle ∨ c.state = .lost) →
      let after : CycleCtx := { c with
        state := .tracking, lastCycle := f.num, pos := f.pos, speed := f.speed,
        period := f.period, lastMaster := f.state, rem := 0, pending := none, delta := none,
        misses := 0, localTimer := none,
        missTimer := some (now + (f.period + f.period / 4) * 100) }
      let image := s.image.takeBase true { pos := f.pos, speed := f.speed, period := f.period,
                                           at_ := now, repeats := c.repeats }
      let found := setCondition .cycleLoss false (s.tick m)
      let x := startBatch ((found.setCtx { after with missTimer := c.missTimer }).setAxes
        { s.axes with recs := s.axes.recs.map (axisStep 0) })
      ∃ t, exec (.pendingFrameDue m) s = .next t ∧ t = (x.setImage image).setCtx after ∧
        t.ctx = after ∧ t.image = image ∧
        (TripWhole s → t.trip.isPresent .cycleLoss = false) ∧
        (DrivesReady s m → ∀ a, t.axis a = axisStep 0 (s.axis a)))


/-- The miss timer, unless the next cycle waits, makes an extrapolated apply: the position advances by v × T
with its remainder kept, the misses go up by 1 and MISSED_CYCLE is counted; every axis takes its step with the
advance and δ, the Drive Link begins a new batch, and the Image Unit gets the base. Where the step departs from
the advance by more than the jump limit, MASTER_JUMP is reported first, and the axes step, from the state the
report leaves, with the advance alone: that order is the model's choice (assumption log 23). Below the miss limit the context is COASTING and the
miss timer starts anew; at the miss limit it is LOST, the pending frame is gone, the local timer
starts, CYCLE_LOSS is present and latched, and no axis stays COUPLED. The repeat counter follows the zero
crossing of the difference with δ in it (read from R82 and R83, assumption log 24). -/
def Obligations.MissedCycle : Prop :=
  ∀ (m : Moment) (s : State) (due : Nat), s.ctx.missTimer = some due →
    let now := max s.clock m.time
    let c := s.ctx
    (now < due → exec (.missTimerExpiry m) s = .next (s.tick m)) ∧
    (due ≤ now → (∃ f, c.pending = some f ∧ f.num = c.lastCycle + 1) →
      exec (.missTimerExpiry m) s = .next ((s.tick m).setCtx { c with missTimer := none })) ∧
    (due ≤ now → (∀ f, c.pending = some f → f.num ≠ c.lastCycle + 1) →
      let way := c.speed * c.period + c.rem
      let pos := c.pos + BitVec.ofNat 28 (way / 1000)
      let diff : Int := ((way / 1000 : Nat) : Int) + c.delta.getD 0
      let after : CycleCtx := { c with
        state := .coasting, lastCycle := c.lastCycle + 1, pos := pos, rem := way % 1000,
        delta := none, misses := c.misses + 1,
        repeats :=
          if 0 < diff ∧ pos.toNat < c.pos.toNat then c.repeats + 1
          else if diff < 0 ∧ c.pos.toNat < pos.toNat then c.repeats - 1 else c.repeats,
        missTimer := some (now + (c.period + c.period / 4) * 100) }
      let lost : CycleCtx := { after with
        state := .lost, pending := none, missTimer := none, localTimer := some (now + c.period * 100) }
      let image := s.image.takeBase false
        { pos := pos, speed := c.speed, period := c.period, at_ := now, repeats := after.repeats }
      let nominal : Int := ((way / 1000 : Nat) : Int)
      let jump := s.station.cfg.jumpLimit ≠ 0 ∧
        s.station.cfg.jumpLimit * 256 < (diff - nominal).natAbs
      let s0 := (s.tick m).setCtx { c with missTimer := none }
      ∃ t, exec (.missTimerExpiry m) s = .next t ∧
        t.axes.ctr.missedCycle = bump s.axes.ctr.missedCycle ∧
        t.ctx = (if s.station.cfg.missLimit ≤ c.misses + 1 then lost else after) ∧
        t.image = image ∧
        (TripWhole s → jump → t.trip.isLatched .masterJump = true) ∧
        (∀ (r : State) (adv : Int),
          (¬ jump ∧ r = s0 ∧ adv = diff) ∨ (jump ∧ r = report .masterJump s0 ∧ adv = nominal) →
          let x := startBatch ((r.setCtx { after with missTimer := none }).setAxes { r.axes with
            recs := r.axes.recs.map (axisStep adv),
            ctr := { r.axes.ctr with missedCycle := bump r.axes.ctr.missedCycle } })
          let y := setCondition .cycleLoss true ((x.setImage image).setCtx lost)
          t = if s.station.cfg.missLimit ≤ c.misses + 1 then y.setAxes y.axes.coast
            else (x.setImage image).setCtx after) ∧
        (DrivesReady s m → c.misses + 1 < s.station.cfg.missLimit →
          (¬ jump → ∀ a, t.axis a = axisStep diff (s.axis a)) ∧
          (jump → ∀ a, t.axis a = axisStep nominal ((report .masterJump s0).axis a))) ∧
        (s.station.cfg.missLimit ≤ c.misses + 1 → (∀ a, (t.axis a).state ≠ .coupled) ∧
          (TripWhole s → t.trip.isPresent .cycleLoss = true ∧
            t.trip.isLatched .cycleLoss = true)))

/-- The local and the stop-confirm timer. In LOST each local apply restarts the local timer for the period
last in force and steps every axis with advance 0, after which the Drive Link begins a new batch. At the expiry of the stop-confirm timer every COUPLED
axis passes to COASTDOWN, or HELD if its last step was 0, the timer stops and STOP_UNCONFIRMED is
latched; where it was latched before, nothing else changes. -/
def Obligations.LocalAndStopTimers : Prop :=
  (∀ (m : Moment) (s : State) (due : Nat), s.ctx.localTimer = some due →
    let now := max s.clock m.time
    (now < due → exec (.localTimerExpiry m) s = .next (s.tick m)) ∧
    (due ≤ now →
      ∃ t, exec (.localTimerExpiry m) s = .next t ∧
        t = startBatch (((s.tick m).setCtx { s.ctx with
            localTimer := some (now + s.ctx.period * 100) }).setAxes
          { s.axes with recs := s.axes.recs.map (axisStep 0) }) ∧
        t.ctx = { s.ctx with localTimer := some (now + s.ctx.period * 100) } ∧
        t.image = s.image ∧
        (DrivesReady s m → (∀ a, t.axis a = axisStep 0 (s.axis a)) ∧ t.gen = s.gen ∧
          t.trip = s.trip ∧ t.station = s.station))) ∧
  ∀ (m : Moment) (s : State) (due : Nat), s.axes.stopTimer = some due →
    let now := max s.clock m.time
    (now < due → exec (.stopConfirmExpiry m) s = .next (s.tick m)) ∧
    (due ≤ now → TripWhole s →
      ∃ t, exec (.stopConfirmExpiry m) s = .next t ∧
        t.trip.isLatched .stopUnconfirmed = true ∧
        (∀ a, (t.axis a).state ≠ .coupled) ∧ t.ctx = s.ctx ∧ t.drive = s.drive ∧
        t.image = s.image ∧
        (s.trip.isLatched .stopUnconfirmed = true →
          t = (s.tick m).setAxes { s.axes with
            recs := s.axes.recs.map fun r =>
              if r.state = .coupled then
                { r with state := if r.step = 0 then .held else .coastdown } else r,
            stopTimer := none }))

/-- A C frame at the cycle context. From another source than the one learnt it changes nothing of the context:
FOREIGN_CYCLE is counted and CYCLE_CONFLICT latched. While no source has been applied and no frame waits,
the source of the frame is learnt and the frame becomes the pending frame. From the learnt source it
becomes the pending frame where it is ahead of the last cycle applied, or always in IDLE and LOST; in
COASTING a frame of the last cycle, the first one, is a resync: the context takes its position, speed and
period, and δ; any other is stale and counted. Where a frame waits already, one ahead of it takes its place,
the other of the two is counted stale (in IDLE and LOST too: read from R78, assumption log 24). A frame
whose apply time has passed is counted and CYCLE_LATE latched, and its apply time is its arrival; where it is
discarded against the frame that waits it is counted stale alone (the model's choice, assumption log 62). -/
def Obligations.CycleSources : Prop :=
  ∀ (src age : Nat) (tag : BitVec 16) (c : CycleBody) (s : State),
    let x := s.ctx
    let t := takeCycle src tag age c s
    let late := 100 * c.offset < 100 * (age / 100)
    let f : PendingCycle :=
      { num := c.num, pos := c.pos, speed := c.speed, period := c.period, offset := c.offset,
        state := c.state,
        due := if late then s.clock else s.clock + 100 * c.offset - 100 * (age / 100) }
    let counted : MotionCounters :=
      { s.axes.ctr with staleCycle := bump s.axes.ctr.staleCycle }
    let takes (v : CycleCtx) (ctr : MotionCounters) : Prop :=
      (¬ late → t = (s.setCtx v).setAxes { s.axes with ctr := ctr }) ∧
      (late → TripWhole s → t.ctx = v ∧
        t.axes.ctr = { ctr with lateCycle := bump ctr.lateCycle } ∧
        t.trip.isLatched .cycleLate = true ∧ t.drive = s.drive ∧ t.image = s.image ∧
        t.trip.remote = s.trip.remote)
    let stale := t = s.setAxes { s.axes with ctr := counted }
    let ahead (y z : BitVec 16) : Prop := 0 < (y - z).toInt
    let pends : Prop :=
      (x.pending = none → takes { x with pending := some f } s.axes.ctr) ∧
      ∀ p, x.pending = some p →
        (ahead c.num p.num → takes { x with pending := some f } counted) ∧
        (¬ ahead c.num p.num → stale)
    (TripWhole s → x.learns = false → x.learnt ≠ some (src, tag) →
      t.ctx = x ∧ t.axes.ctr = { s.axes.ctr with foreignCycle := bump s.axes.ctr.foreignCycle } ∧
      t.trip.isLatched .cycleConflict = true ∧ t.drive = s.drive ∧ t.image = s.image) ∧
    (x.learns = true ↔ (x.state = .idle ∨ x.state = .lost) ∧ x.pending = none) ∧
    (x.learns = true →
      takes { x with learnt := some (src, tag), pending := some f } s.axes.ctr) ∧
    (x.learns = false → x.learnt = some (src, tag) →
      ((x.state = .idle ∨ x.state = .lost) → pends) ∧
      ((x.state = .tracking ∨ x.state = .coasting) →
        (ahead c.num x.lastCycle → pends) ∧
        (¬ ahead c.num x.lastCycle →
          ¬ (c.num = x.lastCycle ∧ x.state = .coasting ∧ x.delta = none) → stale) ∧
        (c.num = x.lastCycle → x.state = .coasting → x.delta = none →
          takes { x with delta := some (c.pos - x.pos).toInt, pos := c.pos, speed := c.speed,
                         period := c.period, lastMaster := c.state, rem := 0 } s.axes.ctr)))

/-! ## Follower axes -/

/-- However the advance of the master is cut into cycles, a COUPLED axis has stepped in all the floor of
(A + N × advance) / (256 × D) counts, with A the remainder it began with: no count is ever lost or
gained. Its gear position has moved by exactly those counts, and the remainder stays below 256 × D. -/
def Obligations.GearNeverDrifts : Prop :=
  ∀ (r : AxisRecord) (advs : List Int), 1 ≤ r.cfg.den → r.acc < 256 * r.cfg.den →
    let x := gearRun r advs
    x.2 = ((r.acc : Int) + r.cfg.num * advs.sum) / ((256 * r.cfg.den : Nat) : Int) ∧
    x.1.gear = r.gear + BitVec.ofInt 32 x.2 ∧
    (x.1.acc : Int) =
      ((r.acc : Int) + r.cfg.num * advs.sum) % ((256 * r.cfg.den : Nat) : Int) ∧
    x.1.acc < 256 * r.cfg.den

/-- One axis step. COUPLED: the gear moves by the whole counts owed for the advance, the floor of
(r + N × advance) / (256 × D), and the accumulator keeps the remainder, below 256 × D; phase and correction each come nearer their targets by their slew at most and
never pass them, and the setpoint is gear + phase + correction. COASTDOWN: the step comes nearer 0 by the
deceleration, the gear position moves by it, phase, correction and remainder stay, and at step 0 the axis
is HELD.
In every other state nothing changes. Targets and configuration stay. -/
def Obligations.AxisStepRules : Prop :=
  ∀ (r : AxisRecord) (adv : Int),
    let t := axisStep adv r
    t.cfg = r.cfg ∧ t.phaseTarget = r.phaseTarget ∧ t.corrTarget = r.corrTarget ∧
    t.capture = r.capture ∧ t.release = r.release ∧
    (r.state = .coupled →
      t.state = .coupled ∧
      t.step = ((r.acc : Int) + r.cfg.num * adv) / ((256 * r.cfg.den : Nat) : Int) ∧
      t.gear = r.gear + BitVec.ofInt 32 t.step ∧
      (1 ≤ r.cfg.den →
        (t.acc : Int) = (r.acc : Int) + r.cfg.num * adv - t.step * ((256 * r.cfg.den : Nat) : Int) ∧
        t.acc < 256 * r.cfg.den) ∧
      (t.phase - r.phaseTarget).natAbs = (r.phase - r.phaseTarget).natAbs - r.cfg.phaseSlew ∧
      (t.phase - r.phase).natAbs ≤ r.cfg.phaseSlew ∧
      (t.corr - r.corrTarget).natAbs = (r.corr - r.corrTarget).natAbs - r.cfg.corrSlew ∧
      (t.corr - r.corr).natAbs ≤ r.cfg.corrSlew ∧
      t.setpoint = t.gear + BitVec.ofInt 32 (t.phase + t.corr)) ∧
    (r.state = .coastdown →
      t.step.natAbs = r.step.natAbs - r.cfg.decel ∧ (0 ≤ r.step → 0 ≤ t.step) ∧
      (r.step ≤ 0 → t.step ≤ 0) ∧ t.gear = r.gear + BitVec.ofInt 32 t.step ∧
      t.phase = r.phase ∧ t.corr = r.corr ∧ t.acc = r.acc ∧
      t.setpoint = t.gear + BitVec.ofInt 32 (t.phase + t.corr) ∧
      t.state = if t.step = 0 then .held else .coastdown) ∧
    (r.state ≠ .coupled → r.state ≠ .coastdown → t = r)

/-- ENABLE AXIS: OK and nothing done on an enabled axis; TRIPPED at DRIVE_OFF; NOT_READY while a DRIVE_FAULT,
DRIVE_LINK or FOLLOW_ERROR of the axis is latched; else STANDBY with the capture pending, a pending
release cancelled, the outcome NONE, the status record absent, and an exchange under way for the axis
capturing nothing. Nothing else changes. DISABLE AXIS: OK and nothing done when DISABLED; else DISABLED with
no capture pending, the Drive Link's outcome NONE, its count 0 and the drive faults' conditions ended; the
release exchange is pending, behind the exchange under way; with the link free the arbiter chooses at once
(CommandRecord), so that a ready drive's release exchange begins and a drive not ready counts as released. Nothing
else changes. An index above 3 is BAD_INDEX. -/
def Obligations.EnableAndDisableAxis : Prop :=
  (∀ (m : Moment) (e : Envelope) (axis : Nat) (s : State), s.station.address ≠ 0 →
      e.lengthOk = true →
      let u := countTaken (s.tick m)
      ∃ t, exec (.enableAxis m e axis) s = .next t ∧
        let answer (r : Resp) (v : State) := Answered e (.enableAxis axis) (.plain r) v t
        (3 < axis → answer .badIndex u) ∧
        ∀ a : Fin 4, axis = a.val →
          if axisEnabled (s.axis a).state = true then answer .ok u
          else if s.trip.levels.eff = .driveOff then answer .tripped u
          else if s.trip.isLatched (.driveFault a) = true ∨ s.trip.isLatched (.driveLink a) = true ∨
              s.trip.isLatched (.followError a) = true then answer .notReady u
          else answer .ok ((u.setAxis a { s.axis a with
            state := .standby, capture := true, release := false }).setDrive { s.drive with
              axes := s.drive.axes.set a { s.driveAxis a with outcome := .none, status := none },
              exchange := s.drive.exchange.map fun x =>
                if x.axis = a then { x with noCapture := true } else x })) ∧
  ∀ (m : Moment) (e : Envelope) (axis : Nat) (s : State), s.station.address ≠ 0 →
    e.lengthOk = true →
    let u := countTaken (s.tick m)
    (3 < axis → ∃ t, exec (.disableAxis m e axis) s = .next t ∧
      Answered e (.disableAxis axis) (.plain .badIndex) u t) ∧
    ∀ a : Fin 4, axis = a.val →
      ((s.axis a).state = .disabled → ∃ t, exec (.disableAxis m e axis) s = .next t ∧
        Answered e (.disableAxis axis) (.plain .ok) u t) ∧
      ((s.axis a).state ≠ .disabled →
        let recs := s.axes.recs.set a { s.axis a with
          state := .disabled, release := true, capture := false }
        ∃ t, exec (.disableAxis m e axis) s = .next t ∧
          (t.axis a).state = .disabled ∧ (t.axis a).capture = false ∧
          (t.driveAxis a).outcome = .none ∧ (t.driveAxis a).bad = 0 ∧ t.ctx = s.ctx ∧
          t.image = s.image ∧
          let v := ((u.setAxes { s.axes with
            recs := recs,
            stopTimer :=
              if recs.toList.any (fun r => r.state == .coupled) then s.axes.stopTimer
              else none }).setDriveAxis a { s.driveAxis a with outcome := .none, bad := 0 }).setTrip
            ((s.trip.setCond (.driveFault a) false).setCond (.driveLink a) false)
          Answered e (.disableAxis axis) (.plain .ok) (driveArbitrate v) t ∧
          (s.drive.exchange ≠ none → Answered e (.disableAxis axis) (.plain .ok) v t))

/-- COUPLE: IN_USE when COUPLED, NOT_AT_REST in COASTDOWN, NOT_READY when DISABLED or OFF; in STANDBY and
HELD then TRIPPED above NOTICE, NOT_READY unless the context tracks, NOT_AT_REST unless the master
speed is 0, NOT_READY without a status record READY and ENABLED and with a capture pending; else the axis
is COUPLED at the drive's actual position: the gear takes it less the phase target, both corrections
are 0, the remainder and the step are 0. -/
def Obligations.Couple : Prop :=
  ∀ (m : Moment) (e : Envelope) (axis : Nat) (s : State), s.station.address ≠ 0 →
    e.lengthOk = true →
    let u := countTaken (s.tick m)
    ∃ t, exec (.couple m e axis) s = .next t ∧
      let answer (r : Resp) (v : State) := Answered e (.couple axis) (.plain r) v t
      (3 < axis → answer .badIndex u) ∧
      ∀ a : Fin 4, axis = a.val →
        let r := s.axis a
        (r.state = .coupled → answer .inUse u) ∧
        (r.state = .coastdown → answer .notAtRest u) ∧
        (r.state = .disabled ∨ r.state = .off → answer .notReady u) ∧
        (r.state = .standby ∨ r.state = .held →
          if 2 ≤ s.trip.levels.eff.rank then answer .tripped u
          else if s.ctx.state ≠ .tracking then answer .notReady u
          else if s.ctx.speed ≠ 0 then answer .notAtRest u
          else
            ((s.driveAxis a).status = none → answer .notReady u) ∧
            ∀ d, (s.driveAxis a).status = some d →
              if r.capture = true ∨ d.ready = false ∨ d.enabled = false then answer .notReady u
              else answer .ok ((u.setAxis a { r with
                state := .coupled, corr := 0, corrTarget := 0, phase := r.phaseTarget,
                gear := d.actual - BitVec.ofInt 32 r.phaseTarget, acc := 0, step := 0,
                setpoint := d.actual }).setTrip (s.trip.setCond (.correctionLimit a) false)))

/-- DECOUPLE, SET PHASE and RESET CORRECTION. DECOUPLE is NOT_READY unless COUPLED, NOT_AT_REST unless the
master speed is 0, else STANDBY, and the stop-confirm timer stops where no axis is left COUPLED. SET
PHASE is NOT_READY unless the axis is enabled, else the phase target is the value limited to ±2^30,
CLAMPED where it was. RESET CORRECTION sets the correction target to 0. An index above 3 is BAD_INDEX. -/
def Obligations.AxisCommands : Prop :=
  ∀ (m : Moment) (e : Envelope) (axis : Nat) (target : Int) (s : State),
    s.station.address ≠ 0 → e.lengthOk = true →
    let u := countTaken (s.tick m)
    (∃ t, exec (.decouple m e axis) s = .next t ∧
      let answer (r : Resp) (v : State) := Answered e (.decouple axis) (.plain r) v t
      (3 < axis → answer .badIndex u) ∧
      ∀ a : Fin 4, axis = a.val →
        let recs := s.axes.recs.set a { s.axis a with state := .standby }
        if (s.axis a).state ≠ .coupled then answer .notReady u
        else if s.ctx.speed ≠ 0 then answer .notAtRest u
        else answer .ok (u.setAxes { s.axes with
          recs := recs,
          stopTimer :=
            if recs.toList.any (fun r => r.state == .coupled) then s.axes.stopTimer
            else none })) ∧
    (∃ t, exec (.setPhase m e axis target) s = .next t ∧
      let answer (r : Resp) (v : State) := Answered e (.setPhase axis target) (.plain r) v t
      (3 < axis → answer .badIndex u) ∧
      ∀ a : Fin 4, axis = a.val →
        if axisEnabled (s.axis a).state = false then answer .notReady u
        else if 2 ^ 30 < target then
          answer .clamped (u.setAxis a { s.axis a with phaseTarget := 2 ^ 30 })
        else if target < -(2 ^ 30) then
          answer .clamped (u.setAxis a { s.axis a with phaseTarget := -(2 ^ 30) })
        else answer .ok (u.setAxis a { s.axis a with phaseTarget := target })) ∧
    ∃ t, exec (.resetCorrection m e axis) s = .next t ∧
      let answer (r : Resp) (v : State) := Answered e (.resetCorrection axis) (.plain r) v t
      (3 < axis → answer .badIndex u) ∧
      ∀ a : Fin 4, axis = a.val →
        answer .ok ((u.setAxis a { s.axis a with corrTarget := 0 }).setTrip
          (s.trip.setCond (.correctionLimit a) false))


/-! ## Drive link -/

/-- A batch exchange that ran to its end, on an axis not DISABLED and with every ready line high: a record
with a good check and the right sequence is GOOD, the count of bad exchanges is 0 and the status record is
kept; otherwise CRC_BAD or SEQ_BAD, the count goes up by 1 to 15 at most, and the status record stays.
The setpoint sent is remembered. A pending capture, and an axis OFF, take the drive's position; a COUPLED
axis further from the setpoint before than the limit of the exchange's start is counted and FOLLOW_ERROR
latched. A ready line that falls during the axis's own batch exchange, its turn not to come again, ends it
with READY_DROP: counted, the count of bad exchanges up by 1 to 15 at most, the status record kept; with no
exchange of the axis under way only the line changes. DRIVE_FAULT is present after a GOOD exchange exactly as
its record says, and DRIVE_LINK is not; after another outcome DRIVE_FAULT stays, and DRIVE_LINK is present
exactly from E bad exchanges on; a condition present is latched. A release exchange, whatever its outcome, ends
the pending release and takes nothing but the setpoint sent; a batch exchange of an axis since DISABLED, or
one the reset found under way, takes nothing. After each the arbiter chooses. That a GOOD exchange captures,
and checks the following error, with FAULT set as with it clear is the model's choice (assumption log 21).
Status bytes that are not 12 stop the machine (the
model's choice, assumption log 10), and the line is low for READY_DROP itself (assumption log 40). -/
def Obligations.ExchangeEnds : Prop :=
  (∀ (m : Moment) (b : List Byte) (s : State),
      (b.length ≠ 12 → exec (.exchangeCompletion m b) s = .fault .noSuchEvent) ∧
      (b.length = 12 → s.drive.exchange = none →
        exec (.exchangeCompletion m b) s = .next (s.tick m)) ∧
      (∀ x : Exchange, b.length = 12 → s.drive.exchange = some x →
        let u := s.tick m
        let free := u.setDrive { s.drive with exchange := none }
        let sent := u.setDrive { s.drive with
          exchange := none,
          axes := s.drive.axes.set x.axis
            { s.driveAxis x.axis with lastSetpoint := some x.setpoint } }
        (x.release = true → exec (.exchangeCompletion m b) s = .next (driveArbitrate
          ((if x.void then free else sent).setAxis x.axis
            { s.axis x.axis with release := false }))) ∧
        (x.release = false → (x.void = true ∨ (s.axis x.axis).state = .disabled) →
          exec (.exchangeCompletion m b) s = .next (driveArbitrate free)) ∧
        (x.release = false → x.void = false → (s.axis x.axis).state ≠ .disabled →
          ((crc8 (b.take 11)).toNat ≠ byteAt b 11 →
            exec (.exchangeCompletion m b) s =
              .next (driveArbitrate (badOutcome x.axis .crcBad sent))) ∧
          ((crc8 (b.take 11)).toNat = byteAt b 11 → byteAt b 5 % 16 ≠ x.sequence.toNat →
            exec (.exchangeCompletion m b) s =
              .next (driveArbitrate (badOutcome x.axis .seqBad sent))))) ∧
      ∀ x : Exchange, b.length = 12 → s.drive.exchange = some x → x.release = false →
        x.void = false → (s.axis x.axis).state ≠ .disabled → (∀ a, m.ready.get a = true) →
        let old := s.driveAxis x.axis
        let good := (crc8 (b.take 11)).toNat = byteAt b 11 ∧ byteAt b 5 % 16 = x.sequence.toNat
        ∃ t, exec (.exchangeCompletion m b) s = .next t ∧
          let d := t.driveAxis x.axis
          d.lastSetpoint = some x.setpoint ∧ t.ctx = s.ctx ∧ t.image = s.image ∧
          (good → d.outcome = .good ∧ d.bad = 0 ∧ d.status = some (readStatus b) ∧
            (TripWhole s → t.trip.isPresent (.driveLink x.axis) = false ∧
              t.trip.isPresent (.driveFault x.axis) = (readStatus b).fault ∧
              ((readStatus b).fault = true → t.trip.isLatched (.driveFault x.axis) = true)) ∧
            ((s.axis x.axis).state = .standby → (s.axis x.axis).capture = true →
              x.noCapture = false →
              (t.axis x.axis).setpoint = (readStatus b).actual ∧
              (t.axis x.axis).capture = false) ∧
            ((s.axis x.axis).state = .off →
              (t.axis x.axis).setpoint = (readStatus b).actual) ∧
            ((s.axis x.axis).state = .coupled →
              let exceeds := x.limit ≠ 0 ∧ ∃ sp, old.lastSetpoint = some sp ∧
                x.limit < ((readStatus b).actual - sp).toInt.natAbs
              (exceeds → t.drive.ctr.followExcess = bump s.drive.ctr.followExcess ∧
                (TripWhole s → t.trip.isLatched (.followError x.axis) = true)) ∧
              (¬ exceeds → t.drive.ctr.followExcess = s.drive.ctr.followExcess))) ∧
          (¬ good → d.bad = min (old.bad + 1) 15 ∧ d.status = old.status ∧
            d.outcome = (if (crc8 (b.take 11)).toNat = byteAt b 11 then .seqBad else .crcBad) ∧
            (t.axis x.axis).setpoint = (s.axis x.axis).setpoint ∧
            (TripWhole s →
              t.trip.isPresent (.driveFault x.axis) = s.trip.isPresent (.driveFault x.axis) ∧
              t.trip.isPresent (.driveLink x.axis) = decide (s.station.cfg.driveLimit ≤ d.bad) ∧
              (s.station.cfg.driveLimit ≤ d.bad →
                t.trip.isLatched (.driveLink x.axis) = true)))) ∧
  ∀ (m : Moment) (a : Fin 4) (s : State),
    let low : State := { s.tick m with ready := m.ready.set a false }
    ((∀ x, s.drive.exchange = some x → x.axis ≠ a) → exec (.readyDrop m a) s = .next low) ∧
    (∀ x : Exchange, s.drive.exchange = some x → x.axis = a →
      let free := low.setDrive { s.drive with exchange := none }
      exec (.readyDrop m a) s = .next (driveArbitrate
        (if x.release = true then free.setAxis a { s.axis a with release := false }
        else if x.void = true ∨ (s.axis a).state = .disabled then free
        else badOutcome a .readyDrop free))) ∧
    ∀ x : Exchange, s.drive.exchange = some x → x.axis = a → x.release = false → x.void = false →
      (s.axis a).state ≠ .disabled → (∀ n, s.drive.batch = some n → a.val < n) →
      ∃ t, exec (.readyDrop m a) s = .next t ∧
        (t.driveAxis a).outcome = .readyDrop ∧
        (t.driveAxis a).bad = min ((s.driveAxis a).bad + 1) 15 ∧
        (t.driveAxis a).status = (s.driveAxis a).status ∧
        (t.driveAxis a).lastSetpoint = (s.driveAxis a).lastSetpoint ∧
        t.drive.ctr.readyDrop = bump s.drive.ctr.readyDrop ∧
        t.ctx = s.ctx ∧ t.image = s.image

/-- The command record of an exchange: 12 bytes, the setpoint in the first four, the ENABLE bit and the
effective level in the fifth, the sequence in the sixth, zeros, and the CRC-8 of the first eleven. A
batch exchange carries ENABLE for an enabled axis, but not in STANDBY with its capture pending; a
release exchange never, and none does at DRIVE_OFF. Starting it takes the next sequence number of the axis.
The arbiter, with the link free, takes first the release exchange of the lowest-numbered axis whose release is
pending, then the next axis of the batch; it passes a DISABLED axis over, starts the exchange where the ready
line is high, and where it is low makes none: a release is then over, an axis of the batch has the outcome
NO_READY, and the arbiter chooses again. After axis 3 the batch is over. An outcome other than GOOD becomes the
axis's last one, raises the count of bad exchanges by 1 to 15 at most and counts its link counter; DRIVE_LINK
is present from E on, and then latched. A new batch gives SKIPPED to every axis of the one in progress whose
turn has not come and which is not DISABLED, from axis 0 to axis 3 (that order is the model's choice,
assumption log 54). -/
def Obligations.CommandRecord : Prop :=
  (∀ (a : Fin 4) (release : Bool) (s : State),
      let r := s.axis a
      let t := startExchange a release s
      (t.driveAxis a).sequence = (s.driveAxis a).sequence + 1 ∧ t.axes = s.axes ∧
      ∃ x, t.drive.exchange = some x ∧ x.axis = a ∧ x.release = release ∧
        x.setpoint = r.setpoint ∧ x.sequence = (s.driveAxis a).sequence ∧
        x.level = s.trip.levels.eff ∧ x.limit = r.cfg.followLimit ∧ x.noCapture = false ∧ x.void = false ∧
        x.enable = (!release && axisEnabled r.state && !(r.state == .standby && r.capture)) ∧
        (DriveOffInv s → x.level = .driveOff → x.enable = false) ∧
        x.record.length = 12 ∧ numAt x.record 0 4 = r.setpoint.toNat ∧
        byteAt x.record 4 = (if x.enable then 16 else 0) + x.level.rank ∧
        byteAt x.record 5 = x.sequence.toNat ∧
        (∀ i, 6 ≤ i → i < 11 → byteAt x.record i = 0) ∧
        byteAt x.record 11 = (crc8 (x.record.take 11)).toNat) ∧
  (∀ s : State,
    let v := if s.drive.batch.any (fun p => decide (4 ≤ p)) then
      s.setDrive { s.drive with batch := none } else s
    (s.drive.exchange ≠ none → driveArbitrate s = s) ∧
    (s.drive.exchange = none →
      (∀ a : Fin 4, (s.axis a).release = true → (∀ b, b < a → (s.axis b).release = false) →
        driveArbitrate s = if s.ready.get a then startExchange a true v
          else driveArbitrate (v.setAxis a { s.axis a with release := false })) ∧
      ((∀ a, (s.axis a).release = false) →
        (v.drive.batch = none → driveArbitrate s = v) ∧
        ∀ a : Fin 4, s.drive.batch = some a.val →
          let n := s.setDrive { s.drive with batch := some (a.val + 1) }
          driveArbitrate s = if (s.axis a).state = .disabled then driveArbitrate n
            else if s.ready.get a then startExchange a false n
            else driveArbitrate (badOutcome a .noReady n)))) ∧
  (∀ (a : Fin 4) (o : DriveOutcome) (s : State), o ≠ .none → o ≠ .good →
    let d := s.driveAxis a
    let c := s.drive.ctr
    let t := badOutcome a o s
    let counted : DriveCounters := match o with
      | .crcBad => { c with crcBad := bump c.crcBad }
      | .seqBad => { c with seqBad := bump c.seqBad }
      | .noReady => { c with notReady := bump c.notReady }
      | .readyDrop => { c with readyDrop := bump c.readyDrop }
      | .skipped => { c with skipped := bump c.skipped }
      | .none | .good => c
    t.drive = { s.drive with
      axes := s.drive.axes.set a { d with outcome := o, bad := min (d.bad + 1) 15 },
      ctr := counted } ∧
    t.ctx = s.ctx ∧ t.image = s.image ∧ (∀ b, (t.axis b).setpoint = (s.axis b).setpoint) ∧
    (min (d.bad + 1) 15 < s.station.cfg.driveLimit → t.axes = s.axes ∧ t.gen = s.gen ∧
      t.trip = s.trip.setCond (.driveLink a) false) ∧
    (TripWhole s → s.station.cfg.driveLimit ≤ min (d.bad + 1) 15 →
      t.trip.isPresent (.driveLink a) = true ∧ t.trip.isLatched (.driveLink a) = true)) ∧
  ∀ s : State,
    let skip (p : Nat) (a : Fin 4) (x : State) : State :=
      if p ≤ a.val ∧ (s.axis a).state ≠ .disabled then badOutcome a .skipped x else x
    (s.drive.batch = none →
      startBatch s = driveArbitrate (s.setDrive { s.drive with batch := some 0 })) ∧
    ∀ p, s.drive.batch = some p →
      let v := skip p 3 (skip p 2 (skip p 1 (skip p 0 s)))
      startBatch s = driveArbitrate (v.setDrive { v.drive with batch := some 0 })


/-! ## Web imaging -/

/-- A scheduled trigger that falls due: with the camera idle a line begins, stamped with Q / 256, at this
time; with the camera busy the line in progress goes on, OVERRUN is counted and LINE_OVERRUN latched. The
line number goes up by 1 and Q by one grid step in both cases, and the next trigger of the base is
scheduled if it falls within its period. A line still in progress when the camera timeout has run from its
trigger is abandoned: counted, the consecutive count up by 1 to 255 at most, and CAMERA_LOST present exactly
from 4 on; before that nothing happens. A base handed to the trigger unit cancels the scheduled trigger. At a
base take, or with no next trigger position, Q is the first grid point at or after the base's position and
nothing is counted; else, where Q lies behind the base's position, every grid point from Q up to the last
one before it is counted LINE_SKIPPED and Q is the first at or after it; else Q is kept. The trigger at Q is
then scheduled if it falls within the base's period. -/
def Obligations.TriggersAndTimeouts : Prop :=
  (∀ (m : Moment) (s : State) (due : Nat) (b : ImageBase) (q : BitVec 28),
      s.image.trigger = some due → s.image.base = some b → s.image.next = some q →
      let now := max s.clock m.time
      let u := s.image
      let q' := q + BitVec.ofNat 28 (2 ^ (u.cam.pitch + 8))
      let delay := ((q' - b.pos).toNat * 1000 + b.speed - 1) / b.speed
      let trigger := if 0 < b.speed ∧ delay < b.period then some (b.at_ + delay * 100) else none
      (now < due → exec (.triggerExpiry m) s = .next (s.tick m)) ∧
      (due ≤ now → u.line = none →
        exec (.triggerExpiry m) s = .next ((s.tick m).setImage { u with
          line := some { num := u.lineNo, stamp := q.toNat / 256,
                         repeatNo := if q.toNat < b.pos.toNat then b.repeats + 1 else b.repeats,
                         start := now },
          lineNo := u.lineNo + 1, next := some q', trigger := trigger })) ∧
      (due ≤ now → u.line ≠ none → TripWhole s →
        ∃ t, exec (.triggerExpiry m) s = .next t ∧
          t.image = { u with
            lineNo := u.lineNo + 1, next := some q', trigger := trigger,
            ctr := { u.ctr with overruns := bump u.ctr.overruns } } ∧
          t.trip.isLatched .lineOverrun = true ∧ t.ctx = s.ctx ∧ t.drive = s.drive)) ∧
  (∀ (m : Moment) (s : State) (l : CameraLine), s.image.line = some l →
    let now := max s.clock m.time
    let due := l.start + s.image.cam.timeout * 100
    (now < due → exec (.cameraTimeout m) s = .next (s.tick m)) ∧
    (due ≤ now → TripWhole s →
      ∃ t, exec (.cameraTimeout m) s = .next t ∧
        t.image = { s.image with
          line := none, abandoned := min (s.image.abandoned + 1) 255,
          ctr := { s.image.ctr with abandoned := bump s.image.ctr.abandoned } } ∧
        t.trip.isPresent .cameraLost = decide (4 ≤ t.image.abandoned) ∧
        (4 ≤ t.image.abandoned → t.trip.isLatched .cameraLost = true) ∧
        t.ctx = s.ctx ∧ t.drive = s.drive)) ∧
  ∀ (u : ImageUnit) (take : Bool) (b : ImageBase),
    let step := 2 ^ (u.cam.pitch + 8)
    let v := u.takeBase take b
    let placed (q : BitVec 28) : Prop :=
      ∃ n, q = BitVec.ofNat 28 (n * step) ∧ b.pos.toNat ≤ n * step ∧ n * step < b.pos.toNat + step
    v = { u with base := some b, next := v.next, trigger := v.trigger, ctr := v.ctr } ∧
    (∃ q, v.next = some q ∧
      ((take = true ∨ u.next = none) → placed q ∧ v.ctr = u.ctr) ∧
      (∀ old, take = false → u.next = some old →
        ((b.pos - old).toInt ≤ 0 → q = old ∧ v.ctr = u.ctr) ∧
        (0 < (b.pos - old).toInt → placed q ∧
          ∃ k : Nat, (k - 1 : Nat) * step < (b.pos - old).toInt.toNat ∧
            (b.pos - old).toInt.toNat ≤ k * step ∧
            v.ctr = { u.ctr with skipped := bumpBy u.ctr.skipped k })) ∧
      v.trigger =
        if 0 < b.speed ∧ ((q - b.pos).toNat * 1000 + b.speed - 1) / b.speed < b.period then
          some (b.at_ + ((q - b.pos).toNat * 1000 + b.speed - 1) / b.speed * 100)
        else none)

/-- The end of a line: no line is in progress, the consecutive-abandoned count is 0, CAMERA_LOST is absent, the
web run count goes up by 1 to 4,096 at most where the strip mean is above the threshold and is 0 otherwise,
and WEB_BREAK is present from the run W on. A line whose repeat number
differs from the current one, or whose index is not above the one before, begins a new repeat: every open
window closes, the pending corrections go, the repeat number is the line's, and every enabled window begins
to measure, open and without an edge. Without a line before it a line sets the repeat number alone. Every window then
looks at the line, those close whose p1 its stamp has reached, the line is streamed, and its index is remembered. These
steps, in this order, are the whole next state. Pixels with no line in progress are discarded; so is a LINE_END of
another number of pixels than Wc, which is no event of the hardware (the model's choice, assumption log 10). -/
def Obligations.LineEnds : Prop :=
  ∀ (m : Moment) (pixels : List Byte) (s : State),
    (s.image.line = none → exec (.lineEnd m pixels) s = .next (s.tick m)) ∧
    (pixels.length ≠ s.image.cam.pixels → exec (.lineEnd m pixels) s = .next (s.tick m)) ∧
    ∀ l : CameraLine, s.image.line = some l → pixels.length = s.image.cam.pixels →
      let u := s.image
      let c := u.cam
      let mean (a b : Nat) : Nat := (((pixels.drop a).take (b - a)).map BitVec.toNat).sum / (b - a)
      let index := l.stamp / 2 ^ c.pitch
      let fresh : Bool := match u.prevIndex with
        | some i => l.repeatNo != u.repeatNo || decide (index ≤ i)
        | none => false
      let run := if c.webThreshold < mean c.webStart c.webEnd then min (u.webRun + 1) 4096 else 0
      let anew (w : Window) : Window :=
        if w.cfg.enabled then
          { w with measuring := true, isOpen := true, prev := none, edge := none } else w
      let ended := setCondition .cameraLost false
        ((s.tick m).setImage { u with line := none, abandoned := 0 })
      let web := setCondition .webBreak (decide (c.webRun ≤ run))
        (ended.setImage { u with line := none, abandoned := 0, webRun := run })
      let sent := flushCorrections (closeWindows (fun _ => true) web)
      let bound :=
        if fresh then sent.setImage { sent.image with
          repeatNo := l.repeatNo, windows := sent.image.windows.map anew }
        else if u.prevIndex = none then web.setImage { web.image with repeatNo := l.repeatNo }
        else web
      let seen := bound.setImage { bound.image with
        windows := bound.image.windows.map (Window.look l.stamp pixels) }
      let v := closeWindows (fun w => decide (w.cfg.p1 ≤ l.stamp)) seen
      let streamed := streamLine l fresh pixels v
      let t := streamed.setImage { streamed.image with prevIndex := some index }
      exec (.lineEnd m pixels) s = .next t ∧
        t.image.line = none ∧ t.image.abandoned = 0 ∧ t.image.webRun = run ∧
        t.image.prevIndex = some index ∧ t.image.lineNo = u.lineNo ∧ t.image.next = u.next ∧
        t.ctx = s.ctx ∧ t.drive = s.drive ∧ t.station.address = s.station.address ∧
        (TripWhole s → t.trip.isPresent .cameraLost = false ∧
          t.trip.isPresent .webBreak = decide (c.webRun ≤ t.image.webRun)) ∧
        t.image.repeatNo =
          (if fresh = true ∨ u.prevIndex = none then l.repeatNo else u.repeatNo) ∧
        (∀ i, i < 16 → i < u.windows.length →
          let w := u.windows.getD i Window.reset
          let x := t.image.windows.getD i Window.reset
          x.cfg = w.cfg ∧
          (w.cfg.enabled = false → x = w) ∧
          (fresh = false → (l.stamp < w.cfg.p1 ∨ w.measuring = false ∨ w.isOpen = false) →
            x = w.look l.stamp pixels) ∧
          (fresh = true → w.cfg.enabled = true → l.stamp < w.cfg.p1 →
            x.measuring = true ∧ x.isOpen = true ∧ x.edge = none ∧
            x.prev = if w.cfg.p0 ≤ l.stamp then some (l.stamp, mean w.cfg.x0 w.cfg.x1) else none) ∧
          (w.cfg.enabled = true → w.cfg.p1 ≤ l.stamp →
            fresh = true ∨ (w.measuring = true ∧ w.isOpen = true) → x.isOpen = false)) ∧
        (fresh = true →
          (∀ w ∈ u.windows, w.cfg.enabled = true → l.stamp < w.cfg.p1) → t.image.pending = []) ∧
        v.image.cam = c ∧ v.image.asm = u.asm ∧ v.image.asmStream = u.asmStream ∧
        v.station.address = s.station.address


/-- The image stream. A line is streamed while streaming is on and its number is a multiple of the line step;
each of its pixels is the floor of a mean of decimated camera pixels. A line that begins a repeat first
queues the frame in assembly. The line joins that frame whole if it fits, else that frame is queued and the
line begins a new one, a line above 1,008 pixels cut into segments of 1,008; a frame filled to 1,024 bytes
is queued at once; and every segment goes to the own Screen Unit. A queued frame is an I frame to 63 in the
local I queue; at address 0 it is dropped, with that queue full it is counted IMAGE_DROP. -/
def Obligations.ImageStream : Prop :=
  (∀ s : State,
    let u := s.image
    let emptied := s.setImage { u with asm := [] }
    (u.asm = [] → queueAssembly s = s) ∧
    (u.asm ≠ [] → s.station.address = 0 → queueAssembly s = emptied) ∧
    (u.asm ≠ [] → s.station.address ≠ 0 → 8 ≤ s.sw.localI.length →
      queueAssembly s = emptied.setSw { s.sw with
        ctr := { s.sw.ctr with imageDrop := bump s.sw.ctr.imageDrop } }) ∧
    (u.asm ≠ [] → s.station.address ≠ 0 → s.sw.localI.length < 8 →
      let t := queueAssembly s
      SameMoment s t ∧ SameRing s t ∧ t.image = { u with asm := [] } ∧ t.gen = s.gen ∧
      t.ctx = s.ctx ∧ t.axes = s.axes ∧ t.drive = s.drive ∧ t.trip = s.trip ∧
      t.screen = s.screen ∧ t.station = { s.station with seq := s.station.seq + 1 } ∧
      (OutputsBusy s → t.sw = { s.sw with localI := s.sw.localI ++
        [{ frame :=
             { hdr := { cls := .i, stream := u.asmStream, dest := 63, src := s.station.address,
                        tag := s.tag, seq := s.station.seq, hop := 0, age := 0,
                        len := (u.asm.map fun g => 16 + g.count).sum },
               body := .image u.asm false },
           since := s.clock, origin := .own, ready := true }] }))) ∧
  ∀ (l : CameraLine) (fresh : Bool) (pixels : List Byte) (s : State),
    let c := s.image.cam
    let v := if fresh then queueAssembly s else s
    let n := c.cropWidth / c.decimation
    let px : List Byte := (List.range n).map fun i => BitVec.ofNat 8
      ((((pixels.drop (c.cropStart + i * c.decimation)).take c.decimation).map
        BitVec.toNat).sum / c.decimation)
    let bytes (gs : List Segment) : Nat := (gs.map fun g => 16 + g.count).sum
    let room := if n + 16 + bytes v.image.asm ≤ 1024 then v else queueAssembly v
    let place (x : State) (g : Segment) : State :=
      let asm := x.image.asm ++ [g]
      let y := x.setImage { x.image with
        asm := asm, asmStream := if x.image.asm = [] then c.stream else x.image.asmStream }
      let z := if y.screen.panel.viewStream = some c.stream then
        y.setScreen (y.screen.takeSegment (decide (y.trip.levels.eff ≠ .clear)) g) else y
      if bytes asm = 1024 then queueAssembly z else z
    let piece (i : Nat) : Segment :=
      { line := l.num, step := c.lineStep, stamp := l.stamp, offset := 1008 * i,
        count := min 1008 (n - 1008 * i), width := n, pixels := (px.drop (1008 * i)).take 1008 }
    (c.streaming = false ∨ l.num.toNat % c.lineStep ≠ 0 → streamLine l fresh pixels s = v) ∧
    (c.streaming = true → l.num.toNat % c.lineStep = 0 →
      (1 ≤ n → n ≤ 1008 → streamLine l fresh pixels s = place room (piece 0)) ∧
      (1008 < n → streamLine l fresh pixels s =
        ((List.range ((n + 1007) / 1008)).map piece).foldl place room))

/-- A window that measures, is open and has no edge looks at the lines of its range: where the strip crosses the
threshold after the line before, the edge lies between their stamps (their distance taken modulo 2^20),
and otherwise the line is the next previous one; on any other line nothing changes. A valid error joins the
window's sum. Below n errors the window is AVERAGING and nothing is sent. At n the mean is the sum over n,
truncated toward 0, the sum and the count start anew, and the amount is −mean × gain / 256, truncated toward
0 and limited to ±32,767: in the dead band, or at amount 0, nothing is sent; else the record goes out with
that amount. A miss leaves sum and count, but the eighth in a row, and each one after it, empties them. -/
def Obligations.MarkMeasurement : Prop :=
  (∀ (w : Window) (stamp : Nat) (pixels : List Byte),
    let v := (((pixels.drop w.cfg.x0).take (w.cfg.x1 - w.cfg.x0)).map BitVec.toNat).sum /
      (w.cfg.x1 - w.cfg.x0)
    let th := w.cfg.threshold
    let examines := w.cfg.enabled = true ∧ w.measuring = true ∧ w.isOpen = true ∧ w.edge = none ∧
      w.cfg.p0 ≤ stamp ∧ stamp < w.cfg.p1
    (¬ examines → w.look stamp pixels = w) ∧
    (examines → w.prev = none → w.look stamp pixels = { w with prev := some (stamp, v) }) ∧
    (examines → ∀ q0 v0, w.prev = some (q0, v0) →
      let crossed := if w.cfg.dark then v < th ∧ th ≤ v0 else th < v ∧ v0 ≤ th
      let d := (stamp + 2 ^ 20 - q0) % 2 ^ 20
      (¬ crossed → w.look stamp pixels = { w with prev := some (stamp, v) }) ∧
      (crossed → ∃ e, w.look stamp pixels = { w with edge := some e } ∧ q0 ≤ e ∧ e ≤ q0 + d ∧
        e = if w.cfg.dark then q0 + d * (v0 - th) / (v0 - v) else q0 + d * (th - v0) / (v - v0)))) ∧
  ∀ (w : Window) (id : Nat) (repeatNo : BitVec 16) (e : Int) (st : MarkStatus),
    let n := w.cfg.averaging
    let x := w.validError id repeatNo e
    let mean := Int.tdiv (w.sum + e) n
    let raw := Int.tdiv (-(mean * w.cfg.gain)) 256
    let amount := if raw < -32767 then -32767 else if 32767 < raw then 32767 else raw
    let y := w.miss repeatNo st
    x.1.result.misses = 0 ∧ x.1.result.error = some e ∧
    (w.count + 1 < n → x.2 = none ∧ x.1.sum = w.sum + e ∧ x.1.count = w.count + 1 ∧
      x.1.result.status = .averaging) ∧
    (n ≤ w.count + 1 → x.1.sum = 0 ∧ x.1.count = 0 ∧ x.1.result.mean = some mean ∧
      ((mean.natAbs ≤ w.cfg.deadBand ∨ amount = 0) → x.2 = none ∧ x.1.result.status = .inBand) ∧
      (w.cfg.deadBand < mean.natAbs → amount ≠ 0 →
        x.2 = some { axis := Fin.ofNat 4 w.cfg.targetAxis, amount := amount, window := id } ∧
        x.1.result.lastAmount = some amount ∧ x.1.result.status = .fresh)) ∧
    y.1.result.misses = min (w.result.misses + 1) 255 ∧ y.1.result.error = none ∧
    y.1.result.status = st ∧ (y.2 = true ↔ 7 ≤ w.result.misses) ∧
    (y.2 = true → y.1.sum = 0 ∧ y.1.count = 0) ∧
    (y.2 = false → y.1.sum = w.sum ∧ y.1.count = w.count)

/-- The close of windows. The windows that close do so one after the other, those without a reference first,
each kind in order of id. A window without an edge is a miss NO_EDGE, one whose reference has no edge a
miss REF_MISSING; otherwise its error is the edge less the expected position, modulo 2^20, or its distance
from the reference edge less the expected one. A record it produces joins the list of its target station,
unless that holds 16, which is counted CORR_DROP. At the repeat boundary every list goes: to the own axes
where the target is this station, else as a K frame to the target, counted K_DROP where the local K queue
is full, one list after the other in order of target; at address 0 none goes. -/
def Obligations.WindowsClose : Prop :=
  (∀ (f : Window → Bool) (s : State),
    let ids := s.image.closing f
    closeWindows f s = ids.foldl closeWindow s ∧
    (∀ i, i ∈ ids ↔ i < 16 ∧
      let w := s.image.windows.getD i Window.reset
      w.cfg.enabled = true ∧ w.measuring = true ∧ w.isOpen = true ∧ f w = true) ∧
    ids.Pairwise fun i j =>
      let r (k : Nat) : Bool := (s.image.windows.getD k Window.reset).cfg.reference.isSome
      (r i = false ∧ r j = true) ∨ (r i = r j ∧ i < j)) ∧
  (∀ (s : State) (i : Nat), i < s.image.windows.length →
    let u := s.image
    let w := { u.windows.getD i Window.reset with isOpen := false }
    let set (x : Window) : ImageUnit := { u with windows := u.windows.set i x }
    let signed (x : Int) : Int := (BitVec.ofInt 20 x).toInt
    let missed (st : MarkStatus) : Prop :=
      let x := w.miss u.repeatNo st
      (x.2 = false → closeWindow s i = s.setImage (set x.1)) ∧
      (x.2 = true → closeWindow s i = report .markLost (s.setImage (set x.1)))
    let valid (e : Int) : Prop :=
      let x := w.validError i u.repeatNo e
      (x.2 = none → closeWindow s i = s.setImage (set x.1)) ∧
      ∀ r, x.2 = some r →
        closeWindow s i = s.setImage ((set x.1).addCorrection w.cfg.targetStation r)
    (w.edge = none → missed .noEdge) ∧
    ∀ e, w.edge = some e →
      (w.cfg.reference = none → valid (signed ((e : Int) - w.cfg.expected))) ∧
      ∀ r, w.cfg.reference = some r →
        ((u.windows.getD r Window.reset).edge = none → missed .refMissing) ∧
        ∀ e0, (u.windows.getD r Window.reset).edge = some e0 →
          valid (signed ((e : Int) - e0) - w.cfg.expected)) ∧
  (∀ (u : ImageUnit) (target : Nat) (r : CorrRec), u.pending.Pairwise (fun x y => x.1 < y.1) →
    let list (l : List (Nat × List CorrRec)) (k : Nat) : List CorrRec := (l.lookup k).getD []
    let t := u.addCorrection target r
    let full := 16 ≤ (list u.pending target).length
    t = { u with pending := t.pending, ctr := if full then
      { u.ctr with corrDrop := bump u.ctr.corrDrop } else u.ctr } ∧
    t.pending.Pairwise (fun x y => x.1 < y.1) ∧
    (∀ k, list t.pending k =
      if k = target ∧ ¬ full then list u.pending k ++ [r] else list u.pending k)) ∧
  ∀ (s : State),
    let u := s.image
    let emptied := s.setImage { u with pending := [] }
    (s.station.address = 0 → flushCorrections s = emptied) ∧
    (s.station.address ≠ 0 → ∀ target rs, u.pending = [(target, rs)] →
      (target = s.station.address → flushCorrections s = takeCorrections rs emptied) ∧
      (target ≠ s.station.address → 8 ≤ s.sw.localK.length → flushCorrections s =
        emptied.setSw { s.sw with ctr := { s.sw.ctr with kDrop := bump s.sw.ctr.kDrop } })) ∧
    let frameOf (x : State) (i : Nat) (e : Nat × List CorrRec) : QItem :=
      { frame :=
          { hdr := { cls := .k, stream := 0, dest := e.1, src := s.station.address, tag := x.tag,
                     seq := x.station.seq + BitVec.ofNat 16 i, hop := 0, age := 0,
                     len := 4 + 4 * e.2.length },
            body := .bytes (corrBytes { repeatNo := u.repeatNo, records := e.2 }) },
        since := x.clock, origin := .own, ready := true }
    (s.station.address ≠ 0 → ∃ send : State → Nat × List CorrRec → State,
      flushCorrections s = u.pending.foldl send emptied ∧
      ∀ (x : State) (e : Nat × List CorrRec), x.station.address = s.station.address →
        (e.1 = s.station.address → send x e = takeCorrections e.2 x) ∧
        (e.1 ≠ s.station.address → 8 ≤ x.sw.localK.length → send x e =
          x.setSw { x.sw with ctr := { x.sw.ctr with kDrop := bump x.sw.ctr.kDrop } }) ∧
        (e.1 ≠ s.station.address → x.sw.localK.length < 8 →
          SameControl x (send x e) ∧
          (send x e).station = { x.station with seq := x.station.seq + 1 } ∧
          (OutputsBusy x → (send x e).sw =
            { x.sw with localK := x.sw.localK ++ [frameOf x 0 e] }))) ∧
    (s.station.address ≠ 0 → OutputsBusy s →
      let others := u.pending.filter fun x => decide (x.1 ≠ s.station.address)
      let own := (u.pending.filter fun x => decide (x.1 = s.station.address)).flatMap (·.2)
      own = [] ∨ (∀ a, s.trip.isLatched (.correctionLimit a) = true) →
      s.sw.localK.length + others.length ≤ 8 →
      flushCorrections s =
        ((takeCorrections own emptied).setSw { s.sw with
          localK := s.sw.localK ++ others.mapIdx (frameOf s) }).setStation
          { s.station with seq := s.station.seq + BitVec.ofNat 16 others.length })

/-! ## Trips and faults -/

/-- The levels: the local level is the greatest of the counted faults, the published level that of the
counted faults that publish, the remote level that of the entries that count, each CLEAR where there are
none; the effective level is the greater of local and remote; the summary bit of a group says whether a
counted fault is in it. The published code is the lowest one of the published level, 0 where nothing is
published. A fault counts that is latched and not masked or at DRIVE_OFF; an entry likewise. -/
def Obligations.LevelsAreGreatest : Prop :=
  ∀ (tree : List FaultEntry) (hostLevel : Option Level) (masks : List Bool)
    (remote : List RemoteEntry),
    let x := computeLevels tree hostLevel masks remote
    let greatest (l : Level) (ls : List Level) : Prop :=
      (∀ y ∈ ls, y.rank ≤ l.rank) ∧ (l ∈ ls ∨ (ls = [] ∧ l = .clear))
    let counted := tree.filter (faultCounts masks hostLevel)
    greatest x.loc (counted.map (entryLevel hostLevel)) ∧
    greatest x.pub ((counted.filter (·.publish)).map (entryLevel hostLevel)) ∧
    greatest x.rem ((remote.filter (remoteCounts masks)).map (·.level)) ∧
    (∀ e, faultCounts masks hostLevel e = true ↔ e.latched = true ∧
      (masks.getD (faultGroup e.id - 1) false = false ∨ entryLevel hostLevel e = .driveOff)) ∧
    (∀ e, remoteCounts masks e = true ↔ masks.getD 6 false = false ∨ e.level = .driveOff) ∧
    (let published := counted.filter (·.publish)
     (published = [] → x.pubCode = 0) ∧
     (published ≠ [] → tree.map (·.id) = allFaults →
       ∃ e ∈ published, entryLevel hostLevel e = x.pub ∧ x.pubCode = faultCode e.id ∧
         ∀ y ∈ published, entryLevel hostLevel y = x.pub → x.pubCode ≤ faultCode y.id)) ∧
    x.eff.rank = max x.loc.rank x.rem.rank ∧
    x.pubCount = (counted.filter (·.publish)).length ∧
    (∀ g, 1 ≤ g → g ≤ 6 →
      x.summary.getD (g - 1) false = counted.any fun e => faultGroup e.id == g) ∧
    x.summary.getD 6 false = !(remote.filter (remoteCounts masks)).isEmpty

/-- The fault commands. TRIP latches HOST_TRIP at its level, or raises its level, never lowers it, and is
BAD_VALUE for a level that is not 1 to 3. CLEAR FAULTS unlatches in the named groups every fault whose
condition is not present, and frees HOST_TRIP's level with group 6; no group, or a group outside 1 to 7,
is BAD_VALUE; the answer counts the faults retained. CLEAR REMOTE removes exactly the STALE entries.
Beside this the commands change what a recomputation of the levels changes, and the levels are then
those the tables give. A fault that latches takes its own axis OFF where it is a drive fault, or a following
error of level DRIVE_OFF, and recomputes the levels; a fault already latched changes nothing. A recomputation
that changes the effective level: a rise to RAMP_STOP sets the master's target to 0 and, where it moves, its
limit to D; a rise to DRIVE_OFF stops it at once and takes every enabled axis OFF; a rise from below RAMP_STOP
starts the stop-confirm timer if an axis is COUPLED and it does not run; TRIP OUT is asserted exactly at
DRIVE_OFF. The banner that becomes active removes the writes of its rows from the panel queue, the tiles of
stream writes stale, and starts a DRAW pass; a change of its level starts one anew; the banner withdrawn makes
its rows' stream tiles stale, starts a RESTORE pass and sends the REPAINT notices; a CLEAR pass in progress
runs on. A station that publishes sends a CHANGE frame at a change of the published level, after the effects
of the effective level (that order is the model's choice, assumption log 48); where the urgent queue is full
RING_CONGESTION is latched. -/
def Obligations.FaultCommands : Prop :=
  (∀ (m : Moment) (e : Envelope) (s : State), s.station.address ≠ 0 → e.lengthOk = true →
    let u := countTaken (s.tick m)
    (∀ level : Nat, ∃ v t, exec (.trip m e level) s = .next t ∧
      (level = 0 ∨ 3 < level → v = u ∧ Answered e (.trip level) (.plain .badValue) v t) ∧
      ∀ l, Level.ofNat? level = some l → l ≠ .clear → TripWhole s →
        Answered e (.trip level) (.plain .ok) v t ∧ v.trip.isLatched .hostTrip = true ∧
        (let old := if s.trip.isLatched .hostTrip then s.trip.hostLevel.getD .clear else .clear
         if old.rank < l.rank then
           LevelOnly (u.setTrip { s.trip with hostLevel := some l }) v ∧
           v.trip.levels = v.trip.compute ∧
           v = recompute (u.setTrip { s.trip.latch .hostTrip with hostLevel := some l })
         else v = u)) ∧
    (∀ groups : List Nat, ∃ v t, exec (.clearFaults m e groups) s = .next t ∧
      ((groups = [] ∨ ∃ g ∈ groups, g = 0 ∨ 7 < g) →
        v = u ∧ Answered e (.clearFaults groups) (.plain .badValue) v t) ∧
      (groups ≠ [] → (∀ g ∈ groups, 1 ≤ g ∧ g ≤ 7) →
        Answered e (.clearFaults groups) ⟨.ok, 0, .retained (s.trip.tree.countP fun x =>
          decide (faultGroup x.id ∈ groups) && x.latched && faultPersistent x.id && x.cond)⟩ v t ∧
        v.trip.levels = v.trip.compute ∧
        v = recompute (u.setTrip { s.trip with
          tree := s.trip.tree.map fun x =>
            if decide (faultGroup x.id ∈ groups) && !(faultPersistent x.id && x.cond) then
              { x with latched := false } else x,
          hostLevel := if 6 ∈ groups then none else s.trip.hostLevel }) ∧
        LevelOnly (u.setTrip { s.trip with
          hostLevel := if 6 ∈ groups then none else s.trip.hostLevel }) v ∧
        ∀ f, f ≠ .ringCongestion → v.trip.isLatched f = (s.trip.isLatched f &&
          !(decide (faultGroup f ∈ groups) && !(faultPersistent f && s.trip.isPresent f))))) ∧
    ∃ v t, exec (.clearRemote m e) s = .next t ∧
      Answered e .clearRemote ⟨.ok, 0, .remotes
        (s.trip.remote.length - (s.trip.remote.filter fun x => !x.stale).length)
        (s.trip.remote.filter fun x => !x.stale).length⟩ v t ∧
      v.trip.levels = v.trip.compute ∧
      LevelOnly (u.setTrip { s.trip with
        remote := s.trip.remote.filter fun x => !x.stale }) v ∧
      v = recompute (u.setTrip { s.trip with
        remote := s.trip.remote.filter fun x => !x.stale })) ∧
  (∀ (f : FaultId) (s : State),
    let latched := s.setTrip (s.trip.latch f)
    let off (a : Fin 4) : State :=
      let r := s.axis a
      let recs := s.axes.recs.set a
        (if axisEnabled r.state then { r with state := .off, capture := false } else r)
      latched.setAxes { s.axes with
        recs := recs,
        stopTimer := if recs.toList.any fun r => r.state == .coupled then s.axes.stopTimer else none }
    (s.trip.isLatched f = true → report f s = s) ∧
    (s.trip.isLatched f = false →
      (∀ a, f = .driveFault a ∨ f = .driveLink a → report f s = recompute (off a)) ∧
      (∀ a, f = .followError a → TripWhole s →
        report f s = recompute
          (if (s.trip.tree.find? fun x => x.id == f).any (fun x => x.level == .driveOff) then off a
            else latched)) ∧
      ((∀ a, f ≠ .driveFault a ∧ f ≠ .driveLink a ∧ f ≠ .followError a) →
        report f s = recompute latched))) ∧
  ∀ s : State,
    let old := s.trip.levels
    let new := s.trip.compute
    let t := recompute s
    let changes := old.pub ≠ new.pub ∧ s.station.address ≠ 0 ∧ s.station.cfg.tripStream ≠ none
    let g := s.gen
    let gen : Generator :=
      if new.eff.rank ≤ old.eff.rank ∨ new.eff.rank < 2 then g
      else if new.eff = .driveOff then
        { g with speed := 0, target := 0, state := masterState 0 0 g.limit }
      else { g with
        target := 0, limit := if 0 < g.speed then .trip else g.limit,
        state := masterState g.speed 0 (if 0 < g.speed then .trip else g.limit) }
    let coupled := s.axes.recs.toList.any fun r => r.state == .coupled
    let axes : AxisTable :=
      if old.eff.rank < 3 ∧ new.eff = .driveOff then
        { s.axes with
          recs := s.axes.recs.map fun r =>
            if axisEnabled r.state then { r with state := .off, capture := false } else r,
          stopTimer := none }
      else if old.eff.rank < 2 ∧ 2 ≤ new.eff.rank ∧ coupled = true ∧ s.axes.stopTimer = none then
        { s.axes with stopTimer := some (s.clock + s.station.cfg.stopConfirm * 100000) }
      else s.axes
    let u := s.screen
    let onBanner (row : Nat) : Bool :=
      decide (u.panel.bannerRow ≤ row ∧ row < u.panel.bannerRow + u.panel.bannerHeight)
    let pass (j : BannerJob) : BannerJob := match u.job with
      | .clear n => .clear n
      | _ => if u.panel.bannerHeight * u.panel.width = 0 then .idle else j
    let screen : ScreenUnit :=
      if old.eff = new.eff then u
      else if old.eff = .clear then
        ({ u with
          queue := u.queue.filter fun w => !onBanner w.row,
          tiles := u.tiles.mapIdx fun i x =>
            if u.queue.any fun w => onBanner w.row && w.stream.isSome &&
                w.row * u.panel.width + w.col == i then { x with stale := true } else x,
          job := pass (.draw new.eff 0) } : ScreenUnit).arbitrate
      else if new.eff = .clear then
        ({ u with
          tiles := u.tiles.mapIdx fun i x =>
            if onBanner (i / u.panel.width) && x.source != .none then { x with stale := true } else x,
          job := pass (.restore 0) } : ScreenUnit).arbitrate
      else ({ u with job := pass (.draw new.eff 0) } : ScreenUnit).arbitrate
    let y := (((s.setTrip { s.trip with
        levels := new,
        tripOut := if old.eff = new.eff then s.trip.tripOut else new.eff == .driveOff }).setGen
      gen).setAxes axes).setScreen screen
    let z := if old.eff ≠ new.eff ∧ new.eff = .clear then sendNotices y else y
    (¬ changes → t = z) ∧
    (changes → s.sw.urgent.length < 8 →
      t.gen = gen ∧ t.axes = axes ∧ t.screen = screen ∧
      t.trip = { y.trip with ctr := { s.trip.ctr with sent := bump s.trip.ctr.sent } } ∧
      t.station = { z.station with seq := z.station.seq + 1 } ∧
      (OutputsBusy s → ∀ stream, s.station.cfg.tripStream = some stream →
        t.sw = { z.sw with urgent := z.sw.urgent ++
          [{ frame :=
               { hdr := { cls := .t, stream := stream, dest := 63, src := s.station.address,
                          tag := s.tag, seq := z.station.seq, hop := 0, age := 0, len := 4 },
                 body := .bytes (tripBytes
                   { level := new.pub, code := new.pubCode, count := new.pubCount,
                     refresh := false }) },
             since := s.clock, origin := .own, ready := true }] })) ∧
    (changes → OutputsBusy s → 8 ≤ s.sw.urgent.length → TripWhole s →
      t.trip.isLatched .ringCongestion = true ∧ t.trip.levels = t.trip.compute)

/-- A trip input that changes level starts its filter timer, or follows at once at filter time 0; one that
falls back to its filtered state before the timer runs out stops it. When the timer has run, the filtered
state is the level, and the fault's condition with it, latched when it is present. -/
def Obligations.TripInputs : Prop :=
  ∀ (m : Moment) (n : Fin 8) (s : State), TripWhole s →
    let now := max s.clock m.time
    let i := s.tripInput n
    let t0 := s.station.cfg.filter.getD n.val 2
    let follows (b : Bool) (t : State) : Prop :=
      t.tripInput n = { raw := b, filtered := b, timer := none } ∧
      t.trip.isPresent (.tripInput n) = b ∧
      (b = true → t.trip.isLatched (.tripInput n) = true) ∧
      t.ctx = s.ctx ∧ t.drive = s.drive ∧ t.image = s.image
    (∀ active,
      (i.raw = active → exec (.tripInputChange m n active) s = .next (s.tick m)) ∧
      (i.raw ≠ active → i.filtered = active →
        exec (.tripInputChange m n active) s =
          .next ((s.tick m).setTripInput n { i with raw := active, timer := none })) ∧
      (i.raw ≠ active → i.filtered ≠ active → t0 ≠ 0 →
        exec (.tripInputChange m n active) s =
          .next ((s.tick m).setTripInput n
            { i with raw := active, timer := some (now + t0 * 100000) })) ∧
      (i.raw ≠ active → i.filtered ≠ active → t0 = 0 →
        ∃ t, exec (.tripInputChange m n active) s = .next t ∧ follows active t)) ∧
    ∀ due, i.timer = some due →
      (now < due → exec (.filterTimerExpiry m n) s = .next (s.tick m)) ∧
      (due ≤ now → ∃ t, exec (.filterTimerExpiry m n) s = .next t ∧ follows i.raw t)

/-- The refresh timer restarts with Rf; a station that publishes sends one T frame, counted TRIP_SENT,
with the next sequence number and the published level, code and count; where the urgent queue is full the frame is
counted URGENT_DROP instead and RING_CONGESTION is reported, and a CHANGE frame this gives rise to is counted
URGENT_DROP too (the model's deduction, assumption log 36); one that does not publish changes nothing else.
An entry of the remote trip table silent for 4 × Rf becomes STALE and is counted, once; before that
nothing happens. A T frame taken: with a level above 0 its source has an entry of its level, code and
arrival, not stale; with level 0 none; the entries of other sources stay. The levels are recomputed where
an entry was created or removed or its level changed; else nothing changes but the entry. -/
def Obligations.TripFramesAndStale : Prop :=
  (∀ (m : Moment) (s : State),
      let now := max s.clock m.time
      let rf := s.station.cfg.refresh
      let restarted := (s.tick m).setTrip { s.trip with refreshAt := now + rf * 100000 }
      (now < s.trip.refreshAt → exec (.refreshTimerExpiry m) s = .next (s.tick m)) ∧
      (s.trip.refreshAt ≤ now → (s.station.address = 0 ∨ s.station.cfg.tripStream = none) →
        exec (.refreshTimerExpiry m) s = .next restarted) ∧
      (s.trip.refreshAt ≤ now → s.station.address ≠ 0 → s.station.cfg.tripStream ≠ none →
        s.sw.urgent.length < 8 →
        ∃ t, exec (.refreshTimerExpiry m) s = .next t ∧
          t.station = { s.station with seq := s.station.seq + 1 } ∧
          t.trip = { restarted.trip with ctr := { s.trip.ctr with sent := bump s.trip.ctr.sent } } ∧
          SameMoment (s.tick m) t ∧ SameRing (s.tick m) t ∧ t.gen = s.gen ∧ t.ctx = s.ctx ∧
          t.axes = s.axes ∧ t.drive = s.drive ∧ t.image = s.image ∧ t.screen = s.screen ∧
          ∀ stream, s.station.cfg.tripStream = some stream → OutputsBusy s →
            t.sw = { s.sw with urgent := s.sw.urgent ++
              [{ frame :=
                   { hdr := { cls := .t, stream := stream, dest := 63, src := s.station.address,
                              tag := s.tag, seq := s.station.seq, hop := 0, age := 0, len := 4 },
                     body := .bytes (tripBytes
                       { level := s.trip.levels.pub, code := s.trip.levels.pubCode,
                         count := s.trip.levels.pubCount, refresh := true }) },
                 since := now, origin := .own, ready := true }] }) ∧
      (s.trip.refreshAt ≤ now → s.station.address ≠ 0 → s.station.cfg.tripStream ≠ none →
        8 ≤ s.sw.urgent.length →
        let dropped := restarted.setSw { s.sw with
          ctr := { s.sw.ctr with urgentDrop := bump s.sw.ctr.urgentDrop } }
        ∃ t, exec (.refreshTimerExpiry m) s = .next t ∧ t = reportCongestion dropped ∧
          LevelOnly dropped t ∧
          (TripWhole s → t.trip.isLatched .ringCongestion = true) ∧
          (s.trip.isLatched .ringCongestion = true → t = dropped) ∧
          (OutputsBusy s → t.trip.ctr.sent = s.trip.ctr.sent ∧
            (s.trip.isLatched .ringCongestion = false → t.sw.ctr.urgentDrop =
              if s.trip.levels.pub ≠ (s.trip.latch .ringCongestion).compute.pub then
                bump (bump s.sw.ctr.urgentDrop)
              else bump s.sw.ctr.urgentDrop))) ∧
      ∀ (source : Nat) (x : RemoteEntry), remoteFind s.trip.remote source = some x →
        ((x.stale = true ∨ now < x.last + 4 * rf * 100000) →
          exec (.remoteEntryStale m source) s = .next (s.tick m)) ∧
        (x.stale = false → x.last + 4 * rf * 100000 ≤ now →
          exec (.remoteEntryStale m source) s = .next ((s.tick m).setTrip { s.trip with
            remote := s.trip.remote.map fun y =>
              if y.source = source then { y with stale := true } else y,
            ctr := { s.trip.ctr with staleRemote := bump s.trip.ctr.staleRemote } }))) ∧
  ∀ (src : Nat) (b : TripBody) (s : State),
    let old := remoteFind s.trip.remote src
    let t := takeTrip src b s
    let e : RemoteEntry :=
      { source := src, level := b.level, code := b.code, last := s.clock, stale := false }
    (b.level = .clear → old = none → t = s) ∧
    (b.level = .clear → old ≠ none →
      LevelOnly (s.setTrip { s.trip with
        remote := s.trip.remote.filter fun y => decide (y.source ≠ src) }) t ∧
      t.trip.levels = t.trip.compute ∧ remoteFind t.trip.remote src = none) ∧
    (b.level ≠ .clear →
      remoteFind t.trip.remote src = some e ∧
      (∀ k, k ≠ src → remoteFind t.trip.remote k = remoteFind s.trip.remote k) ∧
      (RemoteSorted s.trip.remote → RemoteSorted t.trip.remote) ∧
      (old.map (·.level) = some b.level →
        t = s.setTrip { s.trip with remote := t.trip.remote }) ∧
      (old.map (·.level) ≠ some b.level →
        LevelOnly (s.setTrip { s.trip with remote := t.trip.remote }) t ∧
        t.trip.levels = t.trip.compute))

/-! ## Operator screens -/

/-- A tile write that completes leaves the panel link. With no pass in progress the link takes the head of
the panel queue, or is idle; a DRAW pass with tiles left sends its next strip tile, a RESTORE pass the background
of its next banner tile, a CLEAR pass that of its next tile of the panel; a DRAW or RESTORE pass at its end,
and a CLEAR pass that ends in CLEAR, give the link to the queue; a CLEAR pass that ends while the banner is
active is followed by the DRAW pass of the level in force. Nothing but the Screen Unit changes; a link that is
sending makes no choice. That a
pass's position moves as the link takes a tile is the model's choice (assumption log 51). -/
def Obligations.TileWriteCompletion : Prop :=
  ∀ (m : Moment) (s : State),
    let u := s.screen
    let p := u.panel
    let strip := p.bannerHeight * p.width
    let fill (col row : Nat) : LinkWrite :=
      { col := col, row := row, content := .fill (BitVec.ofNat 8
          (u.tiles.getD (row * p.width + col) emptyTile).background) }
    let ends : Prop := u.job = .idle ∨ (∃ l n, u.job = .draw l n ∧ strip ≤ n) ∨
      (∃ n, u.job = .restore n ∧ strip ≤ n) ∨
      (∃ n, u.job = .clear n ∧ p.height * p.width ≤ n ∧ s.trip.levels.eff = .clear)
    let runs : Prop := (∃ l n, u.job = .draw l n ∧ n < strip) ∨
      (∃ n, u.job = .restore n ∧ n < strip) ∨
      (∃ n, u.job = .clear n ∧ n < p.height * p.width)
    (u.link = none → exec (.tileWriteCompletion m) s = .next (s.tick m)) ∧
    (u.link ≠ none → u.arbitrate = u) ∧
    (u.link ≠ none → (u.job = .idle ∨ runs) → exec (.tileWriteCompletion m) s = .next ((s.tick m).setScreen
      ({ u with link := none } : ScreenUnit).arbitrate)) ∧
    (u.link ≠ none →
      (ends → u.queue = [] →
        exec (.tileWriteCompletion m) s = .next ((s.tick m).setScreen { u with
          link := none, job := .idle })) ∧
      (ends → ∀ w q, u.queue = w :: q →
        exec (.tileWriteCompletion m) s = .next ((s.tick m).setScreen { u with
          link := some { col := w.col, row := w.row, content := w.content }, queue := q,
          job := .idle })) ∧
      (∀ n, u.job = .restore n → n < strip →
        exec (.tileWriteCompletion m) s = .next ((s.tick m).setScreen { u with
          link := some (fill (n % p.width) (p.bannerRow + n / p.width)),
          job := .restore (n + 1) })) ∧
      (∀ n, u.job = .clear n → n < p.height * p.width →
        exec (.tileWriteCompletion m) s = .next ((s.tick m).setScreen { u with
          link := some (fill (n % p.width) (n / p.width)), job := .clear (n + 1) })) ∧
      (∀ l n, u.job = .draw l n → n < strip →
        exec (.tileWriteCompletion m) s = .next ((s.tick m).setScreen { u with
          link := some
            { col := n % p.width, row := p.bannerRow + n / p.width,
              content := .pixels (u.store.getD
                ((match l with | .clear | .notice => 0 | .rampStop => 16 | .driveOff => 32) +
                  (if p.bannerHeight = 1 then n % p.width % 16
                   else 8 * (n / p.width) + n % p.width % 8)) []) },
          job := .draw l (n + 1) })) ∧
      (∀ n, u.job = .clear n → p.height * p.width ≤ n → s.trip.levels.eff ≠ .clear →
        0 < strip →
        ∃ t, exec (.tileWriteCompletion m) s = .next ((s.tick m).setScreen t) ∧
          t.job = .draw s.trip.levels.eff 1 ∧ t.queue = u.queue ∧ t.tiles = u.tiles ∧
          ∃ w, t.link = some w ∧ w.row = p.bannerRow ∧ w.col = 0))

/-- The repaint timer restarts. At a station with an address each stream with stale tiles gets one REPAINT
notice to its owner, in the order of the stream table: while the local S queue has room it joins that queue
with the next sequence number, and beyond that it is counted S_DROP. The notice names the stale tiles of
its stream in spans, or all of them where they are more than 64 spans. The spans are the longest runs of stale tiles
within a row, in order of row and then column, and a stream has stale tiles where some tile of it is marked stale. With no stale tile, or at address 0,
nothing else changes. The body length of 4 and 3 bytes a span is read from R11 (assumption log 7). -/
def Obligations.RepaintTimer : Prop :=
  (∀ (m : Moment) (s : State),
    let now := max s.clock m.time
    let u := s.screen
    let restarted := (s.tick m).setScreen { u with repaintAt := now + u.panel.repaint * 100000 }
    let due := u.streams.filter fun x => decide (u.staleCount x.stream ≠ 0)
    let sent := due.take (8 - s.sw.localS.length)
    let notice (i : Nat) (x : ScreenStream) : QItem :=
      let spans := u.staleSpans x.stream
      let n := if 64 < spans.length then 0 else spans.length
      { frame :=
          { hdr := { cls := .s, stream := x.stream, dest := x.owner, src := s.station.address,
                     tag := s.tag, seq := s.station.seq + BitVec.ofNat 16 i, hop := 0, age := 0,
                     len := 4 + 3 * n },
            body := .repaint x.stream (decide (64 < spans.length))
              (if 64 < spans.length then [] else spans) },
        since := now, origin := .own, ready := true }
    (now < u.repaintAt → exec (.repaintTimerExpiry m) s = .next (s.tick m)) ∧
    (u.repaintAt ≤ now →
      exec (.repaintTimerExpiry m) s = .next (sendNotices restarted)) ∧
    (u.repaintAt ≤ now →
      (s.station.address = 0 ∨ due = []) → exec (.repaintTimerExpiry m) s = .next restarted) ∧
    (u.repaintAt ≤ now → s.station.address ≠ 0 → OutputsBusy s → s.sw.ctr.sDrop ≤ 65535 →
      exec (.repaintTimerExpiry m) s = .next ((restarted.setSw { s.sw with
        localS := s.sw.localS ++ sent.mapIdx notice,
        ctr := { s.sw.ctr with
          sDrop := min (s.sw.ctr.sDrop + (due.length - sent.length)) 65535 } }).setStation
        { s.station with seq := s.station.seq + BitVec.ofNat 16 sent.length }))) ∧
  (∀ (u : ScreenUnit) (stream : Nat),
    (0 < u.staleCount stream ↔ ∃ x ∈ u.tiles, x.source = .stream stream ∧ x.stale = true) ∧
    (u.staleSpans stream).Pairwise (fun x y =>
      x.row < y.row ∨ (x.row = y.row ∧ x.col + x.count < y.col)) ∧
    (u.tiles.length = u.panel.width * u.panel.height → ∀ sp ∈ u.staleSpans stream,
      sp.row < u.panel.height ∧ 1 ≤ sp.count ∧ sp.col + sp.count ≤ u.panel.width)) ∧
  ∀ (u : ScreenUnit) (stream row col : Nat), row < u.panel.height → col < u.panel.width →
    u.tiles.length = u.panel.width * u.panel.height →
    let x := u.tiles.getD (row * u.panel.width + col) emptyTile
    (x.source = .stream stream ∧ x.stale = true ↔
      ∃ sp ∈ u.staleSpans stream, sp.row = row ∧ sp.col ≤ col ∧ col < sp.col + sp.count)

/-- A tile record of a stream: outside the panel it is counted BAD_TILE; on a viewport tile, on a tile of
another source or for a stream without an entry UNROUTED; on a banner row while the banner is active, or
with the queue full, its tile becomes stale and TILE_STALE is counted; else its tile is no longer stale
and the write joins the queue, or goes out at once on an idle link. A TILES frame with 1 to 64 records that
are right in kind and length gives its stream's entry its source as owner, or creates the entry where some
tile names the stream and fewer than 8 streams have one, and routes its records in order; a malformed S body
is counted and changes nothing else, and a REPAINT changes nothing. -/
def Obligations.TileRouting : Prop :=
  (∀ (active : Bool) (stream : Nat) (u : ScreenUnit) (r : TileRec) (c : TileContent),
      r.content = some c →
      let p := u.panel
      let i := r.row * p.width + r.col
      let inPanel := r.col < p.width ∧ r.row < p.height
      let routed := viewHas p r.col r.row = false ∧
        (u.tiles.getD i emptyTile).source = .stream stream ∧ u.hasStream stream = true
      let held := (active = true ∧ bannerHas p r.row = true) ∨ 64 ≤ u.queue.length
      let t := routeTile active stream u r
      (¬ inPanel → t = { u with ctr := { u.ctr with badTile := bump u.ctr.badTile } }) ∧
      (inPanel → ¬ routed → t = { u with ctr := { u.ctr with unrouted := bump u.ctr.unrouted } }) ∧
      (inPanel → routed → held → t = { u with
        tiles := u.tiles.modify i fun e => { e with stale := true },
        ctr := { u.ctr with tileStale := bump u.ctr.tileStale } }) ∧
      (inPanel → routed → ¬ held → u.link ≠ none →
        t = { u with
          tiles := u.tiles.modify i fun e => { e with stale := false },
          queue := u.queue ++ [{ stream := some stream, col := r.col, row := r.row, content := c }] }) ∧
      (inPanel → routed → ¬ held → u.link = none → u.job = .idle → u.queue = [] →
        t = { u with
          tiles := u.tiles.modify i fun e => { e with stale := false },
          link := some { col := r.col, row := r.row, content := c } })) ∧
  ∀ (s : State) (f : Frame),
    let u := s.screen
    let bad := s.setScreen { u with ctr := { u.ctr with format := bump u.ctr.format } }
    (∀ stream rs, f.body = .tiles stream rs →
      let ok := 1 ≤ rs.length ∧ rs.length ≤ 64 ∧ (∀ r ∈ rs, r.content ≠ none) ∧
        f.hdr.len = 4 + (rs.map fun r =>
          match r.content with | some (.pixels _) => 260 | _ => 4).sum
      let known := ∃ x ∈ u.streams, x.stream = stream
      let named := ∃ x ∈ u.tiles, x.source = .stream stream
      let v (streams : List ScreenStream) : State := s.setScreen (rs.foldl
        (routeTile (decide (s.trip.levels.eff ≠ .clear)) stream) { u with streams := streams })
      (¬ ok → deliverScreen s f = bad) ∧
      (ok → known → deliverScreen s f = v (u.streams.map fun x =>
        if x.stream = stream then { x with owner := f.hdr.src } else x)) ∧
      (ok → ¬ known → named → u.streams.length < 8 →
        deliverScreen s f = v (u.streams ++ [{ stream := stream, owner := f.hdr.src }])) ∧
      (ok → ¬ known → ¬ (named ∧ u.streams.length < 8) → deliverScreen s f = v u.streams)) ∧
    ((∀ stream rs, f.body ≠ .tiles stream rs) → isRepaint f.body = false →
      deliverScreen s f = bad) ∧
    (isRepaint f.body = true → deliverScreen s f = s)

/-- An I frame at the viewport: its segments are taken in order up to the first that is not well formed, which,
like bytes left over, is counted. A segment gives its pixels to the current line; the first one, and one of a
later line, opens a line in the gap colour; one of an earlier or completed line is counted LATE_LINE. The
last segment completes the line: beyond its width it takes the background of the tiles it crosses. Lines
missing before a later line are drawn in the gap colour, up to 16 line by line, more as one row of fills.
The 16th line of a row emits it as tile writes, lost on the banner rows while the banner is active and
counted VIEW_DROP where the queue is full, and the next row begins. That an I body is checked whatever its
stream, an empty one counts nothing, and a line has the width of its last segment, is read from R179 (assumption
log 37); that a line keeps the gap colour of its opening (assumption log 49), and that the pixels of a tile write stand line
by line (assumption log 66), are the model's choices. -/
def Obligations.ViewportSegments : Prop :=
  (∀ (s : State) (f : Frame),
    let bad (v : State) : State := v.setScreen { v.screen with
      ctr := { v.screen.ctr with format := bump v.screen.ctr.format } }
    let take (v : State) (g : Segment) : State :=
      if v.screen.panel.viewStream = some f.hdr.stream then
        v.setScreen (v.screen.takeSegment (decide (v.trip.levels.eff ≠ .clear)) g) else v
    (∀ gs tail, f.body = .image gs tail →
      let right := gs.takeWhile segmentOk
      let v := right.foldl take s
      deliverImage s f = if right.length < gs.length ∨ tail = true then bad v else v) ∧
    ((∀ gs tail, f.body ≠ .image gs tail) → deliverImage s f = bad s)) ∧
  (∀ g : Segment, segmentOk g = true ↔ 1 ≤ g.count ∧ g.count ≤ 1008 ∧ 1 ≤ g.step ∧ g.step ≤ 64 ∧
    g.offset + g.count ≤ g.width ∧ g.pixels.length = g.count) ∧
  (∀ (line : List Byte) (g : Segment), g.pixels.length = g.count →
    (placePixels line g).length = line.length ∧
    ∀ x, x < line.length → (placePixels line g).getD x 0 =
      if g.offset ≤ x ∧ x < g.offset + g.count then g.pixels.getD (x - g.offset) 0
      else line.getD x 0) ∧
  ∀ (u : ScreenUnit) (active : Bool),
    let p := u.panel
    let n := p.viewWidth * 16
    let gap : Byte := BitVec.ofNat 8 p.gapColour
    let gapLine := List.replicate n gap
    let setView (v : ScreenUnit) (b : List (List Byte)) (c : Option ViewLine) (r : Nat) :
        ScreenUnit := { v with view := { buffer := b, current := c, row := r } }
    let emitted (v : ScreenUnit) (content : Nat → TileContent) : ScreenUnit :=
      let x := setView v [] v.view.current ((v.view.row + 1) % p.viewHeight)
      let writes : List TileWrite := (List.range p.viewWidth).map fun k =>
        { stream := none, col := p.viewCol + k, row := p.viewRow + v.view.row,
          content := content k }
      let fits := writes.take (64 - v.queue.length)
      if active = true ∧ bannerHas p (p.viewRow + v.view.row) = true then x
      else { x with queue := v.queue ++ fits, ctr := { v.ctr with
        viewDrop := min (v.ctr.viewDrop + (writes.length - fits.length)) 65535 } }
    (∀ g : Segment,
      let placed (v : ScreenUnit) (l : ViewLine) : ScreenUnit :=
        let x := setView v v.view.buffer
          (some { l with width := g.width, pixels := placePixels l.pixels g }) v.view.row
        if g.offset + g.count = g.width then x.completeLine active else x
      let fresh : ViewLine :=
        { line := g.line, isOpen := true, width := g.width, pixels := gapLine }
      (u.view.current = none → u.takeSegment active g = placed u fresh) ∧
      ∀ l, u.view.current = some l →
        let d := (g.line - l.line).toInt
        (g.line = l.line → l.isOpen = true → u.takeSegment active g = placed u l) ∧
        (d ≤ 0 → ¬ (g.line = l.line ∧ l.isOpen = true) → u.takeSegment active g =
          { u with ctr := { u.ctr with lateLine := bump u.ctr.lateLine } }) ∧
        (0 < d → u.takeSegment active g =
          placed ((u.completeLine active).drawMissing active (d / g.step - 1)) fresh)) ∧
    (∀ l, u.view.current = some l → l.isOpen = false → u.completeLine active = u) ∧
    (∀ l, u.view.current = some l → l.isOpen = true → l.pixels.length = n →
      ∃ b, b.length = n ∧
        (∀ x, x < n → b.getD x 0 = if x < l.width then l.pixels.getD x 0 else BitVec.ofNat 8
          (u.tiles.getD ((p.viewRow + u.view.row) * p.width + (p.viewCol + x / 16))
            emptyTile).background) ∧
        u.completeLine active = setView (u.addLine active b) (u.addLine active b).view.buffer
          (some { l with isOpen := false }) (u.addLine active b).view.row) ∧
    (∀ b, u.view.buffer.length + 1 ≠ 16 →
      u.addLine active b = setView u (u.view.buffer ++ [b]) u.view.current u.view.row) ∧
    (u.link ≠ none → u.ctr.viewDrop ≤ 65535 →
      (∀ b, u.view.buffer.length + 1 = 16 → u.addLine active b =
        emitted (setView u (u.view.buffer ++ [b]) u.view.current u.view.row)
          fun k => .pixels ((u.view.buffer ++ [b]).flatMap fun l => (l.drop (16 * k)).take 16)) ∧
      (∀ x : Int, 16 < x → u.drawMissing active x =
        emitted (if u.view.buffer = [] then u else
          (List.replicate (16 - u.view.buffer.length) gapLine).foldl
            (fun v b => v.addLine active b) u) fun _ => .fill gap)) ∧
    ∀ x : Int, (x ≤ 0 → u.drawMissing active x = u) ∧
      (0 < x → x ≤ 16 → u.drawMissing active x =
        (List.replicate x.toNat gapLine).foldl (fun v b => v.addLine active b) u)

/-! ## Station management -/

/-- A management command with bad lengths, or a WRITE of 0 or more than 8 entries or with entries of the wrong
size, is answered BAD_LENGTH and changes nothing else: COMMANDS_TAKEN and
the management timers stay. At address 0 no management command is delivered. That a wrong number or size of entries fails check 3
of R184, and so is not counted taken, is the model's deduction (assumption log 27). A WRITE of 1 to 8 entries of a
table that R185 does not number is answered BAD_TABLE, one of RESULT, FAULTS, REMOTE, SCREEN STREAMS or COUNTERS
READ_ONLY: it is counted taken, restarts the management timers, and writes nothing; of another number of entries
it is answered BAD_LENGTH (assumption log 27). -/
def Obligations.ManagementRefused : Prop :=
  (∀ (c : Instr) (e : Envelope) (cmd : MgmtCmd) (s : State), commandOf c = some (e, cmd) →
    (s.station.address = 0 → exec c s = .next (s.tick (momentOf c))) ∧
    (s.station.address ≠ 0 → e.lengthOk = false ∨ wrongEntries c →
      ∃ t, exec c s = .next t ∧ Refused e cmd .badLength (s.tick (momentOf c)) t)) ∧
  ∀ (via : Via) (b : MgmtBody) (s : State) (table : TableId) (count : Nat), b.kind = .command →
    b.cmd = .write (.other table count) →
    let e : Envelope := ⟨via, b.hostTag, b.lengthOk⟩
    let t := takeCommand via b s
    (s.station.address = 0 → t = s) ∧
    (s.station.address ≠ 0 → b.lengthOk = true → 1 ≤ count → count ≤ 8 →
      ((∃ n, table = .unknown n) → Answered e b.cmd (.plain .badTable) (countTaken s) t) ∧
      (table ∈ [.result, .faults, .remote, .screenStreams, .counters] →
        Answered e b.cmd (.plain .readOnly) (countTaken s) t)) ∧
    (s.station.address ≠ 0 → b.lengthOk = false ∨ count = 0 ∨ 8 < count →
      Refused e b.cmd .badLength s t)

/-- A WRITE with a failing entry writes nothing, whatever the table: it is answered with the code and the
position of the first entry that fails a check, the code being the first of that entry's checks that
fails. The checks of each table accept exactly the indexes and ranges its rules give, the fields that depend on
one another judged on the record or table as it would stand after the write (assumption log 26). STATION: BAD_VALUE also for an
address other than 0 from a broadcast. MASTER: NOT_MASTER without the strap, before index and ranges (read from
R66, assumption log 25), IN_USE for another cycle stream
while cycle_run stays 1 or a v_max below the speed, NOT_AT_REST for a stop of cycle_run while not STOPPED.
CAMERA: IN_USE for another Wc or k while the master moves, or a Wc below an enabled window's strip. TAP:
DUPLICATE for a key held twice, IN_USE for two C entries that deliver to the unit, each judged of what stands at
the entry's index (assumption log 30), an entry of no valid action or deliver-to counting as empty in the others'
checks (the model's choice, assumption log 45). AXIS: IN_USE for another gear of an axis that is geared, or a maximum
below the correction. STATION, CAMERA, PANEL and TILE MAP, and MASTER with the strap, check the index before the values (the model's
choice, assumption log 63). WINDOW: REF_ORDER where the entry's window takes part in a reference that is absent, not
enabled, itself dependent, itself, or closing later. -/
def Obligations.WritesAllOrNone : Prop :=
  (∀ (α : Type) (check : α → Option Resp) (es : List α) (r : Resp) (n : Nat),
    firstFailure check 0 es = some (r, n) ↔
      ∃ h : n < es.length, check es[n] = some r ∧
        ∀ k (hk : k < n), check (es[k]'(hk.trans h)) = none) ∧
  (∀ (α : Type) (check : α → Option Resp) (es : List α),
    firstFailure check 0 es = none ↔ ∀ x ∈ es, check x = none) ∧
  (∀ (l : List (Option Resp)) (r : Resp), firstFail l = some r ↔
    ∃ k : Nat, l[k]? = some (some r) ∧ ∀ j < k, l[j]? = some none) ∧
  (∀ (via : Via) (s : State) (i : Nat) (x : StationEntry),
    let r := x.fields
    checkStation via s (i, x) =
      if i ≠ 0 then some .badIndex
      else if ¬ (x.address ≤ 62 ∧ r.linkA ≤ 65535 ∧ r.linkB ≤ 65535 ∧ 1 ≤ r.heal ∧ r.heal ≤ 1000 ∧
          1 ≤ r.missLimit ∧ r.missLimit ≤ 15 ∧ r.jumpLimit ≤ 1048575 ∧ 10 ≤ r.stopConfirm ∧
          r.stopConfirm ≤ 1000 ∧ 1 ≤ r.driveLimit ∧ r.driveLimit ≤ 7 ∧ (∀ n ∈ r.filter, n ≤ 10) ∧
          (∀ n ∈ r.tripStream, n ≤ 255) ∧ 5 ≤ r.refresh ∧ r.refresh ≤ 1000 ∧
          (r.shortTimeout = 0 ∨ 10 ≤ r.shortTimeout ∧ r.shortTimeout ≤ 10000) ∧
          (r.longTimeout = 0 ∨ 100 ≤ r.longTimeout ∧ r.longTimeout ≤ 60000)) then some .badValue
      else if via = .broadcast ∧ x.address ≠ 0 then some .badValue
      else none) ∧
  (∀ (new : MasterRecord) (s : State) (i : Nat) (r : MasterRecord),
    let g := s.gen
    checkMaster new s (i, r) =
      if s.strap = false then some .notMaster
      else if i ≠ 0 then some .badIndex
      else if ¬ (r.cycleRun ≤ 1 ∧ r.stream ≤ 255 ∧ 250 ≤ r.period ∧ r.period ≤ 4000 ∧ 20 ≤ r.offset ∧
          r.offset ≤ new.period - 20 ∧ r.vMax ≤ 8388607 ∧ 1 ≤ r.accel ∧ r.accel ≤ 65535 ∧
          1 ≤ r.tripDecel ∧ r.tripDecel ≤ 65535 ∧ 1 ≤ r.stopDecel ∧ r.stopDecel ≤ 65535) then
        some .badValue
      else if (new.stream ≠ g.cfg.stream ∧ g.cfg.cycleRun = 1 ∧ new.cycleRun = 1) ∨
          new.vMax < g.speed then some .inUse
      else if g.cfg.cycleRun = 1 ∧ new.cycleRun = 0 ∧ g.state ≠ .stopped then some .notAtRest
      else none) ∧
  (∀ (new : CameraRecord) (s : State) (i : Nat) (r : CameraRecord),
    let u := s.image
    checkCamera new s (i, r) =
      if i ≠ 0 then some .badIndex
      else if ¬ (16 ≤ r.pixels ∧ r.pixels ≤ 4096 ∧ 4 ≤ r.pitch ∧ r.pitch ≤ 16 ∧ 10 ≤ r.timeout ∧
          r.timeout ≤ 10000 ∧ r.webStart < new.pixels ∧ r.webStart < r.webEnd ∧
          r.webEnd ≤ new.pixels ∧ r.webThreshold ≤ 255 ∧ 1 ≤ r.webRun ∧ r.webRun ≤ 4096 ∧
          r.stream ≤ 255 ∧ r.cropStart < new.pixels ∧ 1 ≤ r.cropWidth ∧
          r.cropStart + r.cropWidth ≤ new.pixels ∧ r.decimation ∈ [1, 2, 4, 8] ∧
          r.cropWidth % new.decimation = 0 ∧ 1 ≤ r.lineStep ∧ r.lineStep ≤ 64) then some .badValue
      else if (u.cam.pixels ≠ new.pixels ∨ u.cam.pitch ≠ new.pitch) ∧ s.ctx.speed ≠ 0 then
        some .inUse
      else if new.pixels < u.cam.pixels ∧
          ∃ w ∈ u.windows, w.cfg.enabled = true ∧ new.pixels < w.cfg.x1 then some .inUse
      else none) ∧
  (∀ (new : PanelRecord) (s : State) (i : Nat) (r : PanelRecord), checkPanel new s (i, r) =
    if i ≠ 0 then some .badIndex
    else if ¬ (1 ≤ r.width ∧ r.width ≤ 80 ∧ 1 ≤ r.height ∧ r.height ≤ 48 ∧
        r.bannerRow < new.height ∧ r.bannerHeight ≤ 2 ∧ r.bannerRow + r.bannerHeight ≤ new.height ∧
        (∀ n ∈ r.viewStream, n ≤ 255) ∧ r.viewCol < new.width ∧ r.viewRow < new.height ∧
        1 ≤ r.viewWidth ∧ r.viewWidth ≤ 80 ∧ 1 ≤ r.viewHeight ∧ r.viewHeight ≤ 48 ∧
        r.viewCol + r.viewWidth ≤ new.width ∧ r.viewRow + r.viewHeight ≤ new.height ∧
        r.gapColour ≤ 255 ∧ 10 ≤ r.repaint ∧ r.repaint ≤ 1000) then some .badValue
    else none) ∧
  (∀ (new : List (Option TapEntry)) (s : State) (i : Nat) (f : Option TapFields), new.length = 32 →
    let inRange : Prop := ∀ x ∈ f, (x.cls = .t ∨ x.cls = .c ∨ x.cls = .i ∨ x.cls = .s) ∧
      x.stream ≤ 255 ∧ x.action ≠ none ∧ x.target ≠ none
    let another (k : TapEntry → TapEntry → Prop) : Prop := ∃ (a b : TapEntry) (j : Nat),
      new[i]? = some (some a) ∧ j ≠ i ∧ new[j]? = some (some b) ∧ k a b
    let duplicate := another fun a b => a.cls = b.cls ∧ a.stream = b.stream
    let delivers (x : TapEntry) : Prop := x.cls = .c ∧ x.target = .unit ∧ x.action ≠ .drop
    let inUse := another fun a b => delivers a ∧ delivers b
    (31 < i → checkTap new s (i, f) = some .badIndex) ∧
    (i ≤ 31 →
      (¬ inRange → checkTap new s (i, f) = some .badValue) ∧
      (inRange →
        (duplicate → checkTap new s (i, f) = some .duplicate) ∧
        (¬ duplicate → inUse → checkTap new s (i, f) = some .inUse) ∧
        (¬ duplicate → ¬ inUse → checkTap new s (i, f) = none)))) ∧
  (∀ (es : List (Nat × AxisConfig)) (s : State) (i : Nat) (c : AxisConfig),
    (3 < i → checkAxis es s (i, c) = some .badIndex) ∧
    ∀ a : Fin 4, i = a.val →
      let r := s.axis a
      let new := es.foldl (fun d x => if x.1 = a.val then x.2 else d) r.cfg
      checkAxis es s (i, c) =
        if ¬ (-32768 ≤ c.num ∧ c.num ≤ 32767 ∧ c.num ≠ 0 ∧ 1 ≤ c.den ∧ c.den ≤ 65535 ∧
            1 ≤ c.phaseSlew ∧ c.phaseSlew ≤ 65535 ∧ c.corrMax ≤ 1000000 ∧ 1 ≤ c.corrSlew ∧
            c.corrSlew ≤ 65535 ∧ 1 ≤ c.decel ∧ c.decel ≤ 65535 ∧ c.followLimit ≤ 2147483647) then
          some .badValue
        else if (r.cfg.num ≠ new.num ∨ r.cfg.den ≠ new.den) ∧
            (r.state = .coupled ∨ r.state = .coastdown ∨ r.state = .held) then some .inUse
        else if new.corrMax < r.corrTarget.natAbs ∨ new.corrMax < r.corr.natAbs then some .inUse
        else none) ∧
  (∀ (new : List WindowConfig) (s : State) (i : Nat) (w : WindowConfig), new.length = 16 →
    let inRange : Prop := w.x0 < w.x1 ∧ w.x1 ≤ s.image.cam.pixels ∧ w.x1 - w.x0 ≤ 256 ∧
      w.p0 < w.p1 ∧ w.p1 ≤ 1048576 ∧ w.threshold ≤ 255 ∧
      (w.reference = none → 0 ≤ w.expected ∧ w.expected ≤ 1048575) ∧
      (w.reference ≠ none → -524288 ≤ w.expected ∧ w.expected ≤ 524287) ∧
      (∀ r ∈ w.reference, r ≤ 15) ∧ w.averaging ∈ [1, 2, 4, 8] ∧ w.deadBand ≤ 65535 ∧
      -32768 ≤ w.gain ∧ w.gain ≤ 32767 ∧ 1 ≤ w.targetStation ∧ w.targetStation ≤ 62 ∧
      w.targetAxis ≤ 3
    let broken : Prop := ∃ (k : Nat) (x : WindowConfig) (r : Nat), new[k]? = some x ∧
      x.enabled = true ∧ x.reference = some r ∧
      (∀ y, new[r]? = some y → y.enabled = false ∨ y.reference ≠ none ∨ r = k ∨ x.p1 < y.p1) ∧
      (k = i ∨ r = i)
    (15 < i → checkWindow new s (i, w) = some .badIndex) ∧
    (i ≤ 15 →
      (¬ inRange → checkWindow new s (i, w) = some .badValue) ∧
      (inRange → broken → checkWindow new s (i, w) = some .refOrder) ∧
      (inRange → ¬ broken → checkWindow new s (i, w) = none))) ∧
  (∀ (s : State) (i : Nat) (x : FaultSetting),
    ((∀ f, faultCode f ≠ i) → checkFaultConfig s (i, x) = some .badIndex) ∧
    ∀ f, faultCode f = i →
      checkFaultConfig s (i, x) = if 1 ≤ x.level ∧ x.level ≤ 3 then none else some .badValue) ∧
  (∀ (s : State) (i : Nat) (x : List Bool),
    checkMasks s (i, x) = if i = 0 then none else some .badIndex) ∧
  (∀ (s : State) (i : Nat) (x : TileFields),
    let outside : Prop := (∃ n, x.source = .stream n ∧ 255 < n) ∨ 255 < x.background
    let size := s.screen.panel.width * s.screen.panel.height
    (size ≤ i → checkTile s (i, x) = some .badIndex) ∧
    (i < size → (outside → checkTile s (i, x) = some .badValue) ∧
      (¬ outside → checkTile s (i, x) = none))) ∧
  (∀ (s : State) (i : Nat) (x : List Byte),
    checkBanner s (i, x) = if i ≤ 47 then none else some .badIndex) ∧
  ∀ (m : Moment) (e : Envelope) (s : State) (r : Resp) (n : Nat), s.station.address ≠ 0 →
    e.lengthOk = true →
    let refused (c : Instr) (w : WriteSet) : Prop :=
      ∃ t, exec c s = .next t ∧
        Answered e (.write w) ⟨r, 0, .failing n⟩ (countTaken (s.tick m)) t
    (∀ es, countOk es = true → es.all (fun x => x.2.fields.filter.length == 8) = true →
      firstFailure (checkStation e.via s) 0 es = some (r, n) →
      refused (.writeStation m e es) (.station es)) ∧
    (∀ es, countOk es = true →
      firstFailure (checkMaster (lastRecord s.gen.cfg es) s) 0 es = some (r, n) →
      refused (.writeMaster m e es) (.master es)) ∧
    (∀ es, countOk es = true →
      firstFailure (checkCamera (lastRecord s.image.cam es) s) 0 es = some (r, n) →
      refused (.writeCamera m e es) (.camera es)) ∧
    (∀ es, countOk es = true →
      firstFailure (checkPanel (lastRecord s.screen.panel es) s) 0 es = some (r, n) →
      refused (.writePanel m e es) (.panel es)) ∧
    (∀ es, countOk es = true →
      firstFailure (checkTap (writeTapEntries es s.sw.tap) s) 0 es = some (r, n) →
      refused (.writeTap m e es) (.tap es)) ∧
    (∀ es, countOk es = true → firstFailure (checkAxis es s) 0 es = some (r, n) →
      refused (.writeAxis m e es) (.axis es)) ∧
    (∀ es, countOk es = true →
      firstFailure (checkWindow (writeWindowConfigs es (s.image.windows.map (·.cfg))) s) 0 es =
        some (r, n) → refused (.writeWindow m e es) (.window es)) ∧
    (∀ es, countOk es = true → firstFailure (checkFaultConfig s) 0 es = some (r, n) →
      refused (.writeFaultConfig m e es) (.faultConfig es)) ∧
    (∀ es, countOk es = true → es.all (fun x => x.2.length == 7) = true →
      firstFailure (checkMasks s) 0 es = some (r, n) →
      refused (.writeMasks m e es) (.masks es)) ∧
    (∀ es, countOk es = true → firstFailure (checkTile s) 0 es = some (r, n) →
      refused (.writeTileMap m e es) (.tileMap es)) ∧
    ∀ es, countOk es = true → es.all (fun x => x.2.length == 256) = true →
      firstFailure (checkBanner s) 0 es = some (r, n) →
      refused (.writeBanner m e es) (.banner es)

/-- A WRITE of the MASTER, PANEL, TAP, WINDOW, TILE MAP or BANNER table that passes its checks: the table
takes the entries, the last one of an index standing; the generator's target falls to v_max, answered
CLAMPED, and its timer follows cycle_run; a window written starts empty; a tile whose source changes is
no longer stale, and streams that no tile names lose their entry. A PANEL of another size empties the tile
map, the streams, the panel queue and the viewport, and starts a CLEAR pass; of another banner place, it
empties the queue, makes the stream tiles stale and starts a CLEAR pass; of another viewport, it empties the
viewport and takes its writes from the queue. Nothing else changes. That several entries of a single-entry
table act as one change from the old record to the last is read from R187 (assumption log 26). That a PANEL
write that moves both banner and viewport takes both effects is read from R170 (assumption log 28), and that
the current line of the viewport keeps its old gap colour is the model's choice (assumption log 49); so it is that
two entries for one tile act one after the other on its stale mark (assumption log 58), and that a CLEAR pass
begun on an idle link stands at position 1 at once (assumption log 51), and that the first cycle period has the T
which the same WRITE gives (assumption log 65). -/
def Obligations.WritesOfOneBlock : Prop :=
  ∀ (m : Moment) (e : Envelope) (s : State), s.station.address ≠ 0 → e.lengthOk = true →
    let u := countTaken (s.tick m)
    let taken (c : Instr) (w : WriteSet) (r : Resp) (v : State) : Prop :=
      ∃ t, exec c s = .next t ∧ Answered e (.write w) (.plain r) v t
    (∀ es new, countOk es = true → es.getLast?.map (·.2) = some new →
      (∀ x ∈ es, checkMaster new s x = none) →
      let g := s.gen
      taken (.writeMaster m e es) (.master es) (if new.vMax < g.target then .clamped else .ok)
        (u.setGen { g with
          cfg := new, target := min g.target new.vMax,
          state := if new.vMax < g.target then masterState g.speed new.vMax g.limit else g.state,
          timer :=
            if g.cfg.cycleRun = new.cycleRun then g.timer
            else if new.cycleRun = 1 then
              some { period := new.period, due := max s.clock m.time + new.period * 100 }
            else none })) ∧
    (∀ es new, countOk es = true → es.getLast?.map (·.2) = some new →
      (∀ x ∈ es, checkPanel new s x = none) →
      let w := s.screen
      let old := w.panel
      let resized := old.width ≠ new.width ∨ old.height ≠ new.height
      let moved := old.bannerRow ≠ new.bannerRow ∨ old.bannerHeight ≠ new.bannerHeight
      let viewed := old.viewStream ≠ new.viewStream ∨ old.viewCol ≠ new.viewCol ∨
        old.viewRow ≠ new.viewRow ∨ old.viewWidth ≠ new.viewWidth ∨
        old.viewHeight ≠ new.viewHeight
      let stream (x : TileEntry) : Bool := match x.source with | .stream _ => true | .none => false
      let v : ScreenUnit :=
        { w with
          panel := new,
          tiles :=
            if resized then List.replicate (new.width * new.height) emptyTile
            else if moved then w.tiles.map fun x => if stream x then { x with stale := true } else x
            else w.tiles,
          streams := if resized then [] else w.streams,
          queue :=
            if resized ∨ moved then []
            else if viewed then w.queue.filter fun x => x.stream.isSome else w.queue,
          view :=
            if resized ∨ viewed then { buffer := [], current := none, row := 0 } else w.view,
          job := if resized ∨ moved then .clear 0 else w.job }
      (w.link ≠ none → taken (.writePanel m e es) (.panel es) .ok (u.setScreen v)) ∧
      (w.link = none → resized ∨ moved → taken (.writePanel m e es) (.panel es) .ok
        (u.setScreen { v with
          job := .clear 1,
          link := some { col := 0, row := 0, content := .fill (BitVec.ofNat 8
            (v.tiles.getD 0 emptyTile).background) } })) ∧
      (w.link = none → w.job = .idle → w.queue = [] → ¬ (resized ∨ moved) →
        taken (.writePanel m e es) (.panel es) .ok (u.setScreen v))) ∧
    (∀ es, countOk es = true → (∀ x ∈ es, checkTap (writeTapEntries es s.sw.tap) s x = none) →
      taken (.writeTap m e es) (.tap es) .ok
        (u.setSw { s.sw with tap := es.foldl (fun t x => t.set x.1 (x.2.bind tapEntryOf)) s.sw.tap })) ∧
    (∀ es, countOk es = true →
      (∀ x ∈ es, checkWindow (writeWindowConfigs es (s.image.windows.map (·.cfg))) s x = none) →
      taken (.writeWindow m e es) (.window es) .ok (u.setImage { s.image with
        windows := es.foldl (fun l x => l.set x.1 { Window.reset with cfg := x.2 })
          s.image.windows })) ∧
    (∀ es, countOk es = true → (∀ x ∈ es, checkTile s x = none) →
      let tiles := es.foldl (fun l x => l.modify x.1 fun old =>
        { source := x.2.source, background := x.2.background,
          stale := if x.2.source = old.source then old.stale else false }) s.screen.tiles
      taken (.writeTileMap m e es) (.tileMap es) .ok (u.setScreen { s.screen with
        tiles := tiles,
        streams := s.screen.streams.filter fun x =>
          tiles.any fun t => t.source == .stream x.stream })) ∧
    ∀ es, countOk es = true → es.all (fun x => x.2.length == 256) = true →
      (∀ x ∈ es, checkBanner s x = none) →
      taken (.writeBanner m e es) (.banner es) .ok (u.setScreen { s.screen with
        store := es.foldl (fun l x => l.set x.1 x.2) s.screen.store })

/-- A WRITE of the STATION, CAMERA, AXIS, FAULT CONFIG or MASKS table that passes its checks: the table takes
the entries and the answer is OK. STATION: the address stays where the entries give 0; one that changes makes the
clash record absent and removes its own entry of the remote trip table, with a recomputation; where E changes,
DRIVE_LINK is present from the count E on; a lowered Rf makes entries silent for 4 × Rf STALE, counted; a
management timer whose timeout is 0 stops and its condition ends; and where the station begins to publish or its
trip stream changes, a CHANGE frame goes on the new stream, or is dropped with RING_CONGESTION. These effects come
in this order (the model's deduction, assumption log 35), DRIVE_LINK of axes 0 to 3 in turn (its choice, assumption
log 54), and are the whole next state. CAMERA: a change of a stream field queues the frame in assembly; another
geometry drops the line in progress, the trigger and the pending corrections and makes every window wait; a line
that has outlived another timeout is abandoned, counted and reported; WEB_BREAK is present from the run W on; in
this order (the model's choice, assumption log 56), and this too is the whole next state; that a window keeps its
averaging sum, count and misses, and the frame in assembly stays where no stream field changes, is the model's
deduction (assumption log 29). The gear and the setpoint of an axis stay,
its remainder is 0 where its gear ratio changes, and CORRECTION_LIMIT of an axis written is present exactly
while its correction target stands at the maximum. The levels are recomputed from the new tables. That
several entries act as one change to the later one, the address folded over them, is read from R187
(assumption log 26). -/
def Obligations.WritesWithEffects : Prop :=
  ∀ (m : Moment) (e : Envelope) (s : State), s.station.address ≠ 0 → e.lengthOk = true →
    let u := countTaken (s.tick m)
    let taken (c : Instr) (w : WriteSet) (P : State → Prop) : Prop :=
      ∃ v t, exec c s = .next t ∧ Answered e (.write w) (.plain .ok) v t ∧ P v
    (∀ es new, countOk es = true → es.all (fun x => x.2.fields.filter.length == 8) = true →
      es.getLast?.map (·.2.fields) = some new → (∀ x ∈ es, checkStation e.via s x = none) →
      taken (.writeStation m e es) (.station es) fun v =>
        v.station.cfg = new ∧
        v.station.address =
          es.foldl (fun a x => if x.2.address = 0 then a else x.2.address) s.station.address ∧
        (let now := max s.clock m.time
         let old := s.station.cfg
         let own := es.foldl (fun a x => if x.2.address = 0 then a else x.2.address) s.station.address
         let moved := own ≠ s.station.address
         let a := (u.setStation { u.station with address := own, cfg := new }).setSw
           (if moved then { s.sw with clash := none } else s.sw)
         let others := s.trip.remote.filter fun x => x.source != own
         let b := if moved ∧ s.trip.remote.any (fun x => x.source == own) = true then
           recompute (a.setTrip { s.trip with remote := others }) else a
         let c := if new.driveLimit = old.driveLimit then b else
           [(0 : Fin 4), 1, 2, 3].foldl (fun z i =>
             setCondition (.driveLink i) (decide (new.driveLimit ≤ (s.driveAxis i).bad)) z) b
         let silent (x : RemoteEntry) : Bool :=
           !x.stale && decide (x.last + 4 * new.refresh * 100000 ≤ now)
         let kept := if moved then others else s.trip.remote
         let remote := kept.map fun x => if silent x then { x with stale := true } else x
         let gone := bumpBy s.trip.ctr.staleRemote (kept.countP silent)
         let lowered := new.refresh < old.refresh
         let d := if lowered then c.setTrip { c.trip with
           remote := remote, ctr := { c.trip.ctr with staleRemote := gone } } else c
         let f := if new.shortTimeout = 0 then
           (d.setStation { d.station with shortTimer := none }).setTrip
             (d.trip.setCond .mgmtSilent false) else d
         let w := if new.longTimeout = 0 then
           (f.setStation { f.station with longTimer := none }).setTrip
             (f.trip.setCond .mgmtLost false) else f
         v.sw.clash = (if moved then none else s.sw.clash) ∧
         v.trip.remote = (if lowered then remote else kept) ∧
         v.trip.ctr.staleRemote = (if lowered then gone else s.trip.ctr.staleRemote) ∧
         (s.trip.levels = s.trip.compute → v.trip.levels = v.trip.compute) ∧
         (new.shortTimeout = 0 → v.station.shortTimer = none ∧
           (TripWhole s → v.trip.isPresent .mgmtSilent = false)) ∧
         (new.longTimeout = 0 → v.station.longTimer = none ∧
           (TripWhole s → v.trip.isPresent .mgmtLost = false)) ∧
         (new.tripStream = none ∨ new.tripStream = old.tripStream → v = w) ∧
         ∀ stream, new.tripStream = some stream → old.tripStream ≠ some stream →
           v = sendTrip false w ∧
           (8 ≤ w.sw.urgent.length → TripWhole s →
             v.trip.isLatched .ringCongestion = true) ∧
           (w.sw.urgent.length < 8 →
             v.trip = { w.trip with ctr := { w.trip.ctr with sent := bump w.trip.ctr.sent } } ∧
             v.station = { w.station with seq := w.station.seq + 1 } ∧
             (OutputsBusy s → v.sw = { w.sw with urgent := w.sw.urgent ++
               [{ frame :=
                    { hdr := { cls := .t, stream := stream, dest := 63, src := own, tag := s.tag,
                               seq := w.station.seq, hop := 0, age := 0, len := 4 },
                      body := .bytes (tripBytes
                        { level := w.trip.levels.pub, code := w.trip.levels.pubCode,
                          count := w.trip.levels.pubCount, refresh := false }) },
                  since := now, origin := .own, ready := true }] }))) ∧
        v.ctx = s.ctx ∧ v.drive = s.drive ∧ v.image = s.image ∧ v.sw.tap = s.sw.tap ∧
        v.sw.role = s.sw.role ∧ v.station.recvQ = s.station.recvQ ∧
        (TripWhole s → ∀ a, v.trip.isPresent (.driveLink a) =
          if new.driveLimit = s.station.cfg.driveLimit then s.trip.isPresent (.driveLink a)
          else decide (new.driveLimit ≤ (s.driveAxis a).bad))) ∧
    (∀ es new, countOk es = true → es.getLast?.map (·.2) = some new →
      (∀ x ∈ es, checkCamera new s x = none) →
      taken (.writeCamera m e es) (.camera es) fun v =>
        v.image.cam = new ∧ v.image.lineNo = s.image.lineNo ∧ v.ctx = s.ctx ∧
        v.drive = s.drive ∧
        (s.image.cam.pixels ≠ new.pixels ∨ s.image.cam.pitch ≠ new.pitch →
          v.image.line = none ∧ v.image.next = none ∧ v.image.trigger = none ∧
          v.image.pending = []) ∧
        v.image.webRun = s.image.webRun ∧
        (let now := max s.clock m.time
         let old := s.image.cam
         let streams : Bool := old.stream ≠ new.stream ∨ old.cropStart ≠ new.cropStart ∨
           old.cropWidth ≠ new.cropWidth ∨ old.decimation ≠ new.decimation ∨
           old.lineStep ≠ new.lineStep ∨ (old.streaming = true ∧ new.streaming = false)
         let geometry : Bool := old.pixels ≠ new.pixels ∨ old.pitch ≠ new.pitch
         let asm := s.image.asm
         let a := if streams = true ∧ asm ≠ [] then
           insertLocal (u.setImage { s.image with asm := [] }) .i s.image.asmStream 63
             (asm.map fun g => 16 + g.count).sum (.image asm false) else u
         let image := { a.image with cam := new }
         let b := a.setImage (if geometry then { image with
           line := none, next := none, trigger := none, prevIndex := none,
           windows := s.image.windows.map fun w =>
             { w with measuring := false, isOpen := false, prev := none, edge := none },
           pending := [] } else image)
         let outlived := geometry = false ∧ old.timeout ≠ new.timeout ∧
           s.image.line.any (fun l => decide (l.start + new.timeout * 100 ≤ now)) = true
         let abandoned := min (s.image.abandoned + 1) 255
         let c := if outlived then
           setCondition .cameraLost (decide (4 ≤ abandoned)) (b.setImage { b.image with
             line := none, abandoned := abandoned,
             ctr := { b.image.ctr with abandoned := bump b.image.ctr.abandoned } }) else b
         v = setCondition .webBreak (decide (new.webRun ≤ s.image.webRun)) c ∧
         (streams = true → v.image.asm = []) ∧ (streams = false → v.image.asm = asm) ∧
         (geometry = true → v.image.prevIndex = none ∧
           ∀ w ∈ v.image.windows, w.measuring = false ∧ w.isOpen = false ∧ w.edge = none) ∧
         (outlived → v.image.line = none ∧ v.image.abandoned = abandoned ∧
           v.image.ctr.abandoned = bump s.image.ctr.abandoned ∧
           (TripWhole s → v.trip.isPresent .cameraLost = decide (4 ≤ abandoned)))) ∧
        (TripWhole s → v.trip.isPresent .webBreak = decide (new.webRun ≤ s.image.webRun))) ∧
    (∀ es, countOk es = true → (∀ x ∈ es, checkAxis es s x = none) →
      taken (.writeAxis m e es) (.axis es) fun v =>
        v.ctx = s.ctx ∧ v.drive = s.drive ∧ v.image = s.image ∧
        ∀ a : Fin 4,
          let old := s.axis a
          let new := es.foldl (fun c x => if x.1 = a.val then x.2 else c) old.cfg
          (v.axis a).cfg = new ∧ (v.axis a).gear = old.gear ∧
          (v.axis a).setpoint = old.setpoint ∧ (v.axis a).corrTarget = old.corrTarget ∧
          (v.axis a).acc =
            (if old.cfg.num = new.num ∧ old.cfg.den = new.den then old.acc else 0) ∧
          (TripWhole s → v.trip.isPresent (.correctionLimit a) =
            if ∃ x ∈ es, x.1 = a.val then
              decide (0 < new.corrMax ∧ old.corrTarget.natAbs = new.corrMax)
            else s.trip.isPresent (.correctionLimit a))) ∧
    (∀ es, countOk es = true → (∀ x ∈ es, checkFaultConfig s x = none) →
      taken (.writeFaultConfig m e es) (.faultConfig es) fun v =>
        LevelOnly u v ∧ v.trip.levels = v.trip.compute ∧
        (TripWhole s → ∀ f, (treeGet v.trip.tree f).level =
            es.foldl (fun l x => if x.1 = faultCode f then (Level.ofNat? x.2.level).getD l else l)
              (treeGet s.trip.tree f).level ∧
          (treeGet v.trip.tree f).publish =
            es.foldl (fun b x => if x.1 = faultCode f then x.2.publish else b)
              (treeGet s.trip.tree f).publish)) ∧
    ∀ es new, countOk es = true → es.all (fun x => x.2.length == 7) = true →
      es.getLast?.map (·.2) = some new → (∀ x ∈ es, checkMasks s x = none) →
      taken (.writeMasks m e es) (.masks es) fun v =>
        v.trip.masks = new ∧ LevelOnly (u.setTrip { s.trip with masks := new }) v ∧
        v.trip.levels = v.trip.compute

/-- READ returns, in index order from the first index, the entries of its table until it has the count, the table
ends or the next entry would take the response data past 1,016 bytes, at least one of them, and of BANNER 3; the
bytes of an entry are a free value (assumption log 5). With the clear option it sets every counter of the
blocks it returned to 0. Each entry is what its table holds (a silence in whole milliseconds, assumption log
47). STATUS returns the state as it stands, the generator's only with the strap. An unknown table, an
index beyond the table, a count outside 1 to 16 or a clear of another table is refused, in that order, and
REMOTE and SCREEN STREAMS end where R185 ends them (both read from R185 and R186, assumption log 31). Neither
is executed from a broadcast, which is counted as taken and answered by nothing. The model's choices: no check of its
own is made of a READ from a broadcast (assumption log 69), HOST_TRIP
reads CLEAR while it is not latched (assumption log 46), STATUS gives the viewport line without its flag
(assumption log 52) and, of a pass, the position after the tile being sent (assumption log 51). -/
def Obligations.ReadAndStatus : Prop :=
  (∀ (m : Moment) (e : Envelope) (s : State), s.station.address ≠ 0 → e.lengthOk = true →
    let u := countTaken (s.tick m)
    (e.via ≠ .broadcast →
      (∀ (table : TableId) (first count : Nat) (clear : Bool) (r : Resp),
        let cmd : MgmtCmd := .read table first count clear
        (s.tableEnd table = none ∧ r = .badTable ∨
         (∃ n, s.tableEnd table = some n ∧ n ≤ first) ∧ r = .badIndex ∨
         (∃ n, s.tableEnd table = some n ∧ first < n) ∧
           (count = 0 ∨ 16 < count ∨ (clear = true ∧ table ≠ .counters)) ∧ r = .badValue) →
        ∃ t, exec (.read m e table first count clear) s = .next t ∧
          Answered e cmd (.plain r) u t) ∧
      (∀ (table : TableId) (first count n : Nat), s.tableEnd table = some n → first < n →
        1 ≤ count → count ≤ 16 →
        let es := u.readEntries table first count
        es.length ≤ count ∧
        let all := (u.entries table).filter fun x => decide (first ≤ x.1)
        let bytes (l : List (Nat × EntryData)) : Nat := (l.map fun x => entryBytes x.2).sum
        es <+: all ∧ bytes es ≤ 1016 ∧ (all ≠ [] → es ≠ []) ∧
        (es.length = count ∨ es = all ∨
          ∀ x ∈ (all.drop es.length).head?, 1016 < bytes es + entryBytes x.2) ∧
        (table = .banner → es.length = min (min count 3) all.length) ∧
        ∃ t, exec (.read m e table first count false) s = .next t ∧
          Answered e (.read table first count false) ⟨.ok, es.length, .entries (es.map (·.2))⟩ u
            t) ∧
      (∀ (first count : Nat), first < 9 → 1 ≤ count → count ≤ 16 →
        let es := u.readEntries .counters first count
        ∃ v t, exec (.read m e .counters first count true) s = .next t ∧
          Answered e (.read .counters first count true)
            ⟨.ok, es.length, .entries (es.map (·.2))⟩ v t ∧
          SameMoment u v ∧ v.gen = u.gen ∧ v.ctx = u.ctx ∧
          v.portA = { u.portA with ctr := v.portA.ctr } ∧
          v.portB = { u.portB with ctr := v.portB.ctr } ∧
          v.sw = { u.sw with ctr := v.sw.ctr } ∧ v.axes = { u.axes with ctr := v.axes.ctr } ∧
          v.drive = { u.drive with ctr := v.drive.ctr } ∧
          v.image = { u.image with ctr := v.image.ctr } ∧
          v.trip = { u.trip with ctr := v.trip.ctr } ∧
          v.screen = { u.screen with ctr := v.screen.ctr } ∧
          v.station = { u.station with ctr := v.station.ctr } ∧
          (∀ x ∈ es, ∀ n ∈ v.counters x.1, n = 0) ∧
          ∀ i, (∀ x ∈ es, x.1 ≠ i) → v.counters i = u.counters i) ∧
      ∃ t, exec (.status m e) s = .next t ∧
        Answered e .status ⟨.ok, 0, .status u.statusReport⟩ u t) ∧
    (e.via = .broadcast →
      exec (.status m e) s = .next (restartTimers u) ∧
      ∀ table first count clear,
        exec (.read m e table first count clear) s = .next (restartTimers u))) ∧
  (∀ s : State,
    (∀ table ∈ [TableId.station, .master, .camera, .panel, .masks], s.tableEnd table = some 1) ∧
    s.tableEnd .tap = some 32 ∧ s.tableEnd .axis = some 4 ∧ s.tableEnd .window = some 16 ∧
    s.tableEnd .result = some 16 ∧ s.tableEnd .faultConfig = some (0x63 + 1) ∧
    s.tableEnd .faults = some (0xFF + 1) ∧
    s.tableEnd .tileMap = some (s.screen.panel.width * s.screen.panel.height) ∧
    s.tableEnd .banner = some 48 ∧ s.tableEnd .remote = some s.trip.remote.length ∧
    s.tableEnd .screenStreams = some 8 ∧ s.tableEnd .counters = some 9 ∧
    ∀ n, s.tableEnd (.unknown n) = none) ∧
  (∀ s : State,
    s.entries .station = [(0, .station s.station.address s.station.cfg)] ∧
    s.entries .master = [(0, .master s.gen.cfg)] ∧ s.entries .camera = [(0, .camera s.image.cam)] ∧
    s.entries .panel = [(0, .panel s.screen.panel)] ∧ s.entries .masks = [(0, .masks s.trip.masks)] ∧
    s.entries .tap = s.sw.tap.mapIdx (fun i x => (i, .tap x)) ∧
    s.entries .axis = [(0, .axis (s.axis 0)), (1, .axis (s.axis 1)), (2, .axis (s.axis 2)),
      (3, .axis (s.axis 3))] ∧
    s.entries .window = s.image.windows.mapIdx (fun i w => (i, .window w.cfg)) ∧
    s.entries .result = s.image.windows.mapIdx (fun i w => (i, .result i w.result)) ∧
    s.entries .tileMap = s.screen.tiles.mapIdx (fun i x => (i, .tile x)) ∧
    s.entries .banner = s.screen.store.mapIdx (fun i x => (i, .banner x)) ∧
    s.entries .faultConfig =
      s.trip.tree.map (fun x => (faultCode x.id, .faultConfig (faultCode x.id) x.level x.publish)) ∧
    s.entries .faults = s.trip.tree.map (fun x => (faultCode x.id, .fault (faultCode x.id) x.latched
        (if faultPersistent x.id then some x.cond else none)
        (if x.id = .hostTrip then s.trip.hostLevel.getD .clear else x.level) x.publish
        (faultCounts s.trip.masks s.trip.hostLevel x))) ++
      [(255, .levels s.trip.levels (s.trip.inputs.map fun i => i.filtered))] ∧
    s.entries .remote = s.trip.remote.mapIdx (fun i x => (i, .remote x.source x.level x.code
      (min ((s.clock - x.last) / 100000) 65535) x.stale)) ∧
    s.entries .screenStreams = s.screen.streams.mapIdx (fun i x => (i, .screenStream x.stream x.owner
      (s.screen.tiles.countP fun t => t.source == .stream x.stream && t.stale))) ∧
    s.entries .counters = (List.range 9).map (fun i => (i, .counters (s.counters i)))) ∧
  ∀ s : State,
    let left (due : Option Nat) : Option Nat := due.map fun d => d - s.clock
    let port (p : Port) : PortReport :=
      { rx := p.rx, fill := if p.side = .usable then .idle else .brk, side := p.side,
        holdLeft := left p.hold }
    let g := s.gen
    let c := s.ctx
    let u := s.image
    let v := s.screen
    s.statusReport =
      { address := s.station.address, serial := s.serial, tag := s.tag, strap := s.strap,
        headInUse := s.station.headInUse, portA := port s.portA, portB := port s.portB,
        role := s.sw.role, clash := s.sw.clash,
        generator := if s.strap then some { pos := g.pos, speed := g.speed, target := g.target,
                                            state := g.state, cycle := g.cycle } else none,
        ctx := { state := c.state, learnt := c.learnt, lastCycle := c.lastCycle, pos := c.pos,
                 speed := c.speed, period := c.period, misses := c.misses,
                 lastMaster := c.lastMaster, repeats := c.repeats },
        axes := s.axes.recs.map fun r =>
          { state := r.state, setpoint := r.setpoint, gear := r.gear, step := r.step,
            phase := r.phase, phaseTarget := r.phaseTarget, corr := r.corr,
            corrTarget := r.corrTarget, capture := r.capture, release := r.release },
        stopConfirmLeft := left s.axes.stopTimer,
        drives := s.drive.axes.map fun d =>
          { outcome := d.outcome, bad := d.bad, status := d.status, lastSetpoint := d.lastSetpoint,
            sequence := d.sequence },
        driveLimit := s.station.cfg.driveLimit, batch := s.drive.batch.isSome,
        image := { next := u.next, line := u.lineNo, busy := u.line.isSome,
                   abandoned := u.abandoned, webRun := u.webRun, repeatNo := u.repeatNo,
                   segments := u.asm.length, bytes := (u.asm.map fun x => 16 + x.count).sum,
                   pending := u.pending.map fun x => (x.1, x.2.length) },
        effective := s.trip.levels.eff, summary := s.trip.levels.summary,
        tripOut := s.trip.tripOut,
        screen := { job := v.job, queued := v.queue.length,
                    line := v.view.current.map fun x => x.line, lines := v.view.buffer.length,
                    row := v.view.row },
        shortTimeout := s.station.cfg.shortTimeout, shortLeft := left s.station.shortTimer,
        longTimeout := s.station.cfg.longTimeout, longLeft := left s.station.longTimer,
        sendFill := s.station.sendQ.length, receiveFill := s.station.recvQ.length }

/-- The sweeps where they stand. Passing: an ENUMERATE gives a station with address 0, or any under FORCE, the next
address 1 to 62 and goes on with the next one; at 63 that station gives up its address and
OVERFLOW is set; with any other next address nothing changes. A station that takes another address has no clash
record then, drops the remote entry of that source with a recomputation, and sends a CHANGE frame where it begins
to publish; at address 0 its local insert queues are empty. A COLLECT takes the station's digest, or OVERFLOW once its body is full, and an unassigned
station adds nothing. A digest is address, tag, ring role, effective level, summary, context state, the four axis
states, master state (the generator's with the strap, else the context's last) and strap. That a passing sweep is acted on whatever its length and not counted taken, and
that a returned one keeps its header, is read from R60, R62, R190 (assumption log 18). Returned, each
becomes a response in the receive queue, or is counted PORT_DROP, and changes nothing else. Offered with room in the local M queue,
a right ENUMERATE acts on this station and joins that queue, a right COLLECT joins it with this station's
digest; one whose first and next address differ, or a COLLECT that carries digests, is BAD_VALUE and counted taken
(assumption log 19), one with bad lengths BAD_LENGTH, and nothing else changes. Sent to a station, either is
BAD_COMMAND, not counted taken, and no timer restarts; sent to all, it is executed by none and answered
by none, counted as taken, or as a refused broadcast where its length is wrong, with no check of its own made (the
model's choice, assumption log 69). At address 0 neither is delivered, and a COLLECT offered is removed, counted
PORT_REFUSED. The model's choices: the response to a returned ENUMERATE has FORCE clear, the answer to a
refused sweep both flags (assumption log 59); the CHANGE frame is numbered before the sweep at its move
(assumption log 64). -/
def Obligations.Sweeps : Prop :=
  ∀ (m : Moment) (s : State) (h : Header) (hostTag : BitVec 16) (first next count : Nat)
    (force overflow lengthOk : Bool) (ds : List Digest),
    let now := s.tick m
    let sweep (cmd : MgmtCmd) (n : Nat) (force ovf : Bool) (d : RespData) : Body :=
      .mgmt { kind := .command, cmd := cmd, hostTag := hostTag, status := .ok, force := force,
              overflow := ovf, count := n, lengthOk := lengthOk, data := d }
    let enum (p : SweepPoint) : Instr := .enumerate m p hostTag first next force overflow lengthOk
    let coll (p : SweepPoint) : Instr := .collect m p hostTag count overflow lengthOk ds
    let answer (cmd : MgmtCmd) (ovf : Bool) (a : Answer) : Frame :=
      { hdr := h, body := responseBody cmd hostTag a ovf }
    let atPort (cmd : MgmtCmd) (r : Resp) (v : State) : State :=
      v.received (portAnswer cmd hostTag (.plain r) v)
    let takes := s.station.address = 0 ∨ force = true
    let digest : Digest :=
      { address := s.station.address, tag := s.tag, role := s.sw.role,
        effective := s.trip.levels.eff, summary := s.trip.levels.summary, ctx := s.ctx.state,
        axes := ⟨(s.axis 0).state, (s.axis 1).state, (s.axis 2).state, (s.axis 3).state⟩,
        master := if s.strap = true then s.gen.state else s.ctx.lastMaster, strap := s.strap }
    (s.station.address ≠ 0 → force = false →
      exec (enum (.passing h)) s = .next (placeTransit now
        { hdr := h, body := sweep (.enumerate first next) 0 false overflow .none })) ∧
    (takes → 1 ≤ next → next ≤ 62 →
      let v := now.readdressed next
      exec (enum (.passing h)) s = .next (placeTransit v
          { hdr := h, body := sweep (.enumerate first (next + 1)) 0 force overflow .none }) ∧
        v.station.address = next ∧ v.ctx = s.ctx ∧ v.image = s.image ∧ v.drive = s.drive) ∧
    (takes → next = 63 →
      let v := now.readdressed 0
      exec (enum (.passing h)) s = .next (placeTransit v
          { hdr := h, body := sweep (.enumerate first 63) 0 force true .none }) ∧
        v.station.address = 0 ∧ v.ctx = s.ctx ∧ v.image = s.image ∧ v.drive = s.drive ∧
        (s.station.address = 0 → v = now) ∧
        (s.station.address ≠ 0 → v.sw.localK = [] ∧ v.sw.localM = [] ∧
          v.sw.localS = [] ∧ v.sw.localI = [])) ∧
    (takes → next = 0 ∨ 63 < next →
      exec (enum (.passing h)) s = .next (placeTransit now
        { hdr := h, body := sweep (.enumerate first next) 0 force overflow .none })) ∧
    (exec (coll (.passing h)) s = .next (placeTransit now
      (if s.station.address = 0 then
        { hdr := h, body := sweep .collect count false overflow (.digests ds) }
      else if 1024 < h.len + 16 then
        { hdr := h, body := sweep .collect count false true (.digests ds) }
      else
        { hdr := { h with len := h.len + 16 },
          body := sweep .collect (count + 1) false overflow (.digests (ds ++ [digest])) }))) ∧
    exec (enum (.returned h)) s = .next (now.received (answer (.enumerate first next) overflow
      ⟨.ok, 0, .enumerated next (next - first)
        (if next - first = 0 then none else some (next - 1))⟩)) ∧
    exec (coll (.returned h)) s =
      .next (now.received (answer .collect overflow ⟨.ok, count, .digests ds⟩)) ∧
    (8 ≤ s.sw.localM.length → exec (enum .offered) s = .next now ∧
      (s.station.address ≠ 0 → exec (coll .offered) s = .next now)) ∧
    (s.station.address = 0 → exec (coll .offered) s = .next (now.setStation { s.station with
      ctr := { s.station.ctr with portRefused := bump s.station.ctr.portRefused } })) ∧
    (s.sw.localM.length < 8 →
      (lengthOk = false →
        exec (enum .offered) s = .next (atPort (.enumerate first next) .badLength now)) ∧
      (lengthOk = true → first ≠ next ∨ next = 0 ∨ 62 < next → exec (enum .offered) s =
        .next (atPort (.enumerate first next) .badValue (countTaken now))) ∧
      (lengthOk = true → first = next → 1 ≤ next → next ≤ 62 →
        (¬ takes → exec (enum .offered) s = .next (insertLocal (countTaken now) .m 0 0 enumerateLen
          (sweep (.enumerate first next) 0 force overflow .none))) ∧
        (takes → let v := (countTaken now).readdressed next
          exec (enum .offered) s = .next (insertLocal v .m 0 0 enumerateLen
            (sweep (.enumerate first (next + 1)) 0 force overflow .none)) ∧
          v.station.address = next ∧ v.ctx = s.ctx ∧ v.image = s.image ∧ v.drive = s.drive ∧
          v.station.ctr.commandsTaken = bump s.station.ctr.commandsTaken)) ∧
      (s.station.address ≠ 0 → count ≠ 0 →
        exec (coll .offered) s = .next (atPort .collect .badValue (countTaken now))) ∧
      (s.station.address ≠ 0 → count = 0 → lengthOk = false →
        exec (coll .offered) s = .next (atPort .collect .badLength now)) ∧
      (s.station.address ≠ 0 → count = 0 → lengthOk = true →
        exec (coll .offered) s = .next (insertLocal (countTaken now) .m 0 0 24
          (sweep .collect 1 false overflow (.digests (ds ++ [digest])))))) ∧
    (s.station.address ≠ 0 → ∀ c, c = enum (.addressed .broadcast) ∨ c = coll (.addressed .broadcast) →
      exec c s = .next (if lengthOk then restartTimers (countTaken now) else
        now.setStation { s.station with ctr := { s.station.ctr with
          broadcastRefused := bump s.station.ctr.broadcastRefused } })) ∧
    (s.station.address = 0 → ∀ via,
      exec (enum (.addressed via)) s = .next now ∧ exec (coll (.addressed via)) s = .next now) ∧
    (∀ via, via ≠ .broadcast → s.station.address ≠ 0 →
      (∃ t, exec (enum (.addressed via)) s = .next t ∧
        Refused ⟨via, hostTag, lengthOk⟩ (.enumerate first next) .badCommand now t) ∧
      ∃ t, exec (coll (.addressed via)) s = .next t ∧
        Refused ⟨via, hostTag, lengthOk⟩ .collect .badCommand now t)

/-- RESET STATION: generator, cycle context, Image Unit, tap table, tables of the station and of the Trip
Unit, local insert queues, frame port queues and all counters are as after power-on, and the frame port is not in
use; the address, the sequence counter, the ring role, the port states, the urgent queue, the transit and repeat
FIFOs, the remote trip table and the trip inputs with their running timers are kept. The Screen Unit has its
defaults: PANEL, banner store, tile map, stream table, panel queue, viewport. A CLEAR pass begins: a tile write in
transmission is kept and goes on before its first tile, an idle link takes that tile at once, the position moving on
with it (the model's choice, assumption log 51). Refresh and repaint timers start from 0; the levels are
those of the tables, TRIP OUT as the effective level. Every axis is DISABLED at its setpoint; STATION_RESET is latched,
and beside it only faults whose condition the ring or a trip input holds, no other being present. An axis that was not DISABLED has its release pending, and one whose
release was pending keeps it; an exchange under way runs on, its outcome not taken; with none under way the
release exchange of the lowest such axis whose drive is ready begins at once, and an axis before it whose
drive is not ready counts as released; no batch is left. That COMMANDS_TAKEN reads 0 after it is read from R184 and R195
(assumption log 20). -/
def Obligations.ResetStation : Prop :=
  ∀ (m : Moment) (e : Envelope) (s : State), s.station.address ≠ 0 → e.lengthOk = true →
    ∃ v t, exec (.resetStation m e) s = .next t ∧
      Answered e .resetStation (.plain .ok) v t ∧
      v.gen = Generator.reset ∧ v.ctx = CycleCtx.reset ∧ v.image = ImageUnit.reset ∧
      v.axes.ctr = AxisTable.reset.ctr ∧ v.axes.stopTimer = none ∧
      (∀ a, (v.axis a).state = .disabled ∧ (v.axis a).cfg = defaultAxisConfig ∧
        (v.axis a).setpoint = (s.axis a).setpoint ∧ (v.axis a).gear = 0 ∧
        (v.axis a).capture = false ∧ (v.driveAxis a).status = none ∧ (v.driveAxis a).bad = 0 ∧
        v.axis a = { defaultAxis with
          setpoint := (s.axis a).setpoint, release := (v.axis a).release }) ∧
      v.sw = { s.sw with
        tap := List.replicate 32 none, clash := none, localK := [], localM := [], localS := [],
        localI := [], ctr := Switch.reset.ctr } ∧
      (let pending (a : Fin 4) : Bool := (s.axis a).release || (s.axis a).state != .disabled
       (∀ x, s.drive.exchange = some x →
          v.drive = { DriveLink.reset with exchange := some { x with void := true } } ∧
          ∀ a, (v.axis a).release = pending a) ∧
       (s.drive.exchange = none →
         (∀ a, pending a = true → m.ready.get a = true →
           (∀ b < a, pending b = true → m.ready.get b = false) →
           v.drive = { DriveLink.reset with
             axes := DriveLink.reset.axes.set a { DriveLink.reset.axes.get a with sequence := 1 },
             exchange := some
               { axis := a, release := true, setpoint := (s.axis a).setpoint, enable := false,
                 level := v.trip.levels.eff, sequence := 0,
                 record := commandRecord (s.axis a).setpoint false v.trip.levels.eff 0,
                 limit := defaultAxisConfig.followLimit, noCapture := false, void := false } } ∧
           ∀ b, (v.axis b).release = (pending b && decide (a ≤ b))) ∧
         ((∀ a, pending a = true → m.ready.get a = false) →
           v.drive = DriveLink.reset ∧ ∀ a, (v.axis a).release = false))) ∧
      (let now := max s.clock m.time
       v.portA = { s.portA with ctr := Port.reset.ctr } ∧
       v.portB = { s.portB with ctr := Port.reset.ctr } ∧
       v.station = { StationCtl.reset with
         address := s.station.address, seq := s.station.seq, sendStatus := s.station.sendStatus,
         taken := s.station.taken, resetAt := some now } ∧
       v.station.cfg = defaultStation ∧ v.station.sendQ = [] ∧ v.station.recvQ = [] ∧
       v.station.headInUse = false ∧ v.station.ctr.commandsTaken = 0 ∧
       t.station.headInUse = false ∧ t.station.shortTimer = none ∧ t.station.longTimer = none ∧
       (∀ f, (treeGet v.trip.tree f).level = faultLevel f ∧
         (treeGet v.trip.tree f).publish = faultPublish f ∧
         v.trip.isPresent f = heldCondition s f ∧
         v.trip.isLatched f = (f == .stationReset || heldCondition s f)) ∧
       v.trip = { s.trip with
         tree := v.trip.tree, levels := v.trip.compute, tripOut := v.trip.tripOut,
         hostLevel := none, masks := List.replicate 7 false, refreshAt := now + 20 * 100000,
         ctr := TripUnit.reset.ctr } ∧
       (s.trip.tripOut = (s.trip.levels.eff == .driveOff) →
         v.trip.tripOut = (v.trip.levels.eff == .driveOff)) ∧
       v.screen =
         { panel := defaultPanel, tiles := List.replicate 1200 emptyTile, streams := [], queue := [],
           link := some (s.screen.link.getD { col := 0, row := 0, content := .fill 0 }),
           job := .clear (if s.screen.link = none then 1 else 0), store := emptyBanner,
           view := { buffer := [], current := none, row := 0 }, repaintAt := now + 100 * 100000,
           ctr := ScreenUnit.reset.ctr })

/-- The management timers: at its expiry MGMT_SILENT (short) or MGMT_LOST (long) is present and latched, and
the timer stops; before it nothing happens. -/
def Obligations.ManagementTimers : Prop :=
  ∀ (m : Moment) (s : State) (due : Nat),
    let now := max s.clock m.time
    (s.station.shortTimer = some due →
      (now < due → exec (.shortTimerExpiry m) s = .next (s.tick m)) ∧
      (due ≤ now → TripWhole s → ∃ t, exec (.shortTimerExpiry m) s = .next t ∧
        LevelOnly ((s.tick m).setStation { s.station with shortTimer := none }) t ∧
        t.trip.isPresent .mgmtSilent = true ∧ t.trip.isLatched .mgmtSilent = true)) ∧
    (s.station.longTimer = some due →
      (now < due → exec (.longTimerExpiry m) s = .next (s.tick m)) ∧
      (due ≤ now → TripWhole s → ∃ t, exec (.longTimerExpiry m) s = .next t ∧
        LevelOnly ((s.tick m).setStation { s.station with longTimer := none }) t ∧
        t.trip.isPresent .mgmtLost = true ∧ t.trip.isLatched .mgmtLost = true))

/-- The frame port. A SEND answers BAD_FRAME, REFUSED_CLASS, UNASSIGNED or FULL, in that order, counted
PORT_REFUSED; a frame that passes waits at the tail of the send queue, and an M frame to this station that is
no RESPONSE is taken as a command from the frame port instead, whatever the queue holds. A TAKE returns the
frame at the head of the receive queue if it was there when the transaction began, or the empty indication
(read from R192, assumption log 33). That stream and destination of a frame offered stay the host's is the model's
choice (assumption log 61), and so it is that a TAKE of an empty queue marks the port in use (assumption log 68). A transaction that a RESET STATION cut ends with FULL, counted
PORT_REFUSED, or empty (read from R195, assumption log 32). Nothing but Station Control changes, the command
taken apart. -/
def Obligations.FramePort : Prop :=
  ∀ (m : Moment) (begun : Nat) (s : State),
    let c := s.station
    let cut := ∃ at_, c.resetAt = some at_ ∧ begun < at_
    let ours (f : Offered) : Prop := f.cls = .m ∧ c.address ≠ 0 ∧ f.dest = c.address ∧
      (mgmtOf (offeredBody f)).kind ≠ .response
    let enumerates (f : Offered) : Prop := f.cls = .m ∧ f.dest = 0 ∧
      (mgmtOf (offeredBody f)).kind = .command ∧
      ∃ first next, (mgmtOf (offeredBody f)).cmd = .enumerate first next
    (cut → ∀ f, exec (.sendTransaction m begun f) s = .next ((s.tick m).setStation { c with
      sendStatus := some .full, ctr := { c.ctr with portRefused := bump c.ctr.portRefused } })) ∧
    (¬ cut → ∀ (f : Offered) (r : SendStatus),
      (badOffer f = true ∧ r = .badFrame ∨
       badOffer f = false ∧ refusedClass f.cls = true ∧ r = .refusedClass ∨
       badOffer f = false ∧ refusedClass f.cls = false ∧ c.address = 0 ∧ ¬ enumerates f ∧
         r = .unassigned ∨
       badOffer f = false ∧ refusedClass f.cls = false ∧ (c.address ≠ 0 ∨ enumerates f) ∧
         ¬ ours f ∧ 4 ≤ c.sendQ.length ∧ r = .full) →
      exec (.sendTransaction m begun f) s = .next ((s.tick m).setStation { c with
        headInUse := true, sendStatus := some r,
        ctr := { c.ctr with portRefused := bump c.ctr.portRefused } })) ∧
    (¬ cut → ∀ f : Offered, badOffer f = false → refusedClass f.cls = false →
      c.address ≠ 0 ∨ enumerates f →
      (¬ ours f → c.sendQ.length < 4 →
        exec (.sendTransaction m begun f) s = .next ((s.tick m).setStation { c with
          headInUse := true, sendStatus := some .accepted,
          sendQ := c.sendQ ++ [{ hdr := { cls := f.cls, stream := f.stream, dest := f.dest, src := 0,
                                          tag := 0, seq := 0, hop := 0, age := 0, len := f.len },
                                 body := offeredBody f,
                                 wire := keptBytes (offeredBody f) f.bytes }] })) ∧
      (ours f → exec (.sendTransaction m begun f) s = .next (takeCommand .port
        (mgmtOf (offeredBody f)) ((s.tick m).setStation { c with
          headInUse := true, sendStatus := some .accepted })))) ∧
    (cut → exec (.takeTransaction m begun) s =
      .next ((s.tick m).setStation { c with taken := none })) ∧
    (¬ cut →
      (c.recvQ = [] → exec (.takeTransaction m begun) s =
        .next ((s.tick m).setStation { c with headInUse := true, taken := none })) ∧
      ∀ at_ f q, c.recvQ = (at_, f) :: q →
        (at_ ≤ begun → exec (.takeTransaction m begun) s =
          .next ((s.tick m).setStation { c with
            headInUse := true, recvQ := q, taken := some f })) ∧
        (begun < at_ → exec (.takeTransaction m begun) s =
          .next ((s.tick m).setStation { c with headInUse := true, taken := none })))
end

