-- ==== Sys2Proof/Laws/State.lean ====
section
/-! SUPPORT. One lemma per field and update of the state: a setter of a block changes that block and no
other, the clock and the ready lines move when a command is taken, and a counter change touches the
counters of one block. -/

namespace Sys2Proof.Machine

/-! ## setSw -/

@[simp] theorem State.setSw_pending (s : State) (x : Switch) : (s.setSw x).pending = s.pending := rfl
@[simp] theorem State.setSw_clock (s : State) (x : Switch) : (s.setSw x).clock = s.clock := rfl
@[simp] theorem State.setSw_ready (s : State) (x : Switch) : (s.setSw x).ready = s.ready := rfl
@[simp] theorem State.setSw_serial (s : State) (x : Switch) : (s.setSw x).serial = s.serial := rfl
@[simp] theorem State.setSw_strap (s : State) (x : Switch) : (s.setSw x).strap = s.strap := rfl
@[simp] theorem State.setSw_portA (s : State) (x : Switch) : (s.setSw x).portA = s.portA := rfl
@[simp] theorem State.setSw_portB (s : State) (x : Switch) : (s.setSw x).portB = s.portB := rfl
@[simp] theorem State.setSw_sw (s : State) (x : Switch) : (s.setSw x).sw = x := rfl
@[simp] theorem State.setSw_gen (s : State) (x : Switch) : (s.setSw x).gen = s.gen := rfl
@[simp] theorem State.setSw_ctx (s : State) (x : Switch) : (s.setSw x).ctx = s.ctx := rfl
@[simp] theorem State.setSw_axes (s : State) (x : Switch) : (s.setSw x).axes = s.axes := rfl
@[simp] theorem State.setSw_drive (s : State) (x : Switch) : (s.setSw x).drive = s.drive := rfl
@[simp] theorem State.setSw_image (s : State) (x : Switch) : (s.setSw x).image = s.image := rfl
@[simp] theorem State.setSw_trip (s : State) (x : Switch) : (s.setSw x).trip = s.trip := rfl
@[simp] theorem State.setSw_screen (s : State) (x : Switch) : (s.setSw x).screen = s.screen := rfl
@[simp] theorem State.setSw_station (s : State) (x : Switch) : (s.setSw x).station = s.station := rfl
@[simp] theorem State.setSw_port (s : State) (x : Switch) (p : PortId) : (s.setSw x).port p = s.port p := by cases p <;> rfl

/-! ## setGen -/

@[simp] theorem State.setGen_pending (s : State) (x : Generator) : (s.setGen x).pending = s.pending := rfl
@[simp] theorem State.setGen_clock (s : State) (x : Generator) : (s.setGen x).clock = s.clock := rfl
@[simp] theorem State.setGen_ready (s : State) (x : Generator) : (s.setGen x).ready = s.ready := rfl
@[simp] theorem State.setGen_serial (s : State) (x : Generator) : (s.setGen x).serial = s.serial := rfl
@[simp] theorem State.setGen_strap (s : State) (x : Generator) : (s.setGen x).strap = s.strap := rfl
@[simp] theorem State.setGen_portA (s : State) (x : Generator) : (s.setGen x).portA = s.portA := rfl
@[simp] theorem State.setGen_portB (s : State) (x : Generator) : (s.setGen x).portB = s.portB := rfl
@[simp] theorem State.setGen_sw (s : State) (x : Generator) : (s.setGen x).sw = s.sw := rfl
@[simp] theorem State.setGen_gen (s : State) (x : Generator) : (s.setGen x).gen = x := rfl
@[simp] theorem State.setGen_ctx (s : State) (x : Generator) : (s.setGen x).ctx = s.ctx := rfl
@[simp] theorem State.setGen_axes (s : State) (x : Generator) : (s.setGen x).axes = s.axes := rfl
@[simp] theorem State.setGen_drive (s : State) (x : Generator) : (s.setGen x).drive = s.drive := rfl
@[simp] theorem State.setGen_image (s : State) (x : Generator) : (s.setGen x).image = s.image := rfl
@[simp] theorem State.setGen_trip (s : State) (x : Generator) : (s.setGen x).trip = s.trip := rfl
@[simp] theorem State.setGen_screen (s : State) (x : Generator) : (s.setGen x).screen = s.screen := rfl
@[simp] theorem State.setGen_station (s : State) (x : Generator) : (s.setGen x).station = s.station := rfl
@[simp] theorem State.setGen_port (s : State) (x : Generator) (p : PortId) : (s.setGen x).port p = s.port p := by cases p <;> rfl

/-! ## setCtx -/

@[simp] theorem State.setCtx_pending (s : State) (x : CycleCtx) : (s.setCtx x).pending = s.pending := rfl
@[simp] theorem State.setCtx_clock (s : State) (x : CycleCtx) : (s.setCtx x).clock = s.clock := rfl
@[simp] theorem State.setCtx_ready (s : State) (x : CycleCtx) : (s.setCtx x).ready = s.ready := rfl
@[simp] theorem State.setCtx_serial (s : State) (x : CycleCtx) : (s.setCtx x).serial = s.serial := rfl
@[simp] theorem State.setCtx_strap (s : State) (x : CycleCtx) : (s.setCtx x).strap = s.strap := rfl
@[simp] theorem State.setCtx_portA (s : State) (x : CycleCtx) : (s.setCtx x).portA = s.portA := rfl
@[simp] theorem State.setCtx_portB (s : State) (x : CycleCtx) : (s.setCtx x).portB = s.portB := rfl
@[simp] theorem State.setCtx_sw (s : State) (x : CycleCtx) : (s.setCtx x).sw = s.sw := rfl
@[simp] theorem State.setCtx_gen (s : State) (x : CycleCtx) : (s.setCtx x).gen = s.gen := rfl
@[simp] theorem State.setCtx_ctx (s : State) (x : CycleCtx) : (s.setCtx x).ctx = x := rfl
@[simp] theorem State.setCtx_axes (s : State) (x : CycleCtx) : (s.setCtx x).axes = s.axes := rfl
@[simp] theorem State.setCtx_drive (s : State) (x : CycleCtx) : (s.setCtx x).drive = s.drive := rfl
@[simp] theorem State.setCtx_image (s : State) (x : CycleCtx) : (s.setCtx x).image = s.image := rfl
@[simp] theorem State.setCtx_trip (s : State) (x : CycleCtx) : (s.setCtx x).trip = s.trip := rfl
@[simp] theorem State.setCtx_screen (s : State) (x : CycleCtx) : (s.setCtx x).screen = s.screen := rfl
@[simp] theorem State.setCtx_station (s : State) (x : CycleCtx) : (s.setCtx x).station = s.station := rfl
@[simp] theorem State.setCtx_port (s : State) (x : CycleCtx) (p : PortId) : (s.setCtx x).port p = s.port p := by cases p <;> rfl

/-! ## setAxes -/

@[simp] theorem State.setAxes_pending (s : State) (x : AxisTable) : (s.setAxes x).pending = s.pending := rfl
@[simp] theorem State.setAxes_clock (s : State) (x : AxisTable) : (s.setAxes x).clock = s.clock := rfl
@[simp] theorem State.setAxes_ready (s : State) (x : AxisTable) : (s.setAxes x).ready = s.ready := rfl
@[simp] theorem State.setAxes_serial (s : State) (x : AxisTable) : (s.setAxes x).serial = s.serial := rfl
@[simp] theorem State.setAxes_strap (s : State) (x : AxisTable) : (s.setAxes x).strap = s.strap := rfl
@[simp] theorem State.setAxes_portA (s : State) (x : AxisTable) : (s.setAxes x).portA = s.portA := rfl
@[simp] theorem State.setAxes_portB (s : State) (x : AxisTable) : (s.setAxes x).portB = s.portB := rfl
@[simp] theorem State.setAxes_sw (s : State) (x : AxisTable) : (s.setAxes x).sw = s.sw := rfl
@[simp] theorem State.setAxes_gen (s : State) (x : AxisTable) : (s.setAxes x).gen = s.gen := rfl
@[simp] theorem State.setAxes_ctx (s : State) (x : AxisTable) : (s.setAxes x).ctx = s.ctx := rfl
@[simp] theorem State.setAxes_axes (s : State) (x : AxisTable) : (s.setAxes x).axes = x := rfl
@[simp] theorem State.setAxes_drive (s : State) (x : AxisTable) : (s.setAxes x).drive = s.drive := rfl
@[simp] theorem State.setAxes_image (s : State) (x : AxisTable) : (s.setAxes x).image = s.image := rfl
@[simp] theorem State.setAxes_trip (s : State) (x : AxisTable) : (s.setAxes x).trip = s.trip := rfl
@[simp] theorem State.setAxes_screen (s : State) (x : AxisTable) : (s.setAxes x).screen = s.screen := rfl
@[simp] theorem State.setAxes_station (s : State) (x : AxisTable) : (s.setAxes x).station = s.station := rfl
@[simp] theorem State.setAxes_port (s : State) (x : AxisTable) (p : PortId) : (s.setAxes x).port p = s.port p := by cases p <;> rfl

/-! ## setDrive -/

@[simp] theorem State.setDrive_pending (s : State) (x : DriveLink) : (s.setDrive x).pending = s.pending := rfl
@[simp] theorem State.setDrive_clock (s : State) (x : DriveLink) : (s.setDrive x).clock = s.clock := rfl
@[simp] theorem State.setDrive_ready (s : State) (x : DriveLink) : (s.setDrive x).ready = s.ready := rfl
@[simp] theorem State.setDrive_serial (s : State) (x : DriveLink) : (s.setDrive x).serial = s.serial := rfl
@[simp] theorem State.setDrive_strap (s : State) (x : DriveLink) : (s.setDrive x).strap = s.strap := rfl
@[simp] theorem State.setDrive_portA (s : State) (x : DriveLink) : (s.setDrive x).portA = s.portA := rfl
@[simp] theorem State.setDrive_portB (s : State) (x : DriveLink) : (s.setDrive x).portB = s.portB := rfl
@[simp] theorem State.setDrive_sw (s : State) (x : DriveLink) : (s.setDrive x).sw = s.sw := rfl
@[simp] theorem State.setDrive_gen (s : State) (x : DriveLink) : (s.setDrive x).gen = s.gen := rfl
@[simp] theorem State.setDrive_ctx (s : State) (x : DriveLink) : (s.setDrive x).ctx = s.ctx := rfl
@[simp] theorem State.setDrive_axes (s : State) (x : DriveLink) : (s.setDrive x).axes = s.axes := rfl
@[simp] theorem State.setDrive_drive (s : State) (x : DriveLink) : (s.setDrive x).drive = x := rfl
@[simp] theorem State.setDrive_image (s : State) (x : DriveLink) : (s.setDrive x).image = s.image := rfl
@[simp] theorem State.setDrive_trip (s : State) (x : DriveLink) : (s.setDrive x).trip = s.trip := rfl
@[simp] theorem State.setDrive_screen (s : State) (x : DriveLink) : (s.setDrive x).screen = s.screen := rfl
@[simp] theorem State.setDrive_station (s : State) (x : DriveLink) : (s.setDrive x).station = s.station := rfl
@[simp] theorem State.setDrive_port (s : State) (x : DriveLink) (p : PortId) : (s.setDrive x).port p = s.port p := by cases p <;> rfl

/-! ## setImage -/

@[simp] theorem State.setImage_pending (s : State) (x : ImageUnit) : (s.setImage x).pending = s.pending := rfl
@[simp] theorem State.setImage_clock (s : State) (x : ImageUnit) : (s.setImage x).clock = s.clock := rfl
@[simp] theorem State.setImage_ready (s : State) (x : ImageUnit) : (s.setImage x).ready = s.ready := rfl
@[simp] theorem State.setImage_serial (s : State) (x : ImageUnit) : (s.setImage x).serial = s.serial := rfl
@[simp] theorem State.setImage_strap (s : State) (x : ImageUnit) : (s.setImage x).strap = s.strap := rfl
@[simp] theorem State.setImage_portA (s : State) (x : ImageUnit) : (s.setImage x).portA = s.portA := rfl
@[simp] theorem State.setImage_portB (s : State) (x : ImageUnit) : (s.setImage x).portB = s.portB := rfl
@[simp] theorem State.setImage_sw (s : State) (x : ImageUnit) : (s.setImage x).sw = s.sw := rfl
@[simp] theorem State.setImage_gen (s : State) (x : ImageUnit) : (s.setImage x).gen = s.gen := rfl
@[simp] theorem State.setImage_ctx (s : State) (x : ImageUnit) : (s.setImage x).ctx = s.ctx := rfl
@[simp] theorem State.setImage_axes (s : State) (x : ImageUnit) : (s.setImage x).axes = s.axes := rfl
@[simp] theorem State.setImage_drive (s : State) (x : ImageUnit) : (s.setImage x).drive = s.drive := rfl
@[simp] theorem State.setImage_image (s : State) (x : ImageUnit) : (s.setImage x).image = x := rfl
@[simp] theorem State.setImage_trip (s : State) (x : ImageUnit) : (s.setImage x).trip = s.trip := rfl
@[simp] theorem State.setImage_screen (s : State) (x : ImageUnit) : (s.setImage x).screen = s.screen := rfl
@[simp] theorem State.setImage_station (s : State) (x : ImageUnit) : (s.setImage x).station = s.station := rfl
@[simp] theorem State.setImage_port (s : State) (x : ImageUnit) (p : PortId) : (s.setImage x).port p = s.port p := by cases p <;> rfl

/-! ## setTrip -/

@[simp] theorem State.setTrip_pending (s : State) (x : TripUnit) : (s.setTrip x).pending = s.pending := rfl
@[simp] theorem State.setTrip_clock (s : State) (x : TripUnit) : (s.setTrip x).clock = s.clock := rfl
@[simp] theorem State.setTrip_ready (s : State) (x : TripUnit) : (s.setTrip x).ready = s.ready := rfl
@[simp] theorem State.setTrip_serial (s : State) (x : TripUnit) : (s.setTrip x).serial = s.serial := rfl
@[simp] theorem State.setTrip_strap (s : State) (x : TripUnit) : (s.setTrip x).strap = s.strap := rfl
@[simp] theorem State.setTrip_portA (s : State) (x : TripUnit) : (s.setTrip x).portA = s.portA := rfl
@[simp] theorem State.setTrip_portB (s : State) (x : TripUnit) : (s.setTrip x).portB = s.portB := rfl
@[simp] theorem State.setTrip_sw (s : State) (x : TripUnit) : (s.setTrip x).sw = s.sw := rfl
@[simp] theorem State.setTrip_gen (s : State) (x : TripUnit) : (s.setTrip x).gen = s.gen := rfl
@[simp] theorem State.setTrip_ctx (s : State) (x : TripUnit) : (s.setTrip x).ctx = s.ctx := rfl
@[simp] theorem State.setTrip_axes (s : State) (x : TripUnit) : (s.setTrip x).axes = s.axes := rfl
@[simp] theorem State.setTrip_drive (s : State) (x : TripUnit) : (s.setTrip x).drive = s.drive := rfl
@[simp] theorem State.setTrip_image (s : State) (x : TripUnit) : (s.setTrip x).image = s.image := rfl
@[simp] theorem State.setTrip_trip (s : State) (x : TripUnit) : (s.setTrip x).trip = x := rfl
@[simp] theorem State.setTrip_screen (s : State) (x : TripUnit) : (s.setTrip x).screen = s.screen := rfl
@[simp] theorem State.setTrip_station (s : State) (x : TripUnit) : (s.setTrip x).station = s.station := rfl
@[simp] theorem State.setTrip_port (s : State) (x : TripUnit) (p : PortId) : (s.setTrip x).port p = s.port p := by cases p <;> rfl

/-! ## setScreen -/

@[simp] theorem State.setScreen_pending (s : State) (x : ScreenUnit) : (s.setScreen x).pending = s.pending := rfl
@[simp] theorem State.setScreen_clock (s : State) (x : ScreenUnit) : (s.setScreen x).clock = s.clock := rfl
@[simp] theorem State.setScreen_ready (s : State) (x : ScreenUnit) : (s.setScreen x).ready = s.ready := rfl
@[simp] theorem State.setScreen_serial (s : State) (x : ScreenUnit) : (s.setScreen x).serial = s.serial := rfl
@[simp] theorem State.setScreen_strap (s : State) (x : ScreenUnit) : (s.setScreen x).strap = s.strap := rfl
@[simp] theorem State.setScreen_portA (s : State) (x : ScreenUnit) : (s.setScreen x).portA = s.portA := rfl
@[simp] theorem State.setScreen_portB (s : State) (x : ScreenUnit) : (s.setScreen x).portB = s.portB := rfl
@[simp] theorem State.setScreen_sw (s : State) (x : ScreenUnit) : (s.setScreen x).sw = s.sw := rfl
@[simp] theorem State.setScreen_gen (s : State) (x : ScreenUnit) : (s.setScreen x).gen = s.gen := rfl
@[simp] theorem State.setScreen_ctx (s : State) (x : ScreenUnit) : (s.setScreen x).ctx = s.ctx := rfl
@[simp] theorem State.setScreen_axes (s : State) (x : ScreenUnit) : (s.setScreen x).axes = s.axes := rfl
@[simp] theorem State.setScreen_drive (s : State) (x : ScreenUnit) : (s.setScreen x).drive = s.drive := rfl
@[simp] theorem State.setScreen_image (s : State) (x : ScreenUnit) : (s.setScreen x).image = s.image := rfl
@[simp] theorem State.setScreen_trip (s : State) (x : ScreenUnit) : (s.setScreen x).trip = s.trip := rfl
@[simp] theorem State.setScreen_screen (s : State) (x : ScreenUnit) : (s.setScreen x).screen = x := rfl
@[simp] theorem State.setScreen_station (s : State) (x : ScreenUnit) : (s.setScreen x).station = s.station := rfl
@[simp] theorem State.setScreen_port (s : State) (x : ScreenUnit) (p : PortId) : (s.setScreen x).port p = s.port p := by cases p <;> rfl

/-! ## setStation -/

@[simp] theorem State.setStation_pending (s : State) (x : StationCtl) : (s.setStation x).pending = s.pending := rfl
@[simp] theorem State.setStation_clock (s : State) (x : StationCtl) : (s.setStation x).clock = s.clock := rfl
@[simp] theorem State.setStation_ready (s : State) (x : StationCtl) : (s.setStation x).ready = s.ready := rfl
@[simp] theorem State.setStation_serial (s : State) (x : StationCtl) : (s.setStation x).serial = s.serial := rfl
@[simp] theorem State.setStation_strap (s : State) (x : StationCtl) : (s.setStation x).strap = s.strap := rfl
@[simp] theorem State.setStation_portA (s : State) (x : StationCtl) : (s.setStation x).portA = s.portA := rfl
@[simp] theorem State.setStation_portB (s : State) (x : StationCtl) : (s.setStation x).portB = s.portB := rfl
@[simp] theorem State.setStation_sw (s : State) (x : StationCtl) : (s.setStation x).sw = s.sw := rfl
@[simp] theorem State.setStation_gen (s : State) (x : StationCtl) : (s.setStation x).gen = s.gen := rfl
@[simp] theorem State.setStation_ctx (s : State) (x : StationCtl) : (s.setStation x).ctx = s.ctx := rfl
@[simp] theorem State.setStation_axes (s : State) (x : StationCtl) : (s.setStation x).axes = s.axes := rfl
@[simp] theorem State.setStation_drive (s : State) (x : StationCtl) : (s.setStation x).drive = s.drive := rfl
@[simp] theorem State.setStation_image (s : State) (x : StationCtl) : (s.setStation x).image = s.image := rfl
@[simp] theorem State.setStation_trip (s : State) (x : StationCtl) : (s.setStation x).trip = s.trip := rfl
@[simp] theorem State.setStation_screen (s : State) (x : StationCtl) : (s.setStation x).screen = s.screen := rfl
@[simp] theorem State.setStation_station (s : State) (x : StationCtl) : (s.setStation x).station = x := rfl
@[simp] theorem State.setStation_port (s : State) (x : StationCtl) (p : PortId) : (s.setStation x).port p = s.port p := by cases p <;> rfl

/-! ## setPort -/

@[simp] theorem State.setPort_pending (s : State) (p : PortId) (x : Port) : (s.setPort p x).pending = s.pending := by cases p <;> rfl
@[simp] theorem State.setPort_clock (s : State) (p : PortId) (x : Port) : (s.setPort p x).clock = s.clock := by cases p <;> rfl
@[simp] theorem State.setPort_ready (s : State) (p : PortId) (x : Port) : (s.setPort p x).ready = s.ready := by cases p <;> rfl
@[simp] theorem State.setPort_serial (s : State) (p : PortId) (x : Port) : (s.setPort p x).serial = s.serial := by cases p <;> rfl
@[simp] theorem State.setPort_strap (s : State) (p : PortId) (x : Port) : (s.setPort p x).strap = s.strap := by cases p <;> rfl
@[simp] theorem State.setPort_sw (s : State) (p : PortId) (x : Port) : (s.setPort p x).sw = s.sw := by cases p <;> rfl
@[simp] theorem State.setPort_gen (s : State) (p : PortId) (x : Port) : (s.setPort p x).gen = s.gen := by cases p <;> rfl
@[simp] theorem State.setPort_ctx (s : State) (p : PortId) (x : Port) : (s.setPort p x).ctx = s.ctx := by cases p <;> rfl
@[simp] theorem State.setPort_axes (s : State) (p : PortId) (x : Port) : (s.setPort p x).axes = s.axes := by cases p <;> rfl
@[simp] theorem State.setPort_drive (s : State) (p : PortId) (x : Port) : (s.setPort p x).drive = s.drive := by cases p <;> rfl
@[simp] theorem State.setPort_image (s : State) (p : PortId) (x : Port) : (s.setPort p x).image = s.image := by cases p <;> rfl
@[simp] theorem State.setPort_trip (s : State) (p : PortId) (x : Port) : (s.setPort p x).trip = s.trip := by cases p <;> rfl
@[simp] theorem State.setPort_screen (s : State) (p : PortId) (x : Port) : (s.setPort p x).screen = s.screen := by cases p <;> rfl
@[simp] theorem State.setPort_station (s : State) (p : PortId) (x : Port) : (s.setPort p x).station = s.station := by cases p <;> rfl
@[simp] theorem State.setPort_port_same (s : State) (p : PortId) (x : Port) : (s.setPort p x).port p = x := by cases p <;> rfl
@[simp] theorem State.setPort_port_ab (s : State) (x : Port) : (s.setPort .a x).port .b = s.port .b := rfl
@[simp] theorem State.setPort_port_ba (s : State) (x : Port) : (s.setPort .b x).port .a = s.port .a := rfl
@[simp] theorem State.setPort_a_portA (s : State) (x : Port) : (s.setPort .a x).portA = x := rfl
@[simp] theorem State.setPort_a_portB (s : State) (x : Port) : (s.setPort .a x).portB = s.portB := rfl
@[simp] theorem State.setPort_b_portA (s : State) (x : Port) : (s.setPort .b x).portA = s.portA := rfl
@[simp] theorem State.setPort_b_portB (s : State) (x : Port) : (s.setPort .b x).portB = x := rfl
@[simp] theorem State.port_a (s : State) : s.port .a = s.portA := rfl
@[simp] theorem State.port_b (s : State) : s.port .b = s.portB := rfl

/-! ## tick -/

@[simp] theorem State.tick_pending (s : State) (m : Moment) : (s.tick m).pending = s.pending := rfl
@[simp] theorem State.tick_clock (s : State) (m : Moment) : (s.tick m).clock = max s.clock m.time := rfl
@[simp] theorem State.tick_ready (s : State) (m : Moment) : (s.tick m).ready = m.ready := rfl
@[simp] theorem State.tick_serial (s : State) (m : Moment) : (s.tick m).serial = s.serial := rfl
@[simp] theorem State.tick_strap (s : State) (m : Moment) : (s.tick m).strap = s.strap := rfl
@[simp] theorem State.tick_portA (s : State) (m : Moment) : (s.tick m).portA = s.portA := rfl
@[simp] theorem State.tick_portB (s : State) (m : Moment) : (s.tick m).portB = s.portB := rfl
@[simp] theorem State.tick_sw (s : State) (m : Moment) : (s.tick m).sw = s.sw := rfl
@[simp] theorem State.tick_gen (s : State) (m : Moment) : (s.tick m).gen = s.gen := rfl
@[simp] theorem State.tick_ctx (s : State) (m : Moment) : (s.tick m).ctx = s.ctx := rfl
@[simp] theorem State.tick_axes (s : State) (m : Moment) : (s.tick m).axes = s.axes := rfl
@[simp] theorem State.tick_drive (s : State) (m : Moment) : (s.tick m).drive = s.drive := rfl
@[simp] theorem State.tick_image (s : State) (m : Moment) : (s.tick m).image = s.image := rfl
@[simp] theorem State.tick_trip (s : State) (m : Moment) : (s.tick m).trip = s.trip := rfl
@[simp] theorem State.tick_screen (s : State) (m : Moment) : (s.tick m).screen = s.screen := rfl
@[simp] theorem State.tick_station (s : State) (m : Moment) : (s.tick m).station = s.station := rfl
@[simp] theorem State.tick_port (s : State) (m : Moment) (p : PortId) : (s.tick m).port p = s.port p := by cases p <;> rfl

/-! ## Counters -/

@[simp] theorem State.countSw_pending (s : State) (k : SwitchCounters → SwitchCounters) : (s.countSw k).pending = s.pending := rfl
@[simp] theorem State.countSw_clock (s : State) (k : SwitchCounters → SwitchCounters) : (s.countSw k).clock = s.clock := rfl
@[simp] theorem State.countSw_ready (s : State) (k : SwitchCounters → SwitchCounters) : (s.countSw k).ready = s.ready := rfl
@[simp] theorem State.countSw_serial (s : State) (k : SwitchCounters → SwitchCounters) : (s.countSw k).serial = s.serial := rfl
@[simp] theorem State.countSw_strap (s : State) (k : SwitchCounters → SwitchCounters) : (s.countSw k).strap = s.strap := rfl
@[simp] theorem State.countSw_portA (s : State) (k : SwitchCounters → SwitchCounters) : (s.countSw k).portA = s.portA := rfl
@[simp] theorem State.countSw_portB (s : State) (k : SwitchCounters → SwitchCounters) : (s.countSw k).portB = s.portB := rfl
@[simp] theorem State.countSw_sw (s : State) (k : SwitchCounters → SwitchCounters) : (s.countSw k).sw = { s.sw with ctr := k s.sw.ctr } := rfl
@[simp] theorem State.countSw_gen (s : State) (k : SwitchCounters → SwitchCounters) : (s.countSw k).gen = s.gen := rfl
@[simp] theorem State.countSw_ctx (s : State) (k : SwitchCounters → SwitchCounters) : (s.countSw k).ctx = s.ctx := rfl
@[simp] theorem State.countSw_axes (s : State) (k : SwitchCounters → SwitchCounters) : (s.countSw k).axes = s.axes := rfl
@[simp] theorem State.countSw_drive (s : State) (k : SwitchCounters → SwitchCounters) : (s.countSw k).drive = s.drive := rfl
@[simp] theorem State.countSw_image (s : State) (k : SwitchCounters → SwitchCounters) : (s.countSw k).image = s.image := rfl
@[simp] theorem State.countSw_trip (s : State) (k : SwitchCounters → SwitchCounters) : (s.countSw k).trip = s.trip := rfl
@[simp] theorem State.countSw_screen (s : State) (k : SwitchCounters → SwitchCounters) : (s.countSw k).screen = s.screen := rfl
@[simp] theorem State.countSw_station (s : State) (k : SwitchCounters → SwitchCounters) : (s.countSw k).station = s.station := rfl

@[simp] theorem State.countMotion_pending (s : State) (k : MotionCounters → MotionCounters) : (s.countMotion k).pending = s.pending := rfl
@[simp] theorem State.countMotion_clock (s : State) (k : MotionCounters → MotionCounters) : (s.countMotion k).clock = s.clock := rfl
@[simp] theorem State.countMotion_ready (s : State) (k : MotionCounters → MotionCounters) : (s.countMotion k).ready = s.ready := rfl
@[simp] theorem State.countMotion_serial (s : State) (k : MotionCounters → MotionCounters) : (s.countMotion k).serial = s.serial := rfl
@[simp] theorem State.countMotion_strap (s : State) (k : MotionCounters → MotionCounters) : (s.countMotion k).strap = s.strap := rfl
@[simp] theorem State.countMotion_portA (s : State) (k : MotionCounters → MotionCounters) : (s.countMotion k).portA = s.portA := rfl
@[simp] theorem State.countMotion_portB (s : State) (k : MotionCounters → MotionCounters) : (s.countMotion k).portB = s.portB := rfl
@[simp] theorem State.countMotion_sw (s : State) (k : MotionCounters → MotionCounters) : (s.countMotion k).sw = s.sw := rfl
@[simp] theorem State.countMotion_gen (s : State) (k : MotionCounters → MotionCounters) : (s.countMotion k).gen = s.gen := rfl
@[simp] theorem State.countMotion_ctx (s : State) (k : MotionCounters → MotionCounters) : (s.countMotion k).ctx = s.ctx := rfl
@[simp] theorem State.countMotion_axes (s : State) (k : MotionCounters → MotionCounters) : (s.countMotion k).axes = { s.axes with ctr := k s.axes.ctr } := rfl
@[simp] theorem State.countMotion_drive (s : State) (k : MotionCounters → MotionCounters) : (s.countMotion k).drive = s.drive := rfl
@[simp] theorem State.countMotion_image (s : State) (k : MotionCounters → MotionCounters) : (s.countMotion k).image = s.image := rfl
@[simp] theorem State.countMotion_trip (s : State) (k : MotionCounters → MotionCounters) : (s.countMotion k).trip = s.trip := rfl
@[simp] theorem State.countMotion_screen (s : State) (k : MotionCounters → MotionCounters) : (s.countMotion k).screen = s.screen := rfl
@[simp] theorem State.countMotion_station (s : State) (k : MotionCounters → MotionCounters) : (s.countMotion k).station = s.station := rfl

@[simp] theorem State.countDrive_pending (s : State) (k : DriveCounters → DriveCounters) : (s.countDrive k).pending = s.pending := rfl
@[simp] theorem State.countDrive_clock (s : State) (k : DriveCounters → DriveCounters) : (s.countDrive k).clock = s.clock := rfl
@[simp] theorem State.countDrive_ready (s : State) (k : DriveCounters → DriveCounters) : (s.countDrive k).ready = s.ready := rfl
@[simp] theorem State.countDrive_serial (s : State) (k : DriveCounters → DriveCounters) : (s.countDrive k).serial = s.serial := rfl
@[simp] theorem State.countDrive_strap (s : State) (k : DriveCounters → DriveCounters) : (s.countDrive k).strap = s.strap := rfl
@[simp] theorem State.countDrive_portA (s : State) (k : DriveCounters → DriveCounters) : (s.countDrive k).portA = s.portA := rfl
@[simp] theorem State.countDrive_portB (s : State) (k : DriveCounters → DriveCounters) : (s.countDrive k).portB = s.portB := rfl
@[simp] theorem State.countDrive_sw (s : State) (k : DriveCounters → DriveCounters) : (s.countDrive k).sw = s.sw := rfl
@[simp] theorem State.countDrive_gen (s : State) (k : DriveCounters → DriveCounters) : (s.countDrive k).gen = s.gen := rfl
@[simp] theorem State.countDrive_ctx (s : State) (k : DriveCounters → DriveCounters) : (s.countDrive k).ctx = s.ctx := rfl
@[simp] theorem State.countDrive_axes (s : State) (k : DriveCounters → DriveCounters) : (s.countDrive k).axes = s.axes := rfl
@[simp] theorem State.countDrive_drive (s : State) (k : DriveCounters → DriveCounters) : (s.countDrive k).drive = { s.drive with ctr := k s.drive.ctr } := rfl
@[simp] theorem State.countDrive_image (s : State) (k : DriveCounters → DriveCounters) : (s.countDrive k).image = s.image := rfl
@[simp] theorem State.countDrive_trip (s : State) (k : DriveCounters → DriveCounters) : (s.countDrive k).trip = s.trip := rfl
@[simp] theorem State.countDrive_screen (s : State) (k : DriveCounters → DriveCounters) : (s.countDrive k).screen = s.screen := rfl
@[simp] theorem State.countDrive_station (s : State) (k : DriveCounters → DriveCounters) : (s.countDrive k).station = s.station := rfl

@[simp] theorem State.countImage_pending (s : State) (k : ImageCounters → ImageCounters) : (s.countImage k).pending = s.pending := rfl
@[simp] theorem State.countImage_clock (s : State) (k : ImageCounters → ImageCounters) : (s.countImage k).clock = s.clock := rfl
@[simp] theorem State.countImage_ready (s : State) (k : ImageCounters → ImageCounters) : (s.countImage k).ready = s.ready := rfl
@[simp] theorem State.countImage_serial (s : State) (k : ImageCounters → ImageCounters) : (s.countImage k).serial = s.serial := rfl
@[simp] theorem State.countImage_strap (s : State) (k : ImageCounters → ImageCounters) : (s.countImage k).strap = s.strap := rfl
@[simp] theorem State.countImage_portA (s : State) (k : ImageCounters → ImageCounters) : (s.countImage k).portA = s.portA := rfl
@[simp] theorem State.countImage_portB (s : State) (k : ImageCounters → ImageCounters) : (s.countImage k).portB = s.portB := rfl
@[simp] theorem State.countImage_sw (s : State) (k : ImageCounters → ImageCounters) : (s.countImage k).sw = s.sw := rfl
@[simp] theorem State.countImage_gen (s : State) (k : ImageCounters → ImageCounters) : (s.countImage k).gen = s.gen := rfl
@[simp] theorem State.countImage_ctx (s : State) (k : ImageCounters → ImageCounters) : (s.countImage k).ctx = s.ctx := rfl
@[simp] theorem State.countImage_axes (s : State) (k : ImageCounters → ImageCounters) : (s.countImage k).axes = s.axes := rfl
@[simp] theorem State.countImage_drive (s : State) (k : ImageCounters → ImageCounters) : (s.countImage k).drive = s.drive := rfl
@[simp] theorem State.countImage_image (s : State) (k : ImageCounters → ImageCounters) : (s.countImage k).image = { s.image with ctr := k s.image.ctr } := rfl
@[simp] theorem State.countImage_trip (s : State) (k : ImageCounters → ImageCounters) : (s.countImage k).trip = s.trip := rfl
@[simp] theorem State.countImage_screen (s : State) (k : ImageCounters → ImageCounters) : (s.countImage k).screen = s.screen := rfl
@[simp] theorem State.countImage_station (s : State) (k : ImageCounters → ImageCounters) : (s.countImage k).station = s.station := rfl

@[simp] theorem State.countScreen_pending (s : State) (k : ScreenCounters → ScreenCounters) : (s.countScreen k).pending = s.pending := rfl
@[simp] theorem State.countScreen_clock (s : State) (k : ScreenCounters → ScreenCounters) : (s.countScreen k).clock = s.clock := rfl
@[simp] theorem State.countScreen_ready (s : State) (k : ScreenCounters → ScreenCounters) : (s.countScreen k).ready = s.ready := rfl
@[simp] theorem State.countScreen_serial (s : State) (k : ScreenCounters → ScreenCounters) : (s.countScreen k).serial = s.serial := rfl
@[simp] theorem State.countScreen_strap (s : State) (k : ScreenCounters → ScreenCounters) : (s.countScreen k).strap = s.strap := rfl
@[simp] theorem State.countScreen_portA (s : State) (k : ScreenCounters → ScreenCounters) : (s.countScreen k).portA = s.portA := rfl
@[simp] theorem State.countScreen_portB (s : State) (k : ScreenCounters → ScreenCounters) : (s.countScreen k).portB = s.portB := rfl
@[simp] theorem State.countScreen_sw (s : State) (k : ScreenCounters → ScreenCounters) : (s.countScreen k).sw = s.sw := rfl
@[simp] theorem State.countScreen_gen (s : State) (k : ScreenCounters → ScreenCounters) : (s.countScreen k).gen = s.gen := rfl
@[simp] theorem State.countScreen_ctx (s : State) (k : ScreenCounters → ScreenCounters) : (s.countScreen k).ctx = s.ctx := rfl
@[simp] theorem State.countScreen_axes (s : State) (k : ScreenCounters → ScreenCounters) : (s.countScreen k).axes = s.axes := rfl
@[simp] theorem State.countScreen_drive (s : State) (k : ScreenCounters → ScreenCounters) : (s.countScreen k).drive = s.drive := rfl
@[simp] theorem State.countScreen_image (s : State) (k : ScreenCounters → ScreenCounters) : (s.countScreen k).image = s.image := rfl
@[simp] theorem State.countScreen_trip (s : State) (k : ScreenCounters → ScreenCounters) : (s.countScreen k).trip = s.trip := rfl
@[simp] theorem State.countScreen_screen (s : State) (k : ScreenCounters → ScreenCounters) : (s.countScreen k).screen = { s.screen with ctr := k s.screen.ctr } := rfl
@[simp] theorem State.countScreen_station (s : State) (k : ScreenCounters → ScreenCounters) : (s.countScreen k).station = s.station := rfl

@[simp] theorem State.countStation_pending (s : State) (k : StationCounters → StationCounters) : (s.countStation k).pending = s.pending := rfl
@[simp] theorem State.countStation_clock (s : State) (k : StationCounters → StationCounters) : (s.countStation k).clock = s.clock := rfl
@[simp] theorem State.countStation_ready (s : State) (k : StationCounters → StationCounters) : (s.countStation k).ready = s.ready := rfl
@[simp] theorem State.countStation_serial (s : State) (k : StationCounters → StationCounters) : (s.countStation k).serial = s.serial := rfl
@[simp] theorem State.countStation_strap (s : State) (k : StationCounters → StationCounters) : (s.countStation k).strap = s.strap := rfl
@[simp] theorem State.countStation_portA (s : State) (k : StationCounters → StationCounters) : (s.countStation k).portA = s.portA := rfl
@[simp] theorem State.countStation_portB (s : State) (k : StationCounters → StationCounters) : (s.countStation k).portB = s.portB := rfl
@[simp] theorem State.countStation_sw (s : State) (k : StationCounters → StationCounters) : (s.countStation k).sw = s.sw := rfl
@[simp] theorem State.countStation_gen (s : State) (k : StationCounters → StationCounters) : (s.countStation k).gen = s.gen := rfl
@[simp] theorem State.countStation_ctx (s : State) (k : StationCounters → StationCounters) : (s.countStation k).ctx = s.ctx := rfl
@[simp] theorem State.countStation_axes (s : State) (k : StationCounters → StationCounters) : (s.countStation k).axes = s.axes := rfl
@[simp] theorem State.countStation_drive (s : State) (k : StationCounters → StationCounters) : (s.countStation k).drive = s.drive := rfl
@[simp] theorem State.countStation_image (s : State) (k : StationCounters → StationCounters) : (s.countStation k).image = s.image := rfl
@[simp] theorem State.countStation_trip (s : State) (k : StationCounters → StationCounters) : (s.countStation k).trip = s.trip := rfl
@[simp] theorem State.countStation_screen (s : State) (k : StationCounters → StationCounters) : (s.countStation k).screen = s.screen := rfl
@[simp] theorem State.countStation_station (s : State) (k : StationCounters → StationCounters) : (s.countStation k).station = { s.station with ctr := k s.station.ctr } := rfl

@[simp] theorem State.countPort_pending (s : State) (p : PortId) (k : PortCounters → PortCounters) : (s.countPort p k).pending = s.pending := by cases p <;> rfl
@[simp] theorem State.countPort_clock (s : State) (p : PortId) (k : PortCounters → PortCounters) : (s.countPort p k).clock = s.clock := by cases p <;> rfl
@[simp] theorem State.countPort_ready (s : State) (p : PortId) (k : PortCounters → PortCounters) : (s.countPort p k).ready = s.ready := by cases p <;> rfl
@[simp] theorem State.countPort_serial (s : State) (p : PortId) (k : PortCounters → PortCounters) : (s.countPort p k).serial = s.serial := by cases p <;> rfl
@[simp] theorem State.countPort_strap (s : State) (p : PortId) (k : PortCounters → PortCounters) : (s.countPort p k).strap = s.strap := by cases p <;> rfl
@[simp] theorem State.countPort_sw (s : State) (p : PortId) (k : PortCounters → PortCounters) : (s.countPort p k).sw = s.sw := by cases p <;> rfl
@[simp] theorem State.countPort_gen (s : State) (p : PortId) (k : PortCounters → PortCounters) : (s.countPort p k).gen = s.gen := by cases p <;> rfl
@[simp] theorem State.countPort_ctx (s : State) (p : PortId) (k : PortCounters → PortCounters) : (s.countPort p k).ctx = s.ctx := by cases p <;> rfl
@[simp] theorem State.countPort_axes (s : State) (p : PortId) (k : PortCounters → PortCounters) : (s.countPort p k).axes = s.axes := by cases p <;> rfl
@[simp] theorem State.countPort_drive (s : State) (p : PortId) (k : PortCounters → PortCounters) : (s.countPort p k).drive = s.drive := by cases p <;> rfl
@[simp] theorem State.countPort_image (s : State) (p : PortId) (k : PortCounters → PortCounters) : (s.countPort p k).image = s.image := by cases p <;> rfl
@[simp] theorem State.countPort_trip (s : State) (p : PortId) (k : PortCounters → PortCounters) : (s.countPort p k).trip = s.trip := by cases p <;> rfl
@[simp] theorem State.countPort_screen (s : State) (p : PortId) (k : PortCounters → PortCounters) : (s.countPort p k).screen = s.screen := by cases p <;> rfl
@[simp] theorem State.countPort_station (s : State) (p : PortId) (k : PortCounters → PortCounters) : (s.countPort p k).station = s.station := by cases p <;> rfl
@[simp] theorem State.countPort_port_same (s : State) (p : PortId) (k : PortCounters → PortCounters) : (s.countPort p k).port p = { s.port p with ctr := k (s.port p).ctr } := by cases p <;> rfl

/-! ## Axes -/

@[simp] theorem Four.get_set_same {α : Type} (f : Four α) (i : Fin 4) (x : α) :
    (f.set i x).get i = x := by
  match i with
  | 0 | 1 | 2 | 3 => rfl

theorem Four.get_set_other {α : Type} (f : Four α) (i j : Fin 4) (x : α) (h : j ≠ i) :
    (f.set i x).get j = f.get j := by
  match i, j with
  | 0, 0 | 1, 1 | 2, 2 | 3, 3 => exact absurd rfl h
  | 0, 1 | 0, 2 | 0, 3 | 1, 0 | 1, 2 | 1, 3 | 2, 0 | 2, 1 | 2, 3 | 3, 0 | 3, 1 | 3, 2 => rfl

@[simp] theorem Four.get_map {α β : Type} (g : α → β) (f : Four α) (i : Fin 4) :
    (f.map g).get i = g (f.get i) := by
  match i with
  | 0 | 1 | 2 | 3 => rfl

@[simp] theorem Four.get_all4 {α : Type} (x : α) (i : Fin 4) : (Four.all4 x).get i = x := by
  match i with
  | 0 | 1 | 2 | 3 => rfl

@[simp] theorem State.setAxis_axis_same (s : State) (a : Fin 4) (r : AxisRecord) :
    (s.setAxis a r).axis a = r := by simp [State.setAxis, State.axis]

theorem State.setAxis_axis_other (s : State) (a b : Fin 4) (r : AxisRecord) (h : b ≠ a) :
    (s.setAxis a r).axis b = s.axis b := by
  simp [State.setAxis, State.axis, Four.get_set_other _ _ _ _ h]

@[simp] theorem State.setDriveAxis_same (s : State) (a : Fin 4) (d : DriveAxis) :
    (s.setDriveAxis a d).driveAxis a = d := by simp [State.setDriveAxis, State.driveAxis]

theorem State.setDriveAxis_other (s : State) (a b : Fin 4) (d : DriveAxis) (h : b ≠ a) :
    (s.setDriveAxis a d).driveAxis b = s.driveAxis b := by
  simp [State.setDriveAxis, State.driveAxis, Four.get_set_other _ _ _ _ h]

end Sys2Proof.Machine
end

