-- ==== Sys2Proof/Laws/Frames.lean ====
section
/-! SUPPORT. The frame relations compose, and what each of the shared operations may change: the outputs
and queues (`RingOnly`), originated frames and answers (`QueueOnly`), the levels and fault reports
(`LevelOnly`). -/

namespace Sys2Proof.Machine

/-! ## The relations compose -/

theorem SameSide.refl (x : Port) : SameSide x x := ⟨rfl, rfl, rfl, rfl, rfl, rfl, rfl, rfl⟩

theorem SameSide.trans {x y z : Port} (h : SameSide x y) (k : SameSide y z) : SameSide x z :=
  ⟨k.light.trans h.light, k.rx.trans h.rx, k.fillRun.trans h.fillRun, k.breakRun.trans h.breakRun,
   k.invalid.trans h.invalid, k.skipping.trans h.skipping, k.side.trans h.side,
   k.hold.trans h.hold⟩

theorem SameRing.refl (s : State) : SameRing s s := ⟨.refl _, .refl _, rfl, rfl, rfl⟩

theorem SameRing.trans {s t u : State} (h : SameRing s t) (k : SameRing t u) : SameRing s u :=
  ⟨h.sideA.trans k.sideA, h.sideB.trans k.sideB, k.role.trans h.role, k.tap.trans h.tap,
   k.clash.trans h.clash⟩

theorem SameRing.side {s t : State} (h : SameRing s t) (p : PortId) :
    SameSide (s.port p) (t.port p) := by
  cases p with
  | a => exact h.sideA
  | b => exact h.sideB

theorem SameMoment.refl (s : State) : SameMoment s s := ⟨rfl, rfl, rfl, rfl, rfl⟩

theorem SameMoment.trans {s t u : State} (h : SameMoment s t) (k : SameMoment t u) :
    SameMoment s u :=
  ⟨k.pending.trans h.pending, k.clock.trans h.clock, k.ready.trans h.ready,
   k.serial.trans h.serial, k.strap.trans h.strap⟩

theorem SameControl.refl (s : State) : SameControl s s := ⟨rfl, rfl, rfl, rfl, rfl, rfl, rfl⟩

theorem SameControl.trans {s t u : State} (h : SameControl s t) (k : SameControl t u) :
    SameControl s u :=
  ⟨k.gen.trans h.gen, k.ctx.trans h.ctx, k.axes.trans h.axes, k.drive.trans h.drive,
   k.image.trans h.image, k.trip.trans h.trip, k.screen.trans h.screen⟩

theorem RingOnly.refl (s : State) : RingOnly s s := ⟨.refl s, .refl s, .refl s, rfl⟩

theorem RingOnly.trans {s t u : State} (h : RingOnly s t) (k : RingOnly t u) : RingOnly s u :=
  ⟨h.moment.trans k.moment, h.ring.trans k.ring, h.control.trans k.control,
   k.station.trans h.station⟩

theorem QueueOnly.refl (s : State) : QueueOnly s s := ⟨.refl s, .refl s, .refl s, rfl, rfl⟩

theorem QueueOnly.trans {s t u : State} (h : QueueOnly s t) (k : QueueOnly t u) :
    QueueOnly s u :=
  ⟨h.moment.trans k.moment, h.ring.trans k.ring, h.control.trans k.control,
   k.address.trans h.address, k.cfg.trans h.cfg⟩

theorem RingOnly.queue {s t : State} (h : RingOnly s t) : QueueOnly s t :=
  ⟨h.moment, h.ring, h.control, by rw [h.station], by rw [h.station]⟩

theorem LevelOnly.refl (s : State) : LevelOnly s s :=
  ⟨.refl s, .refl s, rfl, rfl, rfl, rfl, rfl, rfl, rfl, rfl, rfl⟩

theorem LevelOnly.trans {s t u : State} (h : LevelOnly s t) (k : LevelOnly t u) :
    LevelOnly s u where
  moment := h.moment.trans k.moment
  ring := h.ring.trans k.ring
  gen := by rw [k.gen, h.gen]
  ctx := k.ctx.trans h.ctx
  counters := k.counters.trans h.counters
  drive := k.drive.trans h.drive
  image := k.image.trans h.image
  trip := by rw [k.trip, h.trip]
  panel := k.panel.trans h.panel
  store := k.store.trans h.store
  station := by rw [k.station, h.station]

/-- An operation on queues that leaves all of Station Control but its sequence counter alone. -/
theorem LevelOnly.of_control {s t : State} (m : SameMoment s t) (r : SameRing s t)
    (c : SameControl s t) (st : t.station = { s.station with seq := t.station.seq }) :
    LevelOnly s t :=
  ⟨m, r, by rw [c.gen], c.ctx, by rw [c.axes], c.drive, c.image, by rw [c.trip], by rw [c.screen],
   by rw [c.screen], st⟩

theorem RingOnly.level {s t : State} (h : RingOnly s t) : LevelOnly s t :=
  .of_control h.moment h.ring h.control (by rw [h.station])

/-! ## Single updates -/

/-- A change of the Ring Switch's queues and counters. -/
theorem ringOnly_setSw (s : State) (w : Switch) (hr : w.role = s.sw.role := by rfl)
    (ht : w.tap = s.sw.tap := by rfl) (hc : w.clash = s.sw.clash := by rfl) :
    RingOnly s (s.setSw w) :=
  ⟨⟨rfl, rfl, rfl, rfl, rfl⟩, ⟨.refl _, .refl _, hr, ht, hc⟩, ⟨rfl, rfl, rfl, rfl, rfl, rfl, rfl⟩,
   rfl⟩

/-- A change of a port that leaves its receive side alone. -/
theorem ringOnly_setPort (s : State) (p : PortId) (x : Port)
    (h : SameSide (s.port p) x := by exact ⟨rfl, rfl, rfl, rfl, rfl, rfl, rfl, rfl⟩) :
    RingOnly s (s.setPort p x) := by
  cases p with
  | a => exact ⟨⟨rfl, rfl, rfl, rfl, rfl⟩, ⟨h, .refl _, rfl, rfl, rfl⟩,
      ⟨rfl, rfl, rfl, rfl, rfl, rfl, rfl⟩, rfl⟩
  | b => exact ⟨⟨rfl, rfl, rfl, rfl, rfl⟩, ⟨.refl _, h, rfl, rfl, rfl⟩,
      ⟨rfl, rfl, rfl, rfl, rfl, rfl, rfl⟩, rfl⟩

theorem ringOnly_countPort (s : State) (p : PortId) (f : PortCounters → PortCounters) :
    RingOnly s (s.countPort p f) :=
  ringOnly_setPort s p _

theorem ringOnly_countSw (s : State) (f : SwitchCounters → SwitchCounters) :
    RingOnly s (s.countSw f) := ringOnly_setSw s _

/-- A change of Station Control that keeps its address and its record. -/
theorem queueOnly_setStation (s : State) (x : StationCtl) (ha : x.address = s.station.address)
    (hc : x.cfg = s.station.cfg) : QueueOnly s (s.setStation x) :=
  ⟨⟨rfl, rfl, rfl, rfl, rfl⟩, ⟨.refl _, .refl _, rfl, rfl, rfl⟩, ⟨rfl, rfl, rfl, rfl, rfl, rfl, rfl⟩, ha, hc⟩

/-! ## Outputs and queues -/

theorem switch_pickLocal_same {w v : Switch} {i : QItem} (h : w.pickLocal = some (i, v)) :
    v.role = w.role ∧ v.tap = w.tap ∧ v.clash = w.clash := by
  unfold Switch.pickLocal at h
  split at h <;> simp only [Option.some.injEq, Prod.mk.injEq, reduceCtorEq] at h <;>
    obtain ⟨-, rfl⟩ := h <;> exact ⟨rfl, rfl, rfl⟩

theorem switch_pickTransit_same {w v : Switch} {i : QItem} (h : w.pickTransit = some (i, v)) :
    v.role = w.role ∧ v.tap = w.tap ∧ v.clash = w.clash := by
  unfold Switch.pickTransit at h
  split at h
  · split at h
    · simp only [Option.some.injEq, Prod.mk.injEq] at h; obtain ⟨-, rfl⟩ := h; exact ⟨rfl, rfl, rfl⟩
    · cases h
  · exact switch_pickLocal_same h

/-- The arbiter's choice takes an item out of a queue and changes nothing else of the Ring Switch. -/
theorem switch_pick_same {w v : Switch} {i : QItem} (h : w.pick = some (i, v)) :
    v.role = w.role ∧ v.tap = w.tap ∧ v.clash = w.clash := by
  unfold Switch.pick at h
  split at h
  · split at h
    · simp only [Option.some.injEq, Prod.mk.injEq] at h; obtain ⟨-, rfl⟩ := h; exact ⟨rfl, rfl, rfl⟩
    · exact switch_pickTransit_same h
  · exact switch_pickTransit_same h

theorem markPicked_ring (s : State) (i : QItem) : RingOnly s (markPicked s i) := by
  unfold markPicked
  split
  · split
    · exact ringOnly_setPort s _ _
    · exact .refl s
  · exact .refl s

theorem startTx_ring (s : State) (p : PortId) (i : QItem) : RingOnly s (startTx s p i) :=
  (markPicked_ring s i).trans
    (ringOnly_setPort _ p _)

theorem drainIsolated_ring (n : Nat) (s : State) : RingOnly s (drainIsolated n s) := by
  induction n generalizing s with
  | zero => exact .refl s
  | succ n ih =>
    simp only [drainIsolated]
    split
    · rename_i i w h
      obtain ⟨hr, ht, hc⟩ := switch_pick_same h
      exact (ringOnly_setSw s w hr ht hc).trans <| (markPicked_ring _ i).trans <|
        (ringOnly_countSw _ _).trans (ih _)
    · exact .refl s

theorem arbitrateForward_ring (s : State) : RingOnly s (arbitrateForward s) := by
  unfold arbitrateForward
  split
  · exact drainIsolated_ring _ s
  · split
    · split
      · rename_i i w h
        obtain ⟨hr, ht, hc⟩ := switch_pick_same h
        exact (ringOnly_setSw s w hr ht hc).trans (startTx_ring _ _ i)
      · exact .refl s
    · exact .refl s

theorem arbitrateCounter_ring (s : State) : RingOnly s (arbitrateCounter s) := by
  unfold arbitrateCounter
  split
  · split
    · split
      · exact (ringOnly_setSw s _).trans (startTx_ring _ _ _)
      · exact .refl s
    · exact .refl s
  · exact .refl s

/-- The outputs' choices touch only queues and frames being sent. -/
theorem arbitrate_ring (s : State) : RingOnly s (arbitrate s) :=
  (arbitrateForward_ring s).trans (arbitrateCounter_ring _)

theorem abortTx_ring (s : State) (p : PortId) : RingOnly s (abortTx s p) := by
  unfold abortTx
  split
  · split
    · exact .refl s
    · exact (ringOnly_setPort s p _).trans
        (ringOnly_countPort _ p _)
  · exact .refl s

theorem abortCopyOn_ring (s : State) (q p : PortId) : RingOnly s (abortCopyOn s q p) := by
  unfold abortCopyOn
  split
  · split
    · exact abortTx_ring s p
    · exact .refl s
  · exact .refl s

theorem settleDrop_ring (s : State) (q : PortId) : RingOnly s (settleDrop s q) :=
  RingOnly.trans (ringOnly_setSw s { s.sw with
    urgent := s.sw.urgent.filter fun i => !i.reservedFor q,
    transit := s.sw.transit.filter fun i => !i.reservedFor q,
    counter := s.sw.counter.filter fun i => !i.reservedFor q }) <|
    (abortCopyOn_ring _ q .a).trans <| (abortCopyOn_ring _ q .b).trans (arbitrate_ring _)

theorem completeCopyOn_ring (s : State) (q p : PortId) (f : Frame) :
    RingOnly s (completeCopyOn s q p f) := by
  unfold completeCopyOn
  split
  · split
    · exact ringOnly_setPort s p _
    · exact .refl s
  · exact .refl s

theorem placeTransit_ring (s : State) (f : Frame) : RingOnly s (placeTransit s f) := by
  unfold placeTransit
  simp only
  split
  · exact (ringOnly_setSw s _).trans (arbitrate_ring _)
  · exact ringOnly_countSw s _

theorem placeCounter_ring (s : State) (f : Frame) : RingOnly s (placeCounter s f) := by
  unfold placeCounter
  simp only
  split
  · exact (ringOnly_setSw s _).trans (arbitrate_ring _)
  · exact ringOnly_countSw s _

theorem settleCounter_ring (s : State) (q : PortId) (f : Frame) :
    RingOnly s (settleCounter s q f) := by
  unfold settleCounter
  split
  · exact (ringOnly_setSw s _).trans (arbitrate_ring _)
  · exact (completeCopyOn_ring s q .a f).trans (completeCopyOn_ring _ q .b f)
  · exact placeCounter_ring s f

/-! ## Originated frames -/

theorem countUrgentDrop_level (s : State) : LevelOnly s (countUrgentDrop s) :=
  (ringOnly_countSw s _).level

/-- Advancing the sequence counter changes nothing else. -/
theorem nextSeq_level (s : State) : LevelOnly s s.nextSeq :=
  .of_control ⟨rfl, rfl, rfl, rfl, rfl⟩ ⟨.refl _, .refl _, rfl, rfl, rfl⟩ ⟨rfl, rfl, rfl, rfl, rfl, rfl, rfl⟩ rfl

theorem nextSeq_queue (s : State) : QueueOnly s s.nextSeq := queueOnly_setStation s _ rfl rfl

theorem setLocalQ_same (w : Switch) (cls : FrameClass) (q : List QItem) :
    (w.setLocalQ cls q).role = w.role ∧ (w.setLocalQ cls q).tap = w.tap ∧
    (w.setLocalQ cls q).clash = w.clash := by cases cls <;> exact ⟨rfl, rfl, rfl⟩

/-- An originated frame changes queues, frames being sent, drop counters and the sequence counter. -/
theorem insertLocal_level (s : State) (cls : FrameClass) (stream dest len : Nat) (b : Body) :
    LevelOnly s (insertLocal s cls stream dest len b) := by
  unfold insertLocal
  split
  · obtain ⟨hr, ht, hc⟩ := setLocalQ_same s.sw cls
      (s.sw.localQ cls ++ [ownItem s cls stream dest len b])
    exact (ringOnly_setSw s _ hr ht hc).level.trans <|
      (nextSeq_level _).trans (arbitrate_ring _).level
  · exact (ringOnly_countSw s _).level

theorem insertLocal_queue (s : State) (cls : FrameClass) (stream dest len : Nat) (b : Body) :
    QueueOnly s (insertLocal s cls stream dest len b) := by
  unfold insertLocal
  split
  · obtain ⟨hr, ht, hc⟩ := setLocalQ_same s.sw cls
      (s.sw.localQ cls ++ [ownItem s cls stream dest len b])
    exact (ringOnly_setSw s _ hr ht hc).queue.trans <|
      (nextSeq_queue _).trans (arbitrate_ring _).queue
  · exact (ringOnly_countSw s _).queue

theorem queueTrip_level (s : State) (stream : Nat) (b : TripBody) :
    LevelOnly s (queueTrip s stream b).1 := by
  unfold queueTrip
  split
  · refine LevelOnly.trans ?_ (arbitrate_ring _).level
    exact ⟨⟨rfl, rfl, rfl, rfl, rfl⟩, ⟨.refl _, .refl _, rfl, rfl, rfl⟩, rfl, rfl, rfl, rfl, rfl, rfl,
      rfl, rfl, rfl⟩
  · exact countUrgentDrop_level s

theorem queueCycle_level (s : State) (stream : Nat) (c : CycleBody) :
    LevelOnly s (queueCycle s stream c).1 := by
  have key (w : Switch) (hr : w.role = s.sw.role) (ht : w.tap = s.sw.tap)
      (hc : w.clash = s.sw.clash) : LevelOnly s (s.setSw w).nextSeq :=
    (ringOnly_setSw s w hr ht hc).level.trans (nextSeq_level _)
  have sent (u : State) (f : SwitchCounters → SwitchCounters) :
      LevelOnly u (arbitrate (u.countSw f)) :=
    (ringOnly_countSw u f).level.trans (arbitrate_ring _).level
  unfold queueCycle
  simp only
  split
  · dsimp only
    refine (key _ ?_ ?_ ?_).trans (sent _ _) <;> rfl
  · split
    · dsimp only
      refine (key _ ?_ ?_ ?_).trans (arbitrate_ring _).level <;> rfl
    · exact countUrgentDrop_level s

theorem deliverPort_queue (s : State) (f : Frame) : QueueOnly s (deliverPort s f) := by
  unfold deliverPort
  split
  · exact queueOnly_setStation s _ rfl rfl
  · exact queueOnly_setStation s _ rfl rfl

/-! ## The Screen Unit's own changes -/

theorem arbitrate_panel (u : ScreenUnit) :
    u.arbitrate.panel = u.panel ∧ u.arbitrate.store = u.store := by
  unfold ScreenUnit.arbitrate
  split
  · exact ⟨rfl, rfl⟩
  · split
    · exact ⟨rfl, rfl⟩
    · split <;> exact ⟨rfl, rfl⟩

theorem startUnlessClear_panel (u : ScreenUnit) (j : BannerJob) :
    (u.startUnlessClear j).panel = u.panel ∧ (u.startUnlessClear j).store = u.store := by
  unfold ScreenUnit.startUnlessClear
  split <;> exact ⟨rfl, rfl⟩

theorem markRemoved_panel (u : ScreenUnit) (ws : List TileWrite) :
    (u.markRemoved ws).panel = u.panel ∧ (u.markRemoved ws).store = u.store := by
  unfold ScreenUnit.markRemoved
  generalize hf : (fun (v : ScreenUnit) (w : TileWrite) => if w.stream.isSome then
    v.updateTile (w.row * u.panel.width + w.col) fun e => { e with stale := true } else v) = f
  have key : ∀ (v : ScreenUnit) w, (f v w).panel = v.panel ∧ (f v w).store = v.store := by
    intro v w; subst hf; simp only; split <;> exact ⟨rfl, rfl⟩
  clear hf
  have : ∀ v : ScreenUnit, (ws.foldl f v).panel = v.panel ∧ (ws.foldl f v).store = v.store := by
    induction ws with
    | nil => exact fun v => ⟨rfl, rfl⟩
    | cons w ws ih => exact fun v => ⟨(ih _).1.trans (key v w).1, (ih _).2.trans (key v w).2⟩
  exact this u

theorem setScreen_level (s : State) (u : ScreenUnit)
    (h : u.panel = s.screen.panel ∧ u.store = s.screen.store) : LevelOnly s (s.setScreen u) :=
  ⟨⟨rfl, rfl, rfl, rfl, rfl⟩, ⟨.refl _, .refl _, rfl, rfl, rfl⟩, rfl, rfl, rfl, rfl, rfl, rfl, h.1, h.2, rfl⟩

theorem sendNotice_level (s : State) (e : ScreenStream) : LevelOnly s (sendNotice s e) := by
  unfold sendNotice
  split
  · exact .refl s
  · exact insertLocal_level s _ _ _ _ _

/-- A fold of operations each within `LevelOnly` is within it. -/
theorem levelOnly_foldl {α : Type} (f : State → α → State) (h : ∀ s x, LevelOnly s (f s x))
    (l : List α) (s : State) : LevelOnly s (l.foldl f s) := by
  induction l generalizing s with
  | nil => exact .refl s
  | cons x l ih => exact (h s x).trans (ih _)

theorem sendNotices_level (s : State) : LevelOnly s (sendNotices s) := by
  unfold sendNotices
  split
  · exact .refl s
  · exact levelOnly_foldl sendNotice sendNotice_level _ s

theorem raiseBanner_panel (u : ScreenUnit) (l : Level) :
    (u.raiseBanner l).panel = u.panel ∧ (u.raiseBanner l).store = u.store := by
  unfold ScreenUnit.raiseBanner
  simp only
  refine ⟨?_, ?_⟩
  · rw [(arbitrate_panel _).1, (startUnlessClear_panel _ _).1, (markRemoved_panel _ _).1]
  · rw [(arbitrate_panel _).2, (startUnlessClear_panel _ _).2, (markRemoved_panel _ _).2]

theorem withdrawBanner_panel (u : ScreenUnit) :
    u.withdrawBanner.panel = u.panel ∧ u.withdrawBanner.store = u.store := by
  unfold ScreenUnit.withdrawBanner
  simp only
  refine ⟨?_, ?_⟩
  · rw [(arbitrate_panel _).1, (startUnlessClear_panel _ _).1]; rfl
  · rw [(arbitrate_panel _).2, (startUnlessClear_panel _ _).2]; rfl

theorem screenLevel_level (old new : Level) (s : State) : LevelOnly s (screenLevel old new s) := by
  unfold screenLevel
  split
  · exact .refl s
  · split
    · exact setScreen_level s _ (raiseBanner_panel _ _)
    · split
      · exact (setScreen_level s _ (withdrawBanner_panel _)).trans (sendNotices_level _)
      · refine setScreen_level s _ ⟨?_, ?_⟩
        · rw [(arbitrate_panel _).1, (startUnlessClear_panel _ _).1]
        · rw [(arbitrate_panel _).2, (startUnlessClear_panel _ _).2]

/-! ## Levels and fault reports -/

theorem settle_gen (g : Generator) : g.settle = { g with state := g.settle.state } := rfl

/-- A level change alters the generator's speed, target, limit and state alone. -/
theorem generator_level_same (old new : Level) (g : Generator) :
    g.level old new = { g with
      speed := (g.level old new).speed, target := (g.level old new).target,
      limit := (g.level old new).limit, state := (g.level old new).state } := by
  unfold Generator.level Generator.settle
  repeat' split
  all_goals rfl

theorem settleStop_ctr (t : AxisTable) : t.settleStop.ctr = t.ctr := by
  unfold AxisTable.settleStop; split <;> rfl

theorem startStop_ctr (d : Nat) (t : AxisTable) : (t.startStop d).ctr = t.ctr := by
  unfold AxisTable.startStop; split <;> rfl

theorem off_ctr (t : AxisTable) : t.off.ctr = t.ctr := settleStop_ctr _

theorem axes_level_ctr (old new : Level) (d : Nat) (t : AxisTable) :
    (t.level old new d).ctr = t.ctr := by
  unfold AxisTable.level
  simp only
  split <;> split <;> simp [off_ctr, startStop_ctr]

theorem motionLevel_level (old new : Level) (s : State) : LevelOnly s (motionLevel old new s) :=
  ⟨⟨rfl, rfl, rfl, rfl, rfl⟩, ⟨.refl _, .refl _, rfl, rfl, rfl⟩, generator_level_same old new s.gen, rfl,
   axes_level_ctr _ _ _ _, rfl, rfl, rfl, rfl, rfl, rfl⟩

/-- A change of the Trip Unit's tree, levels, output and counters. -/
theorem setTrip_level (s : State) (t : TripUnit)
    (h : t = { s.trip with tree := t.tree, levels := t.levels, tripOut := t.tripOut, ctr := t.ctr }) :
    LevelOnly s (s.setTrip t) :=
  ⟨⟨rfl, rfl, rfl, rfl, rfl⟩, ⟨.refl _, .refl _, rfl, rfl, rfl⟩, rfl, rfl, rfl, rfl, rfl, h, rfl, rfl, rfl⟩

theorem levelChange_level (old new : Level) (s : State) : LevelOnly s (levelChange old new s) := by
  unfold levelChange
  split
  · exact .refl s
  · exact (motionLevel_level old new s).trans <| (setTrip_level _ _ rfl).trans
      (screenLevel_level old new _)

theorem originateTrip_level (r : Bool) (s : State) : LevelOnly s (originateTrip r s).1 := by
  unfold originateTrip
  split
  · exact queueTrip_level s _ _
  · exact .refl s

theorem recomputeOnce_level (s : State) : LevelOnly s (recomputeOnce s).1 := by
  unfold recomputeOnce
  simp only
  split
  · exact (setTrip_level s _ rfl).trans (levelChange_level _ _ _)
  · exact (setTrip_level s _ rfl).trans <| (levelChange_level _ _ _).trans
      (originateTrip_level _ _)

theorem reportCongestion_level (s : State) : LevelOnly s (reportCongestion s) := by
  unfold reportCongestion
  split
  · exact .refl s
  · exact (setTrip_level s _ rfl).trans (recomputeOnce_level _)

theorem afterQueue_level (r : State × Bool) : LevelOnly r.1 (afterQueue r) := by
  unfold afterQueue
  split
  · exact reportCongestion_level _
  · exact .refl _

/-- All that a recomputation of the levels may change (R156). -/
theorem recompute_level (s : State) : LevelOnly s (recompute s) :=
  (recomputeOnce_level s).trans (afterQueue_level _)

theorem sendTrip_level (r : Bool) (s : State) : LevelOnly s (sendTrip r s) :=
  (originateTrip_level r s).trans (afterQueue_level _)

theorem offOne_ctr (a : Fin 4) (t : AxisTable) : (t.offOne a).ctr = t.ctr := settleStop_ctr _

theorem setAxes_level (s : State) (t : AxisTable) (h : t.ctr = s.axes.ctr) :
    LevelOnly s (s.setAxes t) :=
  ⟨⟨rfl, rfl, rfl, rfl, rfl⟩, ⟨.refl _, .refl _, rfl, rfl, rfl⟩, rfl, rfl, h, rfl, rfl, rfl, rfl, rfl, rfl⟩

theorem axisFault_level (f : FaultId) (s : State) : LevelOnly s (axisFault f s) := by
  unfold axisFault
  split
  · exact setAxes_level s _ (offOne_ctr _ _)
  · exact setAxes_level s _ (offOne_ctr _ _)
  · split
    · exact setAxes_level s _ (offOne_ctr _ _)
    · exact .refl s
  · exact .refl s

/-- All that a fault report may change (R150). -/
theorem report_level (f : FaultId) (s : State) : LevelOnly s (report f s) := by
  unfold report
  split
  · exact .refl s
  · exact (setTrip_level s _ rfl).trans <| (axisFault_level f _).trans (recompute_level _)

/-- All that a change of a condition may change (R150). -/
theorem setCondition_level (f : FaultId) (b : Bool) (s : State) :
    LevelOnly s (setCondition f b s) := by
  unfold setCondition
  simp only
  split
  · exact (setTrip_level s _ rfl).trans (report_level f _)
  · exact setTrip_level s _ rfl

/-- A condition that ends latches nothing and changes no level (R150). -/
theorem setCondition_false (f : FaultId) (s : State) :
    setCondition f false s = s.setTrip (s.trip.setCond f false) := rfl

/-- A report of a fault that is latched changes nothing (R150). -/
theorem report_latched (f : FaultId) (s : State) (h : s.trip.isLatched f = true) :
    report f s = s := by simp [report, h]

/-! ## Station Control -/

theorem answerPort_queue (cmd : MgmtCmd) (tag : BitVec 16) (a : Answer) (s : State) :
    QueueOnly s (answerPort cmd tag a s) := deliverPort_queue s _

theorem respond_queue (e : Envelope) (cmd : MgmtCmd) (a : Answer) (s : State) :
    QueueOnly s (respond e cmd a s) := by
  unfold respond
  split
  · exact insertLocal_queue s _ _ _ _ _
  · exact .refl s
  · exact answerPort_queue cmd _ a s

theorem countStation_queue (s : State) (f : StationCounters → StationCounters) :
    QueueOnly s (s.countStation f) := queueOnly_setStation s _ rfl rfl

theorem countRefused_queue (e : Envelope) (r : Resp) (s : State) :
    QueueOnly s (countRefused e r s) := by
  unfold countRefused
  split
  · exact countStation_queue s _
  · exact .refl s

/-- A command that fails checks 1 to 3 changes queues and counters alone (R184). -/
theorem refuse_queue (e : Envelope) (cmd : MgmtCmd) (r : Resp) (s : State) :
    QueueOnly s (refuse e cmd r s) :=
  (countRefused_queue e r s).trans (respond_queue e cmd _ _)

theorem countTaken_queue (s : State) : QueueOnly s (countTaken s) := countStation_queue s _

/-- The restart of the management timers ends both conditions and latches nothing (R191). -/
theorem restartTimers_eq (s : State) :
    restartTimers s = (s.setStation { s.station with
      shortTimer := timerFrom s.clock s.station.cfg.shortTimeout,
      longTimer := timerFrom s.clock s.station.cfg.longTimeout }).setTrip
      ((s.trip.setCond .mgmtSilent false).setCond .mgmtLost false) := rfl

/-- A command taken at a station with an address, its parameters well formed, and not a broadcast that is
not executed: COMMANDS_TAKEN, the command's effects, the timers, the response (R184). -/
theorem stationCommand_taken (e : Envelope) (cmd : MgmtCmd) (wf fb : Bool)
    (run : State → State × Answer) (s : State) (ha : s.station.address ≠ 0)
    (hl : e.lengthOk = true) (hw : wf = true) (hb : e.via = .broadcast → fb = true) :
    stationCommand e cmd wf fb run s =
      respond e cmd (run (countTaken s)).2 (restartTimers
        (countRefused e (run (countTaken s)).2.status (run (countTaken s)).1)) := by
  simp only [stationCommand, ha, hl, hw, Bool.and_self, Bool.not_true, if_false]
  by_cases h : e.via = .broadcast
  · simp [hb h]
  · simp [h]

end Sys2Proof.Machine
end

