-- ==== Sys2Proof/Laws/Control.lean ====
section
/-! SUPPORT. What the outputs' choices do to the counters of the Ring Switch, what an originated frame does
to the sequence counter, and the whole course of a management command that is taken (`Answered`). -/

namespace Sys2Proof.Machine

/-! ## Counters of the Ring Switch -/

/-- Two sets of counters that differ in ISOLATED_DISCARD at most. -/
def SameButIsolated (x y : SwitchCounters) : Prop :=
  y = { x with isolatedDiscard := y.isolatedDiscard }

theorem SameButIsolated.trans {x y z : SwitchCounters} (h : SameButIsolated x y)
    (k : SameButIsolated y z) : SameButIsolated x z := by
  unfold SameButIsolated at *
  rw [k, h]

theorem pickLocal_ctr {w v : Switch} {i : QItem} (h : w.pickLocal = some (i, v)) :
    v.ctr = w.ctr := by
  unfold Switch.pickLocal at h
  split at h <;> simp only [Option.some.injEq, Prod.mk.injEq, reduceCtorEq] at h <;>
    obtain ⟨-, rfl⟩ := h <;> rfl

theorem pickTransit_ctr {w v : Switch} {i : QItem} (h : w.pickTransit = some (i, v)) :
    v.ctr = w.ctr := by
  unfold Switch.pickTransit at h
  split at h
  · split at h
    · simp only [Option.some.injEq, Prod.mk.injEq] at h; obtain ⟨-, rfl⟩ := h; rfl
    · cases h
  · exact pickLocal_ctr h

theorem pick_ctr {w v : Switch} {i : QItem} (h : w.pick = some (i, v)) : v.ctr = w.ctr := by
  unfold Switch.pick at h
  split at h
  · split at h
    · simp only [Option.some.injEq, Prod.mk.injEq] at h; obtain ⟨-, rfl⟩ := h; rfl
    · exact pickTransit_ctr h
  · exact pickTransit_ctr h

theorem markPicked_sw (s : State) (i : QItem) : (markPicked s i).sw = s.sw := by
  unfold markPicked
  split
  · split <;> simp
  · rfl

theorem startTx_sw (s : State) (p : PortId) (i : QItem) : (startTx s p i).sw = s.sw := by
  simp [startTx, markPicked_sw]

theorem drainIsolated_ctr (n : Nat) (s : State) :
    SameButIsolated s.sw.ctr (drainIsolated n s).sw.ctr := by
  induction n generalizing s with
  | zero => rfl
  | succ n ih =>
    simp only [drainIsolated]
    split
    · rename_i i w h
      refine SameButIsolated.trans ?_ (ih _)
      simp [SameButIsolated, markPicked_sw, pick_ctr h]
    · rfl

/-- The outputs' choices count ISOLATED_DISCARD and nothing else (R54). -/
theorem arbitrate_ctr (s : State) : SameButIsolated s.sw.ctr (arbitrate s).sw.ctr := by
  unfold arbitrate
  refine SameButIsolated.trans (y := (arbitrateForward s).sw.ctr) ?_ ?_
  · unfold arbitrateForward
    split
    · exact drainIsolated_ctr _ s
    · split
      · split
        · rename_i i w h
          rw [startTx_sw]; simp [SameButIsolated, pick_ctr h]
        · rfl
      · rfl
  · generalize arbitrateForward s = t
    unfold arbitrateCounter
    split
    · split
      · split
        · rw [startTx_sw]; rfl
        · rfl
      · rfl
    · rfl

/-! ## Originated frames -/

/-- A frame that finds room in its local insert queue takes the next sequence number (R7, R40). -/
theorem insertLocal_room (s : State) (cls : FrameClass) (stream dest len : Nat) (b : Body)
    (wire : Option (List Byte)) (h : (s.sw.localQ cls).length < Config.localCap) :
    (insertLocal s cls stream dest len b wire).station =
      { s.station with seq := s.station.seq + 1 } ∧
    SameButIsolated s.sw.ctr (insertLocal s cls stream dest len b wire).sw.ctr := by
  simp only [insertLocal, h, if_true]
  refine ⟨?_, SameButIsolated.trans ?_ (arbitrate_ctr _)⟩
  · rw [(arbitrate_ring _).station]; rfl
  · cases cls <;> rfl

/-- A frame that finds its local insert queue full is counted and lost (R40). -/
theorem insertLocal_full (s : State) (cls : FrameClass) (stream dest len : Nat) (b : Body)
    (wire : Option (List Byte)) (h : ¬ (s.sw.localQ cls).length < Config.localCap) :
    insertLocal s cls stream dest len b wire = s.countSw (dropLocal cls) := by
  simp [insertLocal, h]

/-- Busy outputs make no choice, whatever else of the state changes (R43, R51). -/
theorem arbitrate_busy {s : State} (h : OutputsBusy s) : arbitrate s = s := by
  obtain ⟨hc, p, hp, hb⟩ := h
  have hf : arbitrateForward s = s := by
    unfold arbitrateForward
    rw [hp]
    dsimp only
    rw [if_neg]
    rintro ⟨h1, h2⟩
    rcases hb with hb | hb
    · exact hb h1
    · simp [Port.fillMode, hb] at h2
  unfold arbitrate
  rw [hf]
  unfold arbitrateCounter
  split
  · rename_i h
    obtain ⟨h1, h2, h3⟩ := h
    rcases hc with hc | hc | hc | hc
    · rw [hc]
    · exact absurd h1 hc
    · exact absurd h2 hc
    · simp [Port.fillMode, hc] at h3
  · rfl

/-- A still forward output leaves the state as it is (R42, R43). -/
theorem arbitrateForward_still {u : State} (h : ForwardStill u) : arbitrateForward u = u := by
  obtain ⟨p, hp, h⟩ := h
  unfold arbitrateForward
  rw [hp]
  rcases h with h | h | h
  · simp [h]
  · simp [Port.fillMode, h]
  · simp [h]

/-- A still counter-path output leaves the state as it is (R51). -/
theorem arbitrateCounter_still {u : State} (h : CounterStill u) : arbitrateCounter u = u := by
  unfold arbitrateCounter
  rcases h with h | h | h | h
  · simp [h]
  · simp [h]
  · simp [Port.fillMode, h]
  · split
    · split
      · rename_i i q hq
        have := h i (by simp [hq])
        simp [this]
      · rfl
    · rfl

/-- What a port sends once an output has taken an item is `State.sends` (R34, R42). -/
theorem startTx_sends (u : State) (p : PortId) (i : QItem) (w : Switch) :
    startTx (u.setSw w) p i = u.sends p i w := by
  unfold startTx State.sends sentTx markPicked departHeader
  cases hi : i.origin with
  | own | passing =>
    cases p <;>
      simp [frameSymbols, State.linkDelay, checkOf, Config.ageMax, State.setPort, State.setSw]
  | reserved q =>
    cases q <;> cases p <;>
      (simp only [frameSymbols, State.linkDelay, checkOf, Config.ageMax, State.setPort,
        State.setSw, State.port]
       split <;> simp_all)
    all_goals
      rename_i h
      rw [← h]

/-- A frame that finds room waits at the tail of its local insert queue while the outputs are busy (R40). -/
theorem insertLocal_busy {s : State} (h : OutputsBusy s) (cls : FrameClass) (stream dest len : Nat)
    (b : Body) (wire : Option (List Byte)) (hr : (s.sw.localQ cls).length < Config.localCap) :
    insertLocal s cls stream dest len b wire =
      (s.setSw (s.sw.setLocalQ cls
        (s.sw.localQ cls ++ [ownItem s cls stream dest len b wire]))).nextSeq := by
  simp only [insertLocal, hr, if_true]
  rw [arbitrate_busy]
  · obtain ⟨hc, p, hp, hb⟩ := h
    refine ⟨?_, p, ?_, ?_⟩
    · cases cls <;> exact hc
    · cases cls <;> exact hp
    · cases p <;> exact hb

/-! ## The course of a command -/

/-- What `respond` changes in Station Control. -/
theorem respond_station (e : Envelope) (cmd : MgmtCmd) (ans : Answer) (u : State) :
    let t := respond e cmd ans u
    t.station = { u.station with
      seq := t.station.seq, recvQ := t.station.recvQ,
      ctr := { u.station.ctr with portDrop := t.station.ctr.portDrop } } := by
  unfold respond
  cases e.via with
  | ring src =>
    dsimp only
    rw [(insertLocal_level u .m 0 src (responseLen ans.data)
      (responseBody cmd e.hostTag ans false)).station]
  | broadcast => rfl
  | port =>
    dsimp only
    unfold answerPort deliverPort
    split <;> simp [State.countStation]

/-- `deliverPort` is `State.received` (R33). -/
theorem deliverPort_received (u : State) (f : Frame) : deliverPort u f = u.received f := by
  unfold deliverPort State.received receiveWith
  split <;> rfl

/-- Where the response goes, when the state before it is `u` but for what no response looks at. -/
theorem respond_reply (e : Envelope) (cmd : MgmtCmd) (ans : Answer) (u v : State)
    (sw : v.sw = u.sw) (clock : v.clock = u.clock) (serial : v.serial = u.serial)
    (recvQ : v.station.recvQ = u.station.recvQ) (seq : v.station.seq = u.station.seq)
    (portDrop : v.station.ctr.portDrop = u.station.ctr.portDrop)
    (address : v.station.address = u.station.address)
    (portA : v.portA = u.portA) (portB : v.portB = u.portB) :
    ReplyGoes e cmd ans u (respond e cmd ans v) := by
  unfold ReplyGoes respond
  cases e.via with
  | ring src =>
    dsimp only
    by_cases hr : u.sw.localM.length < Config.localCap
    · have hv : (v.sw.localQ .m).length < Config.localCap := by simpa [Switch.localQ, sw] using hr
      obtain ⟨h1, h2⟩ := insertLocal_room v .m 0 src (responseLen ans.data)
        (responseBody cmd e.hostTag ans false) none hv
      simp only [hr, if_true]
      refine ⟨by rw [h1]; simp [recvQ], by rw [h1]; simp [portDrop], by rw [h1]; simp [seq],
        by rw [h2, sw], fun hb => ?_⟩
      have hbv : OutputsBusy v := by
        obtain ⟨hc, p, hp, ho⟩ := hb
        refine ⟨by rw [sw, portA]; exact hc, p, by rw [sw]; exact hp, ?_⟩
        cases p <;> simpa [State.port, portA, portB] using ho
      rw [insertLocal_busy hbv .m 0 src _ _ none hv]
      simp [ringAnswer, ownItem, responseBody, State.ownHeader, State.tag, State.nextSeq,
        Switch.localQ, Switch.setLocalQ, State.setSw, State.setStation, sw, clock, serial, seq,
        address]
    · have hv : ¬ (v.sw.localQ .m).length < Config.localCap := by
        simpa [Switch.localQ, sw] using hr
      rw [insertLocal_full v .m 0 src _ _ none hv]
      simp [hr, recvQ, seq, portDrop, dropLocal, sw]
  | broadcast => simp [recvQ, seq, portDrop, sw]
  | port =>
    unfold answerPort deliverPort State.received receiveWith portAnswer State.ownHeader State.tag
    by_cases hr : u.station.recvQ.length < Config.receiveCap <;>
      simp [hr, recvQ, seq, portDrop, address, clock, serial, sw, State.countStation]

theorem countRefused_station (e : Envelope) (r : Resp) (u : State) :
    (countRefused e r u).station = { u.station with ctr := { u.station.ctr with
      broadcastRefused :=
        if e.via = .broadcast ∧ executed r = false then bump u.station.ctr.broadcastRefused
        else u.station.ctr.broadcastRefused } } ∧
    countRefused e r u = { u with station := (countRefused e r u).station } := by
  unfold countRefused
  split <;> simp_all [State.countStation, State.setStation]

/-- The whole course of a command that is taken: once its own effects have given `u` (R184, R191). -/
theorem answered (e : Envelope) (cmd : MgmtCmd) (ans : Answer) (u : State) :
    Answered e cmd ans u (respond e cmd ans (restartTimers (countRefused e ans.status u))) := by
  obtain ⟨hst, heq⟩ := countRefused_station e ans.status u
  generalize hv : countRefused e ans.status u = v at hst heq
  have hq := respond_queue e cmd ans (restartTimers v)
  have hs := respond_station e cmd ans (restartTimers v)
  dsimp only at hs
  have hf : v = { u with station := v.station } := heq
  have e1 : v.sw = u.sw := by rw [hf]
  have e2 : v.clock = u.clock := by rw [hf]
  have e3 : v.serial = u.serial := by rw [hf]
  have e4 : v.trip = u.trip := by rw [hf]
  have e5 : v.portA = u.portA := by rw [hf]
  have e6 : v.portB = u.portB := by rw [hf]
  refine
    { moment := ?_, ring := ?_, gen := ?_, ctx := ?_, axes := ?_, drive := ?_, image := ?_,
      screen := ?_, trip := ?_, address := ?_, cfg := ?_, sendQ := ?_,
      headInUse := ?_, sendStatus := ?_, lastTaken := ?_, resetAt := ?_, taken := ?_,
      portRefused := ?_, shortTimer := ?_, longTimer := ?_, refused := ?_, reply := ?_ }
  · refine SameMoment.trans ?_ hq.moment
    constructor <;> simp [restartTimers_eq] <;> rw [hf]
  · refine SameRing.trans ?_ hq.ring
    rw [restartTimers_eq]
    refine ⟨?_, ?_, ?_, ?_, ?_⟩ <;> simp <;> rw [hf] <;> exact SameSide.refl _
  · rw [hq.control.gen]; simp [restartTimers_eq]; rw [hf]
  · rw [hq.control.ctx]; simp [restartTimers_eq]; rw [hf]
  · rw [hq.control.axes]; simp [restartTimers_eq]; rw [hf]
  · rw [hq.control.drive]; simp [restartTimers_eq]; rw [hf]
  · rw [hq.control.image]; simp [restartTimers_eq]; rw [hf]
  · rw [hq.control.screen]; simp [restartTimers_eq]; rw [hf]
  · rw [hq.control.trip]; simp [restartTimers_eq, e4]
  · rw [hq.address]; simp [restartTimers_eq, hst]
  · rw [hq.cfg]; simp [restartTimers_eq, hst]
  · rw [hs]; simp [restartTimers_eq, hst]
  · rw [hs]; simp [restartTimers_eq, hst]
  · rw [hs]; simp [restartTimers_eq, hst]
  · rw [hs]; simp [restartTimers_eq, hst]
  · rw [hs]; simp [restartTimers_eq, hst]
  · rw [hs]; simp [restartTimers_eq, hst]
  · rw [hs]; simp [restartTimers_eq, hst]
  · rw [hs]; simp [restartTimers_eq, hst, timerFrom, e2, Config.msec]
  · rw [hs]; simp [restartTimers_eq, hst, timerFrom, e2, Config.msec]
  · rw [hs]; simp [restartTimers_eq, hst]
  · apply respond_reply <;> simp [restartTimers_eq, hst, e1, e2, e3, e5, e6]

/-- A command that fails checks 1 to 3 is answered and changes nothing else (R184). -/
theorem refuse_refused (e : Envelope) (cmd : MgmtCmd) (r : Resp) (u : State)
    (hr : executed r = false) : Refused e cmd r u (refuse e cmd r u) := by
  obtain ⟨hst, heq⟩ := countRefused_station e r u
  refine ⟨refuse_queue e cmd r u, ?_, ?_⟩
  · unfold refuse
    have hs := respond_station e cmd (.plain r) (countRefused e r u)
    dsimp only at hs
    rw [hs, hst]
    simp [hr]
  · unfold refuse
    apply respond_reply <;> first | rw [hst] | rw [heq]

/-- A command that passes the checks of R184 and is executed: its own effects, then the course of an
answer. -/
theorem taken_answered (e : Envelope) (cmd : MgmtCmd) (run : State → State × Answer) (s : State)
    (ha : s.station.address ≠ 0) (hl : e.lengthOk = true) :
    Answered e cmd (run (countTaken s)).2 (run (countTaken s)).1
      (stationCommand e cmd true true run s) := by
  rw [stationCommand_taken e cmd true true run s ha hl rfl (fun _ => rfl)]
  exact answered _ _ _ _

/-- An axis index above 3 is refused. -/
theorem onAxis_above {axis : Nat} (h : 3 < axis) (run : Fin 4 → State → State × Answer)
    (s : State) : onAxis axis run s = (s, Answer.plain .badIndex) := by
  simp [onAxis, Nat.not_lt.mpr (Nat.succ_le_of_lt h)]

/-- A command on an axis of the table. -/
theorem onAxis_axis (a : Fin 4) (run : Fin 4 → State → State × Answer) (s : State) :
    onAxis a.val run s = run a s := by
  simp [onAxis]

/-! ## The address -/

theorem any_remoteFind (rs : List RemoteEntry) (k : Nat) :
    rs.any (fun x => x.source == k) = (remoteFind rs k).isSome := by
  unfold remoteFind
  induction rs with
  | nil => rfl
  | cons e rs ih =>
    rw [List.any_cons, List.find?_cons, ih]
    cases e.source == k <;> rfl

theorem dropOwnRemote_eq (s : State) : dropOwnRemote s =
    if s.trip.remote.any (fun x => x.source == s.station.address) then
      recompute (s.setTrip { s.trip with
        remote := s.trip.remote.filter fun x => x.source != s.station.address }) else s := by
  rw [any_remoteFind]
  unfold dropOwnRemote
  cases remoteFind s.trip.remote s.station.address <;> rfl

theorem dropOwnRemote_publish (s : State) : (dropOwnRemote s).publishStream = s.publishStream := by
  unfold dropOwnRemote
  split
  · have h := (recompute_level (s.setTrip { s.trip with
      remote := remoteErase s.trip.remote s.station.address })).station
    unfold State.publishStream
    rw [h]; rfl
  · rfl

/-- What `setAddress` does, whole. -/

theorem setAddress_eq (own : Nat) (s : State) : setAddress own s = s.readdressed own := by
  unfold setAddress changeAddress State.readdressed
  by_cases h : own = s.station.address
  · simp only [if_pos h, settlePublish]
    cases s.publishStream <;> simp
  · simp only [if_neg h]
    unfold settlePublish
    rw [dropOwnRemote_publish, dropOwnRemote_eq]
    by_cases h0 : s.station.address = 0
    · by_cases hn : own = 0
      · exact absurd (hn.trans h0.symm) h
      · cases ht : s.station.cfg.tripStream <;>
          simp [State.publishStream, h0, hn, ht, State.setSw, State.setStation]
    · by_cases hn : own = 0 <;> cases ht : s.station.cfg.tripStream <;>
        simp [State.publishStream, h0, hn, ht, State.setSw, State.setStation, Switch.emptyLocal]

end Sys2Proof.Machine
end

