-- ==== Sys2Proof/Laws/Levels.lean ====
section
/-! SUPPORT. What a recomputation of the levels does to the Trip Unit: the tree gains RING_CONGESTION at most,
and the levels are afterwards those the tables give. -/

namespace Sys2Proof.Machine

/-- Two Trip Units that differ in TRIP_SENT and the other counter at most. -/
def SameButCounted (x y : TripUnit) : Prop := y = { x with ctr := y.ctr }

theorem SameButCounted.refl (x : TripUnit) : SameButCounted x x := rfl

theorem SameButCounted.compute {x y : TripUnit} (h : SameButCounted x y) : y.compute = x.compute := by
  unfold SameButCounted at h; rw [h]; rfl

theorem SameButCounted.levels {x y : TripUnit} (h : SameButCounted x y) : y.levels = x.levels := by
  unfold SameButCounted at h; rw [h]

theorem SameButCounted.tree {x y : TripUnit} (h : SameButCounted x y) : y.tree = x.tree := by
  unfold SameButCounted at h; rw [h]

theorem SameButCounted.tripOut {x y : TripUnit} (h : SameButCounted x y) : y.tripOut = x.tripOut := by
  unfold SameButCounted at h; rw [h]

theorem sendNotice_trip (s : State) (e : ScreenStream) : (sendNotice s e).trip = s.trip := by
  unfold sendNotice
  split
  · rfl
  · exact (insertLocal_queue s _ _ _ _ _).control.trip

theorem foldl_notice_trip (l : List ScreenStream) (s : State) :
    (l.foldl sendNotice s).trip = s.trip := by
  induction l generalizing s with
  | nil => rfl
  | cons x l ih => exact (ih _).trans (sendNotice_trip s x)

theorem sendNotices_trip (s : State) : (sendNotices s).trip = s.trip := by
  unfold sendNotices
  split
  · rfl
  · exact foldl_notice_trip _ s

/-- The Screen Unit's part in a level change leaves the Trip Unit alone (R177). -/
theorem screenLevel_trip (old new : Level) (s : State) : (screenLevel old new s).trip = s.trip := by
  unfold screenLevel
  split
  · rfl
  · split
    · rfl
    · split
      · exact sendNotices_trip _
      · rfl

/-- A change of the effective level changes TRIP OUT and nothing else of the Trip Unit (R157). -/
theorem levelChange_trip (old new : Level) (s : State) :
    (levelChange old new s).trip =
      { s.trip with tripOut := if old = new then s.trip.tripOut else new == .driveOff } := by
  unfold levelChange
  split
  · rfl
  · rw [screenLevel_trip]; rfl

/-- A T frame originated changes TRIP_SENT and nothing else of the Trip Unit (R161). -/
theorem originateTrip_trip (r : Bool) (s : State) : SameButCounted s.trip (originateTrip r s).1.trip := by
  unfold originateTrip
  split
  · unfold queueTrip
    split
    · simp only [(arbitrate_ring _).control.trip]; rfl
    · rfl
  · rfl

/-- One recomputation: the levels are those of the tables, TRIP OUT follows the effective level, and the
tables stay (R154 to R157). -/
theorem recomputeOnce_trip (s : State) :
    SameButCounted { s.trip with
      levels := s.trip.compute,
      tripOut := if s.trip.levels.eff = s.trip.compute.eff then s.trip.tripOut
        else s.trip.compute.eff == .driveOff } (recomputeOnce s).1.trip := by
  have h := levelChange_trip s.trip.levels.eff s.trip.compute.eff
    (s.setTrip { s.trip with levels := s.trip.compute })
  by_cases hp : s.trip.levels.pub = s.trip.compute.pub
  · simp only [recomputeOnce, hp, if_true]
    unfold SameButCounted
    rw [h]
    rfl
  · simp only [recomputeOnce, hp, if_false]
    have k := originateTrip_trip false (levelChange s.trip.levels.eff s.trip.compute.eff
      (s.setTrip { s.trip with levels := s.trip.compute }))
    rw [h] at k
    exact k

theorem recomputeOnce_levels (s : State) :
    (recomputeOnce s).1.trip.levels = (recomputeOnce s).1.trip.compute := by
  have h := recomputeOnce_trip s
  rw [h.levels, h.compute]
  rfl

/-- A recomputation leaves the levels equal to those the tables give (R154 to R156). -/
theorem recompute_levels (s : State) : (recompute s).trip.levels = (recompute s).trip.compute := by
  unfold recompute afterQueue reportCongestion
  split
  · split
    · exact recomputeOnce_levels s
    · exact recomputeOnce_levels _
  · exact recomputeOnce_levels s

/-- A recomputation changes the tree at most by latching RING_CONGESTION (R37, R156). -/
theorem recompute_tree (s : State) :
    (recompute s).trip.tree = s.trip.tree ∨
    (recompute s).trip.tree = (s.trip.latch .ringCongestion).tree := by
  have h : (recomputeOnce s).1.trip.tree = s.trip.tree := (recomputeOnce_trip s).tree
  unfold recompute afterQueue reportCongestion
  split
  · split
    · exact .inl h
    · refine .inr ?_
      rw [(recomputeOnce_trip _).tree]
      show ((recomputeOnce s).1.trip.latch .ringCongestion).tree = _
      unfold TripUnit.latch
      simp only [h]
  · exact .inl h

end Sys2Proof.Machine
end

