-- ==== Sys2Proof/WellFormed.lean ====
section
/-! DEFINITION. Which commands can occur on the hardware: the widths and counts the manual fixes for what
arrives from outside. Values a management command may carry out of range are not ill-formed: the
station answers them with a response code. -/

namespace Sys2Proof

/-- A class byte that is none of the six codes of 1.7 is a byte, and not one of them. -/
def FrameClass.wf : FrameClass → Bool
  | .bad n => decide (n ≤ 255) && (n == 0 || decide (6 < n))
  | _ => true

/-- Header fields within the widths of 1.7. -/
def Header.wf (h : Header) : Bool :=
  h.cls.wf && decide (h.stream ≤ 255) && decide (h.dest ≤ 63) && decide (h.src ≤ 63) &&
  decide (h.hop ≤ 127) && decide (h.age ≤ Config.ageMax) && decide (h.len ≤ 65535)

/-- A sweep: an M frame with destination 0 from a station (R6, R27). -/
def Header.sweep (h : Header) : Bool :=
  h.wf && h.cls == .m && h.dest == 0 && decide (1 ≤ h.src) && decide (h.src ≤ 62)

/-- A command from the ring comes from a station address 1 to 62 (R6). -/
def Via.wf : Via → Bool
  | .ring src => decide (1 ≤ src) && decide (src ≤ 62)
  | .broadcast | .port => true

/-- An envelope with a sender that exists. -/
def Envelope.wf (e : Envelope) : Bool := e.via.wf

/-- Where a sweep command can stand. -/
def SweepPoint.wf : SweepPoint → Bool
  | .offered => true
  | .passing h | .returned h => h.sweep
  | .addressed via => via.wf

/-- A frame closed by an end delimiter has at most 1,044 bytes (R13). -/
def Closing.wf : Closing → Bool
  | .ended bytes _ => decide (bytes.length ≤ 1044)
  | .aborted | .truncated _ => true

/-- An offered frame's bytes hold its class, stream, destination and length fields (R192). -/
def Offered.wf (f : Offered) : Bool :=
  f.cls.wf && decide (f.stream ≤ 255) && decide (f.dest ≤ 255) && decide (f.len ≤ 65535)

/-- Only an M frame has a kind, and it stands in the header of its class (R12, R35). -/
def startWf (hdr : List Byte) (isCommand : Bool) : Bool :=
  hdr.length == 16 && (!isCommand || hdr.head? == some 6)

/-- Whether a command can occur. -/
def Instr.wf : Instr → Bool
  | .frameStart m _ stamp hdr isCommand => decide (stamp ≤ m.time) && startWf hdr isCommand
  | .frameArrival _ _ closing => closing.wf
  | .exchangeCompletion _ b => b.length == 12
  | .lineEnd _ pixels => decide (16 ≤ pixels.length) && decide (pixels.length ≤ 4096)
  | .remoteEntryStale _ source => decide (1 ≤ source) && decide (source ≤ 62)
  | .setSpeed _ e _ | .masterStop _ e | .enableAxis _ e _ | .couple _ e _ | .decouple _ e _
  | .disableAxis _ e _ | .setPhase _ e _ _ | .resetCorrection _ e _ | .clearFaults _ e _
  | .trip _ e _ | .clearRemote _ e | .read _ e _ _ _ _ | .writeStation _ e _
  | .writeMaster _ e _ | .writeCamera _ e _ | .writePanel _ e _ | .writeTap _ e _
  | .writeAxis _ e _ | .writeWindow _ e _ | .writeFaultConfig _ e _ | .writeMasks _ e _
  | .writeTileMap _ e _ | .writeBanner _ e _ | .status _ e | .resetStation _ e => e.wf
  | .enumerate _ at_ _ _ _ _ _ _ | .collect _ at_ _ _ _ _ _ => at_.wf
  | .sendTransaction m begun f => decide (begun ≤ m.time) && f.wf
  | .takeTransaction m begun => decide (begun ≤ m.time)
  | .powerOn _ | .resetPin _ | .lossOfLight _ _ | .lightPresent _ _ | .huntFillRun _ _ _
  | .breakSymbolRun _ _ | .breakToSyncSymbol _ _ _ | .invalidSymbolLimit _ _ _
  | .healHoldExpiry _ _ | .reservationEligible _ _ | .transmitCompletion _ _
  | .sendQueueMove _ | .cycleTimerExpiry _ | .pendingFrameDue _ | .missTimerExpiry _
  | .localTimerExpiry _ | .stopConfirmExpiry _ | .readyDrop _ _ | .triggerExpiry _
  | .cameraTimeout _ | .tripInputChange _ _ _ | .filterTimerExpiry _ _
  | .refreshTimerExpiry _ | .tileWriteCompletion _ | .repaintTimerExpiry _
  | .shortTimerExpiry _ | .longTimerExpiry _ | .invalidSymbol _ _ _ _ => true

end Sys2Proof
end

