-- ==== Sys2Proof/Laws/PerInstr.lean ====
section
/-! SUPPORT. Laws made command by command: a command that can occur can occur at any later moment too. -/

namespace Sys2Proof

/-- A command taken at another moment. -/
def Instr.retime (i : Instr) (m : Moment) : Instr :=
  match i with
  | .powerOn _ => .powerOn m
  | .resetPin _ => .resetPin m
  | .lossOfLight _ x1 => .lossOfLight m x1
  | .lightPresent _ x1 => .lightPresent m x1
  | .huntFillRun _ x1 x2 => .huntFillRun m x1 x2
  | .breakSymbolRun _ x1 => .breakSymbolRun m x1
  | .breakToSyncSymbol _ x1 x2 => .breakToSyncSymbol m x1 x2
  | .invalidSymbolLimit _ x1 x2 => .invalidSymbolLimit m x1 x2
  | .healHoldExpiry _ x1 => .healHoldExpiry m x1
  | .frameStart _ x1 x2 x3 x4 => .frameStart m x1 x2 x3 x4
  | .reservationEligible _ x1 => .reservationEligible m x1
  | .frameArrival _ x1 x2 => .frameArrival m x1 x2
  | .transmitCompletion _ x1 => .transmitCompletion m x1
  | .sendQueueMove _ => .sendQueueMove m
  | .cycleTimerExpiry _ => .cycleTimerExpiry m
  | .setSpeed _ x1 x2 => .setSpeed m x1 x2
  | .masterStop _ x1 => .masterStop m x1
  | .pendingFrameDue _ => .pendingFrameDue m
  | .missTimerExpiry _ => .missTimerExpiry m
  | .localTimerExpiry _ => .localTimerExpiry m
  | .enableAxis _ x1 x2 => .enableAxis m x1 x2
  | .couple _ x1 x2 => .couple m x1 x2
  | .decouple _ x1 x2 => .decouple m x1 x2
  | .disableAxis _ x1 x2 => .disableAxis m x1 x2
  | .setPhase _ x1 x2 x3 => .setPhase m x1 x2 x3
  | .resetCorrection _ x1 x2 => .resetCorrection m x1 x2
  | .stopConfirmExpiry _ => .stopConfirmExpiry m
  | .readyDrop _ x1 => .readyDrop m x1
  | .exchangeCompletion _ x1 => .exchangeCompletion m x1
  | .triggerExpiry _ => .triggerExpiry m
  | .lineEnd _ x1 => .lineEnd m x1
  | .cameraTimeout _ => .cameraTimeout m
  | .tripInputChange _ x1 x2 => .tripInputChange m x1 x2
  | .filterTimerExpiry _ x1 => .filterTimerExpiry m x1
  | .clearFaults _ x1 x2 => .clearFaults m x1 x2
  | .trip _ x1 x2 => .trip m x1 x2
  | .refreshTimerExpiry _ => .refreshTimerExpiry m
  | .remoteEntryStale _ x1 => .remoteEntryStale m x1
  | .clearRemote _ x1 => .clearRemote m x1
  | .tileWriteCompletion _ => .tileWriteCompletion m
  | .repaintTimerExpiry _ => .repaintTimerExpiry m
  | .read _ x1 x2 x3 x4 x5 => .read m x1 x2 x3 x4 x5
  | .writeStation _ x1 x2 => .writeStation m x1 x2
  | .writeMaster _ x1 x2 => .writeMaster m x1 x2
  | .writeCamera _ x1 x2 => .writeCamera m x1 x2
  | .writePanel _ x1 x2 => .writePanel m x1 x2
  | .writeTap _ x1 x2 => .writeTap m x1 x2
  | .writeAxis _ x1 x2 => .writeAxis m x1 x2
  | .writeWindow _ x1 x2 => .writeWindow m x1 x2
  | .writeFaultConfig _ x1 x2 => .writeFaultConfig m x1 x2
  | .writeMasks _ x1 x2 => .writeMasks m x1 x2
  | .writeTileMap _ x1 x2 => .writeTileMap m x1 x2
  | .writeBanner _ x1 x2 => .writeBanner m x1 x2
  | .status _ x1 => .status m x1
  | .enumerate _ x1 x2 x3 x4 x5 x6 x7 => .enumerate m x1 x2 x3 x4 x5 x6 x7
  | .collect _ x1 x2 x3 x4 x5 x6 => .collect m x1 x2 x3 x4 x5 x6
  | .resetStation _ x1 => .resetStation m x1
  | .shortTimerExpiry _ => .shortTimerExpiry m
  | .longTimerExpiry _ => .longTimerExpiry m
  | .sendTransaction _ x1 x2 => .sendTransaction m x1 x2
  | .takeTransaction _ x1 => .takeTransaction m x1
  | .invalidSymbol _ x1 x2 x3 => .invalidSymbol m x1 x2 x3

namespace Laws.Later

/-- A command that can occur can occur at every later moment, whatever the ready lines are then. -/
def Statement (i : Instr) : Prop :=
  i.wf = true → ∀ m : Moment, (Machine.momentOf i).time ≤ m.time →
    (i.retime m).wf = true ∧ Machine.momentOf (i.retime m) = m

theorem powerOn (m) :
    Statement (.powerOn m) := fun h _ _ => ⟨h, rfl⟩

theorem resetPin (m) :
    Statement (.resetPin m) := fun h _ _ => ⟨h, rfl⟩

theorem lossOfLight (m p) :
    Statement (.lossOfLight m p) := fun h _ _ => ⟨h, rfl⟩

theorem lightPresent (m p) :
    Statement (.lightPresent m p) := fun h _ _ => ⟨h, rfl⟩

theorem huntFillRun (m p last) :
    Statement (.huntFillRun m p last) := fun h _ _ => ⟨h, rfl⟩

theorem breakSymbolRun (m p) :
    Statement (.breakSymbolRun m p) := fun h _ _ => ⟨h, rfl⟩

theorem breakToSyncSymbol (m p sym) :
    Statement (.breakToSyncSymbol m p sym) := fun h _ _ => ⟨h, rfl⟩

theorem invalidSymbolLimit (m p pos) :
    Statement (.invalidSymbolLimit m p pos) := fun h _ _ => ⟨h, rfl⟩

theorem healHoldExpiry (m p) :
    Statement (.healHoldExpiry m p) := fun h _ _ => ⟨h, rfl⟩

theorem frameStart (m p stamp hdr isCommand) :
    Statement (.frameStart m p stamp hdr isCommand) := by
  intro h n ht
  simp only [Instr.wf, Instr.retime, Machine.momentOf, Bool.and_eq_true, decide_eq_true_eq] at *
  grind

theorem reservationEligible (m p) :
    Statement (.reservationEligible m p) := fun h _ _ => ⟨h, rfl⟩

theorem frameArrival (m p closing) :
    Statement (.frameArrival m p closing) := fun h _ _ => ⟨h, rfl⟩

theorem transmitCompletion (m p) :
    Statement (.transmitCompletion m p) := fun h _ _ => ⟨h, rfl⟩

theorem sendQueueMove (m) :
    Statement (.sendQueueMove m) := fun h _ _ => ⟨h, rfl⟩

theorem cycleTimerExpiry (m) :
    Statement (.cycleTimerExpiry m) := fun h _ _ => ⟨h, rfl⟩

theorem setSpeed (m e target) :
    Statement (.setSpeed m e target) := fun h _ _ => ⟨h, rfl⟩

theorem masterStop (m e) :
    Statement (.masterStop m e) := fun h _ _ => ⟨h, rfl⟩

theorem pendingFrameDue (m) :
    Statement (.pendingFrameDue m) := fun h _ _ => ⟨h, rfl⟩

theorem missTimerExpiry (m) :
    Statement (.missTimerExpiry m) := fun h _ _ => ⟨h, rfl⟩

theorem localTimerExpiry (m) :
    Statement (.localTimerExpiry m) := fun h _ _ => ⟨h, rfl⟩

theorem enableAxis (m e axis) :
    Statement (.enableAxis m e axis) := fun h _ _ => ⟨h, rfl⟩

theorem couple (m e axis) :
    Statement (.couple m e axis) := fun h _ _ => ⟨h, rfl⟩

theorem decouple (m e axis) :
    Statement (.decouple m e axis) := fun h _ _ => ⟨h, rfl⟩

theorem disableAxis (m e axis) :
    Statement (.disableAxis m e axis) := fun h _ _ => ⟨h, rfl⟩

theorem setPhase (m e axis target) :
    Statement (.setPhase m e axis target) := fun h _ _ => ⟨h, rfl⟩

theorem resetCorrection (m e axis) :
    Statement (.resetCorrection m e axis) := fun h _ _ => ⟨h, rfl⟩

theorem stopConfirmExpiry (m) :
    Statement (.stopConfirmExpiry m) := fun h _ _ => ⟨h, rfl⟩

theorem readyDrop (m axis) :
    Statement (.readyDrop m axis) := fun h _ _ => ⟨h, rfl⟩

theorem exchangeCompletion (m status) :
    Statement (.exchangeCompletion m status) := fun h _ _ => ⟨h, rfl⟩

theorem triggerExpiry (m) :
    Statement (.triggerExpiry m) := fun h _ _ => ⟨h, rfl⟩

theorem lineEnd (m pixels) :
    Statement (.lineEnd m pixels) := fun h _ _ => ⟨h, rfl⟩

theorem cameraTimeout (m) :
    Statement (.cameraTimeout m) := fun h _ _ => ⟨h, rfl⟩

theorem tripInputChange (m n active) :
    Statement (.tripInputChange m n active) := fun h _ _ => ⟨h, rfl⟩

theorem filterTimerExpiry (m n) :
    Statement (.filterTimerExpiry m n) := fun h _ _ => ⟨h, rfl⟩

theorem clearFaults (m e groups) :
    Statement (.clearFaults m e groups) := fun h _ _ => ⟨h, rfl⟩

theorem trip (m e level) :
    Statement (.trip m e level) := fun h _ _ => ⟨h, rfl⟩

theorem refreshTimerExpiry (m) :
    Statement (.refreshTimerExpiry m) := fun h _ _ => ⟨h, rfl⟩

theorem remoteEntryStale (m source) :
    Statement (.remoteEntryStale m source) := fun h _ _ => ⟨h, rfl⟩

theorem clearRemote (m e) :
    Statement (.clearRemote m e) := fun h _ _ => ⟨h, rfl⟩

theorem tileWriteCompletion (m) :
    Statement (.tileWriteCompletion m) := fun h _ _ => ⟨h, rfl⟩

theorem repaintTimerExpiry (m) :
    Statement (.repaintTimerExpiry m) := fun h _ _ => ⟨h, rfl⟩

theorem read (m e table first count clear) :
    Statement (.read m e table first count clear) := fun h _ _ => ⟨h, rfl⟩

theorem writeStation (m e es) :
    Statement (.writeStation m e es) := fun h _ _ => ⟨h, rfl⟩

theorem writeMaster (m e es) :
    Statement (.writeMaster m e es) := fun h _ _ => ⟨h, rfl⟩

theorem writeCamera (m e es) :
    Statement (.writeCamera m e es) := fun h _ _ => ⟨h, rfl⟩

theorem writePanel (m e es) :
    Statement (.writePanel m e es) := fun h _ _ => ⟨h, rfl⟩

theorem writeTap (m e es) :
    Statement (.writeTap m e es) := fun h _ _ => ⟨h, rfl⟩

theorem writeAxis (m e es) :
    Statement (.writeAxis m e es) := fun h _ _ => ⟨h, rfl⟩

theorem writeWindow (m e es) :
    Statement (.writeWindow m e es) := fun h _ _ => ⟨h, rfl⟩

theorem writeFaultConfig (m e es) :
    Statement (.writeFaultConfig m e es) := fun h _ _ => ⟨h, rfl⟩

theorem writeMasks (m e es) :
    Statement (.writeMasks m e es) := fun h _ _ => ⟨h, rfl⟩

theorem writeTileMap (m e es) :
    Statement (.writeTileMap m e es) := fun h _ _ => ⟨h, rfl⟩

theorem writeBanner (m e es) :
    Statement (.writeBanner m e es) := fun h _ _ => ⟨h, rfl⟩

theorem status (m e) :
    Statement (.status m e) := fun h _ _ => ⟨h, rfl⟩

theorem enumerate (m at_ hostTag first next force overflow lengthOk) :
    Statement (.enumerate m at_ hostTag first next force overflow lengthOk) := fun h _ _ => ⟨h, rfl⟩

theorem collect (m at_ hostTag count overflow lengthOk ds) :
    Statement (.collect m at_ hostTag count overflow lengthOk ds) := fun h _ _ => ⟨h, rfl⟩

theorem resetStation (m e) :
    Statement (.resetStation m e) := fun h _ _ => ⟨h, rfl⟩

theorem shortTimerExpiry (m) :
    Statement (.shortTimerExpiry m) := fun h _ _ => ⟨h, rfl⟩

theorem longTimerExpiry (m) :
    Statement (.longTimerExpiry m) := fun h _ _ => ⟨h, rfl⟩

theorem sendTransaction (m begun f) :
    Statement (.sendTransaction m begun f) := by
  intro h n ht
  simp only [Instr.wf, Instr.retime, Machine.momentOf, Bool.and_eq_true, decide_eq_true_eq] at *
  grind

theorem takeTransaction (m begun) :
    Statement (.takeTransaction m begun) := by
  intro h n ht
  simp only [Instr.wf, Instr.retime, Machine.momentOf, decide_eq_true_eq] at *
  exact ⟨h.trans ht, trivial⟩

theorem invalidSymbol (m p sym pos) :
    Statement (.invalidSymbol m p sym pos) := fun h _ _ => ⟨h, rfl⟩

end Laws.Later

end Sys2Proof
end

