-- ==== Sys2Proof/Laws/Writes.lean ====
section
/-! SUPPORT. What the checks of a WRITE entry and the placing of a trigger come to (R128, R187). -/

namespace Sys2Proof.Machine

/-- No check, no failure (R187). -/
theorem firstFail_nil : firstFail [] = none := rfl

/-- A check that fails decides; one that passes leaves it to the checks after it (R187). -/
theorem firstFail_cons {b : Bool} {P : Prop} [Decidable P] (r : Resp) {l : List (Option Resp)}
    {v : Option Resp} (h : b = true ↔ P) (hv : firstFail l = v) :
    firstFail (failIf b r :: l) = if P then some r else v := by
  subst hv
  by_cases hp : P
  · simp [firstFail, failIf, h.2 hp, hp]
  · have : b = false := by cases b <;> simp_all
    simp [firstFail, failIf, this, hp]

/-- A stream that is present is 0 to 255. -/
theorem streamOk_iff (o : Option Nat) : streamOk o = true ↔ ∀ n ∈ o, n ≤ 255 := by
  cases o <;> simp [streamOk]

/-- The first grid point at or after a position lies less than one step beyond it (R128). -/
theorem gridPoint_bounds {step : Nat} (p : Nat) (h : 0 < step) :
    p ≤ (p + step - 1) / step * step ∧ (p + step - 1) / step * step < p + step := by
  have h1 := Nat.div_add_mod (p + step - 1) step
  have h2 := Nat.mod_lt (p + step - 1) h
  have h3 : step * ((p + step - 1) / step) = (p + step - 1) / step * step := Nat.mul_comm ..
  omega

end Sys2Proof.Machine
end

