-- ==== Sys2Proof/Tests/Slice0.lean ====
section
/-! SUPPORT. Tests of the model. Expected values come from the worked sequences of the manual (each test names
its rule), from hand calculation by a rule, or, for the two check values, from the published check
values of the two polynomials. A `test_witness_…` theorem shows a state and operands that meet the
hypotheses of the obligation it names. -/

namespace Sys2Proof.Tests

-- One test is elaborated after another: tests that wait for the kernel would else each hold a thread.
set_option Elab.async false

open Sys2Proof.Machine

/-! ## Small states -/

/-- A moment with every ready line high. -/
def mo (t : Nat) : Moment := { time := t, ready := Four.all4 true }

/-- A command from station 1, with right lengths. -/
def env : Envelope := { via := .ring 1, hostTag := 0x0101, lengthOk := true }

/-- A station with address 5, otherwise after power-on. -/
def st : State := { State.reset with station := { StationCtl.reset with address := 5 } }

/-- Levels that are all CLEAR. -/
def calm : Levels :=
  { loc := .clear, pub := .clear, rem := .clear, eff := .clear, pubCode := 0, pubCount := 0,
    summary := List.replicate 7 false }

/-- A side that is USABLE. -/
def good : Port := { Port.reset with light := true, rx := .sync, side := .usable }

/-- Station 5 in THROUGH, its levels CLEAR. -/
def thru : State :=
  { st with
    portA := good, portB := good, sw := { Switch.reset with role := .through },
    trip := { TripUnit.reset with tree := allFaults.map freshFault, levels := calm } }

/-- The state after a command, the state itself where the command stops. -/
def after (c : Instr) (s : State) : State :=
  match exec c s with
  | .next t => t
  | .fault _ | .refused _ => s

/-- A header of station 2. -/
def hdr (cls : FrameClass) (len : Nat) : Header :=
  { cls := cls, stream := 5, dest := 63, src := 2, tag := 0x1234, seq := 7, hop := 0, age := 100,
    len := len }

/-- A whole frame waiting in a queue since time 0. -/
def item (cls : FrameClass) (len : Nat) : QItem :=
  { frame := { hdr := hdr cls len, body := .bytes [] }, since := 0, origin := .passing,
    ready := true }

/-- A frame being sent. -/
def busy : Tx :=
  { frame := { hdr := hdr .i 1024, body := .bytes [] }, copyOf := none, endAt := 0,
    aborted := false, check := none }

/-- A frame being received. -/
def recv (cls : FrameClass) (len : Nat) : Reception :=
  { stamp := 0, hdr := hdr cls len, use := .forwardInput, resv := .held, got32 := false }

/-- The header bytes of a T frame and of an I frame with 24 body bytes, both of station 2. -/
def tHeader : List Byte := [1, 5, 63, 2, 0x12, 0x34, 0, 7, 0, 0, 0, 100, 0, 4, 0, 0]
def iHeader : List Byte := [4, 5, 63, 2, 0x12, 0x34, 0, 7, 0, 0, 0, 100, 0, 24, 0, 0]

/-- The bytes of a T frame of station 2, level NOTICE, code 0x13, count 1 (1.7); the check value was
computed from the polynomial of R14 by a program of its own, as in the frames below. -/
def tFrame : List Byte := tHeader ++ [1, 0x13, 1, 0, 0x96, 0x8C, 0x9F, 0xED]

/-- The same frame with hop count 126. -/
def tHop126 : List Byte :=
  [1, 5, 63, 2, 0x12, 0x34, 0, 7, 126, 0, 0, 100, 0, 4, 0, 0, 1, 0x13, 1, 0, 0xC1, 0xC6, 0x41, 0x5E]

/-- The same frame from station 5 with tag 0, and with another tag. -/
def tOwn : List Byte :=
  [1, 5, 63, 5, 0, 0, 0, 7, 0, 0, 0, 100, 0, 4, 0, 0, 1, 0x13, 1, 0, 0x02, 0xCA, 0xB3, 0x77]
def tClash : List Byte :=
  [1, 5, 63, 5, 0x12, 0x34, 0, 7, 0, 0, 0, 100, 0, 4, 0, 0, 1, 0x13, 1, 0, 0xF1, 0xB5, 0x09, 0x7E]

/-- A C frame of station 2 on stream 6: cycle 200, P 5,000,000, v 100,001, T 750, U 400, RAMPING. -/
def cFrame : List Byte :=
  [2, 6, 63, 2, 0x12, 0x34, 0, 8, 0, 0, 0, 100, 0, 16, 0, 0, 0x00, 0xC8, 0x00, 0x4C, 0x4B, 0x40,
   0x00, 0x01, 0x86, 0xA1, 0x02, 0xEE, 0x01, 0x90, 1, 0, 0x54, 0xF9, 0x5C, 0xD3]

/-- K frames of station 4 with one record (1.7), to station 5, to all, and to station 6. -/
def kFrame : List Byte :=
  [3, 0, 5, 4, 0x12, 0x34, 0, 9, 0, 0, 0, 0, 0, 8, 0, 0, 0, 7, 1, 0, 0x32, 0xFF, 0xE1, 0,
   0x91, 0x5B, 0xCB, 0xCF]
def kAll : List Byte :=
  [3, 0, 63, 4, 0x12, 0x34, 0, 9, 0, 0, 0, 0, 0, 8, 0, 0, 0, 7, 1, 0, 0x32, 0xFF, 0xE1, 0,
   0xF0, 0x60, 0x11, 0xAE]
def kOther : List Byte :=
  [3, 0, 6, 4, 0x12, 0x34, 0, 9, 0, 0, 0, 0, 0, 8, 0, 0, 0, 7, 1, 0, 0x32, 0xFF, 0xE1, 0,
   0x81, 0x1D, 0x0E, 0x6E]

/-- M frames of station 4 to station 5 and to all, with 8 body bytes; a REPAINT of station 4 to station 5;
an I frame of station 2 with 4 body bytes. -/
def mFrame : List Byte :=
  [6, 0, 5, 4, 0x12, 0x34, 0, 9, 0, 0, 0, 0, 0, 8, 0, 0, 0, 0, 0, 0, 0, 0, 0, 0,
   0x4D, 0x7D, 0x2C, 0x62]
def mAll : List Byte :=
  [6, 0, 63, 4, 0x12, 0x34, 0, 9, 0, 0, 0, 0, 0, 8, 0, 0, 0, 0, 0, 0, 0, 0, 0, 0,
   0x2C, 0x46, 0xF6, 3]
def sFrame : List Byte :=
  [5, 9, 5, 4, 0x12, 0x34, 0, 9, 0, 0, 0, 0, 0, 4, 0, 0, 2, 0, 0, 0, 0x18, 0x18, 0x39, 0x5F]
def iFrame : List Byte :=
  [4, 5, 63, 2, 0x12, 0x34, 0, 7, 0, 0, 0, 100, 0, 4, 0, 0, 1, 2, 3, 4, 0xDD, 0x20, 0xA3, 0x47]

/-- A management body with host tag 0x0101. -/
def wMgmt (kind : MgmtKind) (cmd : MgmtCmd) : MgmtBody :=
  { kind := kind, cmd := cmd, hostTag := 0x0101, status := .ok, force := false, overflow := false,
    count := 0, lengthOk := true, data := .none }

/-- A station in THROUGH without an address. -/
def thruAtZero : State := { thru with station := StationCtl.reset }

/-- A frame offered at the frame port, its body bytes zeros. -/
def offer (cls : FrameClass) (dest len : Nat) : Offered :=
  { cls := cls, stream := 0, dest := dest, len := len, bytes := List.replicate len 0,
    reading := .bytes [] }

/-! ## What can occur -/

theorem test_wf_refuses_class : FrameClass.wf (.bad 3) = false := by decide

theorem test_wf_refuses_header : Header.wf { hdr .t 4 with hop := 128 } = false := by decide

theorem test_wf_refuses_sweep : Header.sweep (hdr .m 16) = false := by decide

theorem test_wf_refuses_sender : Instr.wf (.status (mo 0) { env with via := .ring 63 }) = false := by
  decide

theorem test_wf_refuses_sweep_point :
    Instr.wf (.collect (mo 0) (.returned (hdr .m 16)) 0 0 false true []) = false := by decide

theorem test_wf_refuses_overlong_frame :
    Instr.wf (.frameArrival (mo 0) .a (.ended (List.replicate 1045 0) (.bytes []))) = false := by
  decide +kernel

theorem test_wf_refuses_offer :
    Instr.wf (.sendTransaction (mo 0) 0
      { cls := .k, stream := 256, dest := 1, len := 0, bytes := [], reading := .bytes [] }) = false := by
  decide

theorem test_wf_refuses_short_header :
    Instr.wf (.frameStart (mo 0) .a 0 [1, 2] false) = false := by decide

theorem test_wf_refuses_command_of_no_m_frame :
    Instr.wf (.frameStart (mo 0) .a 0 tHeader true) = false := by decide

theorem test_wf_refuses_stamp_to_come :
    Instr.wf (.frameStart (mo 5) .a 6 tHeader false) = false := by decide

theorem test_wf_refuses_status_bytes :
    Instr.wf (.exchangeCompletion (mo 0) [1, 2, 3]) = false := by decide

theorem test_wf_refuses_short_line : Instr.wf (.lineEnd (mo 0) (List.replicate 15 0)) = false := by
  decide

theorem test_wf_refuses_source : Instr.wf (.remoteEntryStale (mo 0) 63) = false := by decide

theorem test_wf_refuses_take_to_come : Instr.wf (.takeTransaction (mo 5) 6) = false := by decide

theorem test_wf_admits :
    Instr.wf (.frameStart (mo 5) .a 5 tHeader false) = true ∧
    Instr.wf (.frameArrival (mo 0) .a (.ended tFrame (.bytes []))) = true ∧
    Instr.wf (.status (mo 0) env) = true := by decide

/-- No row of the table has bits, so no word spells a command. -/
theorem test_decode_none :
    decodeTableWord 16 0xFFFF = none ∧ (st.withFetchWord 16 7).pending = [] := by decide

/-! ## Check values and records -/

/-- The published check values over the nine characters 123456789: 0xFC891918 for the CRC-32 of R14
(no reflection, final complement), 0xF4 for the CRC-8 of 1.7. -/
theorem test_check_values :
    crc32 [0x31, 0x32, 0x33, 0x34, 0x35, 0x36, 0x37, 0x38, 0x39] = 0xFC891918#32 ∧
    crc8 [0x31, 0x32, 0x33, 0x34, 0x35, 0x36, 0x37, 0x38, 0x39] = 0xF4#8 := by decide +kernel

/-- The fields of 1.7 in a T and in a C frame, each byte written out (R6, R8, R9). -/
theorem test_frames_read :
    judgeFrame tFrame = .good ∧
    (readFrame tFrame (.bytes [])).hdr = hdr .t 4 ∧
    readTrip [1, 0x13, 1, 0] =
      some { level := .notice, code := 0x13, count := 1, refresh := false } ∧
    judgeFrame cFrame = .good ∧
    readCycle ((cFrame.drop 16).take 16) =
      some { num := 200, pos := 5000000, speed := 100001, period := 750, offset := 400,
             state := .ramping, level := .clear } := by decide +kernel

/-- A K body of one record: axis 2, amount −31, window 3 (R10, 1.7). -/
theorem test_correction_read :
    readCorr [0, 7, 1, 0, 0x32, 0xFF, 0xE1, 0] =
      some { repeatNo := 7, records := [{ axis := 2, amount := -31, window := 3 }] } := by decide

/-- A command record: setpoint 10,000,000, ENABLE, level NOTICE, sequence 15 (1.7). -/
theorem test_command_record :
    commandRecord 10000000 true .notice 15 =
      [0, 0x98, 0x96, 0x80, 0x11, 0x0F, 0, 0, 0, 0, 0, 0xD4] := by decide +kernel

/-- A status record: READY and ENABLED, sequence 3, actual position 2^31 + 1 (1.7, R116). -/
theorem test_status_record :
    judgeStatus 3 [0x80, 0, 0, 1, 0x05, 3, 0, 0, 0, 0, 0, 0x6F] = .good ∧
    judgeStatus 4 [0x80, 0, 0, 1, 0x05, 3, 0, 0, 0, 0, 0, 0x6F] = .seqBad ∧
    (readStatus [0x80, 0, 0, 1, 0x05, 3, 0, 0, 0, 0, 0, 0x6F]).actual = 0x80000001 ∧
    (readStatus [0x80, 0, 0, 1, 0x05, 3, 0, 0, 0, 0, 0, 0x6F]).enabled = true := by decide +kernel

/-! ## Worked sequences: the ring -/

/-- The age of a cycle frame over four stations (2.4): the residences and link delays give 790, 832 and
1,254. -/
theorem test_age_worked :
    (departHeader { st with clock := 740, station := { st.station with
      cfg := { defaultStation with linkB := 12 } } } .b
      { item .c 16 with frame := { hdr := { hdr .c 16 with age := 0 }, body := .bytes [] } }).age = 790 ∧
    (departHeader { st with clock := 785, station := { st.station with
      cfg := { defaultStation with linkB := 9 } } } .b
      { item .c 16 with
        frame := { hdr := { hdr .c 16 with age := 790 }, body := .bytes [] }, since := 752,
        origin := .reserved .a }).age = 832 ∧
    (departHeader { st with clock := 1206, station := { st.station with
      cfg := { defaultStation with linkB := 10 } } } .b
      { item .c 16 with
        frame := { hdr := { hdr .c 16 with age := 832 }, body := .bytes [] }, since := 832 }).age =
      1254 := by decide

/-- Precedence at the forward output (2.7): T before the transit FIFO, K only while that is empty. -/
theorem test_precedence_worked :
    let w : Switch := { Switch.reset with
      urgent := [item .t 4], transit := [item .s 1024], localK := [item .k 8], localI := [item .i 24] }
    (w.pick.map fun x => x.1.frame.hdr.cls) = some .t ∧
    (({ w with urgent := [] } : Switch).pick.map fun x => x.1.frame.hdr.cls) = some .s ∧
    (({ w with urgent := [], transit := [] } : Switch).pick.map fun x => x.1.frame.hdr.cls) =
      some .k := by decide

/-- A break (3.6): loss of light on port B of a THROUGH station makes it WRAP_B at once, and the fault of
the port is latched. -/
theorem test_break_worked :
    let t := after (.lossOfLight (mo 0) .b) thru
    t.sw.role = .wrapB ∧ t.portB.side = .failed ∧ t.trip.isLatched (.portDown .b) = true ∧
    t.sw.ctr.roleChanges = 1 ∧ t.portB.ctr.syncLoss = 1 := by decide

/-- Its repair (3.6): SYNC starts the hold of 50 ms, and its end makes the station THROUGH again. -/
theorem test_repair_worked :
    let s : State := { thru with
      portB := { good with rx := .brk, side := .failed }, sw := { thru.sw with role := .wrapB } }
    let t := after (.breakToSyncSymbol (mo 100) .b .breakHeard) s
    t.portB.hold = some (100 + 5000000) ∧ t.sw.role = .wrapB ∧
    (after (.healHoldExpiry (mo 5000100) .b) t).sw.role = .through := by decide

/-- Enumeration (3.4): X with address 0 takes n = 2 and passes on n = 3; Z with address 7 and FORCE finds
n = 63, gives up its address and sets OVERFLOW. -/
theorem test_enumeration_worked :
    let h := { hdr .m 16 with dest := 0 }
    (after (.enumerate (mo 0) (.passing h) 1 2 2 false false true) State.reset).station.address = 2 ∧
    (after (.enumerate (mo 0) (.passing h) 1 60 63 true false true) st).station.address = 0 := by
  decide

/-! ## Worked sequences: master, cycle and axes -/

/-- The generator of the ramp sequence (4.2) before expiry 2, and before expiry 5. -/
def ramp : Generator :=
  { cfg := { cycleRun := 1, stream := 0, period := 750, offset := 400, vMax := 8000000,
             accel := 20000, tripDecel := 50000, stopDecel := 2048 },
    pos := 268430000, rem := 0, speed := 40000, target := 70005, limit := .accel, state := .ramping,
    cycle := 65535, timer := some { period := 750, due := 0 } }

theorem test_ramp_worked :
    let t := (after (.cycleTimerExpiry (mo 0)) { thru with gen := ramp }).gen
    t.pos = 24544 ∧ t.speed = 60000 ∧ t.state = .ramping ∧ t.cycle = 0 := by decide

theorem test_trip_stop_worked :
    let g := Generator.level .clear .rampStop
      { ramp with pos := 122047, rem := 750, speed := 70005, state := .running, cycle := 2 }
    let t := (after (.cycleTimerExpiry (mo 0)) { thru with gen := g }).gen
    g.state = .stopping ∧ t.pos = 174551 ∧ t.rem = 500 ∧ t.speed = 20005 := by decide

/-- SET SPEED 70,005 at 40,000 (4.2). -/
theorem test_set_speed_worked :
    let s : State := { thru with
      strap := true, gen := { ramp with target := 40000, state := .running } }
    let t := (after (.setSpeed (mo 0) env 70005) s).gen
    t.target = 70005 ∧ t.state = .ramping ∧ t.speed = 40000 := by decide

/-- The context of the late-frame sequence (4.5) after cycle 200, with times in 10 ns units. -/
def follower : CycleCtx :=
  { CycleCtx.reset with
    state := .tracking, learnt := some (2, 0x1234), lastCycle := 200, pos := 5000000,
    speed := 100001, period := 750, missTimer := some 93700 }

theorem test_missed_cycle_worked :
    let t := (after (.missTimerExpiry (mo 93700)) { thru with ctx := follower }).ctx
    t.state = .coasting ∧ t.lastCycle = 201 ∧ t.pos = 5075000 ∧ t.rem = 750 ∧ t.misses = 1 ∧
    t.missTimer = some 187400 := by decide

/-- The resync by frame 201 and the exact apply of 202 (4.5). -/
theorem test_resync_worked :
    let c : CycleCtx := { follower with
      state := .coasting, lastCycle := 201, pos := 5075000, rem := 750, misses := 1 }
    let f (n : BitVec 16) (p : BitVec 28) : CycleBody :=
      { num := n, pos := p, speed := 120001, period := 750, offset := 400, state := .ramping,
        level := .clear }
    let s := takeCycle 2 0x1234 75000 (f 201 5075001)
      { thru with ctx := c, clock := 110000 }
    let u := takeCycle 2 0x1234 3000 (f 202 5165002) { s with clock := 113000 }
    let t := after (.pendingFrameDue (mo 150000)) u
    s.ctx.delta = some 1 ∧ s.ctx.pos = 5075001 ∧ s.trip.isLatched .cycleLate = true ∧
    u.ctx.pending.map (·.due) = some 150000 ∧ t.ctx.lastCycle = 202 ∧ t.ctx.missTimer = some 243700 ∧
    t.trip.isLatched .masterJump = false := by decide

/-- The cylinder of 1,000,000 counts (5.3). -/
theorem test_gear_worked :
    let r : AxisRecord := { defaultAxis with
      state := .coupled, cfg := { defaultAxisConfig with num := 15625, den := 16384 }, gear := 7000000 }
    let t := axisStep 3355443 r
    let u := axisStep 3355444 t
    t.step = 12499 ∧ t.acc = 4191179 ∧ t.gear = 7012499 ∧ u.step = 12501 ∧ u.acc = 9375 ∧
    u.gear = 7025000 := by decide

/-- The reversing gear (5.3). -/
theorem test_reversing_gear_worked :
    let r : AxisRecord := { defaultAxis with
      state := .coupled, cfg := { defaultAxisConfig with num := -3, den := 2 }, gear := 5, acc := 100 }
    let t := axisStep 1000 r
    t.step = -6 ∧ t.acc = 172 ∧ t.gear = 4294967295 ∧ (axisStep (-1000) t).gear = 5 ∧
    (axisStep (-1000) t).acc = 100 := by decide

/-- Corrections against the authority (5.4): +30 and +25 on 60 reach 100 and count CORR_CLAMPED. -/
theorem test_correction_worked :
    let s := thru.setAxis 2 { defaultAxis with
      state := .coupled, corrTarget := 60, corr := 40,
      cfg := { defaultAxisConfig with corrMax := 100, corrSlew := 20 } }
    let t := takeCorrections [⟨2, 30, 0⟩, ⟨2, 25, 0⟩] s
    let u := takeCorrections [⟨2, -31, 0⟩] t
    (t.axis 2).corrTarget = 100 ∧ t.axes.ctr.corrClamped = 1 ∧
    t.trip.isPresent (.correctionLimit 2) = true ∧ (u.axis 2).corrTarget = 69 ∧
    u.trip.isPresent (.correctionLimit 2) = false := by decide

/-- A coastdown to rest (5.5). -/
theorem test_coastdown_worked :
    let r : AxisRecord := { defaultAxis with
      state := .coastdown, cfg := { defaultAxisConfig with decel := 4000 }, step := 500,
      gear := 80013500 }
    (axisStep 7 { r with step := 12500, gear := 80000000 }).setpoint = 80008500 ∧
    (axisStep 7 r).state = .held ∧ (axisStep 7 r).setpoint = 80013500 := by decide

/-- A following error of −240 above F = 200 (6.9, exchange 4): the axis passes to OFF at DRIVE_OFF. -/
theorem test_following_error_worked :
    let s := (thru.setAxis 0 { defaultAxis with
      state := .coupled, cfg := { defaultAxisConfig with followLimit := 200 } })
    let t := followCheck 0 200 (some 10500) 10260 s
    t.trip.isLatched (.followError 0) = true ∧ (t.axis 0).state = .off ∧
    t.trip.levels.eff = .driveOff ∧ t.trip.tripOut = true ∧
    (followCheck 0 200 (some 10000) 9995 s).drive.ctr.followExcess = 0 := by decide

/-! ## Worked sequences: imaging, trips, screens -/

/-- Triggers (7.1): point 39 falls due 34 µs after the apply and is stamped 39,936; point 51 waits. -/
theorem test_trigger_worked :
    let u := ImageUnit.reset.takeBase true
      { pos := 10000000, speed := 6710887, period := 500, at_ := 0, repeats := 3 }
    u.next = some 10223616 ∧ u.trigger = some 3400 ∧
    ((u.fire 3400).1.line.map (·.stamp)) = some 39936 ∧ (u.fire 3400).1.trigger = some 7300 ∧
    (({ u with next := some 13369344 } : ImageUnit).schedule).trigger = none := by decide +kernel

/-- One mark, one correction (7.5): the edge 500,066, the mean 66 and the amount −31. -/
theorem test_mark_worked :
    edgeAt true 128 500032 210 500096 60 = 500066 ∧
    (({ Window.reset with cfg := { defaultWindow with deadBand := 8, gain := 122, targetAxis := 2 } } :
      Window).validError 3 700 66).2 = some { axis := 2, amount := -31, window := 3 } := by decide +kernel

/-- Averaging through a miss (7.5), from the third error on. -/
theorem test_averaging_worked :
    let w : Window := { Window.reset with
      cfg := { defaultWindow with averaging := 4, deadBand := 8, gain := 122 }, sum := 136, count := 2 }
    let x := (w.validError 5 703 60).1
    let y := (x.validError 5 704 62)
    x.sum = 196 ∧ x.result.status = .averaging ∧ y.1.sum = 0 ∧ y.1.result.mean = some 64 ∧
    y.1.result.lastAmount = some (-30) ∧ (w.miss 701 .noEdge).1.sum = 136 := by decide +kernel

/-- A RAMP_STOP that station 14 publishes (8.8): the entry, the levels, and the master's ramp. -/
theorem test_web_break_worked :
    let s : State := { thru with
      strap := true, gen := { ramp with speed := 4000000, target := 4000000, state := .running } }
    let t := takeTrip 14 { level := .rampStop, code := 0x42, count := 1, refresh := false } s
    t.trip.levels.eff = .rampStop ∧ t.trip.levels.loc = .clear ∧ t.gen.target = 0 ∧
    t.gen.state = .stopping ∧ t.trip.levels.summary.getD 6 false = true := by decide +kernel

/-- The waterfall (9.6): line 1,034 after 1,028 completes the row with a gap line. -/
theorem test_waterfall_worked :
    let u : ScreenUnit := { ScreenUnit.reset with
      panel := { defaultPanel with viewStream := some 4, viewCol := 10, viewRow := 20, viewWidth := 2,
                                   viewHeight := 3 },
      view := { buffer := List.replicate 15 (List.replicate 32 1),
                current := some { line := 1028, isOpen := false, width := 40,
                                  pixels := List.replicate 32 1 }, row := 0 } }
    let g : Segment := { line := 1034, step := 2, stamp := 0, offset := 0, count := 40, width := 40,
                         pixels := List.replicate 40 9 }
    let t := u.takeSegment false g
    t.view.buffer.length = 2 ∧ t.view.row = 1 ∧ t.queue.map (·.col) = [10, 11] ∧
    (t.takeSegment false { g with line := 1030 }).ctr.lateLine = 1 := by decide +kernel

/-- A banner over a stream (9.7): the rise to NOTICE takes the banner row's write out of the queue, and its
tile is stale. -/
theorem test_banner_worked :
    let p : PanelRecord := { defaultPanel with width := 20, height := 12 }
    let w (c r : Nat) : TileWrite := { stream := some 5, col := c, row := r, content := .fill 1 }
    let u : ScreenUnit := { ScreenUnit.reset with
      panel := p, tiles := List.replicate 240 { emptyTile with source := .stream 5 },
      streams := [{ stream := 5, owner := 3 }], queue := [w 4 0, w 5 6], link := none, job := .idle }
    let t := u.raiseBanner .notice
    t.job = .draw .notice 1 ∧ t.queue = [w 5 6] ∧ t.staleCount 5 = 1 ∧
    t.staleSpans 5 = [{ row := 0, col := 4, count := 1 }] := by decide +kernel

/-! ## Commands at the ports -/

/-- A T frame on a tapped stream is taken by the Trip Unit and forwarded with its hop count increased (R20,
R29, R163). -/
theorem test_trip_frame_arrives :
    let s : State := { thru with sw := { thru.sw with
      tap := some { cls := .t, stream := 5, action := .passCopy, target := .unit } ::
        List.replicate 31 none } }
    let t := after (.frameArrival (mo 900) .a (.ended tFrame (.bytes []))) s
    t.trip.remote = [{ source := 2, level := .notice, code := 0x13, last := 900, stale := false }] ∧
    t.trip.levels.eff = .notice ∧ t.portA.ctr.framesIn = 1 ∧
    (t.portB.tx.map fun x => (x.frame.hdr.hop, x.frame.hdr.age, x.endAt)) =
      some (1, 126, 926) := by decide +kernel

/-- A SEND of a frame to another station waits in the send queue; a TAKE from an empty receive queue is the
empty indication (R192). -/
theorem test_frame_port :
    let f : Offered := offer .k 6 8
    (after (.sendTransaction (mo 9) 1 f) st).station.sendStatus = some .accepted ∧
    (after (.sendTransaction (mo 9) 1 { f with len := 7 }) st).station.sendStatus = some .badFrame ∧
    (after (.sendTransaction (mo 9) 1 f) State.reset).station.sendStatus = some .unassigned ∧
    (after (.takeTransaction (mo 9) 1) st).station.taken = none := by decide

/-- An ENUMERATE offered at address 0 waits in the send queue; at its move the station takes address 1 and
the sweep goes on with 2, from address 1 (R59, R192, R193). -/
theorem test_enumerate_offered :
    let f : Offered := { offer .m 0 12 with reading := .mgmt (wMgmt .command (.enumerate 1 1)) }
    let s := after (.sendTransaction (mo 9) 1 f) thruAtZero
    let t := after (.sendQueueMove (mo 10)) s
    s.station.sendStatus = some .accepted ∧ s.station.sendQ.length = 1 ∧ t.station.sendQ = [] ∧
    t.station.address = 1 ∧ (t.portB.tx.map fun x => (x.frame.hdr.src, (mgmtOf x.frame.body).cmd)) =
      some (1, .enumerate 1 2) := by decide

/-- A COLLECT comes home with two digests of 16 bytes: its header, body length 40, is kept (R12, R190). -/
theorem test_collect_returns :
    let t := after (.collect (mo 0) (.returned { hdr .m 40 with dest := 0 }) 9 2 false true []) st
    t.station.recvQ.map (fun x => (x.2.hdr.len, (mgmtOf x.2.body).kind)) = [(40, .response)] := by
  decide

/-- A frame short of its 16th header byte is cut by the loss of light: counted TRUNCATED (R13). -/
theorem test_short_frame_truncated :
    (after (.lossOfLight { mo 0 with shortA := true } .a) thru).portA.ctr.truncated = 1 ∧
    (after (.lossOfLight (mo 0) .a) thru).portA.ctr.truncated = 0 := by decide

/-- A READ-in I frame of station 2 is repeated with hop count 1 and its own body bytes: the check value sent is
the CRC-32 of the bytes sent (R14). -/
theorem test_forwarded_check :
    let t := after (.frameArrival (mo 0) .a (.ended iFrame (.image [] true))) thru
    (t.portB.tx.map fun x => (x.frame.hdr.hop, x.frame.wire)) = some (1, some [1, 2, 3, 4]) ∧
    (t.portB.tx.bind (·.check)) = t.portB.tx.map fun x => crc32 (headerBytes x.frame.hdr ++ [1, 2, 3, 4]) := by
  decide +kernel

/-! ## Writes of more than one entry -/

/-- A COUPLED axis at the ends of its ranges, and a running stop-confirm timer. -/
def wAxis : State :=
  { thru with
    axes := { AxisTable.reset with
      recs := (Four.all4 defaultAxis).set 0 { defaultAxis with
        state := .coupled, acc := 255, phase := 2 ^ 30, phaseTarget := -2 ^ 30, step := 3 },
      stopTimer := some 5 },
    pending := [.stopConfirmExpiry (mo 5)] }

/-- U is tested against the T of the resulting record (R67, R187): 500 passes with T 1,000 written after it. -/
theorem test_master_entries_one_record :
    let es := [(0, { defaultMaster with period := 250, offset := 500 }),
      (0, { defaultMaster with period := 1000, offset := 500 })]
    (after (.writeMaster (mo 0) env es) { thru with strap := true }).gen.cfg.period = 1000 ∧
    checkMaster (lastRecord defaultMaster (es.take 1)) { thru with strap := true } es[0] =
      some .badValue := by decide

/-- Two entries for one COUPLED axis whose last restores its gear pass; the first alone is IN_USE (R87, R187). -/
theorem test_axis_entries_one_record :
    let es := [(0, { defaultAxisConfig with num := 2 }), (0, { defaultAxisConfig with decel := 7 })]
    (checkAxis es wAxis es[0], checkAxis es wAxis es[1]) = (none, none) ∧
    checkAxis (es.take 1) wAxis es[0] = some .inUse ∧
    ((after (.writeAxis (mo 0) env es) wAxis).axis 0).acc = 255 := by decide

/-- The F of an exchange's start judges it, though a WRITE has changed F since (R87). -/
theorem test_follow_limit_of_the_start :
    let s := (thru.setAxis 0 { defaultAxis with
      state := .coupled, cfg := { defaultAxisConfig with followLimit := 200 } })
    ((startExchange 0 false s).drive.exchange.map (·.limit)) = some 200 := by decide

/-! ## Witnesses: the machine as a whole -/

theorem test_witness_StepRunsFrontCommand :
    ({ st with pending := [.masterStop (mo 1) env, .powerOn (mo 2)] } : State).pending =
      .masterStop (mo 1) env :: [.powerOn (mo 2)] ∧ st.pending = [] := by decide

theorem test_witness_CommandsKeepQueueAndPart :
    ∃ t, exec (.readyDrop (mo 7) 2) thru = .next t := ⟨_, rfl⟩

theorem test_witness_OnlyImpossibleEventsStop :
    exec (.frameStart (mo 1) .a 0 [1] false) thru = .fault .noSuchEvent ∧
    exec (.exchangeCompletion (mo 1) []) thru = .fault .noSuchEvent ∧
    exec (.frameArrival (mo 1) .a (.ended tFrame (.bytes [])))
      (thru.setPort .a { good with reception := some (recv .c 16) }) = .fault .noSuchEvent :=
  ⟨rfl, rfl, rfl⟩

/-- A station with a remote entry, its levels recomputed. -/
def wTrip : State :=
  let t := { TripUnit.reset with
    remote := [{ source := 2, level := .rampStop, code := 0x42, last := 0, stale := true }] }
  { st with trip := { t with levels := t.compute }, pending := [.clearRemote (mo 1) env] }

theorem test_witness_StepKeepsTripInv :
    TripInv wTrip ∧ RemoteInv wTrip ∧ ∃ t, step wTrip = .next t :=
  ⟨⟨⟨by decide, rfl, rfl⟩, List.pairwise_singleton _ _, rfl, by decide⟩,
    by unfold RemoteInv; decide, _, rfl⟩

/-- A station at DRIVE_OFF with an exchange under way. -/
def wDrive : State :=
  { thru with
    trip := { thru.trip with levels := { calm with eff := .driveOff }, tripOut := true },
    drive := { DriveLink.reset with exchange := some {
      axis := 0, release := false, setpoint := 0, enable := false, level := .driveOff, sequence := 0,
      record := [], limit := 0, noCapture := false, void := false } },
    pending := [.readyDrop (mo 1) 0] }

theorem test_witness_StepKeepsDriveOffInv : DriveOffInv wDrive ∧ ∃ t, step wDrive = .next t := by
  refine ⟨⟨fun _ => ⟨by decide, rfl⟩, fun _ => rfl, ?_⟩, _, rfl⟩
  intro x h _
  cases h
  rfl

theorem test_witness_StepKeepsAxisInv : AxisInv wAxis ∧ ∃ t, step wAxis = .next t := by
  refine ⟨⟨fun a => ?_, fun _ => rfl⟩, _, rfl⟩
  match a with
  | 0 | 1 | 2 | 3 => constructor <;> decide

/-- A running cycle master at v_max. -/
def wGen : State :=
  { thru with
    gen := { ramp with speed := 8000000, target := 8000000, rem := 999, state := .running },
    pending := [.cycleTimerExpiry (mo 0)] }

theorem test_witness_StepKeepsGeneratorInv : GeneratorInv wGen ∧ ∃ t, step wGen = .next t :=
  ⟨by unfold GeneratorInv; decide, _, rfl⟩

/-- A COASTING follower with δ. -/
def wCtx : State :=
  { thru with
    ctx := { follower with state := .coasting, misses := 2, delta := some 1, rem := 999 },
    pending := [.missTimerExpiry (mo 93700)] }

theorem test_witness_StepKeepsCycleInv : CycleInv wCtx ∧ ∃ t, step wCtx = .next t :=
  ⟨by constructor <;> decide, _, rfl⟩

/-- A station in THROUGH about to lose light. -/
def wRing : State := { thru with pending := [.lossOfLight (mo 1) .a] }

theorem test_witness_StepKeepsRingInv : RingInv wRing ∧ ∃ t, step wRing = .next t :=
  ⟨⟨⟨by decide, by decide, by decide⟩, ⟨by decide, by decide, by decide⟩, rfl⟩, _, rfl⟩

/-- Bytes that fill the transit FIFO to 4,052 and the repeat FIFO to 2,004: one frame of 44 fits. -/
def wTransit : List QItem := [item .i 1024, item .i 1024, item .i 1024, item .i 900]
def wRepeat : List QItem := [item .i 1024, item .i 940]

/-- The reservation of the frame that port A receives. -/
def wResv : QItem := { item .i 24 with origin := .reserved .a, ready := false }

/-- A station with its urgent queue, its transit FIFO and its receive queue full, a frame being received, a
C entry delivering to the unit, and a saturated counter. -/
def wFull : State :=
  { thru with
    portA := { good with
      ctr := { good.ctr with framesIn := 65535 }, reception := some (recv .i 24) },
    sw := { thru.sw with
      urgent := { item .c 16 with origin := .own } :: List.replicate 7 (item .t 4),
      transit := wResv :: wTransit, counter := wRepeat,
      tap := some { cls := .c, stream := 6, action := .take, target := .unit } ::
        some { cls := .s, stream := 255, action := .drop, target := .unit } ::
        List.replicate 30 none },
    station := { thru.station with
      recvQ := List.replicate 8 (0, { hdr := hdr .m 8, body := .bytes [] }) },
    pending := [.takeTransaction (mo 1) 0] }

theorem test_full_origins :
    (∀ i ∈ wFull.sw.counter, i.origin = .passing) ∧
    ∀ i ∈ wFull.sw.urgent ++ wFull.sw.transit, i.origin = .passing ∨ i.origin = .own ∨
      (i.origin = .reserved .a ∧ i.frame.hdr.len = 24) := by decide

theorem test_full_tap : ∀ x ∈ wFull.sw.tap,
    x.all (fun e => tapClass e.cls && decide (e.stream ≤ 255)) = true := by decide

theorem test_witness_StepKeepsBounds :
    QueueInv wFull ∧ CounterInv wFull ∧ TapInv wFull ∧ ∃ t, step wFull = .next t := by
  refine ⟨?_, ?_, ?_, _, rfl⟩
  · constructor
    case reservations =>
      refine ⟨fun p => by cases p <;> decide, ?_, ?_⟩
      · intro p i hi h
        rcases test_full_origins.2 i hi with k | k | ⟨k, l⟩
        · cases h.symm.trans k
        · cases h.symm.trans k
        · cases h.symm.trans k
          exact ⟨_, rfl, rfl, by decide, l⟩
      · intro p i hi h
        cases h.symm.trans (test_full_origins.1 i hi)
    case locals => intro cls; cases cls <;> exact Nat.zero_le 8
    all_goals decide +kernel
  · intro i
    match i with
    | 0 | 1 | 2 | 3 | 4 | 5 | 6 | 7 | 8 => decide
    | i + 9 => intro n h; cases h
  · exact ⟨by decide, fun e h => by simpa using test_full_tap _ h, by decide, by decide⟩

theorem test_witness_PowerUpResetsEverything :
    (.powerOn (mo 3) : Instr) = .powerOn (mo 3) ∨ (.powerOn (mo 3) : Instr) = .resetPin (mo 3) :=
  .inl rfl

/-! ## Witnesses: ports and ring -/

theorem test_whole : TripWhole thru := ⟨by decide, rfl, rfl⟩

/-- Station 5 whose port B heals until time 50. -/
def wHeal : State :=
  { thru with
    portB := { good with side := .healing, hold := some 50 }, sw := { thru.sw with role := .wrapB } }

theorem test_witness_ReceiveStateAndSide :
    (lineEvent (.breakSymbolRun (mo 1) .a) = some .a ∧ thru.portA.rx = .sync ∧
      (after (.breakSymbolRun (mo 1) .a) thru).portA.rx ≠ .sync) ∧
    (lineEvent (.lossOfLight { mo 1 with shortA := true } .a) = some .a ∧
      shortFrame (.lossOfLight { mo 1 with shortA := true } .a) = true ∧
      (after (.lossOfLight { mo 1 with shortA := true } .a) thru).portA.rx ≠ .sync) ∧
    (lineEvent (.huntFillRun (mo 1) .a .idle) = some .a ∧ State.reset.portA.rx ≠ .sync ∧
      (after (.huntFillRun (mo 1) .a .idle)
        (st.setPort .a { Port.reset with rx := .hunt })).portA.rx = .sync) ∧
    (lineEvent (.lightPresent (mo 1) .a) = some .a ∧
      (State.reset.portA.rx = .sync ↔
        (after (.lightPresent (mo 1) .a) State.reset).portA.rx = .sync)) ∧
    TripWhole wHeal ∧ (wHeal.port .b).side = .healing ∧ (wHeal.port .b).hold = some 50 ∧
    50 ≤ max wHeal.clock (mo 50).time ∧ max wHeal.clock (mo 49).time < 50 :=
  ⟨by decide, by decide, by decide, by decide, ⟨by decide, rfl, rfl⟩, rfl, rfl, by decide,
    by decide⟩

theorem test_witness_InvalidSymbolCounted :
    let l (old : List Nat) (pos : Nat) := (old.filter fun q => decide (pos < q + 256)) ++ [pos]
    (State.reset.port .a).skipping = false ∧ (State.reset.port .a).rx ≠ .sync ∧
    (State.reset.port .a).rx ≠ .brk ∧
    ({ good with skipping := true } : Port).skipping = true ∧ BadSymbol.strayData = .strayData ∧
    ({ good with rx := .brk } : Port).rx = .brk ∧
    good.skipping = false ∧ good.rx = .sync ∧ (l [0, 1, 2] 257).length < 4 ∧
    good.reception = none ∧ ({ good with reception := some (recv .i 24) } : Port).reception ≠ none ∧
    4 ≤ (l [0, 1, 2] 255).length := by decide

theorem test_witness_FrameStartReserves :
    ([] : List Byte).length ≠ 16 ∧ tHeader.length = 16 ∧ iHeader.length = 16 ∧
    (thru.port .a).rx = .sync ∧ (thru.port .a).reception = none ∧
    rxUse thru.sw.role .a = .forwardInput ∧ (readHeader tHeader).cls = .t ∧
    ¬ (((readHeader tHeader).cls = .k ∨ (readHeader tHeader).cls = .m) ∧
      (readHeader tHeader).dest = thru.station.address) ∧
    (List.replicate 7 (item .t 4)).length < 8 ∧ 8 ≤ (List.replicate 8 (item .t 4)).length ∧
    (readHeader iHeader).cls ≠ .t ∧ (readHeader iHeader).cls ≠ .c ∧
    queueBytes wTransit + (20 + (readHeader iHeader).len) ≤ 4096 ∧
    4096 < queueBytes (item .s 0 :: wTransit) + (20 + (readHeader iHeader).len) ∧
    rxUse thru.sw.role .b = .counterInput ∧ (readHeader iHeader).hop + 1 < 127 ∧
    queueBytes wRepeat + (20 + (readHeader iHeader).len) ≤ 2048 ∧
    2048 < queueBytes (item .s 0 :: wRepeat) + (20 + (readHeader iHeader).len) ∧
    127 ≤ (readHeader (tHop126.take 16)).hop + 1 ∧ rxUse .wrapB .b = .unused := by decide

theorem test_witness_ReservationReaches32 :
    let s : State := (thru.setPort .a { good with reception := some (recv .i 24) }).setSw
      { thru.sw with transit := [wResv] }
    OutputsBusy (s.setPort .b { good with tx := some busy }) ∧
    (s.setPort .b { good with tx := some busy } |>.port .a).reception = some (recv .i 24) ∧
    (s.port .a).reception = some (recv .i 24) ∧ forwardOutput s.sw.role = some .b ∧
    (s.port .b).tx = none ∧ (s.port .b).side = .usable ∧ s.sw.counter = [] ∧ s.sw.urgent = [] ∧
    s.sw.transit = wResv :: [] ∧ wResv.origin = .reserved .a :=
  ⟨⟨.inl rfl, .b, rfl, .inl (by decide)⟩, rfl, rfl, rfl, rfl, rfl, rfl, rfl, rfl, rfl⟩

theorem test_witness_BadFrameDiscarded :
    (thru.port .a).rx = .sync ∧
    arrivalFits (thru.tick (mo 1)) .a (tFrame.take 23 ++ [0xEC]) = true ∧
    judgeFrame (tFrame.take 23 ++ [0xEC]) = .crcBad ∧
    arrivalFits (thru.tick (mo 1)) .a (tFrame.take 19) = true ∧
    judgeFrame (tFrame.take 19) = .formatBad ∧ Closing.aborted = .aborted ∧
    Closing.truncated .overlong = .truncated .overlong := by decide +kernel

/-- A good arrival, shown by evaluation. -/
theorem test_arrives {s : State} {bytes : List Byte} {p : PortId} (sync : (s.port p).rx = .sync)
    (rest : (arrivalFits (s.tick (mo 1)) p bytes && decide (judgeFrame bytes = .good)) = true) :
    GoodArrival s (mo 1) p bytes :=
  have h := Bool.and_eq_true _ _ |>.mp rest
  ⟨sync, h.1, of_decide_eq_true h.2⟩

/-- The station with its forward output busy. -/
def sending (s : State) : State := s.setPort .b { s.portB with tx := some busy }

/-- The reading of an S, I or M body that is bytes. -/
abbrev raw : Body := .bytes []

theorem test_witness_FrameEndsAtTheSwitch :
    (GoodArrival thru (mo 1) .a tHop126 ∧ thru.arrivalUse .a ≠ .unused ∧
      127 ≤ (readFrame tHop126 raw).hdr.hop + 1) ∧
    (GoodArrival wHeal (mo 1) .b tFrame ∧ wHeal.arrivalUse .b = .unused) ∧
    (GoodArrival thru (mo 1) .a tOwn ∧ thru.arrivalUse .a = .forwardInput ∧
      (readFrame tOwn raw).hdr.hop + 1 < 127 ∧ thru.station.address ≠ 0 ∧
      (readFrame tOwn raw).hdr.src = thru.station.address ∧
      (readFrame tOwn raw).hdr.tag = thru.tag ∧ (readFrame tOwn raw).hdr.cls = .t) ∧
    OutputsBusy (sending thru) ∧ (sending thru).portB.tx = some busy ∧
    ({ busy with copyOf := some .a } : Tx).copyOf = some .a ∧ busy.aborted = false :=
  ⟨⟨test_arrives rfl (by decide +kernel), by decide, by decide⟩,
    ⟨test_arrives rfl (by decide +kernel), by decide⟩,
    ⟨test_arrives rfl (by decide +kernel), by decide, by decide, by decide, by decide, by decide,
      by decide⟩, ⟨.inl rfl, .b, rfl, .inl (by decide)⟩, rfl, rfl, rfl⟩

/-- Station 5 sending on port B a copy of the I frame it receives on port A. -/
def wCopy : State :=
  { thru with
    portA := { good with reception := some { recv .i 4 with resv := .picked } },
    portB := { good with tx := some { busy with copyOf := some .a } } }

/-- Station 5 with its urgent queue full and its forward output busy. -/
def wUrgent : State :=
  sending { thru with sw := { thru.sw with urgent := List.replicate 8 (item .t 4) } }

theorem test_witness_FrameForwarded :
    (GoodArrival (sending thru) (mo 1) .a iFrame ∧ (readFrame iFrame raw).hdr.hop + 1 < 127 ∧
      OutputsBusy (sending thru) ∧ (sending thru).arrivalUse .a = .forwardInput ∧
      PassesOn (sending thru) (readFrame iFrame raw) ∧ (readFrame iFrame raw).hdr.cls = .i ∧
      (sending thru).resvOf .a = .none) ∧
    (GoodArrival wUrgent (mo 1) .a cFrame ∧ (readFrame cFrame raw).hdr.hop + 1 < 127 ∧
      OutputsBusy wUrgent ∧ wUrgent.arrivalUse .a = .forwardInput ∧
      PassesOn wUrgent (readFrame cFrame raw) ∧ (readFrame cFrame raw).hdr.cls = .c ∧
      wUrgent.resvOf .a = .none ∧ 8 ≤ wUrgent.sw.urgent.length ∧ TripWhole wUrgent) ∧
    (let s := sending { thru with portA := { good with tx := some busy } }
     GoodArrival s (mo 1) .b iFrame ∧ OutputsBusy s ∧ s.arrivalUse .b = .counterInput ∧
     s.portA.tx ≠ none ∧ ∀ o x, (s.port o).tx = some x → x.copyOf ≠ some .b) ∧
    (GoodArrival wCopy (mo 1) .a iFrame ∧ OutputsBusy wCopy ∧ wCopy.arrivalUse .a = .forwardInput ∧
      PassesOn wCopy (readFrame iFrame raw) ∧ wCopy.resvOf .a = .picked ∧
      (wCopy.port .b).tx = some { busy with copyOf := some .a } ∧ (wCopy.port .a).tx = none) ∧
    ∀ o x, ((sending thru).port o).tx = some x → x.copyOf ≠ some .a :=
  ⟨⟨test_arrives rfl (by decide +kernel), by decide, ⟨.inl rfl, .b, rfl, .inl (by decide)⟩,
      by decide, ⟨by decide, rfl⟩, by decide, by decide⟩,
    ⟨test_arrives rfl (by decide +kernel), by decide, ⟨.inl rfl, .b, rfl, .inl (by decide)⟩,
      by decide, ⟨by decide, rfl⟩, by decide, by decide, by decide, ⟨by decide, rfl, rfl⟩⟩,
    ⟨test_arrives rfl (by decide +kernel), ⟨.inl rfl, .b, rfl, .inl (by decide)⟩, by decide,
      by decide, fun o x h => by cases o <;> cases h <;> decide⟩,
    ⟨test_arrives rfl (by decide +kernel), ⟨.inl rfl, .b, rfl, .inl (by decide)⟩, by decide,
      ⟨by decide, rfl⟩, by decide, rfl, rfl⟩,
    fun o x h => by cases o <;> cases h; decide⟩

theorem test_witness_ClashOfAddress :
    TripWhole thru ∧ GoodArrival thru (mo 1) .a tClash ∧ thru.arrivalUse .a = .forwardInput ∧
    (readFrame tClash raw).hdr.hop + 1 < 127 ∧ thru.station.address ≠ 0 ∧
    (readFrame tClash raw).hdr.src = thru.station.address ∧
    (readFrame tClash raw).hdr.tag ≠ thru.tag ∧ (readFrame tClash raw).hdr.cls = .t ∧
    ({ thru with trip := thru.trip.latch .addressClash } : State).trip.isLatched .addressClash = true ∧
    thru.sw.urgent.length < 8 :=
  ⟨test_whole, test_arrives rfl (by decide +kernel), by decide⟩

/-- Station 5 with a tap entry for stream 6 of class C. -/
def tapped (action : TapAction) (target : TapTarget) : State :=
  { thru with sw := { thru.sw with
    tap := some { cls := .c, stream := 6, action := action, target := target } ::
      List.replicate 31 none } }

theorem test_witness_TapTableDelivers :
    GoodArrival (tapped .take .port) (mo 1) .a cFrame ∧
    (tapped .take .port).arrivalUse .a = .forwardInput ∧
    (readFrame cFrame raw).hdr.hop + 1 < 127 ∧ (tapped .take .port).station.address ≠ 0 ∧
    (readFrame cFrame raw).hdr.src ≠ (tapped .take .port).station.address ∧
    (readFrame cFrame raw).hdr.cls = .c ∧ (readFrame tFrame raw).hdr.cls = .t ∧
    tapFind (tapped .take .port).sw.tap .c 6 =
      some { cls := .c, stream := 6, action := .take, target := .port } ∧
    tapFind (tapped .drop .unit).sw.tap .c 6 =
      some { cls := .c, stream := 6, action := .drop, target := .unit } ∧
    tapFind (tapped .passCopy .unit).sw.tap .c 6 =
      some { cls := .c, stream := 6, action := .passCopy, target := .unit } ∧
    tapFind thru.sw.tap .c 6 = none ∧ thru.resvOf .a = .none ∧
    ({ thru with portA := { good with reception := some (recv .c 16) } } : State).resvOf .a ≠ .none ∧
    (readFrame iFrame raw).hdr.cls = .i :=
  ⟨test_arrives rfl (by decide +kernel), by decide +kernel⟩

theorem test_witness_CorrectionsTaken :
    ((wAxis.axis 0).state = .coupled ∧ (wAxis.axis 1).state ≠ .coupled ∧
      (wAxis.axis 0).cfg.corrMax ≠ 1 ∧ TripWhole wAxis) ∧
    (∀ b ∈ [kFrame, kAll, kOther], readCorr (bodyBytes b) =
      some { repeatNo := 7, records := [{ axis := 2, amount := -31, window := 3 }] }) ∧
    GoodArrival thru (mo 1) .a kFrame ∧ GoodArrival thru (mo 1) .a kAll ∧
    GoodArrival thru (mo 1) .a kOther ∧ thru.arrivalUse .a = .forwardInput ∧
    thru.station.address ≠ 0 ∧ (readFrame kFrame raw).hdr.cls = .k ∧
    (readFrame kFrame raw).hdr.hop + 1 < 127 ∧ (readFrame kFrame raw).hdr.src ≠ thru.station.address ∧
    (readFrame kFrame raw).hdr.dest = thru.station.address ∧ (readFrame kAll raw).hdr.dest = 63 ∧
    (readFrame kOther raw).hdr.dest = 6 ∧ OutputsBusy (sending thru) :=
  ⟨⟨by decide, by decide, by decide, ⟨by decide, rfl, rfl⟩⟩, by decide +kernel,
    test_arrives rfl (by decide +kernel), test_arrives rfl (by decide +kernel),
    test_arrives rfl (by decide +kernel), by decide, by decide, by decide, by decide, by decide,
    by decide, by decide, by decide, ⟨.inl rfl, .b, rfl, .inl (by decide)⟩⟩

theorem test_witness_ManagementFrames :
    GoodArrival thru (mo 1) .a mFrame ∧ GoodArrival thru (mo 1) .a mAll ∧
    GoodArrival thru (mo 1) .a sFrame ∧ thru.arrivalUse .a = .forwardInput ∧
    thru.station.address ≠ 0 ∧
    (let g := readFrame mFrame (.mgmt (wMgmt .command (.couple 3)))
     g.hdr.hop + 1 < 127 ∧ g.hdr.src ≠ thru.station.address ∧ g.hdr.cls = .m ∧
     g.hdr.dest = thru.station.address ∧ (mgmtOf g.body).kind = .command) ∧
    (let g := readFrame mAll (.mgmt (wMgmt .response .status))
     g.hdr.dest = 63 ∧ (mgmtOf g.body).kind = .response) ∧
    (let g := readFrame sFrame raw
     g.hdr.cls = .s ∧ isRepaint g.body = true ∧ g.hdr.dest = thru.station.address) ∧
    commandOf (.couple (mo 1) env 3) =
      some (⟨.ring 1, (wMgmt .command (.couple 3)).hostTag, true⟩, .couple 3) ∧
    (wMgmt .other .status).kind = .other ∧
    ((wMgmt .command (.unknown 99)).kind = .command ∧
      ∃ code, (wMgmt .command (.unknown 99)).cmd = .unknown code) :=
  ⟨test_arrives rfl (by decide +kernel), test_arrives rfl (by decide +kernel),
    test_arrives rfl (by decide +kernel), by decide, by decide, by decide, by decide, by decide,
    by decide, by decide, by decide, 99, rfl⟩

theorem test_witness_TransmitCompletion :
    (let s := thru.setPort .b { good with tx := some busy }
     (s.port .b).tx = some busy ∧ busy.copyOf = none ∧
     ({ busy with copyOf := some .a } : Tx).copyOf ≠ none ∧ s.sw.forwardItems = 0 ∧
     s.sw.counter = []) ∧
    let i := item .i 24
    let w : Switch := Switch.reset
    ({ w with urgent := [i] } : Switch).urgent = i :: [] ∧ i.eligible = true ∧
    wResv.eligible = false ∧ (∀ j l, w.urgent = j :: l → j.eligible = false) ∧ w.transit = [] ∧
    w.localK = [] ∧ w.localM = [] ∧ w.localS = [] :=
  ⟨by decide, rfl, rfl, rfl, fun _ _ h => (nomatch h), rfl, rfl, rfl, rfl⟩

/-- A K frame waiting in the send queue. -/
def wSend : Frame := { hdr := { hdr .k 8 with dest := 6 }, body := .bytes [] }

theorem test_witness_SendQueueMoves :
    let s : State := { thru with station := { thru.station with sendQ := [wSend] } }
    let b : Frame := { hdr := { hdr .m 8 with dest := 63 }, body := .mgmt (wMgmt .command .masterStop) }
    s.station.sendQ = wSend :: [] ∧ wSend.hdr.cls = .k ∧
    ({ s with station := { s.station with address := 0 } } : State).station.address = 0 ∧
    s.station.address ≠ 0 ∧ 8 ≤ (List.replicate 8 (item .k 8)).length ∧
    (s.sw.localQ wSend.hdr.cls).length < 8 ∧
    (b.hdr.cls = .m ∧ (mgmtOf b.body).kind = .command ∧ b.hdr.dest = 63) ∧
    s.sw.localM.length < 8 ∧ (takeCommand .broadcast (mgmtOf b.body) s).sw.localM.length < 8 ∧
    OutputsBusy (takeCommand .broadcast (mgmtOf b.body) (sending s)) ∧ OutputsBusy (sending s) :=
  ⟨rfl, rfl, rfl, by decide, by decide, by decide, ⟨rfl, rfl, rfl⟩, by decide, by decide,
    ⟨.inl rfl, .b, rfl, .inl (by decide)⟩, ⟨.inl rfl, .b, rfl, .inl (by decide)⟩⟩

/-! ## Witnesses: master and cycle -/

theorem test_witness_CycleTimerIssues :
    let s : State := { thru with gen := { ramp with timer := some { period := 750, due := 10 } } }
    s.gen.timer = some { period := 750, due := 10 } ∧ max s.clock (mo 9).time < 10 ∧
    10 ≤ max s.clock (mo 10).time ∧ s.ctx.learns = true ∧ s.sw.urgent.length < 8 ∧
    ({ follower with learnt := some (s.station.address, s.tag) } : CycleCtx).learnt =
      some (s.station.address, s.tag) ∧
    State.reset.station.address = 0 ∧ wFull.sw.urgent.any QItem.isLocalC = true ∧
    8 ≤ wUrgent.sw.urgent.length ∧
    ({ wUrgent with trip := wUrgent.trip.latch .ringCongestion } : State).trip.isLatched
      .ringCongestion = true := by decide

theorem test_witness_managed : thru.station.address ≠ 0 ∧ env.lengthOk = true := by decide

theorem test_witness_MasterCommands : thru.station.address ≠ 0 ∧ env.lengthOk = true :=
  test_witness_managed

/-- A pending frame of the next cycle, due at time 10. -/
def wFrame : PendingCycle :=
  { num := 201, pos := 5075001, speed := 100001, period := 750, offset := 400, state := .stopping,
    due := 10 }

theorem test_witness_PendingFrameApplied :
    let s : State := { thru with ctx := { follower with pending := some wFrame } }
    s.ctx.pending = some wFrame ∧ max s.clock (mo 9).time < wFrame.due ∧
    wFrame.due ≤ max s.clock (mo 10).time ∧ s.ctx.state = .tracking ∧
    wFrame.num = s.ctx.lastCycle + 1 ∧ wFrame.state = .stopping ∧ DrivesReady s (mo 10) ∧
    CycleCtx.reset.state = .idle ∧ TripWhole s ∧
    (let f := { wFrame with num := 203 }
     2 ≤ (f.num - s.ctx.lastCycle).toNat ∧
     s.ctx.misses + (f.num - s.ctx.lastCycle).toNat ≤ s.station.cfg.missLimit ∧
     s.station.cfg.missLimit < 1 + (f.num - s.ctx.lastCycle).toNat) :=
  ⟨rfl, by decide, by decide, rfl, by decide, rfl, ⟨rfl, by decide⟩, rfl, ⟨by decide, rfl, rfl⟩,
    by decide⟩

/-- A zero crossing forward and one backward: the two sides of the repeat counter meet both (R82, R83). -/
theorem test_repeat_counter :
    let f (p : BitVec 28) : PendingCycle := { wFrame with pos := p }
    let s (p q : BitVec 28) : State :=
      { thru with ctx := { follower with pos := p, pending := some (f q) } }
    (after (.pendingFrameDue (mo 10)) (s 268435455 5)).ctx.repeats = 1 ∧
    (after (.pendingFrameDue (mo 10)) (s 5 268435455)).ctx.repeats = 65535 := by decide

theorem test_witness_MissedCycle :
    let s : State := { thru with ctx := follower }
    s.ctx.missTimer = some 93700 ∧ max s.clock (mo 93699).time < 93700 ∧
    93700 ≤ max s.clock (mo 93700).time ∧
    (∃ f, ({ follower with pending := some wFrame } : CycleCtx).pending = some f ∧
      f.num = follower.lastCycle + 1) ∧
    (∀ f, s.ctx.pending = some f → f.num ≠ s.ctx.lastCycle + 1) ∧ TripWhole s ∧
    s.station.cfg.missLimit ≤ 2 + 1 :=
  ⟨rfl, by decide, by decide, ⟨wFrame, rfl, by decide⟩, fun f h => (by cases h),
    ⟨by decide, rfl, rfl⟩, by decide⟩

theorem test_witness_LocalAndStopTimers :
    let s : State := { thru with ctx := { follower with state := .lost, localTimer := some 8 } }
    s.ctx.localTimer = some 8 ∧ max s.clock (mo 7).time < 8 ∧ 8 ≤ max s.clock (mo 8).time ∧
    DrivesReady s (mo 8) ∧ wAxis.axes.stopTimer = some 5 ∧ TripWhole wAxis ∧
    ({ wAxis with trip := wAxis.trip.latch .stopUnconfirmed } : State).trip.isLatched
      .stopUnconfirmed = true :=
  ⟨rfl, by decide, by decide, ⟨rfl, by decide⟩, rfl, ⟨by decide, rfl, rfl⟩, by decide⟩

theorem test_witness_CycleSources :
    let s : State := { thru with ctx := follower }
    let ahead (y z : BitVec 16) : Bool := decide (0 < (y - z).toInt)
    TripWhole s ∧ s.ctx.learns = false ∧ s.ctx.learnt ≠ some (3, 0x1234) ∧
    s.ctx.learnt = some (2, 0x1234) ∧ s.ctx.state = .tracking ∧ thru.ctx.learns = true ∧
    (let x : CycleCtx := { follower with state := .lost, pending := some wFrame }
     x.learns = false ∧ x.state = .lost ∧ x.pending = some wFrame ∧
     ahead 202 wFrame.num = true ∧ ahead 201 wFrame.num = false) ∧
    ahead 201 200 = true ∧ ahead 200 200 = false ∧ ahead 199 200 = false ∧
    ({ follower with state := .coasting } : CycleCtx).delta = none ∧
    100 * 20 < 100 * (2100 / 100) ∧ ¬ 100 * 20 < 100 * (2000 / 100) := by
  refine ⟨⟨by decide, rfl, rfl⟩, ?_⟩
  decide

/-! ## Witnesses: axes and drive link -/

theorem test_witness_GearNeverDrifts :
    1 ≤ defaultAxisConfig.den ∧ (255 : Nat) < 256 * defaultAxisConfig.den := by decide

theorem test_witness_AxisStepRules :
    ({ defaultAxis with state := .coupled } : AxisRecord).state = .coupled ∧
    ({ defaultAxis with state := .coastdown, step := -3 } : AxisRecord).state = .coastdown ∧
    defaultAxis.state ≠ .coupled ∧ defaultAxis.state ≠ .coastdown := by decide

theorem test_witness_axis_index : (3 < (4 : Nat)) ∧ (3 : Nat) = (3 : Fin 4).val := by decide

theorem test_witness_EnableAndDisableAxis :
    (thru.station.address ≠ 0 ∧ env.lengthOk = true) ∧ (3 < 4 ∧ (3 : Nat) = (3 : Fin 4).val) ∧
    (thru.axis 3).state = .disabled ∧ (wAxis.axis 0).state ≠ .disabled ∧
    wDrive.drive.exchange ≠ none := by decide

theorem test_witness_AxisCommands :
    (thru.station.address ≠ 0 ∧ env.lengthOk = true) ∧ 3 < 4 ∧ (3 : Nat) = (3 : Fin 4).val :=
  ⟨test_witness_managed, test_witness_axis_index⟩

theorem test_witness_Couple :
    (wAxis.axis 0).state = .coupled ∧
    ({ defaultAxis with state := .coastdown } : AxisRecord).state = .coastdown ∧
    (wAxis.axis 1).state = .disabled ∧
    (let s : State := ({ thru with ctx := { follower with speed := 0 } } : State).setAxis 1
        { defaultAxis with state := .standby }
     let d : DriveStatus := { actual := 9, ready := true, fault := false, enabled := true,
                              warn := false, faultCode := 0 }
     let u := s.setDriveAxis 1 { DriveAxis.reset with status := some d }
     (u.axis 1).state = .standby ∧ (u.driveAxis 1).status = some d ∧ (s.driveAxis 1).status = none) := by
  decide

/-- A batch exchange of an OFF axis under way, sequence 3. -/
def wExchange : Exchange :=
  { axis := 1, release := false, setpoint := 9, enable := true, level := .clear, sequence := 3,
    record := [], limit := 0, noCapture := false, void := false }

theorem test_witness_ExchangeEnds :
    let b : List Byte := [0x80, 0, 0, 1, 0x05, 3, 0, 0, 0, 0, 0, 0x6F]
    let s (r : AxisRecord) : State := ({ thru with
      drive := { DriveLink.reset with exchange := some wExchange } } : State).setAxis 1 r
    let stand := { defaultAxis with state := .standby, capture := true }
    ([] : List Byte).length ≠ 12 ∧ b.length = 12 ∧ thru.drive.exchange = none ∧
    (s stand).drive.exchange = some wExchange ∧ ((s stand).axis 1).state = .standby ∧
    ((s stand).axis 1).capture = true ∧
    ((s { defaultAxis with state := .off }).axis 1).state = .off ∧
    ((crc8 (b.take 11)).toNat = byteAt b 11 ∧ byteAt b 5 % 16 = wExchange.sequence.toNat) ∧
    (crc8 ((b.set 0 0).take 11)).toNat ≠ byteAt (b.set 0 0) 11 ∧
    (∀ a, (mo 1).ready.get a = true) ∧
    ((s { defaultAxis with state := .coupled }).axis 1).state = .coupled ∧
    (let x := { wExchange with limit := 200 }
     let old : DriveAxis := { DriveAxis.reset with lastSetpoint := some 0x7FFFFFFF }
     x.limit ≠ 0 ∧ (∃ sp, old.lastSetpoint = some sp ∧
       ¬ x.limit < ((readStatus b).actual - sp).toInt.natAbs ∧
       1 < ((readStatus b).actual - sp).toInt.natAbs)) ∧
    TripWhole thru := by
  refine ⟨by decide, rfl, rfl, rfl, rfl, rfl, rfl, by decide +kernel, by decide +kernel, by decide,
    rfl, ⟨by decide, _, rfl, by decide +kernel⟩, test_whole⟩

theorem test_witness_CommandRecord : 6 ≤ 10 ∧ 10 < 11 := by decide

theorem test_witness_ExchangeEnds_readyDrop :
    let s (n : Option Nat) : State := ({ thru with
      drive := { DriveLink.reset with exchange := some wExchange, batch := n } } : State).setAxis 1
        { defaultAxis with state := .coupled }
    (∀ x, (s none).drive.exchange = some x → x.axis ≠ 0) ∧
    (s none).drive.exchange = some wExchange ∧ wExchange.axis = 1 ∧
    ((s none).axis 1).state ≠ .disabled ∧
    (∀ n, (s (some 2)).drive.batch = some n → (1 : Fin 4).val < n) := by
  refine ⟨?_, rfl, rfl, by decide, ?_⟩
  · intro x h
    cases h
    decide
  · intro n h
    cases h
    decide

/-! ## Witnesses: imaging -/

/-- An Image Unit whose next trigger falls due at time 3,400. -/
def wImage : ImageUnit :=
  ImageUnit.reset.takeBase true
    { pos := 10000000, speed := 6710887, period := 500, at_ := 0, repeats := 3 }

/-- A line in progress since time 100. -/
def wLine : CameraLine := { num := 8, stamp := 39936, repeatNo := 3, start := 100 }

theorem test_witness_TriggersAndTimeouts :
    (wImage.trigger = some 3400 ∧ wImage.base.isSome = true ∧ wImage.next = some 10223616 ∧
      max thru.clock (mo 3399).time < 3400 ∧ 3400 ≤ max thru.clock (mo 3400).time ∧
      wImage.line = none ∧ ({ wImage with line := some wLine } : ImageUnit).line ≠ none) ∧
    let s : State := { thru with image := { ImageUnit.reset with line := some wLine } }
    s.image.line = some wLine ∧
    max s.clock (mo 100099).time < wLine.start + s.image.cam.timeout * 100 ∧
    wLine.start + s.image.cam.timeout * 100 ≤ max s.clock (mo 100100).time ∧ TripWhole s :=
  ⟨by decide +kernel, rfl, by decide, by decide, by decide, rfl, rfl⟩

/-- A camera of 16 pixels, its web strip the first 8, that streams 8 pixels of each line as stream 9. -/
def wCam : CameraRecord :=
  { defaultCamera with
    pixels := 16, webStart := 0, webEnd := 8, cropStart := 0, cropWidth := 16, decimation := 2,
    lineStep := 4, streaming := true, stream := 9 }

/-- Stations at the end of a line: the first after a reset, one inside a repeat whose only window stays open
(`stamp` below 50,000) or closes, one that begins the next repeat. -/
def wEnd (prev : Option Nat) (repeatNo : BitVec 16) (p1 : Nat) : State :=
  { thru with image := { ImageUnit.reset with
      line := some wLine, cam := wCam, prevIndex := prev, repeatNo := repeatNo,
      windows := { Window.reset with
        cfg := { defaultWindow with enabled := true, p0 := 0, p1 := p1 }, measuring := true,
        isOpen := true } :: List.replicate 15 Window.reset } }

theorem test_witness_LineEnds :
    thru.image.line = none ∧ (wEnd none 3 50000).image.line = some wLine ∧
    (List.replicate 16 (9 : Byte)).length = (wEnd none 3 50000).image.cam.pixels ∧
    TripWhole (wEnd none 3 50000) ∧
    (let i := wLine.stamp / 2 ^ wCam.pitch
     (wLine.repeatNo ≠ (2 : BitVec 16) ∨ i ≤ i) ∧ wLine.repeatNo = 3 ∧ ¬ i ≤ i - 1) ∧
    wLine.stamp < 50000 ∧ 39936 ≤ wLine.stamp ∧
    (wEnd none 3 39936).image.windows.length = 16 ∧
    (∀ w ∈ (wEnd none 2 50000).image.windows, w.cfg.enabled = true → wLine.stamp < w.cfg.p1) :=
  ⟨rfl, rfl, rfl, ⟨by decide, rfl, rfl⟩, by decide, by decide, by decide, by decide, by decide⟩

/-- The line closes the window whose range it ends, and begins a repeat where its index is not above the one
before (R135, R136). -/
theorem test_line_closes_window :
    let line := List.replicate 16 (9 : Byte)
    let t := after (.lineEnd (mo 5) line) (wEnd (some 1) 3 39936)
    let u := after (.lineEnd (mo 5) line) (wEnd (some 39) 3 50000)
    (t.image.windows.getD 0 Window.reset).isOpen = false ∧
    (t.image.windows.getD 0 Window.reset).result.status = .noEdge ∧
    (u.image.windows.getD 0 Window.reset).isOpen = true ∧
    (u.image.windows.getD 0 Window.reset).result.misses = 1 := by decide +kernel

theorem test_witness_ImageStream :
    let g : Segment := { line := 8, step := 4, stamp := 0, offset := 0, count := 992, width := 992,
                         pixels := List.replicate 992 0 }
    let s : State := { wEnd none 3 50000 with image := { (wEnd none 3 50000).image with asm := [g] } }
    (thru.image.asm = [] ∧ s.image.asm ≠ [] ∧ s.station.address ≠ 0 ∧
      State.reset.station.address = 0 ∧ 8 ≤ wFull.sw.urgent.length ∧ s.sw.localI.length < 8 ∧
      OutputsBusy (sending s)) ∧
    s.image.cam.streaming = true ∧ wLine.num.toNat % s.image.cam.lineStep = 0 ∧
    1 ≤ wCam.cropWidth / wCam.decimation ∧ wCam.cropWidth / wCam.decimation ≤ 1008 ∧
    1008 < 4096 / 1 ∧ defaultCamera.streaming = false ∧ (9 : Nat) % s.image.cam.lineStep ≠ 0 ∧
    8 + 16 + segmentBytes s.image.asm = 1032 ∧ ¬ 8 + 16 + segmentBytes s.image.asm ≤ 1024 :=
  ⟨⟨rfl, by decide, by decide, rfl, by decide, by decide, .inl rfl, .b, rfl, .inl (by decide)⟩,
    by decide +kernel⟩

theorem test_witness_MarkMeasurement :
    crosses true 128 210 60 = true ∧ crosses false 128 128 129 = true ∧
    (let w : Window := { Window.reset with cfg := { defaultWindow with averaging := 2, gain := 256 } }
     w.count + 1 < w.cfg.averaging ∧
     w.cfg.averaging ≤ ({ w with count := 1 } : Window).count + 1 ∧
     w.cfg.deadBand < (Int.tdiv (w.sum + 9) 2).natAbs ∧ (0 : Int).natAbs ≤ w.cfg.deadBand ∧
     (({ w with result := { emptyResult with misses := 7 } } : Window).miss 1 .noEdge).2 = true ∧
     (w.miss 1 .noEdge).2 = false) := by decide

theorem test_witness_MarkMeasurement_look :
    let w : Window := { Window.reset with
      cfg := { defaultWindow with enabled := true, p0 := 10, p1 := 20, threshold := 128 },
      measuring := true, isOpen := true }
    (w.cfg.enabled = true ∧ w.measuring = true ∧ w.isOpen = true ∧ w.edge = none ∧
      w.cfg.p0 ≤ 10 ∧ 10 < w.cfg.p1 ∧ ¬ 20 < w.cfg.p1 ∧ w.prev = none) ∧
    ({ w with prev := some (10, 127) } : Window).prev = some (10, 127) := by decide

/-- Windows of which 0 refers to 2: both close, 1 is closed. -/
def wMarks : List Window :=
  let w : Window := { Window.reset with
    cfg := { defaultWindow with enabled := true }, measuring := true, isOpen := true, edge := some 9 }
  [{ w with cfg := { w.cfg with reference := some 2 } }, { w with isOpen := false },
   { w with edge := none }]

theorem test_witness_WindowsClose :
    let u : ImageUnit := { ImageUnit.reset with
      windows := wMarks, pending := [(5, [⟨0, 1, 0⟩]), (9, [⟨1, 2, 0⟩])] }
    let s : State := { thru with image := u }
    let w (i : Nat) : Window := u.windows.getD i Window.reset
    u.closing (fun _ => true) = [2, 0] ∧ (2 < u.windows.length) ∧ (w 2).edge = none ∧
    (w 0).edge = some 9 ∧ (w 0).cfg.reference = some 2 ∧ (w 1).edge = some 9 ∧
    (w 1).cfg.reference = none ∧ u.pending.Pairwise (fun x y => x.1 < y.1) ∧
    ¬ 16 ≤ ((u.pending.lookup 5).getD []).length ∧
    (let full : ImageUnit := { u with pending := [(9, List.replicate 16 ⟨1, 2, 0⟩)] }
     full.pending.Pairwise (fun x y => x.1 < y.1) ∧ 16 ≤ ((full.pending.lookup 9).getD []).length ∧
     full.pending = [(9, List.replicate 16 ⟨1, 2, 0⟩)] ∧ 9 ≠ s.station.address) ∧
    State.reset.station.address = 0 ∧ s.station.address = 5 ∧ OutputsBusy (sending s) ∧
    ∀ x ∈ [(9, [(⟨1, 2, 0⟩ : CorrRec)]), (62, [⟨1, 3, 0⟩])], x.1 ≠ s.station.address :=
  ⟨by decide, by decide, rfl, rfl, rfl, rfl, rfl, by decide, by decide, by decide, rfl, rfl,
    ⟨.inl rfl, .b, rfl, .inl (by decide)⟩, by decide⟩

/-! ## Witnesses: trips and screens -/

theorem test_witness_LevelsAreGreatest : 1 ≤ 1 ∧ 6 ≤ 6 := by decide

theorem test_witness_FaultCommands :
    (0 = 0 ∨ 3 < (4 : Nat)) ∧ Level.ofNat? 3 = some .driveOff ∧ Level.driveOff ≠ .clear ∧
    ((∃ g ∈ [8], g = 0 ∨ 7 < g) ∧ ([1, 7] ≠ [] ∧ ∀ g ∈ [1, 7], 1 ≤ g ∧ g ≤ 7)) ∧
    FaultId.portDown .a ≠ .ringCongestion := by decide

theorem test_witness_TripInputs :
    let i : TripInput := { raw := true, filtered := false, timer := some 200000 }
    let s := thru.setTripInput 7 i
    TripWhole s ∧ (s.tripInput 7).raw = true ∧ (s.tripInput 7).filtered = false ∧
    s.station.cfg.filter.getD 7 2 ≠ 0 ∧ (List.replicate 8 0).getD 7 2 = 0 ∧
    (s.tripInput 7).timer = some 200000 ∧ max s.clock (mo 199999).time < 200000 ∧
    200000 ≤ max s.clock (mo 200000).time := by
  refine ⟨⟨by decide, rfl, rfl⟩, ?_⟩
  decide

theorem test_witness_TripFramesAndStale :
    let c := { defaultStation with tripStream := some 3 }
    let e : RemoteEntry := { source := 2, level := .notice, code := 0x13, last := 0, stale := false }
    max thru.clock (mo 1999999).time < thru.trip.refreshAt ∧
    thru.trip.refreshAt ≤ max thru.clock (mo 2000000).time ∧ thru.station.cfg.tripStream = none ∧
    c.tripStream ≠ none ∧ thru.station.address ≠ 0 ∧ thru.sw.urgent.length < 8 ∧
    remoteFind [e] 2 = some e ∧ (mo 7999999).time < e.last + 4 * c.refresh * 100000 ∧
    e.last + 4 * c.refresh * 100000 ≤ (mo 8000000).time ∧ RemoteSorted [e] ∧
    remoteFind [e] 3 = none ∧ ((some e).map (·.level) = some .notice) ∧
    ((some e).map (·.level) ≠ some .rampStop) ∧ OutputsBusy (sending thru) := by
  refine ⟨by decide, by decide, by decide, by decide, by decide, by decide, by decide, by decide,
    by decide, List.pairwise_singleton _ _, by decide, by decide, by decide, .inl rfl, .b, rfl,
    .inl (by decide)⟩

theorem test_witness_TileWriteCompletion :
    let u := ScreenUnit.reset
    let w : TileWrite := { stream := some 5, col := 3, row := 4, content := .fill 1 }
    ({ u with link := none } : ScreenUnit).link = none ∧ u.link ≠ none ∧
    ({ u with job := .idle } : ScreenUnit).job = .idle ∧ u.queue = [] ∧
    ({ u with queue := [w] } : ScreenUnit).queue = w :: [] ∧
    ({ u with job := .draw .notice 40 } : ScreenUnit).job = .draw .notice 40 ∧
    ({ u with job := .restore 39 } : ScreenUnit).job = .restore 39 ∧
    u.panel.bannerHeight * u.panel.width ≤ 40 ∧
    ({ u with job := .clear 1199 } : ScreenUnit).job = .clear 1199 ∧
    1199 < u.panel.height * u.panel.width ∧
    39 < u.panel.bannerHeight * u.panel.width ∧ u.panel.height * u.panel.width ≤ 1200 ∧
    thru.trip.levels.eff = .clear ∧ st.trip.levels.eff ≠ .clear ∧
    0 < u.panel.bannerHeight * u.panel.width := by decide +kernel

theorem test_witness_RepaintTimer :
    let u : ScreenUnit := { ScreenUnit.reset with
      panel := { defaultPanel with width := 2, height := 1 },
      tiles := [{ source := .stream 5, background := 0, stale := true },
                { source := .stream 6, background := 0, stale := false }],
      streams := [{ stream := 5, owner := 3 }, { stream := 6, owner := 4 }] }
    let s : State := sending { thru with screen := u }
    max thru.clock (mo 9999999).time < thru.screen.repaintAt ∧
    thru.screen.repaintAt ≤ max thru.clock (mo 10000000).time ∧
    (thru.screen.streams.filter fun x => decide (thru.screen.staleCount x.stream ≠ 0)) = [] ∧
    s.screen.repaintAt ≤ max s.clock (mo 10000000).time ∧ s.station.address ≠ 0 ∧
    (u.streams.filter fun x => decide (u.staleCount x.stream ≠ 0)) = [{ stream := 5, owner := 3 }] ∧
    s.sw.ctr.sDrop ≤ 65535 ∧ (0 < u.panel.height ∧ 1 < u.panel.width ∧
      u.tiles.length = u.panel.width * u.panel.height) ∧
    (u.tiles.getD 0 emptyTile).source = .stream 5 ∧ (u.tiles.getD 0 emptyTile).stale = true ∧
    OutputsBusy s :=
  ⟨by decide, by decide, rfl, by decide, by decide, by decide, by decide, by decide, by decide,
    by decide, .inl rfl, .b, rfl, .inl (by decide)⟩

theorem test_witness_TileRouting :
    let u : ScreenUnit := { ScreenUnit.reset with
      tiles := [{ source := .stream 5, background := 0, stale := true }],
      streams := [{ stream := 5, owner := 3 }], link := none, job := .idle }
    let r (c w : Nat) : TileRec := { col := c, row := w, content := some (.fill 1) }
    (r 0 0).content = some (.fill 1) ∧ ¬ ((r 40 0).col < u.panel.width) ∧
    (r 39 29).col < u.panel.width ∧ (r 39 29).row < u.panel.height ∧
    (u.tiles.getD (29 * 40 + 39) emptyTile).source ≠ .stream 5 ∧
    viewHas u.panel 0 0 = false ∧ (u.tiles.getD 0 emptyTile).source = .stream 5 ∧
    u.hasStream 5 = true ∧ bannerHas u.panel 0 = true ∧ ¬ 64 ≤ u.queue.length ∧ u.link = none ∧
    u.job = .idle ∧ ScreenUnit.reset.link ≠ none ∧
    (let f : Frame := { hdr := { hdr .s 8 with stream := 5 }, body := .tiles 5 [r 0 0] }
     f.body = .tiles 5 [r 0 0] ∧ 1 ≤ [r 0 0].length ∧ (∀ x ∈ [r 0 0], x.content ≠ none) ∧
     f.hdr.len = 4 + ([r 0 0].map fun x =>
       match x.content with | some (.pixels _) => 260 | _ => 4).sum) ∧
    (∃ x ∈ u.streams, x.stream = 5) ∧ (∃ x ∈ u.tiles, x.source = .stream 5) ∧
    (¬ ∃ x ∈ ({ u with streams := [] } : ScreenUnit).streams, x.stream = 5) ∧
    isRepaint (.bytes []) = false ∧ isRepaint (.repaint 5 true []) = true := by decide

theorem test_witness_ViewportSegments :
    let p : PanelRecord := { defaultPanel with
      viewStream := some 4, viewCol := 10, viewRow := 20, viewWidth := 2, viewHeight := 3 }
    let l : ViewLine := { line := 8, isOpen := true, width := 20, pixels := List.replicate 32 1 }
    let u : ScreenUnit := { ScreenUnit.reset with
      panel := p, view := { buffer := List.replicate 15 (List.replicate 32 1), current := some l,
                            row := 2 } }
    let g : Segment := { line := 8, step := 2, stamp := 0, offset := 0, count := 20, width := 20,
                         pixels := List.replicate 20 9 }
    let f : Frame := { hdr := hdr .i 56, body := .image [g] true }
    f.body = .image [g] true ∧ segmentOk g = true ∧ segmentOk { g with step := 65 } = false ∧
    (∀ gs tail, Body.bytes [] ≠ .image gs tail) ∧ g.pixels.length = g.count ∧
    ({ u with view := { u.view with current := none } } : ScreenUnit).view.current = none ∧
    u.view.current = some l ∧ (g.line = l.line ∧ l.isOpen = true) ∧
    ({ l with isOpen := false } : ViewLine).isOpen = false ∧
    (({ g with line := 7 } : Segment).line - l.line).toInt ≤ 0 ∧
    0 < (({ g with line := 10 } : Segment).line - l.line).toInt ∧
    l.pixels.length = p.viewWidth * 16 ∧ u.view.buffer.length + 1 = 16 ∧
    ScreenUnit.reset.view.buffer.length + 1 ≠ 16 ∧ u.link ≠ none ∧ u.ctr.viewDrop ≤ 65535 := by
  refine ⟨rfl, by decide, by decide, fun _ _ h => (nomatch h), by decide⟩

/-! ## Witnesses: station management -/

theorem test_witness_ManagementRefused :
    commandOf (.trip (mo 1) env 2) = some (env, .trip 2) ∧ State.reset.station.address = 0 ∧
    st.station.address ≠ 0 ∧ ({ env with lengthOk := false } : Envelope).lengthOk = false := by decide

/-- A right entry for each of the writable tables. -/
def okStation : List (Nat × StationEntry) := [(0, { address := 7, fields := defaultStation })]
def okMaster : List (Nat × MasterRecord) := [(0, { defaultMaster with cycleRun := 1 })]
def okCamera : List (Nat × CameraRecord) := [(0, { defaultCamera with pitch := 6 })]
def okPanel : List (Nat × PanelRecord) := [(0, { defaultPanel with width := 20 })]
def okTap : List (Nat × Option TapFields) :=
  [(31, some { cls := .c, stream := 6, action := some .take, target := some .unit }), (0, none)]
def okAxis : List (Nat × AxisConfig) := [(3, { defaultAxisConfig with num := -7 })]
def okWindow : List (Nat × WindowConfig) := [(15, { defaultWindow with enabled := true })]
def okFault : List (Nat × FaultSetting) := [(0x10, { level := 3, publish := true })]
def okMasks : List (Nat × List Bool) := [(0, List.replicate 7 true)]
def okTile : List (Nat × TileFields) := [(1199, { source := .stream 5, background := 3 })]
def okBanner : List (Nat × List Byte) := [(47, List.replicate 256 1)]

/-- Station 5 with the CYCLE MASTER strap. -/
def strapped : State := { thru with strap := true }

theorem test_witness_WritesOfOneBlock :
    (countOk okMaster = true ∧ okMaster.getLast?.map (·.2) = some { defaultMaster with cycleRun := 1 } ∧
      ∀ x ∈ okMaster, checkMaster { defaultMaster with cycleRun := 1 } strapped x = none) ∧
    (countOk okPanel = true ∧
      okPanel.getLast?.map (·.2) = some { defaultPanel with width := 20 } ∧
      (∀ x ∈ okPanel, checkPanel { defaultPanel with width := 20 } strapped x = none) ∧
      strapped.screen.panel.width ≠ 20 ∧ strapped.screen.link ≠ none) ∧
    (let v : ScreenUnit := { ScreenUnit.reset with link := none, job := .idle }
     let new := { defaultPanel with gapColour := 7 }
     (∀ x ∈ [(0, new)], checkPanel new strapped x = none) ∧ v.link = none ∧ v.job = .idle ∧
     v.queue = [] ∧ v.panel.width = new.width ∧ v.panel.height = new.height ∧
     v.panel.bannerRow = new.bannerRow ∧ v.panel.bannerHeight = new.bannerHeight) ∧
    (countOk okTap = true ∧
      ∀ x ∈ okTap, checkTap (writeTapEntries okTap strapped.sw.tap) strapped x = none) ∧
    (countOk okWindow = true ∧ ∀ x ∈ okWindow, checkWindow
      (writeWindowConfigs okWindow (strapped.image.windows.map (·.cfg))) strapped x = none) ∧
    (countOk okTile = true ∧ ∀ x ∈ okTile, checkTile strapped x = none) ∧
    (countOk okBanner = true ∧ okBanner.all (fun x => x.2.length == 256) = true ∧
      ∀ x ∈ okBanner, checkBanner strapped x = none) := by decide +kernel

theorem test_witness_WritesWithEffects :
    (countOk okStation = true ∧ okStation.all (fun x => x.2.fields.filter.length == 8) = true ∧
      okStation.getLast?.map (·.2.fields) = some defaultStation ∧
      ∀ x ∈ okStation, checkStation .port thru x = none) ∧
    (countOk okCamera = true ∧ okCamera.getLast?.map (·.2) = some { defaultCamera with pitch := 6 } ∧
      (∀ x ∈ okCamera, checkCamera { defaultCamera with pitch := 6 } thru x = none) ∧
      thru.image.cam.pitch ≠ 6) ∧
    (countOk okAxis = true ∧ (∀ x ∈ okAxis, checkAxis okAxis thru x = none) ∧
      thru.trip.tree.map (·.id) = allFaults) ∧
    (countOk okFault = true ∧ ∀ x ∈ okFault, checkFaultConfig thru x = none) ∧
    (countOk okMasks = true ∧ okMasks.all (fun x => x.2.length == 7) = true ∧
      okMasks.getLast?.map (·.2) = some (List.replicate 7 true) ∧
      ∀ x ∈ okMasks, checkMasks thru x = none) := by decide +kernel

/-- A first entry out of range at each table: the WRITE fails at position 0. -/
theorem test_witness_WritesAllOrNone :
    firstFailure (checkStation env.via thru) 0 [(1, { address := 7, fields := defaultStation })] =
      some (.badIndex, 0) ∧
    firstFailure (checkMaster (lastRecord thru.gen.cfg okMaster) thru) 0 okMaster =
      some (.notMaster, 0) ∧
    firstFailure (checkCamera (lastRecord thru.image.cam [(0, { defaultCamera with pitch := 17 })])
      thru) 0 [(0, { defaultCamera with pitch := 17 })] = some (.badValue, 0) ∧
    firstFailure (checkPanel { defaultPanel with width := 81 } thru) 0
      (okPanel ++ [(0, { defaultPanel with width := 81 })]) =
      some (.badValue, 1) ∧
    firstFailure (checkTap (writeTapEntries [(32, none)] thru.sw.tap) thru) 0 [(32, none)] =
      some (.badIndex, 0) ∧
    firstFailure (checkAxis [(0, { defaultAxisConfig with num := 2 })] wAxis) 0
      [(0, { defaultAxisConfig with num := 2 })] = some (.inUse, 0) ∧
    firstFailure (checkWindow (writeWindowConfigs [(16, defaultWindow)]
      (thru.image.windows.map (·.cfg))) thru) 0 [(16, defaultWindow)] = some (.badIndex, 0) ∧
    firstFailure (checkFaultConfig thru) 0 [(0x10, { level := 4, publish := true })] =
      some (.badValue, 0) ∧
    firstFailure (checkMasks thru) 0 [(1, List.replicate 7 true)] = some (.badIndex, 0) ∧
    firstFailure (checkTile thru) 0 [(1200, { source := .none, background := 0 })] =
      some (.badIndex, 0) ∧
    firstFailure (checkBanner thru) 0 [(48, List.replicate 256 0)] = some (.badIndex, 0) ∧
    countOk okPanel = true := by decide +kernel

theorem test_witness_ReadAndStatus :
    env.via ≠ .broadcast ∧ thru.tableEnd (.unknown 99) = none ∧ thru.tableEnd .tap = some 32 ∧
    32 ≤ 32 ∧ 31 < 32 ∧ 16 < 17 ∧ TableId.tap ≠ .counters ∧ 8 < 9 ∧
    ({ env with via := .broadcast } : Envelope).via = .broadcast := by decide

theorem test_witness_Sweeps :
    st.station.address ≠ 0 ∧ State.reset.station.address = 0 ∧ (1 ≤ 62 ∧ 62 ≤ 62) ∧
    st.sw.localM = [] ∧ (1 : Nat) ≠ 2 ∧ 1024 < 1009 + 16 ∧ ¬ 1024 < 1008 + 16 ∧
    st.sw.localM.length < 8 ∧ 8 ≤ (List.replicate 8 (item .m 8)).length ∧ 62 < 63 := by decide

/-- The highest address given, and the sweep that finds none left (R60, R61). -/
theorem test_enumerate_at_62 :
    let h := { hdr .m 16 with dest := 0 }
    let t := after (.enumerate (mo 0) (.passing h) 1 1 62 false false true) thruAtZero
    let u := after (.enumerate (mo 0) (.passing h) 1 1 63 false false true) thruAtZero
    t.station.address = 62 ∧ u.station.address = 0 ∧
    (t.portB.tx.map fun x => (mgmtOf x.frame.body).cmd) = some (.enumerate 1 63) ∧
    (u.portB.tx.map fun x => (mgmtOf x.frame.body).overflow) = some true := by decide

theorem test_witness_ResetStation : thru.station.address ≠ 0 ∧ env.lengthOk = true :=
  test_witness_managed

theorem test_witness_ManagementTimers :
    let s : State := { thru with station := { thru.station with
      shortTimer := some 20, longTimer := some 30 } }
    s.station.shortTimer = some 20 ∧ s.station.longTimer = some 30 ∧
    max s.clock (mo 19).time < 20 ∧ 20 ≤ max s.clock (mo 20).time ∧ max s.clock (mo 29).time < 30 ∧
    30 ≤ max s.clock (mo 30).time ∧ TripWhole s :=
  ⟨rfl, rfl, by decide, by decide, by decide, by decide, by decide, rfl, rfl⟩

theorem test_witness_FramePort :
    let c : StationCtl := { thru.station with resetAt := some 5 }
    let f := offer .k 6 8
    let o : Offered := { offer .m 5 8 with reading := .mgmt (wMgmt .command (.couple 3)) }
    let e : Offered := { offer .m 0 12 with reading := .mgmt (wMgmt .command (.enumerate 1 1)) }
    (∃ at_, c.resetAt = some at_ ∧ 4 < at_) ∧ (¬ ∃ at_, c.resetAt = some at_ ∧ 5 < at_) ∧
    badOffer { f with len := 7 } = true ∧ badOffer f = false ∧ refusedClass .t = true ∧
    refusedClass f.cls = false ∧ f.cls ≠ .m ∧ State.reset.station.address = 0 ∧
    thru.station.address ≠ 0 ∧ 4 ≤ (List.replicate 4 wSend).length ∧ c.sendQ.length < 4 ∧
    c.recvQ = [] ∧ ({ c with recvQ := [(3, wSend)] } : StationCtl).recvQ = (3, wSend) :: [] ∧
    (badOffer o = false ∧ refusedClass o.cls = false ∧ o.cls = .m ∧ o.dest = c.address ∧
      (mgmtOf (offeredBody o)).kind ≠ .response) ∧
    (badOffer e = false ∧ refusedClass e.cls = false ∧ e.cls = .m ∧ e.dest = 0 ∧
      (mgmtOf (offeredBody e)).kind = .command ∧
      ∃ first next, (mgmtOf (offeredBody e)).cmd = .enumerate first next) := by
  refine ⟨⟨5, rfl, by decide⟩, ?_, by decide, by decide, by decide, by decide, by decide, rfl,
    by decide, by decide, by decide, rfl, rfl, by decide, by decide, by decide, rfl, rfl, rfl, 1, 1,
    rfl⟩
  rintro ⟨a, h, k⟩
  cases h
  exact absurd k (by decide)

/-! ## Witnesses: changes of the role, sweeps in frames, arbiters -/

/-- A frame being sent until time 100. -/
def going : Tx := { busy with endAt := 100 }

/-- Station 5 in THROUGH, sending on both ports, one frame in its repeat FIFO and one being received on A. -/
def wRole : State :=
  { thru with
    portA := { good with tx := some going, reception := some { recv .i 24 with resv := .none } },
    portB := { good with tx := some going }, sw := { thru.sw with counter := [item .i 24] } }

/-- Port A loses SYNC: the role is WRAP_A, both frames being sent are aborted, the repeat FIFO is emptied
(R53). -/
theorem test_witness_ReceiveStateAndSide_role :
    let t := after (.breakSymbolRun (mo 1) .a) wRole
    (lineEvent (.breakSymbolRun (mo 1) .a) = some .a ∧ wRole.portA.reception.isSome = true ∧
      going.aborted = false ∧ max wRole.clock (mo 1).time < going.endAt ∧
      ({ going with copyOf := some .a } : Tx).copyOf = some .a) ∧
    t.sw.role = .wrapA ∧ t.sw.ctr.roleChanges = 1 ∧ t.sw.ctr.roleDiscard = 1 ∧ t.sw.counter = [] ∧
    t.portA.tx = some { going with aborted := true } ∧
    t.portB.tx = some { going with aborted := true } ∧ t.portB.ctr.abortsSent = 1 := by decide

theorem test_witness_ReceiveStateAndSide_heal :
    let s := sending wHeal
    let t := after (.healHoldExpiry (mo 50) .b) s
    t.sw.role ≠ s.sw.role ∧ (∀ o ∈ forwardOutput t.sw.role, (s.port o).tx ≠ none) ∧
    t.sw.ctr.roleChanges = 1 := by decide

theorem test_witness_BadFrameDiscarded_copy :
    let l (old : List Nat) := (old.filter fun q => decide (9 < q + 256)) ++ [9]
    (wCopy.port .b).tx = some { busy with copyOf := some .a } ∧ busy.aborted = false ∧
    (wCopy.port .a).rx = .sync ∧ (l [5, 6]).length < 4 ∧ 4 ≤ (l [5, 6, 7]).length := by decide

/-- A TILES frame of station 4, stream 9; an M frame of station 4 to 0, and one of station 5 with tag 0. -/
def tilesFrame : List Byte :=
  [5, 9, 63, 4, 0x12, 0x34, 0, 9, 0, 0, 0, 0, 0, 8, 0, 0, 1, 0, 0, 1, 0, 0, 1, 9,
   0x01, 0xE7, 0xBD, 0x11]
def sweepFrom4 : List Byte :=
  [6, 0, 0, 4, 0x12, 0x34, 0, 9, 0, 0, 0, 0, 0, 8, 0, 0, 0, 0, 0, 0, 0, 0, 0, 0,
   0x7D, 0xB6, 0x62, 0x81]
def sweepHome : List Byte :=
  [6, 0, 0, 5, 0, 0, 0, 9, 0, 0, 0, 0, 0, 8, 0, 0, 0, 0, 0, 0, 0, 0, 0, 0,
   0x53, 0x07, 0xD9, 0xBB]

theorem test_witness_TapTableDelivers_units :
    let r : Body := .tiles 9 [{ col := 0, row := 0, content := some (.fill 9) }]
    GoodArrival thru (mo 1) .a tilesFrame ∧ GoodArrival thru (mo 1) .a iFrame ∧
    GoodArrival thru (mo 1) .a tFrame ∧ (readFrame tilesFrame r).hdr.cls = .s ∧
    ¬ (isRepaint (readFrame tilesFrame r).body = true ∧
      (readFrame tilesFrame r).hdr.dest = thru.station.address) ∧
    r = .tiles 9 [{ col := 0, row := 0, content := some (.fill 9) }] ∧
    bodyBytes tilesFrame ≠ [] ∧ byteAt (bodyBytes tilesFrame) 0 = 1 ∧
    (Body.image [] false = .image [] false) :=
  ⟨test_arrives rfl (by decide +kernel), test_arrives rfl (by decide +kernel),
    test_arrives rfl (by decide +kernel), by decide⟩

/-- A station in THROUGH that sends, with an address and without one. -/
def wSweep (own : Nat) : State :=
  sending { thru with station := { thru.station with address := own } }

/-- An ENUMERATE with next address 62, and one with 63 under FORCE, a COLLECT. -/
def enum62 : MgmtBody := wMgmt .command (.enumerate 1 62)
def enum63 : MgmtBody := { wMgmt .command (.enumerate 1 63) with force := true }
def collect : MgmtBody := wMgmt .command .collect

theorem test_witness_ManagementFrames_sweeps :
    (∀ own ∈ [0, 5], ((wSweep own).port .a).rx = .sync ∧ (wSweep own).arrivalUse .a = .forwardInput ∧
      (wSweep own).resvOf .a = .none ∧
      ((wSweep own).sw.urgent ++ (wSweep own).sw.transit ++ (wSweep own).sw.counter) = [] ∧
      (wSweep own).portA.tx = none ∧ (wSweep own).portB.tx.map (·.copyOf) = some none) ∧
    OutputsBusy (wSweep 0) ∧ OutputsBusy (wSweep 5) ∧
    GoodArrival (wSweep 5) (mo 1) .a sweepFrom4 ∧ GoodArrival (wSweep 0) (mo 1) .a sweepFrom4 ∧
    GoodArrival (wSweep 5) (mo 1) .a sweepHome ∧
    (∀ b ∈ [enum62, enum63, collect], ∀ bytes ∈ [sweepFrom4, sweepHome],
      let g := readFrame bytes (.mgmt b)
      g.hdr.cls = .m ∧ g.hdr.dest = 0 ∧ (mgmtOf g.body).kind = .command ∧ g.hdr.hop + 1 < 127 ∧
      (mgmtOf g.body).cmd = b.cmd) ∧
    ((readFrame sweepFrom4 raw).hdr.src ≠ 5 ∧ (readFrame sweepHome raw).hdr.src = 5 ∧
      (readFrame sweepHome raw).hdr.tag = (wSweep 5).tag) ∧
    (enum63.force = true ∧ enum62.force = false) :=
  ⟨by decide, ⟨.inl rfl, .b, rfl, .inl (by decide)⟩, ⟨.inl rfl, .b, rfl, .inl (by decide)⟩,
    test_arrives rfl (by decide +kernel), test_arrives rfl (by decide +kernel),
    test_arrives rfl (by decide +kernel), by decide⟩

/-- The next address 63 under FORCE takes the station's address away and goes on with OVERFLOW (R61); a COLLECT
goes on with one digest more (R190). -/
theorem test_sweep_frames_pass :
    let t (b : MgmtBody) := after (.frameArrival (mo 1) .a (.ended sweepFrom4 (.mgmt b))) (wSweep 5)
    (t enum63).station.address = 0 ∧
    ((t enum63).sw.transit.map fun i => (mgmtOf i.frame.body).overflow) = [true] ∧
    ((t collect).sw.transit.map fun i => ((mgmtOf i.frame.body).count, i.frame.hdr.len)) =
      [(1, 24)] := by decide +kernel

theorem test_witness_TransmitCompletion_sends :
    let s : State := thru.setPort .b { good with tx := some busy }
    let u : State := s.setPort .b { good with ctr := { good.ctr with framesOut := 1 } }
    let k : Switch := { thru.sw with localK := [item .k 8] }
    CounterStill u ∧ ForwardStill u ∧
    (forwardOutput k.role = some .b ∧ (u.port .b).tx = none ∧ (u.port .b).side = .usable ∧
      k.pick = some (item .k 8, { k with localK := [] }) ∧
      ∀ i ∈ k.counter.head?, i.eligible = false) ∧
    (u.portA.tx = none ∧ u.portA.side = .usable ∧ (item .i 24).eligible = true) ∧
    (let x : Switch := { Switch.reset with localK := [item .k 8] }
     x.role = .isolated ∧ (∀ i ∈ x.urgent ++ x.transit, i.eligible = true) ∧ x.forwardItems = 1 ∧
     x.ctr.isolatedDiscard ≤ 65535) ∧
    (thru.port .b).tx = none :=
  ⟨.inr (.inr (.inr (fun _ h => by cases h))), ⟨.b, rfl, .inr (.inr rfl)⟩, by decide +kernel,
    by decide, by decide, rfl⟩

/-- The frame in the local K queue is on port B once the frame before it is sent (R42). -/
theorem test_completion_sends_next :
    let s : State := { thru with
      portB := { good with tx := some busy }, sw := { thru.sw with localK := [item .k 8] } }
    let t := after (.transmitCompletion (mo 10) .b) s
    (t.portB.tx.map fun x => (x.frame.hdr.cls, x.frame.hdr.age, x.endAt)) = some (.k, 140, 40) ∧
    t.sw.localK = [] ∧ t.portB.ctr.framesOut = 1 := by decide +kernel

theorem test_witness_SendQueueMoves_sweeps :
    let f (b : MgmtBody) (len : Nat) : Frame := { hdr := { hdr .m len with dest := 0 }, body := .mgmt b }
    let s (own : Nat) (x : Frame) : State :=
      { thru with station := { thru.station with address := own, sendQ := [x] } }
    ((s 5 (f collect 8)).station.sendQ = f collect 8 :: [] ∧ (f collect 8).hdr.cls = .m ∧
      (f collect 8).hdr.dest = 0 ∧ (mgmtOf (f collect 8).body).kind = .command ∧
      (s 5 (f collect 8)).sw.localM.length < 8) ∧
    (enum62.cmd = .enumerate 1 62 ∧ enum62.lengthOk = true ∧ (1 : Nat) ≠ 62) ∧
    (collect.cmd = .collect ∧ collect.count = 0 ∧ 8 + 16 ≤ 1024 ∧ 1024 < 1009 + 16) ∧
    sweepCommand (wMgmt .command .status).cmd = false ∧
    (∀ first next, (wMgmt .command .status).cmd ≠ .enumerate first next) ∧
    8 ≤ (List.replicate 8 (item .m 8)).length :=
  ⟨by decide, by decide, by decide, rfl, fun _ _ h => (by cases h), by decide⟩

/-- Station 5 in TRACKING with three axes in STANDBY, none of its drives having answered. -/
def wBatch (batch : Option Nat) : State :=
  ((({ thru with drive := { DriveLink.reset with batch := batch } } : State).setAxis 0
    { defaultAxis with state := .standby }).setAxis 2 { defaultAxis with state := .standby }).setAxis 3
    { defaultAxis with state := .standby }

theorem test_witness_CommandRecord_arbiter :
    (wBatch (some 4)).drive.exchange = none ∧ wDrive.drive.exchange ≠ none ∧
    (let s := (wBatch none).setAxis 2 { defaultAxis with release := true }
     (s.axis 2).release = true ∧ ∀ b, b < 2 → (s.axis b).release = false) ∧
    (∀ a, ((wBatch (some 3)).axis a).release = false) ∧
    (wBatch (some 3)).drive.batch = some (3 : Fin 4).val ∧ DriveOutcome.skipped ≠ .none ∧
    DriveOutcome.skipped ≠ .good ∧
    min ((thru.driveAxis 0).bad + 1) 15 < thru.station.cfg.driveLimit ∧
    (wBatch none).drive.batch = none ∧ (wBatch (some 2)).drive.batch = some 2 := by decide

/-- A batch begun while one stands at axis 2 skips axes 2 and 3; with every ready line low no axis is
reached (R112, R115). -/
theorem test_batch_skips :
    let t := startBatch { wBatch (some 2) with ready := Four.all4 false }
    (t.driveAxis 0).outcome = .noReady ∧ (t.driveAxis 1).outcome = .none ∧
    (t.driveAxis 2).bad = 2 ∧ t.drive.ctr.skipped = 2 ∧ t.drive.ctr.notReady = 3 ∧
    t.drive.batch = none ∧ t.drive.exchange = none := by decide +kernel

theorem test_witness_ExchangeEnds_release :
    let x : Exchange := { wExchange with release := true }
    ([0x80, 0, 0, 1, 0x05, 3, 0, 0, 0, 0, 0, 0x6F] : List Byte).length = 12 ∧
    x.release = true ∧ ({ wExchange with void := true } : Exchange).void = true ∧
    (thru.axis wExchange.axis).state = .disabled ∧
    ({ thru with drive := { DriveLink.reset with exchange := some x } } : State).drive.exchange =
      some x := by decide

theorem test_witness_TriggersAndTimeouts_base :
    (wImage.next = some 10223616 ∧ ((10223616 : BitVec 28) - 10223616).toInt ≤ 0 ∧
      0 < ((10223617 : BitVec 28) - 10223616).toInt ∧ ImageUnit.reset.next = none) ∧
    let b : ImageBase := { pos := 10223617, speed := 6710887, period := 500, at_ := 0, repeats := 3 }
    let t := wImage.takeBase false b
    t.next = some (10223616 + 262144) ∧ t.ctr.skipped = 1 := by decide +kernel

/-- Station 5 publishing on stream 3, sending, its WEB_BREAK latched and not yet counted in its levels. -/
def wRise : State :=
  sending { thru with
    trip := thru.trip.latch .webBreak,
    station := { thru.station with cfg := { defaultStation with tripStream := some 3 } },
    gen := { ramp with timer := none },
    axes := { wAxis.axes with stopTimer := none } }

/-- WEB_BREAK has level RAMP_STOP by default: the master stops at D, the stop-confirm timer starts, the banner
is drawn behind the write in progress, a CHANGE frame is queued (R74, R108, R161, R177). -/
theorem test_level_rises :
    let t := recompute wRise
    t.trip.levels.eff = .rampStop ∧ t.gen.target = 0 ∧ t.gen.state = .stopping ∧
    t.gen.limit = .trip ∧ t.axes.stopTimer = some (100 * 100000) ∧ (t.axis 0).state = .coupled ∧
    t.sw.urgent.length = 1 ∧ t.trip.ctr.sent = 1 ∧ t.trip.tripOut = false := by decide +kernel

theorem test_witness_FaultCommands_levels :
    (wRise.trip.levels.pub ≠ wRise.trip.compute.pub ∧ wRise.station.address ≠ 0 ∧
      wRise.station.cfg.tripStream ≠ none ∧ wRise.sw.urgent.length < 8 ∧
      wRise.station.cfg.tripStream = some 3) ∧ OutputsBusy wRise ∧ TripWhole wRise ∧
    (wRise.trip.isLatched .webBreak = true ∧ wRise.trip.isLatched (.driveLink 0) = false) ∧
    (wUrgent.sw.urgent.length = 8) :=
  ⟨by decide, ⟨.inl rfl, .b, rfl, .inl (by decide)⟩, ⟨by decide, rfl, rfl⟩, by decide, by decide⟩

/-- The boundaries of the checks: a key held twice, two entries that deliver C frames, a reference that closes
later, and a code that is none (R30, R134, R151). -/
theorem test_witness_WritesAllOrNone_checks :
    let x (stream : Nat) : TapFields :=
      { cls := .c, stream := stream, action := some .take, target := some .unit }
    let e (stream : Nat) : TapEntry := { cls := .c, stream := stream, action := .take, target := .unit }
    let tap (a b : Nat) : List (Option TapEntry) :=
      some (e a) :: List.replicate 30 none ++ [some (e b)]
    let w (p1 : Nat) (r : Option Nat) : WindowConfig :=
      { defaultWindow with enabled := true, p1 := p1, reference := r }
    let ws (p : Nat) : List WindowConfig := w 9 (some 1) :: w p none :: List.replicate 14 defaultWindow
    (tap 6 6).length = 32 ∧ checkTap (tap 6 6) thru (31, some (x 6)) = some .duplicate ∧
    checkTap (tap 6 7) thru (31, some (x 7)) = some .inUse ∧
    checkTap (tap 6 7) thru (30, none) = none ∧ (ws 9).length = 16 ∧
    checkWindow (ws 9) thru (1, w 9 none) = none ∧
    checkWindow (ws 10) thru (1, w 10 none) = some .refOrder ∧
    checkFaultConfig thru (0x64, { level := 3, publish := true }) = some .badIndex ∧
    checkFaultConfig thru (faultCode .stationReset, { level := 1, publish := true }) = none ∧
    checkAxis [] thru (4, defaultAxisConfig) = some .badIndex := by decide +kernel

theorem test_witness_ReadAndStatus_entries :
    thru.tableEnd .banner = some 48 ∧ 45 < 48 ∧ 1 ≤ 16 ∧ 16 ≤ 16 ∧
    ((thru.entries .banner).filter fun x => decide (45 ≤ x.1)) ≠ [] ∧
    ((thru.entries .banner).filter fun x => decide (45 ≤ x.1)).length = 3 := by decide +kernel

theorem test_witness_Sweeps_broadcast :
    st.station.address ≠ 0 ∧ ∃ c : Instr,
      c = .enumerate (mo 1) (.addressed .broadcast) 0 1 1 false false true ∨
      c = .collect (mo 1) (.addressed .broadcast) 0 0 false true [] := ⟨by decide, _, .inl rfl⟩

theorem test_witness_TileWriteCompletion_runs :
    let u := ScreenUnit.reset
    u.link ≠ none ∧ ∃ n, ({ u with job := .restore 39 } : ScreenUnit).job = .restore n ∧
      n < u.panel.bannerHeight * u.panel.width := ⟨by decide, 39, rfl, by decide⟩

/-! ## Witnesses: widened statements -/

/-- The state `reservationEligible` on port A lets the outputs choose in, from a state that receives there. -/
def reached (s : State) : State :=
  ((s.tick (mo 9)).setPort .a
    { s.portA with reception := some { recv .i 24 with got32 := true } }).setSw { s.sw with
      urgent := s.sw.urgent.map (readyItem .a), transit := s.sw.transit.map (readyItem .a),
      counter := s.sw.counter.map (readyItem .a) }

/-- A station in THROUGH that receives on port A. -/
def receiving (w : Switch) : State :=
  { thru with portA := { good with reception := some (recv .i 24) }, sw := w }

theorem test_witness_ReservationReaches32_heads :
    let w := thru.sw
    let begins (s : State) : Option (Option PortId × Nat) :=
      (after (.reservationEligible (mo 9) .a) s).portB.tx.map fun x => (x.copyOf, x.frame.hdr.age)
    (thru.port .a).reception = none ∧
    CounterStill (reached (receiving { w with urgent := [wResv] })) ∧
    begins (receiving { w with urgent := [wResv] }) =
      begins (receiving { w with transit := [wResv] }) ∧
    (begins (receiving { w with urgent := [wResv] })).map (·.1) = some (some .a) ∧
    ForwardStill (reached (sending (receiving { w with counter := [wResv] }))) ∧
    ((after (.reservationEligible (mo 9) .a)
      (sending (receiving { w with counter := [wResv] }))).portA.tx.map (·.copyOf)) =
      some (some .a) ∧
    (let s := receiving { w with role := .isolated, transit := [wResv], localK := [item .k 8] }
     (∀ i ∈ (reached s).sw.urgent ++ (reached s).sw.transit, i.eligible = true) ∧
     (after (.reservationEligible (mo 9) .a) s).sw.ctr.isolatedDiscard = 2) :=
  ⟨rfl, .inr (.inr (.inr (fun _ h => by cases h))), by decide +kernel, by decide +kernel,
    ⟨.b, rfl, .inl (by decide)⟩, by decide +kernel, by decide +kernel⟩

/-- Port A loses SYNC in WRAP_B, so that the ring is lost, and finds it again (R55, R56). -/
theorem test_witness_ReceiveStateAndSide_faults :
    let s : State := { thru with portB := Port.reset, sw := { thru.sw with role := .wrapB } }
    let t := after (.breakSymbolRun (mo 1) .a) s
    let u := after (.breakToSyncSymbol (mo 2) .a .idle) t
    TripWhole s ∧ (t.trip.isPresent (.portDown .a) = true ∧ t.trip.isLatched (.portDown .a) = true ∧
      t.sw.role = .isolated ∧ t.trip.isPresent .ringIsolated = true ∧
      t.trip.isLatched .ringIsolated = true) ∧
    u.trip.isPresent (.portDown .a) = false ∧ u.trip.isPresent .ringIsolated = true ∧
    u.trip.isLatched (.portDown .a) = true :=
  ⟨⟨by decide, rfl, rfl⟩, by decide +kernel⟩

/-- A C frame that finds the urgent queue full latches RING_CONGESTION; where the station publishes it, its CHANGE
frame is lost too (R37, R161). -/
theorem test_witness_FrameForwarded_drops :
    let s (stream : Option Nat) : State := { wUrgent with
      station := { wUrgent.station with cfg := { wUrgent.station.cfg with tripStream := stream } },
      trip := { wUrgent.trip with tree := wUrgent.trip.tree.map fun e => { e with publish := true } } }
    let drops (x : State) : Nat :=
      (after (.frameArrival (mo 1) .a (.ended cFrame raw)) x).sw.ctr.urgentDrop
    wUrgent.trip.isLatched .ringCongestion = false ∧ (s (some 1)).publishStream ≠ none ∧
    (s (some 1)).trip.levels.pub ≠ ((s (some 1)).trip.latch .ringCongestion).compute.pub ∧
    (s none).publishStream = none ∧ drops (s (some 1)) = 2 ∧ drops (s none) = 1 := by
  decide +kernel

theorem test_witness_SendQueueMoves_unassigned :
    let b : Frame := { hdr := { hdr .m 8 with dest := 63 }, body := .mgmt (wMgmt .command .masterStop) }
    let s : State := { thru with station := { thru.station with address := 0, sendQ := [b] } }
    (s.station.sendQ = b :: [] ∧ b.hdr.cls = .m ∧ (mgmtOf b.body).kind = .command ∧ b.hdr.dest = 63 ∧
      s.station.address = 0) ∧
    (after (.sendQueueMove (mo 1)) s).station.ctr.portRefused = 1 := by decide

/-- A station with a generator of its own that follows station 2 (R76). -/
theorem test_witness_CycleTimerIssues_foreign :
    let s : State := { thru with
      gen := { ramp with timer := some { period := 750, due := 10 } }, ctx := follower }
    let t := after (.cycleTimerExpiry (mo 10)) s
    s.gen.timer = some { period := 750, due := 10 } ∧ s.ctx.learns = false ∧
    s.ctx.learnt ≠ some (s.station.address, s.tag) ∧ s.sw.urgent.length < 8 ∧
    t.axes.ctr.foreignCycle = 1 ∧ t.trip.isLatched .cycleConflict = true ∧ t.ctx = follower ∧
    t.gen.cycle = ramp.cycle + 1 := by decide +kernel

/-- A miss with δ beyond the jump limit: MASTER_JUMP is latched, and the COUPLED axis steps with the advance alone
(R82). -/
theorem test_witness_MissedCycle_jump :
    let s : State := { thru with
      ctx := { follower with state := .coasting, misses := 1, delta := some 100000 },
      station := { thru.station with cfg := { thru.station.cfg with jumpLimit := 1 } } }
    let t := after (.missTimerExpiry (mo 93700)) s
    DrivesReady s (mo 93700) ∧ s.station.cfg.jumpLimit ≠ 0 ∧
    s.station.cfg.jumpLimit * 256 < (100000 : Int).natAbs ∧
    (∀ f, s.ctx.pending = some f → f.num ≠ s.ctx.lastCycle + 1) ∧ TripWhole s ∧
    s.ctx.misses + 1 < s.station.cfg.missLimit ∧ t.trip.isLatched .masterJump = true ∧
    t.axes.ctr.missedCycle = 1 :=
  ⟨⟨rfl, by decide⟩, by decide, by decide, fun f h => (by cases h), ⟨by decide, rfl, rfl⟩,
    by decide, by decide +kernel, by decide +kernel⟩

/-- Lists for the own axes and for another station at one boundary (R142). -/
theorem test_witness_WindowsClose_mixed :
    let u : ImageUnit := { ImageUnit.reset with pending :=
      [(4, [⟨1, 2, 0⟩]), (5, [⟨0, 1, 0⟩]), (9, [⟨1, 2, 0⟩])] }
    let s : State := sending { thru with image := u, trip := { thru.trip with
      tree := thru.trip.tree.map fun e => { e with latched := true } } }
    let t := flushCorrections s
    s.station.address = 5 ∧ OutputsBusy s ∧
    (∀ a, s.trip.isLatched (.correctionLimit a) = true) ∧
    s.sw.localK.length + (u.pending.filter fun x => decide (x.1 ≠ s.station.address)).length ≤ 8 ∧
    (t.sw.localK.map fun i => (i.frame.hdr.dest, i.frame.hdr.seq)) = [(4, 0), (9, 1)] ∧
    t.axes.ctr.corrIgnored = 1 :=
  ⟨rfl, ⟨.inl rfl, .b, rfl, .inl (by decide)⟩, by decide +kernel, by decide, by decide +kernel,
    by decide +kernel⟩

theorem test_witness_ManagementRefused_entries :
    wrongEntries (.writeMaster (mo 1) env []) ∧ wrongEntries (.writeBanner (mo 1) env [(0, [])]) ∧
    wrongEntries (.writeTap (mo 1) env (List.replicate 9 (0, none))) ∧
    ¬ wrongEntries (.writeTap (mo 1) env (List.replicate 8 (0, none))) ∧
    (after (.writeMaster (mo 1) env []) thru).station.ctr.commandsTaken = 0 :=
  ⟨.inl rfl, .inr ⟨_, List.mem_singleton.mpr rfl, by decide⟩, .inr (by decide),
    (by rintro (h | h) <;> simp at h), by decide +kernel⟩

/-- A COLLECT offered at address 0 is refused (R193). -/
theorem test_witness_Sweeps_unassigned :
    State.reset.station.address = 0 ∧
    (after (.collect (mo 1) .offered 0 0 false true []) State.reset).station.ctr.portRefused = 1 := by
  decide

/-- RESET STATION with an exchange under way, and with none while the drive of axis 0 is not ready (R88, R125). -/
theorem test_witness_ResetStation_drive :
    let recs := (thru.axes.recs.set 0 { defaultAxis with state := .held }).set 2
      { defaultAxis with state := .standby }
    let s : State := { thru with axes := { thru.axes with recs := recs } }
    let low : Moment := { mo 1 with ready := (mo 1).ready.set 0 false }
    let t := after (.resetStation low env) s
    let going : State := after (.resetStation low env)
      { s with drive := { s.drive with exchange := some wExchange } }
    s.drive.exchange = none ∧ low.ready.get 0 = false ∧ low.ready.get 2 = true ∧
    (t.drive.exchange.map fun x => (x.axis, x.release, x.enable)) = some (2, true, false) ∧
    (t.axis 0).release = false ∧ (t.axis 2).release = true ∧
    going.drive.exchange.map (·.void) = some true ∧ (going.axis 0).release = true := by
  decide +kernel

/-! ## Witnesses: statements widened by the fourth review -/

/-- A K frame to 0 takes no reservation at an unassigned station, and one to 0 does elsewhere (R35, R24). -/
theorem test_own_address_at_start :
    let h : List Byte := [3, 0, 0, 4, 0x12, 0x34, 0, 9, 0, 0, 0, 0, 0, 8, 0, 0]
    let kept (s : State) := (after (.frameStart (mo 1) .a 0 h false) s).sw.transit.length
    (readHeader h).cls = .k ∧ (readHeader h).dest = thruAtZero.station.address ∧
    kept thruAtZero = 0 ∧ kept thru = 1 := by decide +kernel

/-- A base take in LOST: CYCLE_LOSS is present no more, the axes keep their rest, and a batch begins (R81, R82). -/
theorem test_witness_PendingFrameApplied_base :
    let s : State := { thru with
      ctx := { follower with
        state := .lost, pending := some wFrame, missTimer := none, localTimer := some 99 },
      trip := thru.trip.setCond .cycleLoss true,
      axes := { thru.axes with recs := thru.axes.recs.set 2 { defaultAxis with state := .held } } }
    let t := after (.pendingFrameDue (mo 10)) s
    s.ctx.pending = some wFrame ∧ wFrame.due ≤ max s.clock (mo 10).time ∧ s.ctx.state = .lost ∧
    s.trip.tree.map (·.id) = allFaults ∧ s.trip.isPresent .cycleLoss = true ∧
    t.trip.isPresent .cycleLoss = false ∧ t.ctx.state = .tracking ∧
    t.drive.exchange.map (·.axis) = some 2 := by decide +kernel

/-- A C frame with PASS+COPY to the frame port that holds no reservation: at the tail of the urgent queue, or
dropped where it is full (R36, R37). -/
theorem test_witness_TapTableDelivers_tail :
    let s (q : List QItem) : State :=
      sending { tapped .passCopy .port with sw := { (tapped .passCopy .port).sw with urgent := q } }
    let t (q : List QItem) : State := after (.frameArrival (mo 1) .a (.ended cFrame raw)) (s q)
    (s []).resvOf .a = .none ∧ (readFrame cFrame raw).hdr.cls = .c ∧
    (∀ q ∈ [[], List.replicate 8 (item .t 4)],
      ∀ i ∈ (s q).sw.urgent ++ (s q).sw.transit ++ (s q).sw.counter, i.origin ≠ .reserved .a) ∧
    ((t []).sw.urgent.map fun i => (i.frame.hdr.hop, i.origin)) = [(1, .passing)] ∧
    (t []).station.recvQ.length = 1 ∧
    (let q := List.replicate 8 (item .t 4)
     (t q).sw.urgent = q ∧ (t q).sw.ctr.urgentDrop = 1 ∧
     (t q).trip.isLatched .ringCongestion = true ∧ (t q).station.recvQ.length = 1) := by
  decide +kernel

/-- A sweep of a foreign station with address 5: recorded as a clash, and acted on in place under FORCE (R23,
R60). -/
def sweepClash : List Byte :=
  [6, 0, 0, 5, 0x12, 0x34, 0, 9, 0, 0, 0, 0, 0, 8, 0, 0, 0, 0, 0, 0, 0, 0, 0, 0,
   0xB8, 0x0F, 0xAF, 0xCD]

theorem test_witness_ClashOfAddress_sweeps :
    let forced : MgmtBody := { enum62 with force := true }
    let g (b : MgmtBody) := readFrame sweepClash (.mgmt b)
    let t (b : MgmtBody) := after (.frameArrival (mo 1) .a (.ended sweepClash (.mgmt b))) (wSweep 5)
    GoodArrival (wSweep 5) (mo 1) .a sweepClash ∧
    ((g forced).hdr.src = 5 ∧ (g forced).hdr.tag ≠ (wSweep 5).tag ∧ (g forced).hdr.hop + 1 < 127 ∧
      (g forced).hdr.cls = .m ∧ (g forced).hdr.dest = 0 ∧ (mgmtOf (g forced).body).kind = .command) ∧
    ((t forced).station.address = 62 ∧ (t forced).sw.clash = none ∧
      (t forced).trip.isLatched .addressClash = true ∧ (t forced).sw.ctr.clashSeen = 1) ∧
    ((t collect).station.address = 5 ∧ (t collect).sw.clash = some 0x1234 ∧
      (t collect).sw.transit.length = 1) :=
  ⟨test_arrives rfl (by decide +kernel), by decide +kernel⟩

theorem test_witness_ManagementFrames_clash :
    let b := wMgmt .command .status
    sweepCommand b.cmd = false ∧ (wSweep 5).resvOf .a = .none ∧ OutputsBusy (wSweep 5) ∧
    NoReservation (wSweep 5) .a ∧
    ((after (.frameArrival (mo 1) .a (.ended sweepFrom4 (.mgmt b))) (wSweep 5)).sw.transit.map
      fun i => mgmtOf i.frame.body) = [b] :=
  ⟨by decide, by decide, ⟨.inl rfl, .b, rfl, .inl (by decide)⟩, fun _ h => (by cases h),
    by decide +kernel⟩

/-- A WRITE of STATION that changes the address, the trip stream, Rf and E, and one of CAMERA that changes a stream
field and the timeout (R63, R127, R130, R161, R164, R166, R188). -/
theorem test_witness_WritesWithEffects_station :
    let new : StationRecord := { defaultStation with refresh := 5, tripStream := some 4 }
    let es : List (Nat × StationEntry) := [(0, { address := 7, fields := new })]
    let remote : List RemoteEntry := [⟨7, .rampStop, 3, 0, false⟩, ⟨9, .notice, 3, 0, false⟩]
    let trip := { thru.trip with remote := remote }
    let s : State := sending { thru with
      trip := { trip with levels := trip.compute }, sw := { thru.sw with clash := some 3 } }
    let t := after (.writeStation (mo 3000000) env es) s
    (countOk es = true ∧ es.all (fun x => x.2.fields.filter.length == 8) = true ∧
      es.getLast?.map (·.2.fields) = some new ∧ (∀ x ∈ es, checkStation .port s x = none) ∧
      s.trip.levels = s.trip.compute ∧ s.station.cfg.tripStream ≠ some 4) ∧
    t.station.address = 7 ∧ t.sw.clash = none ∧ t.trip.remote = [⟨9, .notice, 3, 0, true⟩] ∧
    t.trip.levels.eff = .notice ∧ t.trip.ctr.staleRemote = 1 ∧
    (t.sw.urgent.map fun i => (i.frame.hdr.cls, i.frame.hdr.stream, i.frame.hdr.src)) =
      [(.t, 4, 7)] := by decide +kernel

theorem test_witness_WritesWithEffects_camera :
    let new : CameraRecord := { defaultCamera with timeout := 10, stream := 3 }
    let g : Segment :=
      { line := 3, step := 1, stamp := 5, offset := 0, count := 2, width := 2, pixels := [1, 2] }
    let s : State := sending { thru with image := { ImageUnit.reset with
      asm := [g], asmStream := 9, abandoned := 3,
      line := some { num := 4, stamp := 5, repeatNo := 1, start := 0 } } }
    let t := after (.writeCamera (mo 2000) env [(0, new)]) s
    checkCamera new s (0, new) = none ∧
    (t.sw.localI.map fun i => (i.frame.hdr.stream, i.frame.hdr.len)) = [(9, 18)] ∧
    t.image.asm = [] ∧ t.image.line = none ∧ t.image.abandoned = 4 ∧
    t.trip.isPresent .cameraLost = true := by decide +kernel

/-! ## Witnesses: statements widened by the fifth review -/

/-- A line that begins a repeat while a window is open and a correction waits: the window closes without an edge
and is open anew, the correction goes as a K frame (R131, R136, R142). A LINE_END of 15 pixels changes nothing. -/
theorem test_witness_LineEnds_boundary :
    let e := wEnd (some 39) 3 50000
    let s : State := sending { e with
      image := { e.image with pending := [(7, [{ axis := 1, amount := 4, window := 2 }])] } }
    let t := after (.lineEnd (mo 5) (List.replicate 16 9)) s
    let w := t.image.windows.getD 0 Window.reset
    s.image.line = some wLine ∧ s.image.cam.pixels = 16 ∧ OutputsBusy s ∧
    w.result.status = .noEdge ∧ w.isOpen = true ∧ t.image.pending = [] ∧
    (t.sw.localK.map fun i => (i.frame.hdr.dest, i.frame.hdr.len)) = [(7, 8)] ∧
    after (.lineEnd (mo 5) (List.replicate 15 9)) s = s.tick (mo 5) :=
  ⟨rfl, rfl, ⟨.inl rfl, .b, rfl, .inl (by decide)⟩, by decide +kernel⟩

/-- A C frame of station 2 under a foreign tag at station 2, which publishes: it goes to the tail of the urgent
queue after the CHANGE frame of its clash, or finds the queue full; in its place; its copy runs on; at a tap table
entry with DROP its reservation goes, or its copy ends with an abort mark (R23, R36, R37). -/
theorem test_witness_ClashOfAddress_forwarding :
    let h := (readFrame cFrame raw).hdr
    let r (v : Resv) : Option Reception := some { recv .c 16 with hdr := h, resv := v }
    let place : QItem := { wResv with frame := { wResv.frame with hdr := h } }
    let s (base : State) (v : Resv) (x : Tx) (q : List QItem) : State := { base with
      station := { base.station with address := 2, cfg := { defaultStation with tripStream := some 3 } },
      portA := { good with reception := if v = .none then none else r v },
      portB := { good with tx := some x }, sw := { base.sw with urgent := q } }
    let t (u : State) : State := after (.frameArrival (mo 1) .a (.ended cFrame raw)) u
    let urgent (u : State) := (t u).sw.urgent.map fun i => (i.frame.hdr.cls, i.frame.hdr.hop, i.ready)
    let copy : Tx := { busy with copyOf := some .a }
    let drop := tapped .drop .unit
    (∀ v ∈ [Resv.none, .held, .picked], arrivalFits ((s thru v busy []).tick (mo 1)) .a cFrame = true ∧
      (s thru v busy []).arrivalUse .a = .forwardInput) ∧ h.src = 2 ∧ h.tag ≠ (s thru .none busy []).tag ∧
    urgent (s thru .none busy []) = [(.t, 0, true), (.c, 1, true)] ∧
    (urgent (s thru .none busy (List.replicate 8 (item .t 4)))).length = 8 ∧
    (t (s thru .none busy (List.replicate 8 (item .t 4)))).trip.isLatched .ringCongestion = true ∧
    urgent (s thru .held busy [place, item .t 4]) = [(.c, 1, true), (.t, 0, true), (.t, 0, true)] ∧
    ((t (s thru .picked copy [])).portB.tx.map fun x => (x.copyOf, x.frame.body)) =
      some (none, .bytes (bodyBytes cFrame)) ∧
    urgent (s drop .held busy [place, item .t 4]) = [(.t, 0, true), (.t, 0, true)] ∧
    ((t (s drop .picked copy [])).portB.tx.map (·.aborted)) = some true := by decide +kernel

/-- A cycle, and a refresh, that finds the urgent queue full while RING_CONGESTION is not latched (R37, R70,
R162). -/
theorem test_witness_full_urgent_queue :
    let s : State := { wUrgent with
      gen := { ramp with timer := some { period := 750, due := 10 } },
      station := { wUrgent.station with cfg := { defaultStation with tripStream := some 3 } } }
    let t := after (.cycleTimerExpiry (mo 10)) s
    let u := after (.refreshTimerExpiry (mo 2000000)) s
    s.station.address ≠ 0 ∧ s.sw.urgent.any QItem.isLocalC = false ∧ 8 ≤ s.sw.urgent.length ∧
    s.trip.isLatched .ringCongestion = false ∧ s.trip.refreshAt ≤ max s.clock (mo 2000000).time ∧
    s.trip.tree.map (·.id) = allFaults ∧
    t.trip.isLatched .ringCongestion = true ∧ t.sw.ctr.urgentDrop =
      (if s.trip.levels.pub ≠ (s.trip.latch .ringCongestion).compute.pub then 2 else 1) ∧
    t.gen.cycle = ramp.cycle + 1 ∧ t.ctx.pending.isSome = true ∧
    u.trip.isLatched .ringCongestion = true ∧ u.sw.urgent = s.sw.urgent ∧
    u.sw.ctr.urgentDrop = t.sw.ctr.urgentDrop ∧ u.trip.ctr.sent = 0 := by decide +kernel

/-- A WRITE of a read-only table, of an unknown one, and of 9 entries of either (R187). -/
theorem test_witness_ManagementRefused_tables :
    let t (table : TableId) (count : Nat) : State :=
      takeCommand .port (wMgmt .command (.write (.other table count))) (sending thru)
    let said (u : State) : List Resp := u.station.recvQ.map fun x => (mgmtOf x.2.body).status
    (∀ table ∈ [TableId.result, .faults, .remote, .screenStreams, .counters],
      said (t table 1) = [.readOnly] ∧ (t table 8).station.ctr.commandsTaken = 1) ∧
    said (t (.unknown 99) 1) = [.badTable] ∧ said (t (.unknown 99) 9) = [.badLength] ∧
    said (t .result 0) = [.badLength] ∧ (t .result 0).station.ctr.commandsTaken = 0 := by
  decide +kernel

/-! ## Witnesses: statements widened by the sixth review -/

/-- A COUPLED axis of gear −7 / 3 steps by the floor and keeps the remainder (R100). -/
theorem test_witness_AxisStepRules_gear :
    let r : AxisRecord := { defaultAxis with
      state := .coupled, acc := 77, cfg := { defaultAxisConfig with num := -7, den := 3 } }
    1 ≤ r.cfg.den ∧ (axisStep 1000 r).step = -10 ∧ (axisStep 1000 r).acc = 757 ∧
    (axisStep 1000 r).gear = -10 := by decide

/-- DISABLE AXIS with the link free: a ready drive's release exchange begins, a drive not ready counts as
released (R115, R122). -/
theorem test_witness_EnableAndDisableAxis_free :
    let low : Moment := { mo 1 with ready := (mo 1).ready.set 0 false }
    let t (m : Moment) : State := after (.disableAxis m env 0) wAxis
    (wAxis.axis 0).state ≠ .disabled ∧ wAxis.drive.exchange = none ∧
    ((t (mo 1)).drive.exchange.map fun x => (x.axis, x.release, x.enable)) = some (0, true, false) ∧
    ((t (mo 1)).axis 0).release = true ∧
    (t low).drive.exchange = none ∧ ((t low).axis 0).release = false := by decide +kernel

/-- Frames judged: too short, a check value that is not theirs, and with a right one a length field that is wrong,
a source 63, a class that is none, a T level 4, and each form right (R13 to R15). -/
theorem test_witness_BadFrameDiscarded_verdicts :
    let signed (b : List Byte) : List Byte := b ++ beBytes (crc32 b).toNat 4
    let sealed (i : Nat) (v : Byte) : Verdict :=
      judgeFrame (signed ((tFrame.take 20).set i v))
    judgeFrame (tFrame.take 19) = .formatBad ∧ judgeFrame (tFrame.set 22 0) = .crcBad ∧
    sealed 13 5 = .formatBad ∧ sealed 3 63 = .formatBad ∧ sealed 0 7 = .formatBad ∧
    sealed 16 4 = .formatBad ∧ sealed 16 3 = .good ∧
    (∀ b ∈ [tFrame, cFrame, kFrame, iFrame, sFrame, mFrame], judgeFrame b = .good) := by
  decide +kernel

/-- Next addresses that give none, and sweeps that the frame port sends to the station itself (R60, R184). -/
theorem test_witness_Sweeps_unchanged :
    let h := { hdr .m 16 with dest := 0 }
    let pass (next : Nat) : State :=
      after (.enumerate (mo 1) (.passing h) 1 1 next true false true) (wSweep 5)
    let port : State := after (.collect (mo 1) (.addressed .port) 1 0 false true []) (wSweep 5)
    let zero : State := after (.collect (mo 1) (.addressed .port) 1 0 false true []) State.reset
    (∀ next ∈ [0, 64], (pass next).station.address = 5 ∧
      ((pass next).sw.transit.map fun i => (mgmtOf i.frame.body).cmd) = [.enumerate 1 next]) ∧
    (port.station.recvQ.map fun x => (mgmtOf x.2.body).status) = [.badCommand] ∧
    zero.station.recvQ = [] := by decide +kernel

/-- A station without an address that an ENUMERATE gives one: its remote entry of that source goes, and it begins
to publish (R63, R161, R166). -/
theorem test_witness_Sweeps_readdressed :
    let h := { hdr .m 16 with dest := 0 }
    let w := wSweep 0
    let s : State := { w with
      trip := { w.trip with remote := [⟨7, .notice, 3, 0, false⟩, ⟨9, .notice, 3, 0, false⟩] },
      station := { w.station with cfg := { defaultStation with tripStream := some 4 } } }
    let t := after (.enumerate (mo 1) (.passing h) 1 1 7 false false true) s
    t.station.address = 7 ∧ t.trip.remote = [⟨9, .notice, 3, 0, false⟩] ∧
    (t.sw.urgent.map fun i => (i.frame.hdr.cls, i.frame.hdr.stream, i.frame.hdr.src)) =
      [(.t, 4, 7)] ∧
    t = ((s.tick (mo 1)).readdressed 7).setSw t.sw := by decide +kernel

/-- Two runs of stale tiles in one row and one in the next (R178). -/
theorem test_witness_RepaintTimer_spans :
    let tile (stale : Bool) : TileEntry := { source := .stream 5, background := 0, stale := stale }
    let u : ScreenUnit := { ScreenUnit.reset with
      panel := { defaultPanel with width := 4, height := 2 },
      tiles := [true, false, true, true, true, false, false, false].map tile }
    u.tiles.length = u.panel.width * u.panel.height ∧
    ((u.staleSpans 5).map fun x => (x.row, x.col, x.count)) = [(0, 0, 1), (0, 2, 2), (1, 0, 1)] ∧
    u.staleCount 5 = 4 ∧ u.staleCount 6 = 0 := by decide

/-- RING_CONGESTION, latched before, is clear after RESET STATION at a station that publishes with its urgent queue
full (R161, R168). -/
theorem test_witness_ResetStation_congestion :
    let s : State := { wUrgent with
      trip := wUrgent.trip.latch .ringCongestion,
      station := { wUrgent.station with cfg := { defaultStation with tripStream := some 3 } } }
    let t := after (.resetStation (mo 1) env) s
    s.trip.isLatched .ringCongestion = true ∧ t.trip.isLatched .ringCongestion = false ∧
    t.trip.isLatched .stationReset = true := by decide +kernel

/-! ## Witnesses: statements widened by the seventh review -/

/-- RESET STATION with a tile write in transmission, which is kept, and with an idle link, which takes the CLEAR
pass's first tile; TRIP OUT stands as the level says before it (R175, R183, R157). -/
theorem test_witness_ResetStation_screen :
    let w : LinkWrite := { col := 2, row := 1, content := .fill 9 }
    let busy : State := { thru with screen := { thru.screen with link := some w } }
    let idle : State := { thru with screen := { thru.screen with link := none } }
    let t := after (.resetStation (mo 1) env) busy
    let u := after (.resetStation (mo 1) env) idle
    busy.trip.tripOut = (busy.trip.levels.eff == .driveOff) ∧
    t.screen.link = some w ∧ t.screen.job = .clear 0 ∧
    u.screen.link = some { col := 0, row := 0, content := .fill 0 } ∧ u.screen.job = .clear 1 := by
  decide +kernel

/-- A digest carries the generator's state with the strap, and the context's last master state without it (R190). -/
theorem test_digest_master :
    let s : State := { thru with
      gen := { thru.gen with state := .ramping }, ctx := { thru.ctx with lastMaster := .running } }
    ({ s with strap := true } : State).digest.master = .ramping ∧
    ({ s with strap := false } : State).digest.master = .running := by decide

/-! ## Witnesses: statements widened by the eighth review -/

/-- Port A fails while both ports send: the forward outputs of THROUGH and WRAP are both sending, the transit FIFO
and the local K queue stay, the cut frame's reservation goes, and the one CHANGE frame of the reports waits at the
urgent queue's tail (R53, R161). -/
theorem test_witness_ReceiveStateAndSide_queues :
    let s : State := { wRole with
      station := { wRole.station with cfg := { defaultStation with tripStream := some 3 } },
      trip := { wRole.trip with
        tree := wRole.trip.tree.map fun x => { x with latched := false, publish := true } },
      sw := { wRole.sw with
        urgent := [wResv, item .t 4], transit := [item .i 24], localK := [item .k 8] } }
    let s : State := { s with trip := { s.trip with levels := s.trip.compute } }
    let t := after (.breakSymbolRun (mo 1) .a) s
    ForwardSending s s.sw.role ∧ ForwardSending s t.sw.role ∧ s.trip.levels = s.trip.compute ∧
    t.sw.role ≠ s.sw.role ∧ ¬ (s.portA.rx = .sync ↔ t.portA.rx = .sync) ∧
    t.sw.transit = s.sw.transit ∧ t.sw.localK = s.sw.localK ∧
    t.sw.urgent.map (·.frame.hdr.cls) = [.t, .t] ∧ t.sw.urgent.head? = some (item .t 4) := by
  intro s0 s t
  have h : ∀ r, forwardOutput r = some .a ∨ forwardOutput r = some .b → ForwardSending s r := by
    intro r hr
    rcases hr with hr | hr <;> exact ⟨_, hr, by decide +kernel⟩
  exact ⟨h _ (by decide +kernel), h _ (by decide +kernel), by decide +kernel, by decide +kernel,
    by decide +kernel, by decide +kernel, by decide +kernel, by decide +kernel, by decide +kernel⟩

/-- A command refused at its length from a broadcast, and one sent to a station under an unknown code: neither is
counted taken, neither restarts a timer; the first is counted BROADCAST_REFUSED (R184, R191). -/
theorem test_refused_counts :
    let s : State := { thru with station := { thru.station with shortTimer := some 77 } }
    let t := after (.masterStop (mo 1) { env with via := .broadcast, lengthOk := false }) s
    let u := takeCommand (.ring 1) (wMgmt .command (.unknown 99)) s
    (t.station.ctr.broadcastRefused = 1 ∧ t.station.ctr.commandsTaken = 0 ∧
      t.station.shortTimer = some 77) ∧
    u.station.ctr.commandsTaken = 0 ∧ u.station.shortTimer = some 77 := by decide +kernel

end Sys2Proof.Tests
end

