-- ==== Sys2Proof/Proofs/Standing.lean ====
section
/-! What only the events of the fibre move: the queue of commands, the clock, the part, the receive sides and the
ring role. Every operation of another block leaves all of it as it is; one lemma per operation, in the order of the
model, says so once. -/

namespace Sys2Proof.Machine

/-- A receive side as no other block can move it: light, receive state, runs and record of symbols, side state and
hold, and the frame being received but for what the Ring Switch holds for it. -/
structure Line where
  light : Bool
  rx : RxState
  fillRun : Nat
  breakRun : Nat
  invalid : List Nat
  skipping : Bool
  side : SideState
  hold : Option Nat
  receiving : Option Reception
  deriving DecidableEq

/-- The receive side of a port. -/
def Port.line (x : Port) : Line :=
  { light := x.light, rx := x.rx, fillRun := x.fillRun, breakRun := x.breakRun, invalid := x.invalid,
    skipping := x.skipping, side := x.side, hold := x.hold,
    receiving := x.reception.map fun r => { r with resv := .none } }

/-- The waiting commands, the moment, the part's own properties, both receive sides and the ring role. -/
structure Standing where
  pending : List Instr
  clock : Nat
  ready : Four Bool
  serial : BitVec 48
  strap : Bool
  lineA : Line
  lineB : Line
  role : RingRole
  deriving DecidableEq

/-- What of a state only the events of the fibre and the taking of a command move. -/
def State.standing (s : State) : Standing :=
  { pending := s.pending, clock := s.clock, ready := s.ready, serial := s.serial, strap := s.strap,
    lineA := s.portA.line, lineB := s.portB.line, role := s.sw.role }

/-! ## What equal standings say -/

theorem sameMoment_of_standing {s t : State} (h : t.standing = s.standing) : SameMoment s t := by
  simp only [State.standing, Standing.mk.injEq] at h
  obtain ⟨hp, hc, hr, hs, ht, -⟩ := h
  exact ⟨hp, hc, hr, hs, ht⟩

theorem role_of_standing {s t : State} (h : t.standing = s.standing) : t.sw.role = s.sw.role :=
  congrArg Standing.role h

theorem line_of_standing {s t : State} (h : t.standing = s.standing) (p : PortId) :
    (t.port p).line = (s.port p).line := by
  cases p with
  | a => exact congrArg Standing.lineA h
  | b => exact congrArg Standing.lineB h

theorem Port.reception_isSome_of_line {x y : Port} (h : y.line = x.line) :
    y.reception.isSome = x.reception.isSome := by
  have := congrArg (fun l => l.receiving.isSome) h
  simpa [Port.line] using this

theorem sameSide_of_line {x y : Port} (h : y.line = x.line) : SameSide x y := by
  simp only [Port.line, Line.mk.injEq] at h
  obtain ⟨h1, h2, h3, h4, h5, h6, h7, h8, -⟩ := h
  exact ⟨h1, h2, h3, h4, h5, h6, h7, h8⟩

/-- Of the frame being received only what is held for it may have changed. -/
theorem reception_of_line {x y : Port} (h : y.line = x.line) {r : Reception}
    (hr : x.reception = some r) : ∃ v, y.reception = some { r with resv := v } := by
  have h := congrArg Line.receiving h
  simp only [Port.line, hr, Option.map_some, Option.map_eq_some_iff] at h
  obtain ⟨r', hr', heq⟩ := h
  refine ⟨r'.resv, ?_⟩
  rw [hr']
  cases r; cases r'
  simp_all

theorem reception_none_of_line {x y : Port} (h : y.line = x.line) (hx : x.reception = none) :
    y.reception = none := by
  have := Port.reception_isSome_of_line h
  rw [hx] at this
  simpa using this

/-! ## Setters -/

section Setters
variable (s : State)

@[simp] theorem standing_setGen (x : Generator) : (s.setGen x).standing = s.standing := rfl
@[simp] theorem standing_setCtx (x : CycleCtx) : (s.setCtx x).standing = s.standing := rfl
@[simp] theorem standing_setAxes (x : AxisTable) : (s.setAxes x).standing = s.standing := rfl
@[simp] theorem standing_setDrive (x : DriveLink) : (s.setDrive x).standing = s.standing := rfl
@[simp] theorem standing_setImage (x : ImageUnit) : (s.setImage x).standing = s.standing := rfl
@[simp] theorem standing_setTrip (x : TripUnit) : (s.setTrip x).standing = s.standing := rfl
@[simp] theorem standing_setScreen (x : ScreenUnit) : (s.setScreen x).standing = s.standing := rfl
@[simp] theorem standing_setStation (x : StationCtl) : (s.setStation x).standing = s.standing := rfl
@[simp] theorem standing_nextSeq : s.nextSeq.standing = s.standing := rfl
@[simp] theorem standing_setAxis (a : Fin 4) (r : AxisRecord) :
    (s.setAxis a r).standing = s.standing := rfl
@[simp] theorem standing_setDriveAxis (a : Fin 4) (d : DriveAxis) :
    (s.setDriveAxis a d).standing = s.standing := rfl
@[simp] theorem standing_setTripInput (n : Fin 8) (i : TripInput) :
    (s.setTripInput n i).standing = s.standing := rfl
@[simp] theorem standing_countSw (f : SwitchCounters → SwitchCounters) :
    (s.countSw f).standing = s.standing := rfl
@[simp] theorem standing_countMotion (f : MotionCounters → MotionCounters) :
    (s.countMotion f).standing = s.standing := rfl
@[simp] theorem standing_countDrive (f : DriveCounters → DriveCounters) :
    (s.countDrive f).standing = s.standing := rfl
@[simp] theorem standing_countImage (f : ImageCounters → ImageCounters) :
    (s.countImage f).standing = s.standing := rfl
@[simp] theorem standing_countScreen (f : ScreenCounters → ScreenCounters) :
    (s.countScreen f).standing = s.standing := rfl
@[simp] theorem standing_countStation (f : StationCounters → StationCounters) :
    (s.countStation f).standing = s.standing := rfl

@[simp] theorem standing_setSw (w : Switch) (h : w.role = s.sw.role) :
    (s.setSw w).standing = s.standing := by
  simp [State.standing, h]

@[simp] theorem standing_setPort (p : PortId) (x : Port) (h : x.line = (s.port p).line) :
    (s.setPort p x).standing = s.standing := by
  cases p <;> simp_all [State.standing]

@[simp] theorem standing_countPort (p : PortId) (f : PortCounters → PortCounters) :
    (s.countPort p f).standing = s.standing :=
  standing_setPort s p _ rfl

end Setters

@[simp] theorem standing_ite (c : Prop) [Decidable c] (s t : State) :
    (if c then s else t).standing = if c then s.standing else t.standing :=
  apply_ite State.standing c s t

/-- A fold of operations that each keep the standing keeps it. -/
theorem standing_foldl {α : Type} (f : State → α → State)
    (h : ∀ s x, (f s x).standing = s.standing) (l : List α) (s : State) :
    (l.foldl f s).standing = s.standing := by
  induction l generalizing s with
  | nil => rfl
  | cons x l ih => rw [List.foldl_cons, ih, h]

/-! ## Outputs and queues -/

section Operations
variable (s : State)

@[simp] theorem standing_markPicked (i : QItem) : (markPicked s i).standing = s.standing := by
  unfold markPicked
  split
  · split
    · next r hr => exact standing_setPort s _ _ (by simp [Port.line, hr])
    · rfl
  · rfl

@[simp] theorem standing_startTx (p : PortId) (i : QItem) :
    (startTx s p i).standing = s.standing := by
  unfold startTx
  exact (standing_setPort _ p _ (by rfl)).trans (standing_markPicked s i)

@[simp] theorem standing_drainIsolated (n : Nat) : (drainIsolated n s).standing = s.standing := by
  induction n generalizing s with
  | zero => rfl
  | succ n ih =>
    simp only [drainIsolated]
    split
    · next i w h => simp [ih, (switch_pick_same h).1]
    · rfl

@[simp] theorem standing_arbitrateForward : (arbitrateForward s).standing = s.standing := by
  unfold arbitrateForward
  split
  · simp
  · split
    · split
      · next i w h => simp [(switch_pick_same h).1]
      · rfl
    · rfl

@[simp] theorem standing_arbitrateCounter : (arbitrateCounter s).standing = s.standing := by
  unfold arbitrateCounter
  split
  · split
    · split <;> simp
    · rfl
  · rfl

@[simp] theorem standing_arbitrate : (arbitrate s).standing = s.standing := by simp [arbitrate]

@[simp] theorem standing_abortTx (p : PortId) : (abortTx s p).standing = s.standing := by
  unfold abortTx
  split
  · split
    · rfl
    · exact (standing_countPort _ p _).trans (standing_setPort s p _ rfl)
  · rfl

@[simp] theorem standing_abortCopyOn (q p : PortId) :
    (abortCopyOn s q p).standing = s.standing := by
  unfold abortCopyOn
  split
  · split <;> simp
  · rfl

@[simp] theorem standing_settleDrop (q : PortId) : (settleDrop s q).standing = s.standing := by
  simp [settleDrop]

@[simp] theorem standing_removeResv (q : PortId) : (removeResv s q).standing = s.standing := by
  simp [removeResv]

@[simp] theorem standing_completeCopyOn (q p : PortId) (f : Frame) :
    (completeCopyOn s q p f).standing = s.standing := by
  unfold completeCopyOn
  split
  · split
    · exact standing_setPort _ _ _ rfl
    · rfl
  · rfl

@[simp] theorem standing_placeTransit (f : Frame) : (placeTransit s f).standing = s.standing := by
  simp only [placeTransit]
  split <;> simp

@[simp] theorem standing_placeCounter (f : Frame) : (placeCounter s f).standing = s.standing := by
  simp only [placeCounter]
  split <;> simp

@[simp] theorem standing_settleCounter (q : PortId) (f : Frame) :
    (settleCounter s q f).standing = s.standing := by
  unfold settleCounter
  split <;> simp

/-! ## Originated frames -/

@[simp] theorem standing_insertLocal (cls : FrameClass) (stream dest len : Nat) (b : Body)
    (wire : Option (List Byte)) :
    (insertLocal s cls stream dest len b wire).standing = s.standing := by
  unfold insertLocal
  split
  · simp [(setLocalQ_same _ _ _).1]
  · simp

@[simp] theorem standing_countUrgentDrop : (countUrgentDrop s).standing = s.standing := rfl

@[simp] theorem standing_queueTrip (stream : Nat) (t : TripBody) :
    (queueTrip s stream t).1.standing = s.standing := by
  unfold queueTrip
  split <;> simp

@[simp] theorem standing_queueCycle (stream : Nat) (c : CycleBody) :
    (queueCycle s stream c).1.standing = s.standing := by
  simp only [queueCycle]
  split
  · simp
  · split <;> simp

@[simp] theorem standing_deliverPort (f : Frame) : (deliverPort s f).standing = s.standing := by
  unfold deliverPort
  split <;> simp

/-! ## Levels and fault reports -/

@[simp] theorem standing_sendNotice (e : ScreenStream) :
    (sendNotice s e).standing = s.standing := by
  unfold sendNotice
  split <;> simp

@[simp] theorem standing_sendNotices : (sendNotices s).standing = s.standing := by
  unfold sendNotices
  split
  · rfl
  · exact standing_foldl _ standing_sendNotice _ s

@[simp] theorem standing_levelChange (old new : Level) :
    (levelChange old new s).standing = s.standing := by
  unfold levelChange screenLevel setTripOut motionLevel
  split
  · rfl
  · split
    · simp
    · split <;> simp

@[simp] theorem standing_originateTrip (r : Bool) :
    (originateTrip r s).1.standing = s.standing := by
  unfold originateTrip
  split <;> simp

@[simp] theorem standing_recomputeOnce : (recomputeOnce s).1.standing = s.standing := by
  simp only [recomputeOnce]
  split <;> simp

@[simp] theorem standing_reportCongestion : (reportCongestion s).standing = s.standing := by
  unfold reportCongestion
  split <;> simp

@[simp] theorem standing_afterQueue (r : State × Bool) :
    (afterQueue r).standing = r.1.standing := by
  unfold afterQueue
  split <;> simp

@[simp] theorem standing_recompute : (recompute s).standing = s.standing := by simp [recompute]

@[simp] theorem standing_sendTrip (r : Bool) : (sendTrip r s).standing = s.standing := by
  simp [sendTrip]

@[simp] theorem standing_report (f : FaultId) : (report f s).standing = s.standing := by
  unfold report axisFault
  split
  · rfl
  · split
    · simp
    · simp
    · split <;> simp
    · simp

@[simp] theorem standing_setCondition (f : FaultId) (b : Bool) :
    (setCondition f b s).standing = s.standing := by
  simp only [setCondition]
  split <;> simp

/-! ## Delivery to the units -/

@[simp] theorem standing_takeTrip (src : Nat) (t : TripBody) :
    (takeTrip src t s).standing = s.standing := by
  simp only [takeTrip]
  split
  · split <;> simp
  · split <;> simp

@[simp] theorem standing_staleSilent : (staleSilent s).standing = s.standing := rfl

@[simp] theorem standing_reportCorrLimit (a : Fin 4) :
    (reportCorrLimit a s).standing = s.standing := by simp [reportCorrLimit]

@[simp] theorem standing_takeCorrection (c : CorrRec) :
    (takeCorrection s c).standing = s.standing := by
  simp only [takeCorrection]
  split
  · split <;> simp
  · simp

@[simp] theorem standing_takeCorrections (cs : List CorrRec) :
    (takeCorrections cs s).standing = s.standing :=
  standing_foldl _ standing_takeCorrection cs s

@[simp] theorem standing_viewSegment (stream : Nat) (g : Segment) :
    (viewSegment s stream g).standing = s.standing := by
  unfold viewSegment
  split <;> simp

@[simp] theorem standing_takeSegments (stream : Nat) (tail : Bool) (gs : List Segment) :
    (takeSegments stream tail gs s).standing = s.standing := by
  induction gs generalizing s with
  | nil => unfold takeSegments; split <;> simp
  | cons g gs ih => unfold takeSegments; split <;> simp [ih]

/-! ## Drive Link -/

@[simp] theorem standing_reportDriveLink (a : Fin 4) :
    (reportDriveLink a s).standing = s.standing := by simp [reportDriveLink]

@[simp] theorem standing_badOutcome (a : Fin 4) (o : DriveOutcome) :
    (badOutcome a o s).standing = s.standing := by simp [badOutcome]

@[simp] theorem standing_startExchange (a : Fin 4) (r : Bool) :
    (startExchange a r s).standing = s.standing := rfl

@[simp] theorem standing_endRelease (a : Fin 4) : (endRelease a s).standing = s.standing := rfl

@[simp] theorem standing_endBatch : (endBatch s).standing = s.standing := by
  unfold endBatch
  split
  · split <;> simp
  · rfl

@[simp] theorem standing_driveArb (n : Nat) : (driveArb n s).standing = s.standing := by
  induction n generalizing s with
  | zero => rfl
  | succ n ih =>
    simp only [driveArb]
    split
    · rfl
    · split
      · split <;> simp [ih]
      · split
        · simp
        · split
          · simp [ih]
          · split <;> simp [ih]

@[simp] theorem standing_driveArbitrate : (driveArbitrate s).standing = s.standing :=
  standing_driveArb s 9

@[simp] theorem standing_startBatch : (startBatch s).standing = s.standing := by
  unfold startBatch abandonBatch
  split
  · simp
  · simp only [standing_driveArbitrate, standing_setDrive]
    refine standing_foldl _ (fun s a => ?_) _ s
    split <;> simp

@[simp] theorem standing_followCheck (a : Fin 4) (limit : Nat) (last : Option (BitVec 32))
    (actual : BitVec 32) : (followCheck a limit last actual s).standing = s.standing := by
  unfold followCheck
  split
  · split <;> simp
  · rfl

@[simp] theorem standing_goodOutcome (x : Exchange) (st : DriveStatus) :
    (goodOutcome x st s).standing = s.standing := by
  simp only [goodOutcome]
  split
  · simp
  · split
    · simp
    · split <;> simp

@[simp] theorem standing_batchOutcome (x : Exchange) (b : List Byte) :
    (batchOutcome x b s).standing = s.standing := by
  unfold batchOutcome
  split
  · rfl
  · split <;> simp

@[simp] theorem standing_completeExchange (x : Exchange) (b : List Byte) :
    (completeExchange x b s).standing = s.standing := by
  simp only [completeExchange]
  split
  · split <;> simp
  · split <;> simp

@[simp] theorem standing_dropExchange (x : Exchange) :
    (dropExchange x s).standing = s.standing := by
  simp only [dropExchange]
  split
  · simp
  · split <;> simp

@[simp] theorem standing_driveDisabled (a : Fin 4) :
    (driveDisabled a s).standing = s.standing := by simp [driveDisabled]

@[simp] theorem standing_driveEnabled (a : Fin 4) :
    (driveEnabled a s).standing = s.standing := by simp [driveEnabled]

/-! ## Image Unit -/

@[simp] theorem standing_reportCamera : (reportCamera s).standing = s.standing := by
  simp [reportCamera]

@[simp] theorem standing_abandonLine : (abandonLine s).standing = s.standing := by
  simp [abandonLine]

@[simp] theorem standing_reportWeb : (reportWeb s).standing = s.standing := by simp [reportWeb]

@[simp] theorem standing_webCheck (pixels : List Byte) :
    (webCheck pixels s).standing = s.standing := by simp [webCheck]

@[simp] theorem standing_closeWindow (i : Nat) : (closeWindow s i).standing = s.standing := by
  simp only [closeWindow]
  split
  · split <;> simp
  · simp

@[simp] theorem standing_closeWindows (f : Window → Bool) :
    (closeWindows f s).standing = s.standing :=
  standing_foldl _ standing_closeWindow _ s

@[simp] theorem standing_flushCorrections : (flushCorrections s).standing = s.standing := by
  simp only [flushCorrections]
  split
  · simp
  · refine (standing_foldl _ (fun s e => ?_) _ _).trans (standing_setImage s _)
    unfold sendCorrections
    split <;> simp

@[simp] theorem standing_repeatBoundary (l : CameraLine) :
    (repeatBoundary l s).standing = s.standing := by simp [repeatBoundary]

@[simp] theorem standing_queueAssembly : (queueAssembly s).standing = s.standing := by
  simp only [queueAssembly]
  split
  · rfl
  · split <;> simp

@[simp] theorem standing_placeSegment (g : Segment) :
    (placeSegment s g).standing = s.standing := by
  simp only [placeSegment, standing_ite, standing_queueAssembly, standing_viewSegment,
    standing_setImage, ite_self]

@[simp] theorem standing_streamLine (l : CameraLine) (fresh : Bool) (pixels : List Byte) :
    (streamLine l fresh pixels s).standing = s.standing := by
  have place (l : CameraLine) (line : List Byte) (s : State) :
      (placeLine l line s).standing = s.standing := by
    refine (standing_foldl _ standing_placeSegment _ _).trans ?_
    split <;> simp
  simp only [streamLine]
  cases fresh
  · simp only [Bool.false_eq_true, if_false]
    split <;> simp [place]
  · simp only [if_true]
    split <;> simp [place]

@[simp] theorem standing_endLine (l : CameraLine) (pixels : List Byte) :
    (endLine l pixels s).standing = s.standing := by
  simp only [endLine, standing_setImage, standing_streamLine, standing_closeWindows]
  split
  · simp
  · split <;> simp

/-! ## The cycle -/

@[simp] theorem standing_startMiss : (startMiss s).standing = s.standing := rfl

@[simp] theorem standing_reportJump (j : Bool) : (reportJump j s).standing = s.standing := by
  unfold reportJump
  split <;> simp

@[simp] theorem standing_applySteps (take : Bool) (adv : Int) :
    (applySteps take adv s).standing = s.standing := by
  simp [applySteps, handBase, stepAxes]

@[simp] theorem standing_confirmStop (st : MasterState) :
    (confirmStop st s).standing = s.standing := by cases st <;> rfl

@[simp] theorem standing_applyExact (f : PendingCycle) :
    (applyExact f s).standing = s.standing := by
  simp only [applyExact, standing_startMiss, standing_confirmStop, standing_applySteps,
    standing_setCtx, standing_reportJump]

@[simp] theorem standing_enterLost : (enterLost s).standing = s.standing := by simp [enterLost]

@[simp] theorem standing_applyExtrapolated : (applyExtrapolated s).standing = s.standing := by
  simp only [applyExtrapolated, standing_ite, standing_enterLost, standing_startMiss,
    standing_applySteps, standing_setCtx, standing_countMotion, standing_reportJump, ite_self]

@[simp] theorem standing_baseTake (f : PendingCycle) :
    (baseTake f s).standing = s.standing := by simp [baseTake]

@[simp] theorem standing_pendingDue (n : Nat) : (pendingDue n s).standing = s.standing := by
  induction n generalizing s with
  | zero => rfl
  | succ n ih =>
    simp only [pendingDue]
    split
    · split
      · rfl
      · split
        · simp
        · simp
        · split <;> simp [ih]
        · split <;> simp [ih]
    · rfl

@[simp] theorem standing_countStale : (countStale s).standing = s.standing := rfl

@[simp] theorem standing_lateCycle (late : Bool) : (lateCycle late s).standing = s.standing := by
  unfold lateCycle
  split <;> simp

@[simp] theorem standing_pendCycle (late : Bool) (f : PendingCycle) :
    (pendCycle late f s).standing = s.standing := by
  unfold pendCycle
  split
  · simp
  · split <;> simp

@[simp] theorem standing_classifyCycle (age : Nat) (c : CycleBody) :
    (classifyCycle age c s).standing = s.standing := by
  have forward : (if c.num = s.ctx.lastCycle then
      if s.ctx.state = .coasting ∧ s.ctx.delta = none then
        resync (isLate age c) (pendingOf s.clock age c) s
      else countStale s
      else if aheadOf c.num s.ctx.lastCycle then
        pendCycle (isLate age c) (pendingOf s.clock age c) s
      else countStale s).standing = s.standing := by
    split
    · split <;> simp [resync]
    · split <;> simp
  simp only [classifyCycle]
  split
  · simp
  · simp
  · exact forward
  · exact forward

@[simp] theorem standing_takeCycle (src : Nat) (tag : BitVec 16) (age : Nat) (c : CycleBody) :
    (takeCycle src tag age c s).standing = s.standing := by
  unfold takeCycle
  split
  · simp
  · split <;> simp

@[simp] theorem standing_issueCycle : (issueCycle s).standing = s.standing := by
  simp only [issueCycle]
  split <;> simp

/-! ## Station Control -/

@[simp] theorem standing_respond (e : Envelope) (cmd : MgmtCmd) (a : Answer) :
    (respond e cmd a s).standing = s.standing := by
  unfold respond answerPort
  split <;> simp

@[simp] theorem standing_answerPort (cmd : MgmtCmd) (tag : BitVec 16) (a : Answer) :
    (answerPort cmd tag a s).standing = s.standing := standing_deliverPort s _

@[simp] theorem standing_countRefused (e : Envelope) (r : Resp) :
    (countRefused e r s).standing = s.standing := by
  unfold countRefused
  split <;> simp

@[simp] theorem standing_refuse (e : Envelope) (cmd : MgmtCmd) (r : Resp) :
    (refuse e cmd r s).standing = s.standing := by simp [refuse]

@[simp] theorem standing_restartTimers : (restartTimers s).standing = s.standing := rfl

@[simp] theorem standing_countTaken : (countTaken s).standing = s.standing := rfl

/-- A command whose own effects keep the standing keeps it in its whole course. -/
theorem standing_stationCommand (e : Envelope) (cmd : MgmtCmd) (wf fb : Bool)
    (run : State → State × Answer) (h : ∀ s, (run s).1.standing = s.standing) :
    (stationCommand e cmd wf fb run s).standing = s.standing := by
  simp only [stationCommand]
  split
  · rfl
  · split
    · simp
    · split <;> simp [h]

theorem standing_onAxis (axis : Nat) (run : Fin 4 → State → State × Answer)
    (h : ∀ a s, (run a s).1.standing = s.standing) :
    (onAxis axis run s).1.standing = s.standing := by
  unfold onAxis
  split <;> simp [h]

theorem standing_runWrite {α : Type} (check : State → α → Option Resp) (es : List α)
    (act : State → State × Answer) (h : ∀ s, (act s).1.standing = s.standing) :
    (runWrite check es act s).1.standing = s.standing := by
  unfold runWrite
  split <;> simp [h]

@[simp] theorem standing_settlePublish (before : Option Nat) :
    (settlePublish before s).standing = s.standing := by
  unfold settlePublish
  split
  · simp
  · split <;> simp
  · rfl

@[simp] theorem standing_dropOwnRemote : (dropOwnRemote s).standing = s.standing := by
  unfold dropOwnRemote
  split <;> simp

@[simp] theorem standing_changeAddress (new : Nat) :
    (changeAddress new s).standing = s.standing := by
  simp only [changeAddress]
  split
  · rfl
  · rw [standing_dropOwnRemote, standing_setSw]
    · rfl
    · split <;> rfl

@[simp] theorem standing_setAddress (new : Nat) : (setAddress new s).standing = s.standing := by
  simp [setAddress]

end Operations
end Sys2Proof.Machine
end

