-- ==== Sys2Proof/Proofs/StandingCommands.lean ====
section
/-! The management commands, the sweeps, the frame port and the timers leave the standing of `Proofs/Standing` as it
is, and so does what the Ring Switch delivers of a frame. -/

namespace Sys2Proof.Machine

section Operations
variable (s : State)

/-! ## Axis, master and fault commands -/

theorem standing_runEnable (a : Fin 4) : (runEnable a s).1.standing = s.standing := by
  simp only [runEnable, okAfter, enableAxis]
  split
  · rfl
  · split
    · rfl
    · split <;> simp

theorem standing_runCouple (a : Fin 4) : (runCouple a s).1.standing = s.standing := by
  unfold runCouple checked
  split <;> simp [okAfter]

theorem standing_runDecouple (a : Fin 4) : (runDecouple a s).1.standing = s.standing := by
  simp only [runDecouple]
  split
  · rfl
  · split <;> simp

theorem standing_runDisable (a : Fin 4) : (runDisable a s).1.standing = s.standing := by
  unfold runDisable
  split
  · rfl
  · simp [okAfter, disableAxis]

theorem standing_runSetPhase (target : Int) (a : Fin 4) :
    (runSetPhase target a s).1.standing = s.standing := by
  simp only [runSetPhase]
  split <;> simp

theorem standing_runResetCorrection (a : Fin 4) :
    (runResetCorrection a s).1.standing = s.standing := by
  simp [runResetCorrection, okAfter]

theorem standing_runSetSpeed (target : Nat) : (runSetSpeed target s).1.standing = s.standing := by
  simp only [runSetSpeed]
  split
  · rfl
  · split
    · rfl
    · split
      · rfl
      · split <;> simp

theorem standing_runMasterStop : (runMasterStop s).1.standing = s.standing := by
  simp only [runMasterStop]
  split
  · rfl
  · split <;> simp

theorem standing_runClearFaults (groups : List Nat) :
    (runClearFaults groups s).1.standing = s.standing := by
  simp only [runClearFaults]
  split <;> simp

theorem standing_runTrip (level : Nat) : (runTrip level s).1.standing = s.standing := by
  unfold runTrip
  split <;> simp

theorem standing_runClearRemote : (runClearRemote s).1.standing = s.standing := by
  simp [runClearRemote]

/-! ## Tables -/

theorem standing_reportLinks : (reportLinks s).standing = s.standing :=
  standing_foldl _ (fun s a => standing_reportDriveLink s a) _ s

theorem standing_stopZeroTimeouts : (stopZeroTimeouts s).standing = s.standing := by
  simp [stopZeroTimeouts]

theorem standing_runWriteStation (via : Via) (es : List (Nat × StationEntry)) :
    (runWriteStation via es s).1.standing = s.standing :=
  standing_runWrite s _ es _ fun s => by
    simp [okAfter, writeStation, standing_stopZeroTimeouts, standing_reportLinks]

theorem standing_runWriteMaster (es : List (Nat × MasterRecord)) :
    (runWriteMaster es s).1.standing = s.standing :=
  standing_runWrite s _ es _ fun s => by simp

theorem standing_writeCamera (new : CameraRecord) :
    (writeCamera new s).standing = s.standing := by simp [writeCamera]

theorem standing_runWriteCamera (es : List (Nat × CameraRecord)) :
    (runWriteCamera es s).1.standing = s.standing :=
  standing_runWrite s _ es _ fun s => standing_writeCamera s _

theorem standing_runWritePanel (es : List (Nat × PanelRecord)) :
    (runWritePanel es s).1.standing = s.standing :=
  standing_runWrite s _ es _ fun _ => rfl

theorem standing_runWriteTap (es : List (Nat × Option TapFields)) :
    (runWriteTap es s).1.standing = s.standing :=
  standing_runWrite s _ es _ fun _ => rfl

theorem standing_runWriteAxis (es : List (Nat × AxisConfig)) :
    (runWriteAxis es s).1.standing = s.standing :=
  standing_runWrite s _ es _ fun s =>
    standing_foldl _ (fun s _ => standing_reportCorrLimit s _) es (writeAxes es s)

theorem standing_runWriteWindow (es : List (Nat × WindowConfig)) :
    (runWriteWindow es s).1.standing = s.standing :=
  standing_runWrite s _ es _ fun _ => rfl

theorem standing_runWriteFaultConfig (es : List (Nat × FaultSetting)) :
    (runWriteFaultConfig es s).1.standing = s.standing :=
  standing_runWrite s _ es _ fun s => by simp [okAfter]

theorem standing_runWriteMasks (es : List (Nat × List Bool)) :
    (runWriteMasks es s).1.standing = s.standing :=
  standing_runWrite s _ es _ fun s => by simp [okAfter]

theorem standing_runWriteTileMap (es : List (Nat × TileFields)) :
    (runWriteTileMap es s).1.standing = s.standing :=
  standing_runWrite s _ es _ fun _ => rfl

theorem standing_runWriteBanner (es : List (Nat × List Byte)) :
    (runWriteBanner es s).1.standing = s.standing :=
  standing_runWrite s _ es _ fun _ => rfl

theorem standing_clearCounters (i : Nat) : (clearCounters i s).standing = s.standing := by
  unfold clearCounters
  split <;> simp

theorem standing_runRead (t : TableId) (first count : Nat) (clear : Bool) :
    (runRead t first count clear s).1.standing = s.standing := by
  have clear (es : List (Nat × EntryData)) (s : State) :
      (es.foldl (fun s e => clearCounters e.1 s) s).standing = s.standing :=
    standing_foldl _ (fun s e => standing_clearCounters s e.1) es s
  unfold runRead checked
  split
  · rfl
  · simp [clear]

/-! ## RESET STATION and the address -/

theorem standing_resetSwitch : (resetSwitch s).standing = s.standing := rfl
theorem standing_resetControl : (resetControl s).standing = s.standing := rfl
theorem standing_resetMotion : (resetMotion s).standing = s.standing := rfl
theorem standing_resetDrive : (resetDrive s).standing = s.standing := rfl
theorem standing_resetScreen : (resetScreen s).standing = s.standing := rfl
theorem standing_resetTrip : (resetTrip s).standing = s.standing := rfl

theorem standing_resetStation : (resetStation s).standing = s.standing := by
  simp only [resetStation, standing_driveArbitrate, standing_recompute, standing_resetTrip,
    standing_resetScreen, standing_setImage, standing_resetDrive, standing_resetMotion,
    standing_resetControl, standing_resetSwitch]

/-! ## The commands as Station Control takes them -/

theorem standing_sweepAddressed (via : Via) (cmd : MgmtCmd) (tag : BitVec 16) (ok : Bool) :
    (sweepAddressed via cmd tag ok s).standing = s.standing := by
  unfold sweepAddressed
  rw [standing_ite, standing_ite, standing_refuse, ite_self,
    standing_stationCommand s _ cmd true false (fun s => (s, Answer.plain .ok)) (fun _ => rfl), ite_self]

theorem standing_commandWrite (e : Envelope) (w : WriteSet) :
    (commandWrite e w s).standing = s.standing := by
  cases w with
  | station es => exact standing_stationCommand s _ _ _ _ _ fun s => standing_runWriteStation s _ es
  | master es => exact standing_stationCommand s _ _ _ _ _ fun s => standing_runWriteMaster s es
  | camera es => exact standing_stationCommand s _ _ _ _ _ fun s => standing_runWriteCamera s es
  | panel es => exact standing_stationCommand s _ _ _ _ _ fun s => standing_runWritePanel s es
  | tap es => exact standing_stationCommand s _ _ _ _ _ fun s => standing_runWriteTap s es
  | axis es => exact standing_stationCommand s _ _ _ _ _ fun s => standing_runWriteAxis s es
  | window es => exact standing_stationCommand s _ _ _ _ _ fun s => standing_runWriteWindow s es
  | faultConfig es =>
    exact standing_stationCommand s _ _ _ _ _ fun s => standing_runWriteFaultConfig s es
  | masks es => exact standing_stationCommand s _ _ _ _ _ fun s => standing_runWriteMasks s es
  | tileMap es => exact standing_stationCommand s _ _ _ _ _ fun s => standing_runWriteTileMap s es
  | banner es => exact standing_stationCommand s _ _ _ _ _ fun s => standing_runWriteBanner s es
  | other table count =>
    exact standing_stationCommand s e _ _ true (fun s => (s, _)) fun _ => rfl

/-- Every management command keeps the standing. -/
theorem standing_commandCode (e : Envelope) (cmd : MgmtCmd) :
    (commandCode e cmd s).standing = s.standing := by
  cases cmd with
  | read t first count clear =>
    exact standing_stationCommand s _ _ _ _ _ fun s => standing_runRead s t first count clear
  | write w => exact standing_commandWrite s e w
  | status => exact standing_stationCommand s _ _ _ _ _ fun _ => rfl
  | clearFaults groups =>
    exact standing_stationCommand s _ _ _ _ _ fun s => standing_runClearFaults s groups
  | clearRemote => exact standing_stationCommand s _ _ _ _ _ standing_runClearRemote
  | trip level => exact standing_stationCommand s _ _ _ _ _ fun s => standing_runTrip s level
  | enableAxis axis =>
    exact standing_stationCommand s _ _ _ _ _ fun s =>
      standing_onAxis s axis _ fun a s => standing_runEnable s a
  | couple axis =>
    exact standing_stationCommand s _ _ _ _ _ fun s =>
      standing_onAxis s axis _ fun a s => standing_runCouple s a
  | decouple axis =>
    exact standing_stationCommand s _ _ _ _ _ fun s =>
      standing_onAxis s axis _ fun a s => standing_runDecouple s a
  | disableAxis axis =>
    exact standing_stationCommand s _ _ _ _ _ fun s =>
      standing_onAxis s axis _ fun a s => standing_runDisable s a
  | setPhase axis target =>
    exact standing_stationCommand s _ _ _ _ _ fun s =>
      standing_onAxis s axis _ fun a s => standing_runSetPhase s target a
  | resetCorrection axis =>
    exact standing_stationCommand s _ _ _ _ _ fun s =>
      standing_onAxis s axis _ fun a s => standing_runResetCorrection s a
  | setSpeed target =>
    exact standing_stationCommand s _ _ _ _ _ fun s => standing_runSetSpeed s target
  | masterStop => exact standing_stationCommand s _ _ _ _ _ standing_runMasterStop
  | enumerate first next => exact standing_sweepAddressed s _ _ _ _
  | collect => exact standing_sweepAddressed s _ _ _ _
  | resetStation => exact standing_stationCommand s _ _ _ _ _ standing_resetStation
  | unknown code => exact standing_refuse s _ _ _

@[simp] theorem standing_takeCommand (via : Via) (b : MgmtBody) :
    (takeCommand via b s).standing = s.standing := by
  unfold takeCommand
  split
  · exact standing_commandCode s _ _
  · simp
  · simp

/-! ## Sweeps -/

@[simp] theorem standing_enumerateMove (stream len first next : Nat) (w : Sweep) :
    (enumerateMove stream len first next w s).standing = s.standing := by
  simp [enumerateMove]

@[simp] theorem standing_collectMove (stream len : Nat) (w : Sweep) (ds : List Digest) :
    (collectMove stream len w ds s).standing = s.standing := by
  simp [collectMove]

@[simp] theorem standing_enumeratePass (h : Header) (first next : Nat) (w : Sweep) (d : RespData) :
    (enumeratePass h first next w d s).standing = s.standing := by
  have inPlace : (enumerateInPlace next w s).1.standing = s.standing := by
    unfold enumerateInPlace
    split
    · split
      · simp
      · split <;> simp
    · rfl
  simp [enumeratePass, inPlace]

@[simp] theorem standing_collectPass (h : Header) (w : Sweep) (ds : List Digest) :
    (collectPass h w ds s).standing = s.standing := standing_placeTransit s _

@[simp] theorem standing_enumerateReturn (h : Header) (first next : Nat) (w : Sweep) :
    (enumerateReturn h first next w s).standing = s.standing := standing_deliverPort s _

@[simp] theorem standing_collectReturn (h : Header) (w : Sweep) (ds : List Digest) :
    (collectReturn h w ds s).standing = s.standing := standing_deliverPort s _

/-! ## A good frame at its arrival -/

@[simp] theorem standing_placeUrgent (f : Frame) : (placeUrgent s f).standing = s.standing := by
  simp [placeUrgent]

@[simp] theorem standing_settleForward (q : PortId) (f : Frame) :
    (settleForward s q f).standing = s.standing := by
  unfold settleForward
  split <;> simp

@[simp] theorem standing_settleFrame (forward : Bool) (q : PortId) (f : Frame) :
    (settleFrame forward s q f).standing = s.standing := by simp [settleFrame]

@[simp] theorem standing_deliverCorrections (f : Frame) :
    (deliverCorrections s f).standing = s.standing := by
  unfold deliverCorrections
  split
  · split <;> simp
  · rfl

@[simp] theorem standing_deliverUnit (f : Frame) : (deliverUnit s f).standing = s.standing := by
  unfold deliverUnit
  split
  · unfold deliverTrip
    split
    · split <;> simp
    · rfl
  · unfold deliverCycle
    split
    · split <;> simp
    · rfl
  · unfold deliverImage
    split <;> simp
  · unfold deliverScreen
    split <;> simp
  all_goals rfl

@[simp] theorem standing_tapFrame (deliver : Bool) (q : PortId) (f : Frame) :
    (tapFrame deliver q f s).standing = s.standing := by
  unfold tapFrame
  split
  · simp
  · split
    · simp
    · simp only [standing_settleFrame, standing_ite]
      split
      · split <;> simp
      · rfl

@[simp] theorem standing_sweepFrame (q : PortId) (f : Frame) (b : MgmtBody) :
    (sweepFrame q f b s).standing = s.standing := by
  unfold sweepFrame
  split <;> simp

@[simp] theorem standing_deliverMgmt (via : Via) (f : Frame) (b : MgmtBody) :
    (deliverMgmt via f b s).standing = s.standing := by
  unfold deliverMgmt
  split <;> simp

@[simp] theorem standing_classFrame (deliver : Bool) (q : PortId) (f : Frame) :
    (classFrame deliver q f s).standing = s.standing := by
  unfold classFrame
  split
  · simp [corrFrame]
  · simp [mgmtFrame]
  all_goals simp

@[simp] theorem standing_returnedSweep (f : Frame) : (returnedSweep f s).standing = s.standing := by
  simp only [returnedSweep, standing_ite]
  split
  · split <;> simp
  · rfl

@[simp] theorem standing_clash (tag : BitVec 16) : (clash tag s).standing = s.standing := by
  simp only [clash, standing_report]
  exact standing_setSw _ _ rfl

@[simp] theorem standing_unassignedFrame (q : PortId) (f : Frame) :
    (unassignedFrame q f s).standing = s.standing := by simp [unassignedFrame]

@[simp] theorem standing_forwardInput (q : PortId) (f : Frame) :
    (forwardInput q f s).standing = s.standing := by
  simp [forwardInput]

/-- A good frame at its arrival keeps the standing until its reception is closed. -/
theorem standing_goodArrival (q : PortId) (f : Frame) :
    (goodArrival q f s).standing = s.standing := by
  simp only [goodArrival]
  split
  · simp
  · simp [counterInput]
  · simp [unusedInput]

/-! ## Frame port and timers -/

@[simp] theorem standing_moveHead : (moveHead s).standing = s.standing := by
  have move (f : Frame) (s : State) : (moveFrame f s).standing = s.standing := by
    simp only [moveFrame, standing_ite, standing_insertLocal, standing_takeCommand]
    split
    · rfl
    · split
      · split <;> simp
      · rfl
  unfold moveHead
  split
  · simp [countPortRefused, move]
  · rfl

@[simp] theorem standing_acceptFrame (f : Offered) : (acceptFrame f s).standing = s.standing := by
  simp [acceptFrame]

@[simp] theorem standing_sendFrame (f : Offered) : (sendFrame f s).standing = s.standing := by
  simp [sendFrame, setSendStatus, setInUse, countPortRefused]

@[simp] theorem standing_takeFrame (begun : Nat) : (takeFrame begun s).standing = s.standing := by
  unfold takeFrame
  split <;> simp

@[simp] theorem standing_followInput (n : Fin 8) : (followInput n s).standing = s.standing := by
  simp [followInput]

@[simp] theorem standing_changeInput (n : Fin 8) (active : Bool) :
    (changeInput n active s).standing = s.standing := by simp [changeInput]

end Operations
end Sys2Proof.Machine
end

