-- ==== Sys2Proof/Proofs/Commands.lean ====
section
/-! What every command of the table does to the standing: only the events of the fibre and the resets move more of it
than the moment. -/

namespace Sys2Proof.Machine

/-- The state at the moment a command is taken; READY_DROP reads its own line low (R115). -/
def State.atMoment (c : Instr) (s : State) : State :=
  match c with
  | .readyDrop m a => { s.tick m with ready := m.ready.set a false }
  | c => s.tick (momentOf c)

/-- The commands that reset the station, move a receive side, or begin, ready or end a frame's reception. -/
def movesLine : Instr → Bool
  | .powerOn _ | .resetPin _ | .lossOfLight _ _ | .lightPresent _ _ | .huntFillRun _ _ _
  | .breakSymbolRun _ _ | .breakToSyncSymbol _ _ _ | .invalidSymbolLimit _ _ _
  | .healHoldExpiry _ _ | .frameStart _ _ _ _ _ | .reservationEligible _ _ | .frameArrival _ _ _
  | .invalidSymbol _ _ _ _ => true
  | _ => false

/-- A management command of the table is the command of its code (R184). -/
theorem exec_commandOf {c : Instr} {e : Envelope} {cmd : MgmtCmd} (h : commandOf c = some (e, cmd))
    (s : State) : exec c s = .next (commandCode e cmd (s.tick (momentOf c))) := by
  cases c <;> simp only [commandOf, Option.some.injEq, Prod.mk.injEq, reduceCtorEq] at h <;>
    (obtain ⟨rfl, rfl⟩ := h; rfl)

theorem standing_of_next {u t s : State} 
    (h : (Host.Outcome.next u : Host.Outcome State Fault Refusal) = .next t)
    (hu : u.standing = s.standing) : t.standing = s.standing :=
  Host.Outcome.next.inj h ▸ hu

theorem exec_standing {c : Instr} {s t : State} (hc : movesLine c = false)
    (h : exec c s = .next t) : t.standing = (s.atMoment c).standing := by
  cases hcmd : commandOf c with
  | some x =>
    have hm : s.atMoment c = s.tick (momentOf c) := by
      cases c <;> first | rfl | cases hcmd
    rw [exec_commandOf hcmd] at h
    rw [hm]
    exact standing_of_next h (standing_commandCode _ _ _)
  | none =>
    cases c <;> first | (cases hc; done) | (cases hcmd; done) | skip
    case transmitCompletion m p =>
      refine standing_of_next h ?_
      split
      · split
        · rfl
        · simp only [standing_arbitrate, standing_ite, standing_countPort, ite_self]
          exact standing_setPort _ _ _ rfl
      · rfl
    case sendQueueMove m => exact standing_of_next h (standing_moveHead _)
    case cycleTimerExpiry m =>
      refine standing_of_next h ?_
      split <;> simp [State.atMoment, momentOf]
    case pendingFrameDue m => exact standing_of_next h (standing_pendingDue _ _)
    case missTimerExpiry m =>
      refine standing_of_next h ?_
      split
      · split
        · dsimp only
          split <;> simp [State.atMoment, momentOf]
        · rfl
      · rfl
    case localTimerExpiry m =>
      refine standing_of_next h ?_
      split <;> simp [State.atMoment, momentOf, stepAxes]
    case stopConfirmExpiry m =>
      refine standing_of_next h ?_
      split <;> simp [State.atMoment, momentOf]
    case readyDrop m a =>
      refine standing_of_next h ?_
      split
      · simp [State.atMoment]
      · rfl
    case exchangeCompletion m b =>
      change execExchangeCompletion m b s = .next t at h
      unfold execExchangeCompletion at h
      split at h
      · refine standing_of_next h ?_
        split <;> simp [State.atMoment, momentOf]
      · cases h
    case triggerExpiry m =>
      refine standing_of_next h ?_
      split
      · split
        · dsimp only
          split <;> simp [State.atMoment, momentOf]
        · rfl
      · rfl
    case lineEnd m pixels =>
      refine standing_of_next h ?_
      split
      · split <;> simp [State.atMoment, momentOf]
      · rfl
    case cameraTimeout m =>
      exact standing_of_next h (by simp [State.atMoment, momentOf])
    case tripInputChange m n active => exact standing_of_next h (standing_changeInput _ _ _)
    case filterTimerExpiry m n =>
      refine standing_of_next h ?_
      split <;> simp [State.atMoment, momentOf]
    case refreshTimerExpiry m =>
      exact standing_of_next h (by simp [State.atMoment, momentOf])
    case remoteEntryStale m source =>
      refine standing_of_next h ?_
      split
      · split <;> simp [State.atMoment, momentOf, staleEntry]
      · rfl
    case tileWriteCompletion m =>
      refine standing_of_next h ?_
      split <;> simp [State.atMoment, momentOf]
    case repaintTimerExpiry m =>
      refine standing_of_next h ?_
      split <;> simp [State.atMoment, momentOf]
    case shortTimerExpiry m =>
      refine standing_of_next h ?_
      split <;> simp [State.atMoment, momentOf]
    case longTimerExpiry m =>
      refine standing_of_next h ?_
      split <;> simp [State.atMoment, momentOf]
    case enumerate m at_ tag first next force overflow ok =>
      refine standing_of_next h ?_
      split
      · split <;> simp [State.atMoment, momentOf]
      all_goals simp [State.atMoment, momentOf, standing_sweepAddressed]
    case collect m at_ tag count overflow ok ds =>
      refine standing_of_next h ?_
      split
      · split
        · rfl
        · split <;> simp [State.atMoment, momentOf]
      all_goals simp [State.atMoment, momentOf, standing_sweepAddressed]
    case sendTransaction m begun f =>
      exact standing_of_next h (by simp [State.atMoment, momentOf, countPortRefused, setSendStatus])
    case takeTransaction m begun =>
      exact standing_of_next h (by simp [State.atMoment, momentOf, setInUse])

end Sys2Proof.Machine
end

