-- ==== Sys2Proof/Proofs/Fibre.lean ====
section
/-! The events of the fibre: what truncation, a change of the ring role and a change of the receive state do to the
receive sides, the role and the moment. -/

namespace Sys2Proof.Machine

/-! ## Setters of a port -/

theorem sameMoment_setPort (s : State) (p : PortId) (x : Port) : SameMoment s (s.setPort p x) := by
  cases p <;> exact ⟨rfl, rfl, rfl, rfl, rfl⟩

theorem sameMoment_setSw (s : State) (w : Switch) : SameMoment s (s.setSw w) :=
  ⟨rfl, rfl, rfl, rfl, rfl⟩

theorem setPort_port_ne {s : State} {p q : PortId} (x : Port) (h : q ≠ p) :
    (s.setPort p x).port q = s.port q := by
  cases p <;> cases q <;> first | exact absurd rfl h | rfl

theorem otherPort_ne (p : PortId) : otherPort p ≠ p := by cases p <;> decide

@[simp] theorem setPort_port_other (s : State) (p : PortId) (x : Port) :
    (s.setPort p x).port (otherPort p) = s.port (otherPort p) :=
  setPort_port_ne x (otherPort_ne p)

/-! ## Truncation -/

theorem truncate_standing (s : State) (p : PortId) :
    (truncate s p).standing = (s.setPort p { s.port p with reception := none }).standing := by
  simp only [truncate, standing_removeResv]
  cases p <;> rfl

theorem truncate_moment (s : State) (p : PortId) : SameMoment s (truncate s p) :=
  (sameMoment_setPort s p _).trans (sameMoment_of_standing (truncate_standing s p))

theorem truncate_line (s : State) (p : PortId) :
    ((truncate s p).port p).line = { (s.port p).line with receiving := none } := by
  rw [line_of_standing (truncate_standing s p), State.setPort_port_same]
  rfl

theorem truncate_line_other (s : State) (p : PortId) :
    ((truncate s p).port (otherPort p)).line = (s.port (otherPort p)).line := by
  rw [line_of_standing (truncate_standing s p), setPort_port_other]

/-! ## Ring role -/

/-- A frame being received once the role has changed: marked where its side changes use (R52). -/
def marked (old new : RingRole) (q : PortId) (r : Reception) : Reception :=
  { r with use := if new ≠ old ∧ r.use ≠ rxUse new q then .unused else r.use }

theorem marked_self (role : RingRole) (q : PortId) (r : Reception) : marked role role q r = r := by
  simp [marked]

/-- A receive side once the role has changed. -/
def Line.marked (old new : RingRole) (q : PortId) (l : Line) : Line :=
  { l with receiving := l.receiving.map (Machine.marked old new q) }

theorem Line.marked_self (role : RingRole) (q : PortId) (l : Line) : l.marked role role q = l := by
  have : Machine.marked role role q = id := funext (Machine.marked_self role q)
  simp [Line.marked, this]

theorem markUse_moment (s : State) (role : RingRole) (p : PortId) :
    SameMoment s (markUse s role p) := by
  unfold markUse
  split
  · split
    · exact .refl s
    · exact sameMoment_setPort s p _
  · exact .refl s

theorem markUse_sw (s : State) (role : RingRole) (p : PortId) : (markUse s role p).sw = s.sw := by
  unfold markUse
  split
  · split <;> simp
  · rfl

theorem markUse_line {s : State} {old new : RingRole} (h : new ≠ old) (p : PortId) :
    ((markUse s new p).port p).line = (s.port p).line.marked old new p := by
  unfold markUse
  split
  · next r hr =>
    split
    · next hu => simp [Line.marked, Port.line, marked, hr, hu]
    · next hu => simp [Line.marked, Port.line, marked, hr, hu, h]
  · next hr => simp [Line.marked, Port.line, hr]

theorem markUse_port_other {s : State} {role : RingRole} {p q : PortId} (h : q ≠ p) :
    (markUse s role p).port q = s.port q := by
  unfold markUse
  split
  · split
    · rfl
    · exact setPort_port_ne _ h
  · rfl

theorem changeRole_moment (s : State) (role : RingRole) : SameMoment s (changeRole s role) := by
  unfold changeRole
  refine .trans ((abortTx_ring s .a).trans (abortTx_ring _ .b)).moment ?_
  refine .trans ?_ (arbitrate_ring _).moment
  refine .trans ?_ (markUse_moment _ role .b)
  refine .trans ?_ (markUse_moment _ role .a)
  exact ⟨rfl, rfl, rfl, rfl, rfl⟩

theorem changeRole_role (s : State) (role : RingRole) : (changeRole s role).sw.role = role := by
  unfold changeRole
  rw [(arbitrate_ring _).ring.role, markUse_sw, markUse_sw]
  rfl

theorem changeRole_line (s : State) {role : RingRole} (h : role ≠ s.sw.role) (q : PortId) :
    ((changeRole s role).port q).line = (s.port q).line.marked s.sw.role role q := by
  have aborted : ((abortTx (abortTx s .a) .b).port q).line = (s.port q).line :=
    line_of_standing (by simp) q
  unfold changeRole
  rw [line_of_standing (standing_arbitrate _), ← aborted]
  cases q with
  | a => rw [markUse_port_other (by decide), markUse_line h]; rfl
  | b => rw [markUse_line h, markUse_port_other (by decide)]; rfl

theorem updateRole_moment (s : State) : SameMoment s (updateRole s) := by
  simp only [updateRole]
  split
  · exact (arbitrate_ring s).moment
  · exact changeRole_moment s _

/-- The role is then the one of the side states (R48). -/
theorem updateRole_role (s : State) :
    (updateRole s).sw.role = roleOf s.portA.side s.portB.side := by
  simp only [updateRole]
  split
  · next h => rw [(arbitrate_ring s).ring.role, h]
  · exact changeRole_role s _

theorem updateRole_line (s : State) (q : PortId) :
    ((updateRole s).port q).line =
      (s.port q).line.marked s.sw.role (roleOf s.portA.side s.portB.side) q := by
  simp only [updateRole]
  split
  · next h => rw [h, Line.marked_self, line_of_standing (standing_arbitrate s)]
  · next h => exact changeRole_line s h q

theorem updateRole_side (s : State) (q : PortId) :
    SameSide (s.port q) ((updateRole s).port q) := by
  have h := updateRole_line s q
  simp only [Port.line, Line.marked, Line.mk.injEq] at h
  obtain ⟨h1, h2, h3, h4, h5, h6, h7, h8, -⟩ := h
  exact ⟨h1, h2, h3, h4, h5, h6, h7, h8⟩

@[simp] theorem standing_reportRing (p : PortId) (s : State) :
    (reportRing p s).standing = s.standing := by simp [reportRing]

/-! ## Receive states -/

/-- The state in which a side that leaves SYNC has failed, before its frames are cut (R5, R46). -/
def failSide (s : State) (p : PortId) (rx : RxState) : State :=
  s.setPort p { s.port p with
    rx := rx, side := .failed, hold := none, fillRun := 0, breakRun := 0, skipping := false,
    ctr := { (s.port p).ctr with syncLoss := bump (s.port p).ctr.syncLoss } }

/-- The state in which a side that enters SYNC heals (R46, R47). -/
def healSide (s : State) (p : PortId) : State :=
  s.setPort p { s.port p with
    rx := .sync, side := .healing, fillRun := 0, breakRun := 0, skipping := false,
    hold := some (s.clock + s.station.cfg.heal * Config.msec) }

/-- The frame in reception of a side that has left SYNC is cut. -/
def cutFrame (s : State) (p : PortId) (short : Bool) : State :=
  if short || (s.port p).reception.isSome then truncate s p else s

/-- What leaving SYNC does before its two reports. -/
def lostSync (s : State) (p : PortId) (rx : RxState) (short : Bool) : State :=
  updateRole (abortTx (cutFrame (failSide s p rx) p short) p)

/-- What entering SYNC does before its two reports. -/
def gainedSync (s : State) (p : PortId) : State := updateRole (healSide s p)

theorem leaveSync_eq (s : State) (p : PortId) (rx : RxState) (short : Bool) :
    leaveSync s p rx short = reportRing p (lostSync s p rx short) := by
  cases p <;> rfl

theorem enterSync_eq (s : State) (p : PortId) : enterSync s p = reportRing p (gainedSync s p) := rfl

theorem changeRx_leave {s : State} {p : PortId} {rx : RxState} (short : Bool)
    (h : (s.port p).rx = .sync) (hrx : rx ≠ .sync) :
    changeRx s p rx short = leaveSync s p rx short := by
  unfold changeRx
  rw [h]
  cases rx <;> first | exact absurd rfl hrx | rfl

theorem changeRx_enter {s : State} {p : PortId} (short : Bool) (h : (s.port p).rx ≠ .sync) :
    changeRx s p .sync short = enterSync s p := by
  unfold changeRx
  split <;> simp_all

theorem changeRx_same {s : State} {p : PortId} (short : Bool) (h : (s.port p).rx = .sync) :
    changeRx s p .sync short = s := by
  unfold changeRx
  rw [h]

theorem changeRx_outside {s : State} {p : PortId} {rx : RxState} (short : Bool)
    (h : (s.port p).rx ≠ .sync) (hrx : rx ≠ .sync) :
    changeRx s p rx short = s.setPort p { s.port p with rx := rx, fillRun := 0, breakRun := 0 } := by
  unfold changeRx
  split <;> simp_all

theorem cutFrame_moment (s : State) (p : PortId) (short : Bool) :
    SameMoment s (cutFrame s p short) := by
  unfold cutFrame
  split
  · exact truncate_moment s p
  · exact .refl s

theorem lostSync_moment (s : State) (p : PortId) (rx : RxState) (short : Bool) :
    SameMoment s (lostSync s p rx short) :=
  (sameMoment_setPort s p _).trans <| (cutFrame_moment _ p short).trans <|
    (abortTx_ring _ p).moment.trans (updateRole_moment _)

theorem changeRx_moment (s : State) (p : PortId) (rx : RxState) (short : Bool) :
    SameMoment s (changeRx s p rx short) := by
  have reported (u : State) : SameMoment u (reportRing p u) :=
    sameMoment_of_standing (standing_reportRing p u)
  by_cases h : (s.port p).rx = .sync <;> by_cases hrx : rx = .sync
  · rw [hrx, changeRx_same short h]; exact .refl s
  · rw [changeRx_leave short h hrx, leaveSync_eq]
    exact (lostSync_moment s p rx short).trans (reported _)
  · rw [hrx, changeRx_enter short h, enterSync_eq]
    exact (sameMoment_setPort s p _).trans ((updateRole_moment _).trans (reported _))
  · rw [changeRx_outside short h hrx]; exact sameMoment_setPort s p _

/-- An invalid or stray symbol is counted and recorded (R4, R18). -/
def symbolCounted (s : State) (p : PortId) (pos : Nat) : State :=
  s.setPort p { s.port p with
    invalid := recordInvalid pos (s.port p).invalid, breakRun := 0,
    ctr := { (s.port p).ctr with symbolErrors := bump (s.port p).ctr.symbolErrors } }

theorem badSymbol_eq (s : State) (p : PortId) (pos : Nat) : badSymbol s p pos =
    if aligned (s.port p).rx then
      if 4 ≤ (recordInvalid pos (s.port p).invalid).length then
        changeRx (symbolCounted s p pos) p .hunt
      else symbolCounted s p pos
    else s := by
  cases p <;> rfl

theorem badSymbol_moment (s : State) (p : PortId) (pos : Nat) : SameMoment s (badSymbol s p pos) := by
  have counted : SameMoment s (symbolCounted s p pos) := sameMoment_setPort s p _
  rw [badSymbol_eq]
  split
  · split
    · exact counted.trans (changeRx_moment _ p .hunt false)
    · exact counted
  · exact .refl s

/-! ## The six events of a receive side -/

/-- Two ports that differ in light, the record and the runs of symbols and the count of invalid ones at most. -/
def SameButSymbols (x y : Port) : Prop :=
  y = { x with light := y.light, invalid := y.invalid, breakRun := y.breakRun,
               ctr := { x.ctr with symbolErrors := y.ctr.symbolErrors } }

theorem exec_invalidSymbolLimit (m : Moment) (p : PortId) (pos : Nat) (s : State) :
    exec (.invalidSymbolLimit m p pos) s = .next (if aligned (s.port p).rx then
      changeRx (symbolCounted (s.tick m) p pos) p .hunt (m.short p) else s.tick m) := by
  cases p <;> rfl

/-- An event of a receive side either leaves the receive state or changes it as R4 says, symbols apart. -/
theorem exec_lineEvent {c : Instr} {p : PortId} (h : lineEvent c = some p) (s : State) :
    ∃ y, SameButSymbols (s.port p) y ∧
      ((rxAfter c (s.port p).rx = (s.port p).rx ∧
          exec c s = .next ((s.tick (momentOf c)).setPort p y)) ∨
        exec c s = .next (changeRx ((s.tick (momentOf c)).setPort p y) p
          (rxAfter c (s.port p).rx) (shortFrame c))) := by
  have same (m : Moment) : s.tick m = (s.tick m).setPort p (s.port p) := by cases p <;> rfl
  cases c <;> first | (cases h; done) | skip
  case lossOfLight m q =>
    cases h
    exact ⟨{ s.port p with light := false }, rfl, .inr (by cases p <;> rfl)⟩
  case lightPresent m q =>
    cases h
    refine ⟨{ s.port p with light := true }, rfl, ?_⟩
    by_cases hd : (s.port p).rx = .dark
    · refine .inr ?_
      simp [exec, execLightPresent, hd, rxAfter, shortFrame, momentOf]
    · refine .inl ⟨by simp [rxAfter, hd], ?_⟩
      simp [exec, execLightPresent, hd, momentOf]
  case huntFillRun m q last =>
    cases h
    by_cases hd : (s.port p).rx = .hunt
    · refine ⟨{ s.port p with invalid := [] }, rfl, .inr ?_⟩
      simp [exec, execHuntFillRun, leaveHunt, hd, rxAfter, shortFrame, momentOf]
    · refine ⟨s.port p, rfl, .inl ⟨by simp [rxAfter, hd], ?_⟩⟩
      simp [exec, execHuntFillRun, hd, momentOf, ← same]
  case breakSymbolRun m q =>
    cases h
    refine ⟨s.port p, rfl, ?_⟩
    by_cases hd : (s.port p).rx = .sync
    · refine .inr ?_
      simp [exec, execBreakSymbolRun, hd, rxAfter, shortFrame, momentOf, ← same]
    · refine .inl ⟨by simp [rxAfter, hd], ?_⟩
      simp [exec, execBreakSymbolRun, hd, momentOf, ← same]
  case breakToSyncSymbol m q sym =>
    cases h
    refine ⟨s.port p, rfl, ?_⟩
    by_cases hd : (s.port p).rx = .brk
    · refine .inr ?_
      simp [exec, execBreakToSyncSymbol, hd, rxAfter, shortFrame, momentOf, ← same]
    · refine .inl ⟨by simp [rxAfter, hd], ?_⟩
      simp [exec, execBreakToSyncSymbol, hd, momentOf, ← same]
  case invalidSymbolLimit m q pos =>
    cases h
    by_cases hd : (s.port p).rx = .sync ∨ (s.port p).rx = .brk
    · refine ⟨(symbolCounted s p pos).port p, by simp [symbolCounted, SameButSymbols], .inr ?_⟩
      have counted : symbolCounted (s.tick m) p pos =
          (s.tick m).setPort p ((symbolCounted s p pos).port p) := by
        cases p <;> rfl
      have ha : aligned (s.port p).rx = true := by simpa [aligned] using hd
      simp only [rxAfter, hd, if_true, shortFrame, momentOf]
      rw [← counted]
      exact (exec_invalidSymbolLimit m p pos s).trans (by rw [if_pos ha])
    · refine ⟨s.port p, rfl, .inl ⟨by simp [rxAfter, hd], ?_⟩⟩
      simp [exec, execInvalidSymbolLimit, aligned, hd, momentOf, ← same]

theorem cutOpenFrame_moment (s : State) (p : PortId) : SameMoment s (cutOpenFrame s p) := by
  unfold cutOpenFrame
  split
  · exact (truncate_moment s p).trans (arbitrate_ring _).moment
  · exact .refl s

theorem cutSymbol_moment (s : State) (p : PortId) (by_ : CutBy) :
    SameMoment s (cutSymbol s p by_) := by
  cases by_ with
  | invalid pos => exact badSymbol_moment s p pos
  | brk => exact sameMoment_setPort s p _
  | overlong => exact sameMoment_setPort s p _
  | startDelimiter | idle | breakHeard => exact .refl s

/-! ## Frame start -/

/-- A reservation at a frame start leaves the standing as it is (R35). -/
@[simp] theorem standing_reserve (s : State) (p : PortId) (stamp : Nat) (h : Header) (b : Bool) :
    (reserve s p stamp h b).1.standing = s.standing := by
  simp only [reserve]
  split
  · split
    · split
      · split <;> simp
      · split <;> simp
    · rfl
  · split <;> simp
  · rfl

theorem beginFrame_moment (s : State) (p : PortId) (stamp : Nat) (h : Header) (b : Bool) :
    SameMoment s (beginFrame s p stamp h b) := by
  simp only [beginFrame]
  refine .trans ?_ (sameMoment_setPort _ p _)
  refine .trans ?_ (sameMoment_of_standing (standing_reserve _ p stamp h b))
  split
  · exact (truncate_moment s p).trans (arbitrate_ring _).moment
  · exact .refl s

theorem reach32_moment (s : State) (p : PortId) : SameMoment s (reach32 s p) := by
  unfold reach32
  split
  · next r hr =>
    have ready (u : State) (w : Switch) : SameMoment u (arbitrate (u.setSw w)) :=
      .trans (sameMoment_setSw u w) (arbitrate_ring _).moment
    exact (sameMoment_setPort s p { s.port p with reception := some { r with got32 := true } }).trans
      (ready _ _)
  · exact .refl s

/-! ## Arrival -/

theorem truncatedArrival_moment (s : State) (p : PortId) (by_ : CutBy) :
    SameMoment s (truncatedArrival p by_ s) := by
  simp only [truncatedArrival]
  refine .trans ?_ (cutSymbol_moment _ p by_)
  refine .trans ?_ (arbitrate_ring _).moment
  exact (sameMoment_setPort s p _).trans (truncate_moment _ p)

/-- Closing the reception is the same on equal standings (R16). -/
theorem standing_closeReception {s u : State} (p : PortId) (h : u.standing = s.standing) :
    (closeReception p u).standing = (closeReception p s).standing := by
  have hp := line_of_standing h p
  simp only [State.standing, Standing.mk.injEq] at h
  simp only [Port.line, Line.mk.injEq] at hp
  cases p <;> simp_all [closeReception, State.standing, Port.line]

/-- A frame that ends leaves the standing as it is, but that its reception is over (R16). -/
theorem endedArrival_standing (s : State) (p : PortId) (bytes : List Byte) (reading : Body) :
    (endedArrival p bytes reading s).standing = (closeReception p s).standing := by
  unfold endedArrival
  split
  · exact standing_closeReception p (standing_goodArrival s p _)
  · exact standing_closeReception p (by simp)
  · exact standing_closeReception p (by simp)

theorem abortedArrival_standing (s : State) (p : PortId) :
    (abortedArrival p s).standing = (closeReception p s).standing :=
  standing_closeReception p (by simp)

theorem closeReception_moment (s : State) (p : PortId) : SameMoment s (closeReception p s) :=
  sameMoment_setPort s p _

end Sys2Proof.Machine
end

