-- ==== Sys2Proof/Proofs/Steps.lean ====
section
/-! What a step keeps: the waiting commands and the part, and the ring role as the side states give it; and where a
command can stop the machine. -/

namespace Sys2Proof.Machine

/-! ## The moment -/

theorem lineEvent_moment {c : Instr} {p : PortId} {s t : State} (hl : lineEvent c = some p)
    (h : exec c s = .next t) : SameMoment (s.tick (momentOf c)) t := by
  obtain ⟨y, -, ⟨-, he⟩ | he⟩ := exec_lineEvent hl s
  · rw [he] at h
    cases h
    exact sameMoment_setPort _ p y
  · rw [he] at h
    cases h
    exact (sameMoment_setPort _ p y).trans (changeRx_moment _ p _ _)

/-- A command that stops the machine is one of three, and a fourth kind of outcome there is not (assumption log
10). -/
theorem frameArrival_next {m : Moment} {p : PortId} {closing : Closing} {s t : State}
    (h : exec (.frameArrival m p closing) s = .next t) :
    t = s.tick m ∨ (s.port p).rx = .sync ∧
      ((∃ bytes reading, closing = .ended bytes reading ∧ t = endedArrival p bytes reading (s.tick m)) ∨
        (closing = .aborted ∧ t = abortedArrival p (s.tick m)) ∨
        ∃ by_, closing = .truncated by_ ∧ t = truncatedArrival p by_ (s.tick m)) := by
  by_cases hs : (s.port p).rx = .sync
  · cases closing with
    | ended bytes reading =>
      by_cases hf : arrivalFits (s.tick m) p bytes = true
      · simp [exec, execFrameArrival, hs, hf] at h
        exact .inr ⟨hs, .inl ⟨bytes, reading, rfl, h.symm⟩⟩
      · simp [exec, execFrameArrival, hs, hf] at h
    | aborted =>
      simp [exec, execFrameArrival, hs] at h
      exact .inr ⟨hs, .inr (.inl ⟨rfl, h.symm⟩)⟩
    | truncated by_ =>
      simp [exec, execFrameArrival, hs] at h
      exact .inr ⟨hs, .inr (.inr ⟨by_, rfl, h.symm⟩)⟩
  · left
    cases closing <;> simp [exec, execFrameArrival, hs] at h <;> exact h.symm

theorem frameArrival_moment {m : Moment} {p : PortId} {closing : Closing} {s t : State}
    (h : exec (.frameArrival m p closing) s = .next t) : SameMoment (s.tick m) t := by
  rcases frameArrival_next h with rfl | ⟨-, ⟨bytes, reading, -, rfl⟩ | ⟨-, rfl⟩ | ⟨by_, -, rfl⟩⟩
  · exact .refl _
  · exact (closeReception_moment _ p).trans (sameMoment_of_standing (endedArrival_standing _ p _ _))
  · exact (closeReception_moment _ p).trans (sameMoment_of_standing (abortedArrival_standing _ p))
  · exact truncatedArrival_moment _ p by_

theorem exec_healHoldExpiry (m : Moment) (p : PortId) (s : State) :
    exec (.healHoldExpiry m p) s = .next (s.tick m) ∨
    (s.port p).side = .healing ∧ (∃ due, (s.port p).hold = some due ∧ due ≤ max s.clock m.time) ∧
      exec (.healHoldExpiry m p) s = .next (reportRing p (updateRole
        ((s.tick m).setPort p { s.port p with side := .usable, hold := none }))) := by
  by_cases hs : (s.port p).side = .healing
  · cases hh : (s.port p).hold with
    | none => exact .inl (by simp [exec, execHealHoldExpiry, hs, hh])
    | some due =>
      by_cases hd : due ≤ (s.tick m).clock
      · refine .inr ⟨hs, ⟨due, rfl, hd⟩, ?_⟩
        simp only [exec, execHealHoldExpiry, State.tick_port, hs, hh, if_pos hd]
      · refine .inl ?_
        simp only [exec, execHealHoldExpiry, State.tick_port, hs, hh, if_neg hd]
  · refine .inl ?_
    simp only [exec, execHealHoldExpiry, State.tick_port]
    split
    · next hs' _ => exact absurd hs' hs
    · rfl

/-- Every command moves the moment as `State.atMoment` says, and nothing else of it. -/
theorem exec_moment {c : Instr} {s t : State} (h : exec c s = .next t) :
    SameMoment (s.atMoment c) t := by
  cases hc : movesLine c with
  | false => exact sameMoment_of_standing (exec_standing hc h)
  | true =>
    cases c <;> first | (cases hc; done) | exact lineEvent_moment rfl h | skip
    case powerOn m => cases h; exact ⟨rfl, rfl, rfl, rfl, rfl⟩
    case resetPin m => cases h; exact ⟨rfl, rfl, rfl, rfl, rfl⟩
    case healHoldExpiry m p =>
      obtain he | ⟨-, -, he⟩ := exec_healHoldExpiry m p s
      · rw [he] at h
        cases h
        exact .refl _
      · rw [he] at h
        cases h
        exact (sameMoment_setPort _ p _).trans <| (updateRole_moment _).trans
          (sameMoment_of_standing (standing_reportRing p _))
    case frameStart m p stamp hdr b =>
      change execFrameStart m p stamp hdr b s = .next t at h
      unfold execFrameStart at h
      split at h
      · cases h
        simp only [State.atMoment, momentOf]
        split
        · exact beginFrame_moment _ p stamp _ b
        · exact .refl _
      · cases h
    case reservationEligible m p =>
      cases h
      exact reach32_moment _ p
    case frameArrival m p closing => exact frameArrival_moment h
    case invalidSymbol m p sym pos =>
      cases h
      simp only [State.atMoment, momentOf]
      split
      · exact .refl _
      · exact sameMoment_setPort _ p _
      · exact sameMoment_setPort _ p _
      · exact (cutOpenFrame_moment _ p).trans (badSymbol_moment _ p pos)
      · exact badSymbol_moment _ p pos

/-! ## Ports in order -/

/-- The receive state, the side state with its hold and whether a frame is received decide whether a port is in
order. -/
theorem PortOk.of_line {x y : Port} (h : PortOk x) (hl : y.line = x.line) : PortOk y := by
  have hs := sameSide_of_line hl
  refine ⟨?_, ?_, fun hr => ?_⟩
  · rw [hs.side, hs.rx]; exact h.failed
  · rw [hs.hold, hs.side]; exact h.hold
  · exact reception_none_of_line hl (h.reception (hs.rx ▸ hr))

theorem RingInv.port {s : State} (h : RingInv s) (p : PortId) : PortOk (s.port p) := by
  obtain ⟨ha, hb, -⟩ := h
  cases p <;> assumption

theorem ringInv_of_standing {s t : State} (h : t.standing = s.standing) (hi : RingInv s) :
    RingInv t := by
  have hl := line_of_standing h
  refine ⟨(hi.port .a).of_line (hl .a), (hi.port .b).of_line (hl .b), ?_⟩
  have ha : t.portA.side = s.portA.side := (sameSide_of_line (hl .a)).side
  have hb : t.portB.side = s.portB.side := (sameSide_of_line (hl .b)).side
  rw [role_of_standing h, hi.2.2, ha, hb]

/-- A port changed at the same side state and receive state, and in order, keeps the ring in order. -/
theorem ringInv_setPort {s : State} (hi : RingInv s) {p : PortId} {x : Port} (hx : PortOk x)
    (hs : x.side = (s.port p).side) : RingInv (s.setPort p x) := by
  obtain ⟨ha, hb, hr⟩ := hi
  cases p with
  | a => exact ⟨hx, hb, by simpa [hs] using hr⟩
  | b => exact ⟨ha, hx, by simpa [hs] using hr⟩

theorem SameButSymbols.portOk {x y : Port} (h : SameButSymbols x y) (hx : PortOk x) : PortOk y := by
  unfold SameButSymbols at h
  rw [h]
  exact ⟨hx.failed, hx.hold, hx.reception⟩

/-- A side that is in order stays so when a frame being received is marked. -/
theorem PortOk.of_marked {x y : Port} {old new : RingRole} {q : PortId} (h : PortOk x)
    (hl : y.line = x.line.marked old new q) : PortOk y := by
  simp only [Port.line, Line.marked, Line.mk.injEq] at hl
  obtain ⟨-, hrx, -, -, -, -, hside, hhold, hrec⟩ := hl
  refine ⟨?_, ?_, fun hr => ?_⟩
  · rw [hside, hrx]; exact h.failed
  · rw [hhold, hside]; exact h.hold
  · rw [h.reception (hrx ▸ hr)] at hrec
    simpa using hrec

/-- With both ports in order a recomputation of the role puts the ring in order (R48). -/
theorem ringInv_updateRole {s : State} (h : ∀ p, PortOk (s.port p)) : RingInv (updateRole s) := by
  refine ⟨(h .a).of_marked (updateRole_line s .a), (h .b).of_marked (updateRole_line s .b), ?_⟩
  have ha : (updateRole s).portA.side = s.portA.side := (updateRole_side s .a).side
  have hb : (updateRole s).portB.side = s.portB.side := (updateRole_side s .b).side
  rw [updateRole_role, ha, hb]

theorem portOk_setPort {s : State} (h : ∀ p, PortOk (s.port p)) {q : PortId} {x : Port}
    (hx : PortOk x) (p : PortId) : PortOk ((s.setPort q x).port p) := by
  by_cases hpq : p = q
  · subst hpq; simpa using hx
  · rw [setPort_port_ne x hpq]; exact h p

/-- A side that leaves SYNC is in order once its frame in reception is cut. -/
theorem portOk_cutFrame {s : State} (h : ∀ p, PortOk (s.port p)) (q : PortId) {rx : RxState}
    (hrx : rx ≠ .sync) (short : Bool) (p : PortId) :
    PortOk ((cutFrame (failSide s q rx) q short).port p) := by
  unfold cutFrame
  split
  · refine PortOk.of_line ?_ (line_of_standing (truncate_standing _ q) p)
    have := portOk_setPort h (q := q) (x := { ((failSide s q rx).port q) with reception := none })
      ⟨by simp [failSide, hrx], by simp [failSide], fun _ => rfl⟩ p
    by_cases hpq : p = q
    · subst hpq; simpa using this
    · rw [setPort_port_ne _ hpq] at this ⊢
      rw [failSide, setPort_port_ne _ hpq]
      exact this
  · next hn =>
    have hnone : (s.port q).reception = none := by
      simp only [failSide, State.setPort_port_same, Bool.or_eq_true, not_or, Option.isSome_iff_ne_none,
        ne_eq, not_not] at hn
      exact hn.2
    have ok : PortOk ((failSide s q rx).port q) := by
      refine ⟨?_, ?_, fun _ => ?_⟩ <;> simp [failSide, hrx, hnone]
    exact portOk_setPort h (by simpa [failSide] using ok) p

theorem ringInv_changeRx {s : State} (hi : RingInv s) (p : PortId) (rx : RxState) (short : Bool) :
    RingInv (changeRx s p rx short) := by
  by_cases h : (s.port p).rx = .sync <;> by_cases hrx : rx = .sync
  · rw [hrx, changeRx_same short h]; exact hi
  · rw [changeRx_leave short h hrx, leaveSync_eq]
    refine ringInv_of_standing (standing_reportRing p _) (ringInv_updateRole fun q => ?_)
    exact (portOk_cutFrame hi.port p hrx short q).of_line (line_of_standing (standing_abortTx _ p) q)
  · rw [hrx, changeRx_enter short h, enterSync_eq]
    refine ringInv_of_standing (standing_reportRing p _) (ringInv_updateRole fun q => ?_)
    exact portOk_setPort hi.port ⟨by simp, by simp, fun hn => absurd rfl hn⟩ q
  · rw [changeRx_outside short h hrx]
    have ok := hi.port p
    refine ringInv_setPort hi ⟨?_, ok.hold, fun _ => ok.reception h⟩ rfl
    exact ⟨fun _ => hrx, fun _ => ok.failed.mpr h⟩

theorem ringInv_badSymbol {s : State} (hi : RingInv s) (p : PortId) (pos : Nat) :
    RingInv (badSymbol s p pos) := by
  have ok := hi.port p
  have counted : RingInv (symbolCounted s p pos) :=
    ringInv_setPort hi ⟨ok.failed, ok.hold, ok.reception⟩ rfl
  rw [badSymbol_eq]
  split
  · split
    · exact ringInv_changeRx counted p .hunt false
    · exact counted
  · exact hi

theorem ringInv_truncate {s : State} (hi : RingInv s) (p : PortId) : RingInv (truncate s p) := by
  have ok := hi.port p
  exact ringInv_of_standing (truncate_standing s p)
    (ringInv_setPort hi ⟨ok.failed, ok.hold, fun _ => rfl⟩ rfl)

theorem ringInv_closeReception {s : State} (hi : RingInv s) (p : PortId) :
    RingInv (closeReception p s) := by
  have ok := hi.port p
  exact ringInv_setPort hi ⟨ok.failed, ok.hold, fun _ => rfl⟩ rfl

theorem ringInv_beginFrame {s : State} (hi : RingInv s) (p : PortId) (hp : (s.port p).rx = .sync)
    (stamp : Nat) (h : Header) (b : Bool) : RingInv (beginFrame s p stamp h b) := by
  have began (u : State) (hu : RingInv u) (hup : (u.port p).rx = .sync) :
      let v := (reserve u p stamp h b).1
      ∀ x : Port, x.side = (v.port p).side → x.hold = (v.port p).hold → x.rx = (v.port p).rx →
        RingInv (v.setPort p x) := by
    intro v x hs hh hr
    have hv : v.standing = u.standing := standing_reserve u p stamp h b
    have ok := (ringInv_of_standing hv hu).port p
    refine ringInv_setPort (ringInv_of_standing hv hu) ⟨?_, ?_, fun hn => ?_⟩ hs
    · rw [hs, hr]; exact ok.failed
    · rw [hh, hs]; exact ok.hold
    · rw [hr, (sameSide_of_line (line_of_standing hv p)).rx] at hn
      exact absurd hup hn
  simp only [beginFrame]
  split
  · have hcut : (arbitrate (truncate s p)).standing =
        (s.setPort p { s.port p with reception := none }).standing :=
      (standing_arbitrate _).trans (truncate_standing s p)
    refine began _ (ringInv_of_standing (standing_arbitrate _) (ringInv_truncate hi p)) ?_ _ rfl rfl rfl
    rw [(sameSide_of_line (line_of_standing hcut p)).rx]
    simpa using hp
  · exact began s hi hp _ rfl rfl rfl

theorem ringInv_reach32 {s : State} (hi : RingInv s) (p : PortId) : RingInv (reach32 s p) := by
  unfold reach32
  split
  · next r hr =>
    have ok := hi.port p
    refine ringInv_of_standing (standing_arbitrate _) ?_
    refine ringInv_of_standing (standing_setSw _ _ rfl) ?_
    exact ringInv_setPort hi ⟨ok.failed, ok.hold, fun hn => by simp [ok.reception hn] at hr⟩ rfl
  · exact hi

theorem ringInv_truncatedArrival {s : State} (hi : RingInv s) (p : PortId) (by_ : CutBy) :
    RingInv (truncatedArrival p by_ s) := by
  have ok := hi.port p
  have cut : RingInv (arbitrate (truncate (s.setPort p { s.port p with
      skipping := false, breakRun := 0 }) p)) := by
    refine ringInv_of_standing (standing_arbitrate _) (ringInv_truncate ?_ p)
    exact ringInv_setPort hi ⟨ok.failed, ok.hold, ok.reception⟩ rfl
  have okc := cut.port p
  unfold truncatedArrival
  cases by_ with
  | invalid pos => exact ringInv_badSymbol cut p pos
  | brk => exact ringInv_setPort cut ⟨okc.failed, okc.hold, okc.reception⟩ rfl
  | overlong => exact ringInv_setPort cut ⟨okc.failed, okc.hold, okc.reception⟩ rfl
  | startDelimiter | idle | breakHeard => exact cut

theorem ringInv_powerUp (s : State) : RingInv (powerUp s) := by
  have powered (light : Bool) : PortOk (Port.powered light) := by
    refine ⟨?_, ?_, fun _ => rfl⟩ <;> cases light <;> decide
  exact ⟨powered _, powered _, rfl⟩

/-- Every command keeps both ports in order and the role the one of their side states. -/
theorem exec_ringInv {c : Instr} {s t : State} (hi : RingInv s) (h : exec c s = .next t) :
    RingInv t := by
  have moment (c : Instr) : RingInv (s.atMoment c) := by
    obtain ⟨ha, hb, hr⟩ := hi
    cases c <;> exact ⟨ha, hb, hr⟩
  cases hc : movesLine c with
  | false => exact ringInv_of_standing (exec_standing hc h) (moment c)
  | true =>
    have ticked : RingInv (s.tick (momentOf c)) := hi
    cases hl : lineEvent c with
    | some p =>
      obtain ⟨y, hy, ⟨-, he⟩ | he⟩ := exec_lineEvent hl s <;> rw [he] at h <;> cases h
      all_goals
        have set : RingInv ((s.tick (momentOf c)).setPort p y) :=
          ringInv_setPort ticked (by simpa using hy.portOk (hi.port p)) (by rw [hy]; simp)
      · exact set
      · exact ringInv_changeRx set p _ _
    | none =>
      cases c <;> first | (cases hc; done) | (cases hl; done) | skip
      case powerOn m => cases h; exact ringInv_powerUp _
      case resetPin m => cases h; exact ringInv_powerUp _
      case healHoldExpiry m p =>
        obtain he | ⟨hs, -, he⟩ := exec_healHoldExpiry m p s <;> rw [he] at h <;> cases h
        · exact ticked
        · refine ringInv_of_standing (standing_reportRing p _) (ringInv_updateRole fun q => ?_)
          have hsync : (s.port p).rx = .sync := by
            by_contra hn
            rw [(hi.port p).failed.mpr hn] at hs
            cases hs
          refine portOk_setPort ticked.port ⟨?_, ?_, fun hn => ?_⟩ q
          · simp [hsync]
          · simp
          · exact absurd (by simpa using hsync) hn
      case frameStart m p stamp hdr b =>
        change execFrameStart m p stamp hdr b s = .next t at h
        unfold execFrameStart at h
        split at h
        · cases h
          split
          · next hsync => exact ringInv_beginFrame ticked p hsync stamp _ b
          · exact ticked
        · cases h
      case reservationEligible m p => cases h; exact ringInv_reach32 ticked p
      case frameArrival m p closing =>
        rcases frameArrival_next h with rfl | ⟨-, ⟨bytes, reading, -, rfl⟩ | ⟨-, rfl⟩ | ⟨by_, -, rfl⟩⟩
        · exact ticked
        · exact ringInv_of_standing (endedArrival_standing _ p _ _) (ringInv_closeReception ticked p)
        · exact ringInv_of_standing (abortedArrival_standing _ p) (ringInv_closeReception ticked p)
        · exact ringInv_truncatedArrival ticked p by_
      case invalidSymbol m p sym pos =>
        have ok := hi.port p
        cases h
        split
        · exact ticked
        · exact ringInv_setPort ticked ⟨by simpa using ok.failed, by simpa using ok.hold,
            by simpa using ok.reception⟩ (by simp)
        · exact ringInv_setPort ticked ⟨by simpa using ok.failed, by simpa using ok.hold,
            by simpa using ok.reception⟩ (by simp)
        · refine ringInv_badSymbol ?_ p pos
          unfold cutOpenFrame
          split
          · exact ringInv_of_standing (standing_arbitrate _) (ringInv_truncate ticked p)
          · exact ticked
        · exact ringInv_badSymbol ticked p pos

end Sys2Proof.Machine

open Sys2Proof Sys2Proof.Machine

/-- Settles O9: the ring invariant is kept by every command, and a step is the front command with the queue's
rest. -/
theorem stepKeepsRingInv : Obligations.StepKeepsRingInv := by
  intro s t hi h
  unfold step at h
  split at h
  · cases h
    exact hi
  · next c q _ => exact exec_ringInv (s := { s with pending := q }) hi h

/-- Settles O2: every command moves the moment as `exec_moment` says. -/
theorem commandsKeepQueueAndPart : Obligations.CommandsKeepQueueAndPart := by
  intro c s t h
  obtain ⟨hp, hc, hr, hs, ht⟩ := exec_moment h
  rw [hp, hc, hr, hs, ht]
  cases c <;> exact ⟨rfl, rfl, rfl, rfl, rfl⟩

/-- Settles O3: by the command. -/
theorem onlyImpossibleEventsStop : Obligations.OnlyImpossibleEventsStop := by
  intro c s
  cases c
  case frameStart m p stamp hdr b =>
    by_cases hl : hdr.length = 16 <;> simp [exec, execFrameStart, hl]
  case exchangeCompletion m b =>
    by_cases hl : b.length = 12 <;> simp [exec, execExchangeCompletion, hl]
  case frameArrival m p closing =>
    cases closing with
    | ended bytes reading =>
      by_cases hs : (s.port p).rx = .sync <;> cases hf : arrivalFits (s.tick m) p bytes <;>
        simp [exec, execFrameArrival, hs, hf]
    | aborted => exact ⟨fun _ h => (nomatch h), fun _ h => (nomatch h)⟩
    | truncated by_ => exact ⟨fun _ h => (nomatch h), fun _ h => (nomatch h)⟩
  all_goals exact ⟨fun _ h => (nomatch h), fun _ h => (nomatch h)⟩
end

