-- ==== Sys2Proof/Proofs/Resets.lean ====
section
/-! The state after reset meets every condition that steps keep; power-on and the RESET pin. -/

namespace Sys2Proof.Machine

/-! ## The state after reset -/

theorem reset_axis (a : Fin 4) : State.reset.axis a = defaultAxis := by
  fin_cases a <;> rfl

theorem reset_tripInv : TripInv State.reset :=
  ⟨⟨by decide, by decide, by decide⟩, List.Pairwise.nil, by decide, by decide⟩

theorem reset_driveOffInv : DriveOffInv State.reset :=
  ⟨fun h => absurd h (by decide), fun _ => rfl, fun x hx => by cases hx⟩

theorem reset_axisInv : AxisInv State.reset := by
  refine ⟨fun a => ?_, fun h => by cases h⟩
  rw [reset_axis]
  exact ⟨by decide, by decide, by decide, by decide, by decide, by decide, by decide, by decide⟩

theorem reset_generatorInv : GeneratorInv State.reset :=
  ⟨by decide, by decide, by decide, by decide, by decide, by decide⟩

theorem reset_cycleInv : CycleInv State.reset :=
  ⟨by decide, by decide, by decide, by decide, by decide, by decide, by decide, by decide⟩

theorem reset_ringInv : RingInv State.reset := by
  have dark : PortOk Port.reset := ⟨by decide, by decide, fun _ => rfl⟩
  exact ⟨dark, dark, rfl⟩

theorem reset_queueInv : QueueInv State.reset where
  reservations := ⟨(fun p => by cases p <;> decide), fun _ _ h => (List.not_mem_nil h).elim,
    fun _ _ h => (List.not_mem_nil h).elim⟩
  urgent := by decide
  cycle := by decide
  transit := by decide
  counter := by decide
  locals cls := by cases cls <;> exact Nat.zero_le _
  send := by decide
  receive := by decide
  panel := by decide
  streams := by decide
  tiles := List.length_replicate
  pending e h := by cases h
  assembly := by decide
  lines := by decide
  viewRow := by decide

theorem reset_counterInv : CounterInv State.reset := by
  intro i n hn
  have zero : n = 0 := by
    match i with
    | 0 | 1 | 2 | 3 | 4 | 5 | 6 | 7 | 8 => revert n; decide
    | i + 9 => cases hn
  simp [zero]

theorem reset_tapInv : TapInv State.reset := by
  refine ⟨by decide, fun e he => ?_, ?_, by decide⟩
  · exact absurd (List.eq_of_mem_replicate he) (by simp)
  · exact List.pairwise_replicate.mpr (.inr rfl)

end Sys2Proof.Machine

open Sys2Proof Sys2Proof.Machine

/-- Settles O11: the reset values by evaluation, the conditions one lemma each. -/
theorem resetState : Obligations.ResetState := by
  refine ⟨by decide, by decide, fun a => ?_, by decide, by decide, by decide, rfl, rfl, rfl, rfl, rfl, rfl,
    rfl, ?_⟩
  · fin_cases a <;> decide
  · exact ⟨reset_tripInv, reset_driveOffInv, reset_axisInv,
      fun _ h => (List.not_mem_nil h).elim, reset_generatorInv,
      reset_cycleInv, reset_ringInv, reset_queueInv, reset_counterInv, reset_tapInv⟩

/-- Settles O12: both commands are `powerUp` at their moment. -/
theorem powerUpResetsEverything : Obligations.PowerUpResetsEverything := by
  rintro m s c (rfl | rfl) <;> rfl
end

