-- ==== Sys2Proof/Proofs/FrameStart.lean ====
section
/-! The frame start: where a reservation is made, and where none is (R35, R37, R39, R50, R51). -/

namespace Sys2Proof.Machine

theorem mayReserve_iff (own : Nat) (h : Header) (b : Bool) : mayReserve own h b = true ↔
    ¬ ((h.cls = .k ∨ h.cls = .m) ∧ h.dest = own) ∧ ¬ (h.cls = .m ∧ h.dest = 0 ∧ b = true) := by
  simp only [mayReserve, Bool.and_eq_true, Bool.or_eq_true, Bool.not_eq_true', ← Bool.not_eq_true,
    beq_iff_eq, and_assoc]

theorem usesUrgent_iff (cls : FrameClass) : usesUrgent cls = true ↔ cls = .t ∨ cls = .c := by
  cases cls <;> simp [usesUrgent]

section Reserve
variable {s : State} {p : PortId} (stamp : Nat) {h : Header} {b : Bool}

theorem reserve_urgent (hu : rxUse s.sw.role p = .forwardInput)
    (hm : mayReserve s.station.address h b = true) (hc : usesUrgent h.cls = true)
    (hl : s.sw.urgent.length < 8) : reserve s p stamp h b =
      (s.setSw { s.sw with urgent := s.sw.urgent ++ [resvItem p stamp h] }, true) := by
  simp [reserve, hu, hm, hc, Config.urgentCap, hl]

theorem reserve_transit (hu : rxUse s.sw.role p = .forwardInput)
    (hm : mayReserve s.station.address h b = true) (hc : usesUrgent h.cls = false)
    (hl : queueBytes s.sw.transit + (20 + h.len) ≤ 4096) : reserve s p stamp h b =
      (s.setSw { s.sw with transit := s.sw.transit ++ [resvItem p stamp h] }, true) := by
  have room : queueBytes s.sw.transit + (resvItem p stamp h).bytes ≤ Config.transitCap := hl
  simp [reserve, hu, hm, hc, room]

theorem reserve_counter (hu : rxUse s.sw.role p = .counterInput) (hh : h.hop + 1 < 127)
    (hl : queueBytes s.sw.counter + (20 + h.len) ≤ 2048) : reserve s p stamp h b =
      (s.setSw { s.sw with counter := s.sw.counter ++ [resvItem p stamp h] }, true) := by
  have room : h.hop + 1 < Config.hopLimit ∧
      queueBytes s.sw.counter + (resvItem p stamp h).bytes ≤ Config.repeatCap := ⟨hh, hl⟩
  simp [reserve, hu, room]

theorem reserve_none (hn : rxUse s.sw.role p = .unused ∨
    (rxUse s.sw.role p = .forwardInput ∧ (mayReserve s.station.address h b = false ∨
      (usesUrgent h.cls = true ∧ 8 ≤ s.sw.urgent.length) ∨
      (usesUrgent h.cls = false ∧ 4096 < queueBytes s.sw.transit + (20 + h.len)))) ∨
    (rxUse s.sw.role p = .counterInput ∧
      (127 ≤ h.hop + 1 ∨ 2048 < queueBytes s.sw.counter + (20 + h.len)))) :
    reserve s p stamp h b = (s, false) := by
  rcases hn with hu | ⟨hu, hm | ⟨hc, hl⟩ | ⟨hc, hl⟩⟩ | ⟨hu, hl⟩
  · simp [reserve, hu]
  · simp [reserve, hu, hm]
  · have full : ¬ s.sw.urgent.length < Config.urgentCap := Nat.not_lt.mpr hl
    simp [reserve, hu, hc, full]
  · have full : ¬ queueBytes s.sw.transit + (resvItem p stamp h).bytes ≤ Config.transitCap :=
      Nat.not_le.mpr hl
    simp [reserve, hu, hc, full]
  · have full : ¬ (h.hop + 1 < Config.hopLimit ∧
        queueBytes s.sw.counter + (resvItem p stamp h).bytes ≤ Config.repeatCap) := by
      rintro ⟨h1, h2⟩
      rcases hl with hl | hl
      · exact absurd h1 (Nat.not_lt.mpr hl)
      · exact absurd h2 (Nat.not_le.mpr hl)
    simp [reserve, hu, full]

end Reserve

/-- The reception that a frame start records (R16). -/
def openReception (u : State) (p : PortId) (stamp : Nat) (h : Header) (use : RxUse) (r : Resv) : State :=
  u.setPort p { u.port p with
    skipping := false, breakRun := 0,
    reception := some { stamp := stamp, hdr := h, use := use, resv := r, got32 := false } }

/-- A frame start on a SYNC side with no frame open: a reservation where there is one, and the reception. -/
theorem exec_frameStart {m : Moment} {p : PortId} {hdr : List Byte} {s : State} (stamp : Nat) (b : Bool)
    (hl : hdr.length = 16) (hs : (s.port p).rx = .sync) (hr : (s.port p).reception = none)
    {v : State} {held : Bool} (hv : reserve (s.tick m) p stamp (readHeader hdr) b = (v, held)) :
    exec (.frameStart m p stamp hdr b) s = .next (openReception v p stamp (readHeader hdr)
      (rxUse s.sw.role p) (if held then .held else .none)) := by
  simp [exec, execFrameStart, hl, hs, beginFrame, hr, hv, openReception]

end Sys2Proof.Machine

open Sys2Proof Sys2Proof.Machine

/-- Settles O15: by what `reserve` gives the frame that starts. -/
theorem frameStartReserves : Obligations.FrameStartReserves := by
  intro m p stamp hdr b s h i toSelf sweep open_
  have may : mayReserve s.station.address h b = true ↔ ¬ toSelf ∧ ¬ sweep := mayReserve_iff _ h b
  have urgent : usesUrgent h.cls = true ↔ h.cls = .t ∨ h.cls = .c := usesUrgent_iff h.cls
  refine ⟨fun hl => by simp [exec, execFrameStart, hl], fun hl hs hr => ⟨?_, ?_, ?_, ?_⟩⟩
  · intro hu h1 h2 hc hn
    exact exec_frameStart stamp b hl hs hr
      (reserve_urgent (s := s.tick m) stamp hu (may.mpr ⟨h1, h2⟩) (urgent.mpr hc) hn)
  · intro hu h1 h2 hc1 hc2 hn
    have hc : usesUrgent h.cls = false := by
      rw [← Bool.not_eq_true, urgent, not_or]
      exact ⟨hc1, hc2⟩
    exact exec_frameStart stamp b hl hs hr
      (reserve_transit (s := s.tick m) stamp hu (may.mpr ⟨h1, h2⟩) hc hn)
  · intro hu hh hn
    exact exec_frameStart stamp b hl hs hr (reserve_counter (s := s.tick m) stamp hu hh hn)
  · intro hn
    refine exec_frameStart stamp b hl hs hr (reserve_none (s := s.tick m) stamp ?_)
    rw [← urgent] at hn
    have hself : toSelf ∨ sweep → mayReserve s.station.address h b = false := fun ht => by
      rw [← Bool.not_eq_true, may]
      exact fun hn => ht.elim hn.1 hn.2
    have hplain : h.cls ≠ .t ∧ h.cls ≠ .c → usesUrgent h.cls = false := fun ht => by
      rw [← Bool.not_eq_true, urgent]
      exact fun hn => hn.elim ht.1 ht.2
    rcases hn with hu | ⟨hu, ht | ht | ht | ⟨h1, h2, ht⟩⟩ | hu
    · exact .inl hu
    · exact .inr (.inl ⟨hu, .inl (hself (.inl ht))⟩)
    · exact .inr (.inl ⟨hu, .inl (hself (.inr ht))⟩)
    · exact .inr (.inl ⟨hu, .inr (.inl ht)⟩)
    · exact .inr (.inl ⟨hu, .inr (.inr ⟨hplain ⟨h1, h2⟩, ht⟩)⟩)
    · exact .inr (.inr hu)
end

