-- ==== Sys2Proof/Proofs/Arbiter.lean ====
section
/-! The outputs' choices: the arbiter's order, what an output takes and sends, the discarding in ISOLATED (R42, R51,
R54), and what no choice touches: a frame being sent, the ports' counters, and queues without a reservation. -/

namespace Sys2Proof.Machine

/-! ## The arbiter's order -/

/-- The head of the local insert queues, K before M before S before I (R42). -/
theorem pickLocal_forms {w v : Switch} {i : QItem} (h : w.pickLocal = some (i, v)) :
    (w.localK = i :: v.localK ∧ v = { w with localK := v.localK }) ∨
    (w.localM = i :: v.localM ∧ v = { w with localM := v.localM }) ∨
    (w.localS = i :: v.localS ∧ v = { w with localS := v.localS }) ∨
    (w.localI = i :: v.localI ∧ v = { w with localI := v.localI }) := by
  unfold Switch.pickLocal at h
  split at h <;> simp only [Option.some.injEq, Prod.mk.injEq, reduceCtorEq] at h <;>
    obtain ⟨rfl, rfl⟩ := h
  · next hk => exact .inl ⟨hk, rfl⟩
  · next hm => exact .inr (.inl ⟨hm, rfl⟩)
  · next hs => exact .inr (.inr (.inl ⟨hs, rfl⟩))
  · next hi => exact .inr (.inr (.inr ⟨hi, rfl⟩))

/-- The item picked is the head of one queue, and leaves it. -/
theorem pick_forms {w v : Switch} {i : QItem} (h : w.pick = some (i, v)) :
    (w.urgent = i :: v.urgent ∧ v = { w with urgent := v.urgent }) ∨
    (w.transit = i :: v.transit ∧ v = { w with transit := v.transit }) ∨
    (w.localK = i :: v.localK ∧ v = { w with localK := v.localK }) ∨
    (w.localM = i :: v.localM ∧ v = { w with localM := v.localM }) ∨
    (w.localS = i :: v.localS ∧ v = { w with localS := v.localS }) ∨
    (w.localI = i :: v.localI ∧ v = { w with localI := v.localI }) := by
  have transit (h : w.pickTransit = some (i, v)) :
      (w.transit = i :: v.transit ∧ v = { w with transit := v.transit }) ∨
      (w.localK = i :: v.localK ∧ v = { w with localK := v.localK }) ∨
      (w.localM = i :: v.localM ∧ v = { w with localM := v.localM }) ∨
      (w.localS = i :: v.localS ∧ v = { w with localS := v.localS }) ∨
      (w.localI = i :: v.localI ∧ v = { w with localI := v.localI }) := by
    unfold Switch.pickTransit at h
    split at h
    · next hq =>
      split at h
      · simp only [Option.some.injEq, Prod.mk.injEq] at h
        obtain ⟨rfl, rfl⟩ := h
        exact .inl ⟨hq, rfl⟩
      · cases h
    · exact .inr (pickLocal_forms h)
  unfold Switch.pick at h
  split at h
  · next hq =>
    split at h
    · simp only [Option.some.injEq, Prod.mk.injEq] at h
      obtain ⟨rfl, rfl⟩ := h
      exact .inl ⟨hq, rfl⟩
    · exact .inr (transit h)
  · exact .inr (transit h)

/-- A pick leaves the repeat FIFO alone. -/
theorem pick_counter {w v : Switch} {i : QItem} (h : w.pick = some (i, v)) :
    v.counter = w.counter := by
  rcases pick_forms h with ⟨-, hv⟩ | ⟨-, hv⟩ | ⟨-, hv⟩ | ⟨-, hv⟩ | ⟨-, hv⟩ | ⟨-, hv⟩ <;> rw [hv]

/-- A pick takes an item out of a queue and puts none into any. -/
theorem pick_subset {w v : Switch} {i : QItem} (h : w.pick = some (i, v)) :
    v.urgent ⊆ w.urgent ∧ v.transit ⊆ w.transit := by
  rcases pick_forms h with ⟨hq, hv⟩ | ⟨hq, hv⟩ | ⟨-, hv⟩ | ⟨-, hv⟩ | ⟨-, hv⟩ | ⟨-, hv⟩
  · rw [hv, hq]; exact ⟨List.subset_cons_self _ _, List.Subset.refl _⟩
  · rw [hv, hq]; exact ⟨List.Subset.refl _, List.subset_cons_self _ _⟩
  all_goals rw [hv]; exact ⟨List.Subset.refl _, List.Subset.refl _⟩

theorem pick_of_noUrgent {w : Switch} (h : ∀ j l, w.urgent = j :: l → j.eligible = false) :
    w.pick = w.pickTransit := by
  unfold Switch.pick
  split
  · next j l hq => simp [h j l hq]
  · rfl

theorem pick_none_of_empty {w : Switch} (h : w.forwardItems = 0) : w.pick = none := by
  simp only [Switch.forwardItems, Nat.add_eq_zero_iff, List.length_eq_zero_iff] at h
  obtain ⟨⟨⟨⟨⟨hu, ht⟩, hk⟩, hm⟩, hs⟩, hi⟩ := h
  simp [Switch.pick, Switch.pickTransit, Switch.pickLocal, hu, ht, hk, hm, hs, hi]

/-! ## What an output takes and sends -/

theorem fillMode_idle_iff (x : Port) : x.fillMode = .idle ↔ x.side = .usable := by
  unfold Port.fillMode
  split <;> simp_all

theorem arbitrateForward_picks {u : State} {o : PortId} {i : QItem} {v : Switch}
    (ho : forwardOutput u.sw.role = some o) (ht : (u.port o).tx = none)
    (hs : (u.port o).side = .usable) (hp : u.sw.pick = some (i, v)) :
    arbitrateForward u = u.sends o i v := by
  unfold arbitrateForward
  rw [ho]
  dsimp only
  rw [if_pos ⟨ht, (fillMode_idle_iff _).mpr hs⟩, hp]
  exact startTx_sends u o i v

theorem arbitrateCounter_picks {u : State} {i : QItem} {q : List QItem} (hr : u.sw.role = .through)
    (ht : u.portA.tx = none) (hs : u.portA.side = .usable) (hq : u.sw.counter = i :: q)
    (he : i.eligible = true) :
    arbitrateCounter u = u.sends .a i { u.sw with counter := q } := by
  unfold arbitrateCounter
  rw [if_pos ⟨hr, ht, (fillMode_idle_iff _).mpr hs⟩, hq]
  simp only [he, if_true]
  exact startTx_sends u .a i _

/-- What an output takes changes no receive side. -/
theorem sends_standing (u : State) (p : PortId) (i : QItem) {v : Switch} (h : v.role = u.sw.role) :
    (u.sends p i v).standing = u.standing := by
  rw [← startTx_sends, standing_startTx, standing_setSw u v h]

theorem sends_sw (u : State) (p : PortId) (i : QItem) (v : Switch) : (u.sends p i v).sw = v := by
  rw [← startTx_sends, startTx_sw]
  rfl

theorem markPicked_port (s : State) (i : QItem) (o : PortId) :
    ((markPicked s i).port o).tx = (s.port o).tx ∧ ((markPicked s i).port o).ctr = (s.port o).ctr := by
  unfold markPicked
  split
  · next q _ =>
    split
    · by_cases h : o = q
      · subst h; simp
      · rw [setPort_port_ne _ h]; exact ⟨rfl, rfl⟩
    · exact ⟨rfl, rfl⟩
  · exact ⟨rfl, rfl⟩

theorem startTx_tx_other {o p : PortId} (h : o ≠ p) (s : State) (i : QItem) :
    ((startTx s p i).port o).tx = (s.port o).tx := by
  unfold startTx
  rw [setPort_port_ne _ h]
  exact (markPicked_port s i o).1

theorem startTx_ctr (s : State) (p : PortId) (i : QItem) (o : PortId) :
    ((startTx s p i).port o).ctr = (s.port o).ctr := by
  unfold startTx
  by_cases h : o = p
  · subst h
    rw [State.setPort_port_same]
    exact (markPicked_port s i o).2
  · rw [setPort_port_ne _ h]
    exact (markPicked_port s i o).2

/-- A still counter-path output stays so when the forward output takes an item. -/
theorem CounterStill.sends {u : State} (h : CounterStill u) {o : PortId} {i : QItem} {v : Switch}
    (ho : forwardOutput u.sw.role = some o) (hp : u.sw.pick = some (i, v)) :
    CounterStill (u.sends o i v) := by
  obtain ⟨hr, -, -⟩ := switch_pick_same hp
  by_cases hth : u.sw.role = .through
  · have hb : o = .b := by simpa [hth, forwardOutput] using ho.symm
    have hside : ((u.sends o i v).port .a).side = (u.port .a).side :=
      (sameSide_of_line (line_of_standing (sends_standing u o i hr) .a)).side
    have htx : ((u.sends o i v).port .a).tx = (u.port .a).tx := by
      rw [← startTx_sends, hb, startTx_tx_other (by decide)]
      rfl
    unfold CounterStill
    rw [sends_sw, hr, pick_counter hp]
    simp only [State.port_a] at hside htx
    rwa [hside, htx]
  · exact .inl (by rw [sends_sw, hr]; exact hth)

/-- The forward output takes what its arbiter picks, the counter-path output makes no choice. -/
theorem arbitrate_forward {u : State} {o : PortId} {i : QItem} {v : Switch}
    (ho : forwardOutput u.sw.role = some o) (ht : (u.port o).tx = none)
    (hs : (u.port o).side = .usable) (hp : u.sw.pick = some (i, v)) (hc : CounterStill u) :
    arbitrate u = u.sends o i v := by
  unfold arbitrate
  rw [arbitrateForward_picks ho ht hs hp, arbitrateCounter_still (hc.sends ho hp)]

/-- The counter-path output takes the head of the repeat FIFO, the forward output makes no choice. -/
theorem arbitrate_counter {u : State} {i : QItem} {q : List QItem} (hf : ForwardStill u)
    (hr : u.sw.role = .through) (ht : u.portA.tx = none) (hs : u.portA.side = .usable)
    (hq : u.sw.counter = i :: q) (he : i.eligible = true) :
    arbitrate u = u.sends .a i { u.sw with counter := q } := by
  unfold arbitrate
  rw [arbitrateForward_still hf, arbitrateCounter_picks hr ht hs hq he]

/-- In THROUGH both outputs take an item. -/
theorem arbitrate_both {u : State} {i j : QItem} {v : Switch} {q : List QItem}
    (hr : u.sw.role = .through) (hbt : u.portB.tx = none) (hbs : u.portB.side = .usable)
    (hp : u.sw.pick = some (i, v)) (hat : u.portA.tx = none) (has : u.portA.side = .usable)
    (hq : u.sw.counter = j :: q) (he : j.eligible = true) :
    arbitrate u = (u.sends .b i v).sends .a j { v with counter := q } := by
  have ho : forwardOutput u.sw.role = some .b := by rw [hr]; rfl
  obtain ⟨hvr, -, -⟩ := switch_pick_same hp
  have htx : ((u.sends .b i v).port .a).tx = none := by
    rw [← startTx_sends, startTx_tx_other (by decide)]
    exact hat
  have hside : ((u.sends .b i v).port .a).side = .usable :=
    ((sameSide_of_line (line_of_standing (sends_standing u .b i hvr) .a)).side).trans has
  unfold arbitrate
  rw [arbitrateForward_picks ho hbt hbs hp,
    arbitrateCounter_picks (by rw [sends_sw, hvr, hr]) htx hside
      (by rw [sends_sw, pick_counter hp, hq]) he, sends_sw]

theorem arbitrate_still {u : State} (hf : ForwardStill u) (hc : CounterStill u) : arbitrate u = u := by
  unfold arbitrate
  rw [arbitrateForward_still hf, arbitrateCounter_still hc]

/-- With every queue empty there is no choice to make. -/
theorem arbitrate_empty {u : State} (hw : u.sw.forwardItems = 0) (hc : u.sw.counter = []) :
    arbitrate u = u := by
  have forward : arbitrateForward u = u := by
    unfold arbitrateForward
    split
    · rw [hw]; rfl
    · rw [pick_none_of_empty hw]
      simp
  have still : CounterStill u := .inr (.inr (.inr (by simp [hc])))
  unfold arbitrate
  rw [forward, arbitrateCounter_still still]

/-! ## ISOLATED -/

/-- The switch with nothing left for the forward output. -/
def Switch.drained (w : Switch) : Switch :=
  { w with urgent := [], transit := [], localK := [], localM := [], localS := [], localI := [] }

/-- With every waiting item eligible the arbiter picks one while there is one. -/
theorem pick_isSome {w : Switch} (he : ∀ i ∈ w.urgent ++ w.transit, i.eligible = true)
    (hn : w.forwardItems ≠ 0) : w.pick.isSome := by
  unfold Switch.pick Switch.pickTransit Switch.pickLocal
  split
  · next i q hq => simp [he i (by simp [hq])]
  · next hu =>
    split
    · next i q hq => simp [he i (by simp [hq])]
    · next ht =>
      split <;> first | rfl | simp_all [Switch.forwardItems]

theorem pick_forwardItems {w v : Switch} {i : QItem} (h : w.pick = some (i, v)) :
    w.forwardItems = v.forwardItems + 1 := by
  unfold Switch.forwardItems
  rcases pick_forms h with ⟨hq, hv⟩ | ⟨hq, hv⟩ | ⟨hq, hv⟩ | ⟨hq, hv⟩ | ⟨hq, hv⟩ | ⟨hq, hv⟩ <;>
    rw [hv, hq] <;> simp only [List.length_cons] <;> omega

theorem pick_drained {w v : Switch} {i : QItem} (h : w.pick = some (i, v)) :
    v.drained = w.drained := by
  rcases pick_forms h with ⟨-, hv⟩ | ⟨-, hv⟩ | ⟨-, hv⟩ | ⟨-, hv⟩ | ⟨-, hv⟩ | ⟨-, hv⟩ <;> rw [hv] <;> rfl

/-- Where every item is eligible ISOLATED discards them all, each counted once (R54). -/
theorem drainIsolated_all (n : Nat) (s : State) (hn : s.sw.forwardItems = n)
    (he : ∀ i ∈ s.sw.urgent ++ s.sw.transit, i.eligible = true)
    (hc : s.sw.ctr.isolatedDiscard ≤ 65535) :
    (drainIsolated n s).sw = { s.sw.drained with ctr := { s.sw.ctr with
      isolatedDiscard := min (s.sw.ctr.isolatedDiscard + n) 65535 } } := by
  induction n generalizing s with
  | zero =>
    have hw := hn
    simp only [Switch.forwardItems, Nat.add_eq_zero_iff, List.length_eq_zero_iff] at hw
    obtain ⟨⟨⟨⟨⟨hu, ht⟩, hk⟩, hm⟩, hs⟩, hi⟩ := hw
    have same : s.sw.drained = s.sw := by
      generalize s.sw = w at *
      cases w
      simp_all [Switch.drained]
    have count : min s.sw.ctr.isolatedDiscard 65535 = s.sw.ctr.isolatedDiscard := Nat.min_eq_left hc
    simp [drainIsolated, same, count]
  | succ n ih =>
    obtain ⟨⟨i, w⟩, hp⟩ := Option.isSome_iff_exists.mp (pick_isSome he (by omega))
    obtain ⟨hu, ht⟩ := pick_subset hp
    simp only [drainIsolated, hp]
    rw [ih]
    · simp only [State.countSw_sw, markPicked_sw, State.setSw_sw]
      have hd := pick_drained hp
      have hctr := pick_ctr hp
      have count : min (bump s.sw.ctr.isolatedDiscard + n) 65535 =
          min (s.sw.ctr.isolatedDiscard + (n + 1)) 65535 := by
        simp only [bump, Config.counterMax]
        omega
      unfold Switch.drained at hd ⊢
      rw [hctr, count]
      simp only [Switch.mk.injEq] at hd ⊢
      simp_all
    · have := pick_forwardItems hp
      simp only [State.countSw_sw, markPicked_sw, State.setSw_sw, Switch.forwardItems] at this hn ⊢
      omega
    · intro j hj
      simp only [State.countSw_sw, markPicked_sw, State.setSw_sw, List.mem_append] at hj
      exact he j (List.mem_append.mpr (hj.imp (fun h => hu h) fun h => ht h))
    · simp only [State.countSw_sw, bump, Config.counterMax]
      omega

theorem arbitrate_isolated {u : State} (hr : u.sw.role = .isolated)
    (he : ∀ i ∈ u.sw.urgent ++ u.sw.transit, i.eligible = true)
    (hc : u.sw.ctr.isolatedDiscard ≤ 65535) :
    (arbitrate u).sw = { u.sw.drained with ctr := { u.sw.ctr with
      isolatedDiscard := min (u.sw.ctr.isolatedDiscard + u.sw.forwardItems) 65535 } } := by
  have forward : arbitrateForward u = drainIsolated u.sw.forwardItems u := by
    unfold arbitrateForward
    rw [hr]
    rfl
  have still : CounterStill (drainIsolated u.sw.forwardItems u) :=
    .inl (by rw [(drainIsolated_ring _ u).ring.role, hr]; decide)
  unfold arbitrate
  rw [forward, arbitrateCounter_still still, drainIsolated_all _ u rfl he hc]

/-! ## What no choice touches -/

/-- The frames being sent stay, the ports' counters stand, the repeat FIFO loses items at its head at most, and no
queue gains a reservation; no role change and no ROLE_DISCARD is counted. -/
structure KeepsTraffic (s t : State) : Prop where
  sending : ∀ o x, (s.port o).tx = some x → (t.port o).tx = some x
  ctr : ∀ o, (t.port o).ctr = (s.port o).ctr
  counter : t.sw.counter <:+ s.sw.counter
  noResv : ∀ q, NoReservation s q → NoReservation t q
  changes : t.sw.ctr.roleChanges = s.sw.ctr.roleChanges
  discards : t.sw.ctr.roleDiscard = s.sw.ctr.roleDiscard

theorem KeepsTraffic.refl (s : State) : KeepsTraffic s s :=
  ⟨fun _ _ h => h, fun _ => rfl, List.suffix_rfl, fun _ h => h, rfl, rfl⟩

theorem KeepsTraffic.trans {s t u : State} (h : KeepsTraffic s t) (k : KeepsTraffic t u) :
    KeepsTraffic s u :=
  ⟨fun o x hx => k.sending o x (h.sending o x hx), fun o => (k.ctr o).trans (h.ctr o),
   k.counter.trans h.counter, fun q hq => k.noResv q (h.noResv q hq), k.changes.trans h.changes,
   k.discards.trans h.discards⟩

/-- The ports and the switch decide what traffic there is. -/
theorem KeepsTraffic.of_same {s t : State} (ha : t.portA = s.portA) (hb : t.portB = s.portB)
    (hw : t.sw = s.sw) : KeepsTraffic s t := by
  have hp : ∀ o, t.port o = s.port o := fun o => by cases o <;> assumption
  refine ⟨fun o x hx => by rwa [hp], fun o => by rw [hp], by rw [hw], fun q hq => ?_, by rw [hw],
    by rw [hw]⟩
  unfold NoReservation
  rwa [hw]

theorem keepsTraffic_setSw (s : State) (w : Switch) (hc : w.counter <:+ s.sw.counter)
    (hq : ∀ i ∈ w.urgent ++ w.transit, ∀ p, i.origin = .reserved p →
      i ∈ s.sw.urgent ++ s.sw.transit)
    (hr : w.ctr.roleChanges = s.sw.ctr.roleChanges ∧ w.ctr.roleDiscard = s.sw.ctr.roleDiscard) :
    KeepsTraffic s (s.setSw w) where
  sending o x hx := by cases o <;> exact hx
  ctr o := by cases o <;> rfl
  counter := hc
  noResv q hn i hi ho := by
    rcases List.mem_append.mp hi with hi | hi
    · exact hn i (List.mem_append_left _ (hq i hi q ho)) ho
    · exact hn i (List.mem_append_right _ (hc.subset hi)) ho
  changes := hr.1
  discards := hr.2

theorem keepsTraffic_countSw (s : State) (f : SwitchCounters → SwitchCounters)
    (hr : (f s.sw.ctr).roleChanges = s.sw.ctr.roleChanges ∧
      (f s.sw.ctr).roleDiscard = s.sw.ctr.roleDiscard) : KeepsTraffic s (s.countSw f) :=
  keepsTraffic_setSw s _ List.suffix_rfl (fun _ hi _ _ => hi) hr

theorem keepsTraffic_pick {s : State} {i : QItem} {w : Switch} (h : s.sw.pick = some (i, w)) :
    KeepsTraffic s (s.setSw w) := by
  obtain ⟨hu, ht⟩ := pick_subset h
  refine keepsTraffic_setSw s w (by rw [pick_counter h]) (fun j hj _ _ => ?_) (by simp [pick_ctr h])
  exact List.mem_append.mpr ((List.mem_append.mp hj).imp (fun h => hu h) fun h => ht h)

theorem noReservation_of_sw {s t : State} (h : t.sw = s.sw) {q : PortId} (hn : NoReservation s q) :
    NoReservation t q := by
  unfold NoReservation
  rwa [h]

theorem keepsTraffic_markPicked (s : State) (i : QItem) : KeepsTraffic s (markPicked s i) where
  sending o x hx := (markPicked_port s i o).1.trans hx
  ctr o := (markPicked_port s i o).2
  counter := by rw [markPicked_sw]
  noResv _ := noReservation_of_sw (markPicked_sw s i)
  changes := by rw [markPicked_sw]
  discards := by rw [markPicked_sw]

/-- An idle port begins to send: nothing that was being sent ends. -/
theorem keepsTraffic_startTx {s : State} {p : PortId} (h : (s.port p).tx = none) (i : QItem) :
    KeepsTraffic s (startTx s p i) where
  sending o x hx := by
    have hne : o ≠ p := fun heq => by rw [heq, h] at hx; cases hx
    exact (startTx_tx_other hne s i).trans hx
  ctr := startTx_ctr s p i
  counter := by rw [startTx_sw]
  noResv _ := noReservation_of_sw (startTx_sw s p i)
  changes := by rw [startTx_sw]
  discards := by rw [startTx_sw]

theorem keepsTraffic_drainIsolated (n : Nat) (s : State) : KeepsTraffic s (drainIsolated n s) := by
  induction n generalizing s with
  | zero => exact .refl s
  | succ n ih =>
    simp only [drainIsolated]
    split
    · next i w h =>
      exact (keepsTraffic_pick h).trans <| (keepsTraffic_markPicked _ i).trans <|
        (keepsTraffic_countSw _ _ ⟨rfl, rfl⟩).trans (ih _)
    · exact .refl s

theorem keepsTraffic_arbitrate (s : State) : KeepsTraffic s (arbitrate s) := by
  have forward : KeepsTraffic s (arbitrateForward s) := by
    unfold arbitrateForward
    split
    · exact keepsTraffic_drainIsolated _ s
    · split
      · next ht =>
        split
        · next i w h =>
          exact (keepsTraffic_pick h).trans (keepsTraffic_startTx (by cases ‹PortId› <;> exact ht.1) i)
        · exact .refl s
      · exact .refl s
  refine forward.trans (?_ : KeepsTraffic _ (arbitrateCounter (arbitrateForward s)))
  generalize arbitrateForward s = u
  unfold arbitrateCounter
  split
  · next ht =>
    split
    · next i q hq =>
      split
      · refine .trans ?_ (keepsTraffic_startTx (by exact ht.2.1) i)
        exact keepsTraffic_setSw u _ (by rw [hq]; exact List.suffix_cons i q) (fun _ hi _ _ => hi)
          ⟨rfl, rfl⟩
      · exact .refl u
    · exact .refl u
  · exact .refl u

/-! ## Transmit completion -/

/-- The port once its frame has been sent (R2, R18). -/
def completedTx (s : State) (p : PortId) (x : Tx) : State :=
  s.setPort p { s.port p with
    tx := none,
    ctr := { (s.port p).ctr with framesOut :=
      if x.aborted then (s.port p).ctr.framesOut else bump (s.port p).ctr.framesOut } }

theorem setPort_setPort (s : State) (p : PortId) (x y : Port) :
    (s.setPort p x).setPort p y = s.setPort p y := by
  cases p <;> rfl

theorem exec_transmitCompletion {m : Moment} {p : PortId} {s : State} {x : Tx}
    (hx : (s.port p).tx = some x) (hc : x.copyOf = none) :
    exec (.transmitCompletion m p) s = .next (arbitrate (completedTx (s.tick m) p x)) := by
  cases p <;> cases ha : x.aborted <;>
    simp_all [exec, execTransmitCompletion, completedTx, State.countPort, setPort_setPort]

end Sys2Proof.Machine

open Sys2Proof Sys2Proof.Machine

/-- Settles O24: the port is freed, and the arbiter chooses by `arbitrate_forward` and its like. -/
theorem transmitCompletion : Obligations.TransmitCompletion := by
  refine ⟨fun m p s => ⟨fun hn => ?_, fun x hx => ⟨fun hc => ?_, fun hc => ?_⟩⟩, fun w i q => ?_⟩
  · simp [exec, execTransmitCompletion, hn]
  · simp [exec, execTransmitCompletion, hx, Option.isSome_iff_ne_none.mpr hc]
  · have run := exec_transmitCompletion (m := m) hx hc
    have hu : completedTx (s.tick m) p x = (s.tick m).setPort p { s.port p with
      tx := none, ctr := { (s.port p).ctr with framesOut :=
        if x.aborted then (s.port p).ctr.framesOut else bump (s.port p).ctr.framesOut } } := by
      cases p <;> rfl
    have hsw : (completedTx (s.tick m) p x).sw = s.sw := by simp [completedTx]
    rw [← hu, run]
    simp only [Host.Outcome.next.injEq, exists_eq_left']
    refine ⟨⟨?_, ?_⟩, ?_, fun hf hk => arbitrate_still hf hk, ?_, ?_, ?_⟩
    · exact (ringOnly_setPort _ p _).trans (arbitrate_ring _)
    · rw [(keepsTraffic_arbitrate _).ctr p]
      simp [completedTx]
    · intro hw hq
      exact arbitrate_empty (by rw [hsw]; exact hw) (by rw [hsw]; exact hq)
    · intro o i v ho ht hs hp hk
      exact arbitrate_forward (by rw [hsw]; exact ho) ht hs (by rw [hsw]; exact hp) hk
    · intro i q hr ht hs hq he hf
      rw [arbitrate_counter hf (by rw [hsw]; exact hr) ht hs (by rw [hsw]; exact hq) he, hsw]
    · intro hr he hl
      rw [arbitrate_isolated (by rw [hsw]; exact hr) (by rw [hsw]; exact he) (by rw [hsw]; exact hl), hsw]
      rfl
  · refine ⟨?_, ?_, ?_, ?_, ?_, ?_, ?_⟩
    · intro hq he
      simp [Switch.pick, hq, he]
    all_goals intro hn; rw [pick_of_noUrgent hn]; unfold Switch.pickTransit
    · intro hq he
      simp [hq, he]
    · intro hq he
      simp [hq, he]
    · intro ht hk
      simp [Switch.pickLocal, ht, hk]
    · intro ht hk hm
      simp [Switch.pickLocal, ht, hk, hm]
    · intro ht hk hm hs
      simp [Switch.pickLocal, ht, hk, hm, hs]
    · intro ht hk hm hs hi
      simp [Switch.pickLocal, ht, hk, hm, hs, hi]
end

