-- ==== Sys2Proof/Proofs/CutThrough.lean ====
section
/-! A reservation that reaches 32 bytes: it becomes eligible, and the outputs choose (R35, R42, R51, R54). -/

namespace Sys2Proof.Machine

theorem readyItem_reserved {p : PortId} {i : QItem} (h : i.origin = .reserved p) :
    readyItem p i = { i with ready := true } := by
  simp [readyItem, QItem.reservedFor, h]

theorem eligible_ready {p : PortId} {i : QItem} (h : i.origin = .reserved p) :
    QItem.eligible { i with ready := true } = true := by
  simp [QItem.eligible, h]

/-- The Ring Switch with the reservation of a port eligible (R35). -/
def Switch.readied (w : Switch) (p : PortId) : Switch :=
  { w with urgent := w.urgent.map (readyItem p), transit := w.transit.map (readyItem p),
           counter := w.counter.map (readyItem p) }

/-- The state at which the outputs choose when the frame being received on a port has its 32 bytes. -/
def reached32 (s : State) (p : PortId) (r : Reception) : State :=
  (s.setPort p { s.port p with reception := some { r with got32 := true } }).setSw (s.sw.readied p)

theorem reach32_eq {s : State} {p : PortId} {r : Reception} (h : (s.port p).reception = some r) :
    reach32 s p = arbitrate (reached32 s p r) := by
  cases p <;> simp only [reach32, h] <;> rfl

theorem exec_reservationEligible {m : Moment} {p : PortId} {s : State} {r : Reception}
    (h : (s.port p).reception = some r) :
    exec (.reservationEligible m p) s = .next (arbitrate (reached32 (s.tick m) p r)) := by
  change Host.Outcome.next (reach32 (s.tick m) p) = _
  rw [reach32_eq (s := s.tick m) (by simpa using h)]

theorem reached32_ring (s : State) (p : PortId) (r : Reception) : RingOnly s (reached32 s p r) :=
  (ringOnly_setPort s p _).trans (ringOnly_setSw _ _ (by simp [Switch.readied])
    (by simp [Switch.readied]) (by simp [Switch.readied]))

theorem reached32_port (s : State) (p : PortId) (r : Reception) (q : PortId) :
    ((reached32 s p r).port q).tx = (s.port q).tx ∧ ((reached32 s p r).port q).side = (s.port q).side := by
  cases p <;> cases q <;> exact ⟨rfl, rfl⟩

/-- What is sent of a reservation: a cut-through copy with the age of R34 and no check value yet. -/
theorem sends_reserved_tx (u : State) (q p : PortId) {i : QItem} (v : Switch)
    (h : i.origin = .reserved p) :
    ((u.sends q i v).port q).tx = some
      { frame := { i.frame with hdr := { i.frame.hdr with
          age := min (i.frame.hdr.age + (u.clock - i.since) +
            (match q with | .a => u.station.cfg.linkA | .b => u.station.cfg.linkB)) 16777215 } },
        copyOf := some p, endAt := u.clock + (22 + i.frame.hdr.len),
        aborted := false, check := none } := by
  simp only [State.sends, State.setPort_port_same, sentTx, h]
  rfl

end Sys2Proof.Machine

open Sys2Proof Sys2Proof.Machine

/-- Settles O16: the reservation becomes eligible in its queue, and the arbiter chooses. -/
theorem reservationReaches32 : Obligations.ReservationReaches32 := by
  intro m p s c
  refine ⟨fun hn => by simp [c, exec, execReservationEligible, reach32, hn], fun r hr => ?_⟩
  intro w u begins
  have run : exec c s = .next (arbitrate u) := exec_reservationEligible hr
  have ring : RingOnly (s.tick m) u := reached32_ring (s.tick m) p r
  have tx (q : PortId) : (u.port q).tx = (s.port q).tx := (reached32_port (s.tick m) p r q).1
  have side (q : PortId) : (u.port q).side = (s.port q).side := (reached32_port (s.tick m) p r q).2
  have received : (u.port p).reception = some { r with got32 := true } := by cases p <;> rfl
  have start (q : PortId) (i : QItem) (v : Switch) (hi : i.origin = .reserved p)
      (h : arbitrate u = u.sends q { i with ready := true } v) : begins q i v := by
    have sent := sends_reserved_tx u q p (i := { i with ready := true }) v hi
    rw [ring.moment.clock, ring.station] at sent
    exact ⟨by rw [run, h], sent⟩
  rw [run]
  refine ⟨?_, fun hf hk => by rw [arbitrate_still hf hk], ?_, ?_, ?_, fun q i rest hi => ⟨?_, ?_⟩, ?_⟩
  · obtain ⟨v, hv⟩ := reception_of_line (line_of_standing (standing_arbitrate (s := u)) p) received
    exact ⟨_, v, rfl, ring.trans (arbitrate_ring _), hv⟩
  · intro o i v ho ht hs hp hk
    rw [arbitrate_forward (u := u) ho ht hs hp hk]
  · intro i rest hw ht hs hq he hf
    rw [arbitrate_counter (u := u) hf hw ht hs hq he]
    rfl
  · intro i v j rest hw hbt hbs hp hat has hq he
    rw [arbitrate_both (u := u) hw hbt hbs hp hat has hq he]
  · intro ho ht hs hk
    rw [← tx] at ht
    rw [← side] at hs
    constructor
    · intro hq
      have hw : w.urgent = { i with ready := true } :: rest.map (readyItem p) := by
        simp [w, hq, readyItem_reserved hi]
      have hp : w.pick = some ({ i with ready := true }, { w with urgent := rest.map (readyItem p) }) := by
        simp [Switch.pick, hw, eligible_ready hi]
      exact start q i _ hi (arbitrate_forward ho ht hs hp hk)
    · intro hn hq
      have hw : w.transit = { i with ready := true } :: rest.map (readyItem p) := by
        simp [w, hq, readyItem_reserved hi]
      have hp : w.pick = some ({ i with ready := true }, { w with transit := rest.map (readyItem p) }) := by
        rw [pick_of_noUrgent fun j l hj => hn j (by simp [hj])]
        simp [Switch.pickTransit, hw, eligible_ready hi]
      exact start q i _ hi (arbitrate_forward ho ht hs hp hk)
  · intro ho ht hs hf hq
    have hw : w.counter = { i with ready := true } :: rest.map (readyItem p) := by
      simp [w, hq, readyItem_reserved hi]
    exact start .a i _ hi
      (arbitrate_counter hf ho ((tx .a).trans ht) ((side .a).trans hs) hw (eligible_ready hi))
  · intro hw he hc
    exact ⟨_, rfl, arbitrate_isolated hw he hc⟩
end

