-- ==== Sys2Proof/Proofs/Traffic.lean ====
section
/-! The end of a frame in transit: an abort on a port, a reservation removed, a frame cut (R13, R17, R36, R52); and that
no change of the levels touches a frame being sent or a port's counter. -/

namespace Sys2Proof.Machine

/-! ## Aborts -/

/-- A port whose frame being sent was ended with an abort mark (R17). -/
def sentAbort (s : State) (p : PortId) (x : Tx) : State :=
  s.setPort p { s.port p with
    tx := some { x with aborted := true, copyOf := none },
    ctr := { (s.port p).ctr with abortsSent := bump (s.port p).ctr.abortsSent } }

theorem abortTx_sending {s : State} {p : PortId} {x : Tx} (hx : (s.port p).tx = some x)
    (ha : x.aborted = false) (hc : x.copyOf ≠ none ∨ s.clock < x.endAt) :
    abortTx s p = sentAbort s p x := by
  have hn : ¬ (x.aborted ∨ (x.copyOf = none ∧ x.endAt ≤ s.clock)) := by
    rintro (h | ⟨h1, h2⟩)
    · rw [ha] at h; cases h
    · exact hc.elim (· h1) fun h => absurd h2 (Nat.not_le.mpr h)
  unfold abortTx
  rw [hx]
  simp only [hn, if_false]
  cases p <;> rfl

theorem abortTx_over {s : State} {p : PortId}
    (h : ∀ x, (s.port p).tx = some x → x.aborted = true ∨ (x.copyOf = none ∧ x.endAt ≤ s.clock)) :
    abortTx s p = s := by
  unfold abortTx
  split
  · next x hx => rw [if_pos (h x hx)]
  · rfl

theorem abortTx_forms (s : State) (p : PortId) :
    abortTx s p = s ∨ ∃ x, (s.port p).tx = some x ∧ abortTx s p = sentAbort s p x := by
  by_cases h : ∀ x, (s.port p).tx = some x → x.aborted = true ∨ (x.copyOf = none ∧ x.endAt ≤ s.clock)
  · exact .inl (abortTx_over h)
  · push Not at h
    obtain ⟨x, hx, ha, hc⟩ := h
    refine .inr ⟨x, hx, abortTx_sending hx (by simpa using ha) ?_⟩
    by_cases hn : x.copyOf = none
    · exact .inr (hc hn)
    · exact .inl hn

theorem abortCopyOn_copy {s : State} {q p : PortId} {x : Tx} (hx : (s.port p).tx = some x)
    (hc : x.copyOf = some q) (ha : x.aborted = false) : abortCopyOn s q p = sentAbort s p x := by
  unfold abortCopyOn
  rw [hx]
  simp only [hc, if_true]
  exact abortTx_sending hx ha (.inl (by simp [hc]))

theorem abortCopyOn_forms (s : State) (q p : PortId) :
    abortCopyOn s q p = s ∨ abortCopyOn s q p = abortTx s p := by
  unfold abortCopyOn
  split
  · split
    · exact .inr rfl
    · exact .inl rfl
  · exact .inl rfl

/-- Two sets of port counters that differ in ABORTS_SENT at most. -/
def SameButAborts (x y : PortCounters) : Prop := y = { x with abortsSent := y.abortsSent }

theorem SameButAborts.trans {x y z : PortCounters} (h : SameButAborts x y) (k : SameButAborts y z) :
    SameButAborts x z := by
  unfold SameButAborts at *
  rw [k, h]

/-- Frames being sent may have been ended with abort marks; beside them and ABORTS_SENT all is as it was. -/
structure AbortsOnly (s t : State) : Prop where
  sw : t.sw = s.sw
  ctr : ∀ o, SameButAborts (s.port o).ctr (t.port o).ctr
  tx : ∀ o, (t.port o).tx = (s.port o).tx ∨ ∃ x, (s.port o).tx = some x ∧
    (t.port o).tx = some { x with aborted := true, copyOf := none }
  reception : ∀ o, (t.port o).reception = (s.port o).reception
  ring : RingOnly s t

theorem AbortsOnly.refl (s : State) : AbortsOnly s s :=
  ⟨rfl, fun _ => rfl, fun _ => .inl rfl, fun _ => rfl, .refl s⟩

theorem AbortsOnly.trans {s t u : State} (h : AbortsOnly s t) (k : AbortsOnly t u) :
    AbortsOnly s u := by
  refine ⟨k.sw.trans h.sw, fun o => (h.ctr o).trans (k.ctr o), fun o => ?_,
    fun o => (k.reception o).trans (h.reception o), h.ring.trans k.ring⟩
  rcases k.tx o with hk | ⟨y, hy, hk⟩
  · rw [hk]; exact h.tx o
  · rcases h.tx o with hh | ⟨x, hx, hh⟩
    · exact .inr ⟨y, hh ▸ hy, hk⟩
    · rw [hh] at hy
      cases hy
      exact .inr ⟨x, hx, hk⟩

/-- A port that is sending before is sending still. -/
theorem AbortsOnly.busy {s t : State} (h : AbortsOnly s t) {o : PortId} (hs : (s.port o).tx ≠ none) :
    (t.port o).tx ≠ none := by
  rcases h.tx o with ho | ⟨x, -, ho⟩ <;> rw [ho]
  · exact hs
  · simp

theorem abortsOnly_sentAbort {s : State} {p : PortId} {x : Tx} (h : (s.port p).tx = some x) :
    AbortsOnly s (sentAbort s p x) where
  sw := by simp [sentAbort]
  ctr o := by
    unfold sentAbort SameButAborts
    by_cases ho : o = p
    · subst ho; simp
    · rw [setPort_port_ne _ ho]
  tx o := by
    unfold sentAbort
    by_cases ho : o = p
    · subst ho; exact .inr ⟨x, h, by simp⟩
    · rw [setPort_port_ne _ ho]; exact .inl rfl
  reception o := by
    unfold sentAbort
    by_cases ho : o = p
    · subst ho; simp
    · rw [setPort_port_ne _ ho]
  ring := ringOnly_setPort s p _

theorem abortsOnly_abortTx (s : State) (p : PortId) : AbortsOnly s (abortTx s p) := by
  obtain h | ⟨x, hx, h⟩ := abortTx_forms s p <;> rw [h]
  · exact .refl s
  · exact abortsOnly_sentAbort hx

theorem abortsOnly_abortCopyOn (s : State) (q p : PortId) : AbortsOnly s (abortCopyOn s q p) := by
  obtain h | h := abortCopyOn_forms s q p <;> rw [h]
  · exact .refl s
  · exact abortsOnly_abortTx s p

theorem sentAbort_port_other {s : State} {p o : PortId} (x : Tx) (h : o ≠ p) :
    (sentAbort s p x).port o = s.port o := setPort_port_ne _ h

theorem abortTx_port_other {s : State} {p o : PortId} (h : o ≠ p) :
    (abortTx s p).port o = s.port o := by
  obtain hs | ⟨x, -, hs⟩ := abortTx_forms s p <;> rw [hs]
  exact sentAbort_port_other x h

theorem abortCopyOn_port_other {s : State} {q p o : PortId} (h : o ≠ p) :
    (abortCopyOn s q p).port o = s.port o := by
  obtain hs | hs := abortCopyOn_forms s q p <;> rw [hs]
  exact abortTx_port_other h

theorem abortedOn_sentAbort (s : State) (p : PortId) (x : Tx) : AbortedOn s (sentAbort s p x) p x := by
  unfold AbortedOn sentAbort
  simp

/-- Only the port's own record decides whether its frame was aborted. -/
theorem AbortedOn.of_port {s s' t t' : State} {o : PortId} {x : Tx} (h : AbortedOn s t o x)
    (hs : (s'.port o).ctr.abortsSent = (s.port o).ctr.abortsSent)
    (ht : (t'.port o).tx = (t.port o).tx ∧ (t'.port o).ctr = (t.port o).ctr) :
    AbortedOn s' t' o x := by
  obtain ⟨h1, h2⟩ := h
  exact ⟨ht.1.trans h1, by rw [ht.2, h2, hs]⟩

theorem AbortedOn.keeps {s t u : State} {o : PortId} {x : Tx} (h : AbortedOn s t o x)
    (k : KeepsTraffic t u) : AbortedOn s u o x :=
  ⟨k.sending o _ h.1, by rw [k.ctr o]; exact h.2⟩

/-- A frame aborted once is not aborted again. -/
theorem AbortedOn.abortTx {s t : State} {o : PortId} {x : Tx} (h : AbortedOn s t o x) (p : PortId) :
    AbortedOn s (abortTx t p) o x := by
  by_cases hp : o = p
  · subst hp
    have ended : Machine.abortTx t o = t := abortTx_over fun y hy => by
      rw [h.1] at hy
      cases hy
      exact .inl rfl
    rwa [ended]
  · exact h.of_port rfl (by rw [abortTx_port_other hp]; exact ⟨rfl, rfl⟩)

/-! ## Removal of a reservation -/

theorem withoutResv_noReservation {s : State} {p : PortId} {w : Switch} (h : s.sw = withoutResv p w) :
    NoReservation s p := by
  intro i hi
  rw [h] at hi
  simp only [withoutResv, List.mem_append, List.mem_filter, decide_eq_true_eq] at hi
  rcases hi with (hi | hi) | hi <;> exact hi.2

theorem removeResv_eq (s : State) (q : PortId) :
    removeResv s q = abortCopyOn (abortCopyOn (s.setSw (withoutResv q s.sw)) q .a) q .b := by
  have keep (l : List QItem) : (l.filter fun i => !i.reservedFor q) =
      l.filter fun j => decide (j.origin ≠ .reserved q) := by
    congr 1
    funext i
    by_cases h : i.origin = .reserved q <;> simp [QItem.reservedFor, h]
  simp only [removeResv, keep]
  rfl

theorem abortsOnly_removeResv (s : State) (q : PortId) :
    AbortsOnly (s.setSw (withoutResv q s.sw)) (removeResv s q) := by
  rw [removeResv_eq]
  exact (abortsOnly_abortCopyOn _ q .a).trans (abortsOnly_abortCopyOn _ q .b)

theorem removeResv_sw (s : State) (q : PortId) : (removeResv s q).sw = withoutResv q s.sw :=
  (abortsOnly_removeResv s q).sw

theorem removeResv_ring (s : State) (q : PortId) : RingOnly s (removeResv s q) :=
  (ringOnly_setSw s _).trans (abortsOnly_removeResv s q).ring

theorem removeResv_noReservation (s : State) (q : PortId) : NoReservation (removeResv s q) q :=
  withoutResv_noReservation (removeResv_sw s q)

/-- A copy being sent is ended with an abort mark. -/
theorem removeResv_aborts {s : State} {q o : PortId} {x : Tx} (hx : (s.port o).tx = some x)
    (hc : x.copyOf = some q) (ha : x.aborted = false) : AbortedOn s (removeResv s q) o x := by
  rw [removeResv_eq]
  generalize hv : s.setSw (withoutResv q s.sw) = v
  have hport : v.port o = s.port o := by subst hv; cases o <;> rfl
  have aborted (u : State) (hu : u.port o = s.port o) : AbortedOn s (abortCopyOn u q o) o x := by
    rw [abortCopyOn_copy (by rw [hu]; exact hx) hc ha]
    exact (abortedOn_sentAbort u o x).of_port (by rw [hu]) ⟨rfl, rfl⟩
  cases o with
  | a => exact (aborted v hport).of_port rfl (by rw [abortCopyOn_port_other (by decide)]; exact ⟨rfl, rfl⟩)
  | b => exact aborted _ (by rw [abortCopyOn_port_other (by decide)]; exact hport)

/-! ## A frame cut short -/

/-- The port whose frame being received was cut, its reservation not yet removed (R13). -/
def cutReception (s : State) (p : PortId) : State :=
  s.setPort p { s.port p with
    reception := none,
    ctr := { (s.port p).ctr with truncated := bump (s.port p).ctr.truncated } }

theorem truncate_eq (s : State) (p : PortId) : truncate s p = removeResv (cutReception s p) p := by
  cases p <;> rfl

theorem cutReception_ring (s : State) (p : PortId) : RingOnly s (cutReception s p) :=
  ringOnly_setPort s p _

theorem truncate_ring (s : State) (p : PortId) : RingOnly s (truncate s p) := by
  rw [truncate_eq]
  exact (cutReception_ring s p).trans (removeResv_ring _ p)

theorem truncate_sw (s : State) (p : PortId) : (truncate s p).sw = withoutResv p s.sw := by
  rw [truncate_eq, removeResv_sw]
  simp [cutReception]

theorem truncate_noReservation (s : State) (p : PortId) : NoReservation (truncate s p) p := by
  rw [truncate_eq]
  exact removeResv_noReservation _ p

theorem cutReception_tx (s : State) (p o : PortId) :
    ((cutReception s p).port o).tx = (s.port o).tx ∧
    ((cutReception s p).port o).ctr.abortsSent = (s.port o).ctr.abortsSent := by
  cases p <;> cases o <;> exact ⟨rfl, rfl⟩

/-- A copy of the frame cut is ended with an abort mark. -/
theorem truncate_aborts {s : State} {p o : PortId} {x : Tx} (hx : (s.port o).tx = some x)
    (hc : x.copyOf = some p) (ha : x.aborted = false) : AbortedOn s (truncate s p) o x := by
  rw [truncate_eq]
  exact (removeResv_aborts ((cutReception_tx s p o).1.trans hx) hc ha).of_port
    (cutReception_tx s p o).2.symm ⟨rfl, rfl⟩

theorem truncate_ctr (s : State) (p : PortId) :
    SameButAborts { (s.port p).ctr with truncated := bump (s.port p).ctr.truncated }
      ((truncate s p).port p).ctr := by
  have h := (abortsOnly_removeResv (cutReception s p) p).ctr p
  rw [← truncate_eq] at h
  cases p <;> exact h

theorem truncate_reception (s : State) (p : PortId) : ((truncate s p).port p).reception = none := by
  rw [truncate_eq, (abortsOnly_removeResv _ p).reception p]
  cases p <;> rfl

/-! ## Level changes keep the traffic -/

theorem keepsTraffic_setTrip (s : State) (t : TripUnit) : KeepsTraffic s (s.setTrip t) := .of_same rfl rfl rfl

theorem keepsTraffic_setScreen (s : State) (u : ScreenUnit) : KeepsTraffic s (s.setScreen u) :=
  .of_same rfl rfl rfl

theorem keepsTraffic_setAxes (s : State) (a : AxisTable) : KeepsTraffic s (s.setAxes a) :=
  .of_same rfl rfl rfl

theorem keepsTraffic_setStation (s : State) (x : StationCtl) : KeepsTraffic s (s.setStation x) :=
  .of_same rfl rfl rfl

theorem keepsTraffic_insertLocal (s : State) (cls : FrameClass) (stream dest len : Nat) (b : Body)
    (wire : Option (List Byte)) : KeepsTraffic s (insertLocal s cls stream dest len b wire) := by
  unfold insertLocal
  split
  · refine KeepsTraffic.trans ?_ (keepsTraffic_arbitrate _)
    refine KeepsTraffic.trans ?_ (keepsTraffic_setStation _ _)
    refine keepsTraffic_setSw s _ ?_ (fun i hi _ _ => ?_) ?_ <;> cases cls <;>
      first | exact List.suffix_rfl | exact hi | exact ⟨rfl, rfl⟩
  · refine keepsTraffic_countSw s _ ?_
    cases cls <;> exact ⟨rfl, rfl⟩

theorem keepsTraffic_countUrgentDrop (s : State) : KeepsTraffic s (countUrgentDrop s) :=
  keepsTraffic_countSw s _ ⟨rfl, rfl⟩

theorem keepsTraffic_queueTrip (s : State) (stream : Nat) (b : TripBody) :
    KeepsTraffic s (queueTrip s stream b).1 := by
  unfold queueTrip
  split
  · refine KeepsTraffic.trans ?_ (keepsTraffic_arbitrate _)
    refine KeepsTraffic.trans ?_ (keepsTraffic_setTrip _ _)
    refine KeepsTraffic.trans ?_ (keepsTraffic_setStation _ _)
    refine keepsTraffic_setSw s _ List.suffix_rfl (fun i hi q ho => ?_) ⟨rfl, rfl⟩
    simp only [List.mem_append, List.mem_singleton] at hi ⊢
    rcases hi with (hi | rfl) | hi
    · exact .inl hi
    · cases ho
    · exact .inr hi
  · exact keepsTraffic_countUrgentDrop s

theorem KeepsTraffic.foldl {α : Type} {f : State → α → State} (h : ∀ s x, KeepsTraffic s (f s x))
    (l : List α) (s : State) : KeepsTraffic s (l.foldl f s) := by
  induction l generalizing s with
  | nil => exact .refl s
  | cons x l ih => exact (h s x).trans (ih _)

theorem keepsTraffic_sendNotice (s : State) (e : ScreenStream) : KeepsTraffic s (sendNotice s e) := by
  unfold sendNotice
  split
  · exact .refl s
  · exact keepsTraffic_insertLocal s _ _ _ _ _ _

theorem keepsTraffic_sendNotices (s : State) : KeepsTraffic s (sendNotices s) := by
  unfold sendNotices
  split
  · exact .refl s
  · exact .foldl keepsTraffic_sendNotice _ s

theorem keepsTraffic_screenLevel (old new : Level) (s : State) :
    KeepsTraffic s (screenLevel old new s) := by
  unfold screenLevel
  split
  · exact .refl s
  · split
    · exact keepsTraffic_setScreen s _
    · split
      · exact (keepsTraffic_setScreen s _).trans (keepsTraffic_sendNotices _)
      · exact keepsTraffic_setScreen s _

theorem keepsTraffic_levelChange (old new : Level) (s : State) :
    KeepsTraffic s (levelChange old new s) := by
  unfold levelChange
  split
  · exact .refl s
  · have motion : KeepsTraffic s (setTripOut new (motionLevel old new s)) := .of_same rfl rfl rfl
    exact motion.trans (keepsTraffic_screenLevel old new _)

theorem keepsTraffic_originateTrip (r : Bool) (s : State) : KeepsTraffic s (originateTrip r s).1 := by
  unfold originateTrip
  split
  · exact keepsTraffic_queueTrip s _ _
  · exact .refl s

theorem keepsTraffic_recomputeOnce (s : State) : KeepsTraffic s (recomputeOnce s).1 := by
  have level (old new : Level) (t : TripUnit) : KeepsTraffic s (levelChange old new (s.setTrip t)) :=
    (keepsTraffic_setTrip s t).trans (keepsTraffic_levelChange old new _)
  unfold recomputeOnce
  simp only
  split
  · exact level _ _ _
  · exact (level _ _ _).trans (keepsTraffic_originateTrip _ _)

theorem keepsTraffic_reportCongestion (s : State) : KeepsTraffic s (reportCongestion s) := by
  unfold reportCongestion
  split
  · exact .refl s
  · exact (keepsTraffic_setTrip s _).trans (keepsTraffic_recomputeOnce _)

theorem keepsTraffic_recompute (s : State) : KeepsTraffic s (recompute s) := by
  unfold recompute afterQueue
  split
  · exact (keepsTraffic_recomputeOnce s).trans (keepsTraffic_reportCongestion _)
  · exact keepsTraffic_recomputeOnce s

theorem keepsTraffic_axisFault (f : FaultId) (s : State) : KeepsTraffic s (axisFault f s) := by
  unfold axisFault
  split
  · exact keepsTraffic_setAxes s _
  · exact keepsTraffic_setAxes s _
  · split
    · exact keepsTraffic_setAxes s _
    · exact .refl s
  · exact .refl s

theorem keepsTraffic_report (f : FaultId) (s : State) : KeepsTraffic s (report f s) := by
  unfold report
  split
  · exact .refl s
  · exact (keepsTraffic_setTrip s _).trans <| (keepsTraffic_axisFault f _).trans (keepsTraffic_recompute _)

theorem keepsTraffic_setCondition (f : FaultId) (b : Bool) (s : State) :
    KeepsTraffic s (setCondition f b s) := by
  unfold setCondition
  simp only
  split
  · exact (keepsTraffic_setTrip s _).trans (keepsTraffic_report f _)
  · exact keepsTraffic_setTrip s _

theorem keepsTraffic_reportRing (p : PortId) (s : State) : KeepsTraffic s (reportRing p s) :=
  (keepsTraffic_setCondition _ _ s).trans (keepsTraffic_setCondition _ _ _)

/-! ## Ring role -/

theorem markUse_traffic (s : State) (role : RingRole) (p o : PortId) :
    ((markUse s role p).port o).tx = (s.port o).tx ∧ ((markUse s role p).port o).ctr = (s.port o).ctr := by
  unfold markUse
  split
  · split
    · exact ⟨rfl, rfl⟩
    · cases p <;> cases o <;> exact ⟨rfl, rfl⟩
  · exact ⟨rfl, rfl⟩

/-- A change of the role counts ABORTS_SENT and nothing else at the ports. -/
theorem changeRole_ctr (s : State) (role : RingRole) (o : PortId) :
    SameButAborts (s.port o).ctr ((changeRole s role).port o).ctr := by
  unfold changeRole
  rw [(keepsTraffic_arbitrate _).ctr o, (markUse_traffic _ role .b o).2, (markUse_traffic _ role .a o).2]
  exact ((abortsOnly_abortTx s .a).trans (abortsOnly_abortTx _ .b)).ctr o

theorem updateRole_ctr (s : State) (o : PortId) :
    SameButAborts (s.port o).ctr ((updateRole s).port o).ctr := by
  simp only [updateRole]
  split
  · rw [(keepsTraffic_arbitrate s).ctr o]; rfl
  · exact changeRole_ctr s _ o

theorem markUse_noReservation {s : State} {q : PortId} (h : NoReservation s q) (role : RingRole)
    (p : PortId) : NoReservation (markUse s role p) q :=
  noReservation_of_sw (markUse_sw s role p) h

theorem changeRole_noReservation {s : State} {q : PortId} (h : NoReservation s q) (role : RingRole) :
    NoReservation (changeRole s role) q := by
  unfold changeRole
  refine (keepsTraffic_arbitrate _).noResv q
    (markUse_noReservation (markUse_noReservation ?_ role .a) role .b)
  have sw := ((abortsOnly_abortTx s .a).trans (abortsOnly_abortTx _ .b)).sw
  intro i hi
  simp only [State.setSw_sw, sw, List.append_nil] at hi
  exact h i (List.mem_append_left _ hi)

theorem updateRole_noReservation {s : State} {q : PortId} (h : NoReservation s q) :
    NoReservation (updateRole s) q := by
  simp only [updateRole]
  split
  · exact (keepsTraffic_arbitrate s).noResv q h
  · exact changeRole_noReservation h _

end Sys2Proof.Machine
end

