-- ==== Sys2Proof/Proofs/Symbols.lean ====
section
/-! An invalid or stray symbol: counted and recorded, and the frame it cuts short (R4, R13, R18). -/

namespace Sys2Proof.Machine

theorem aligned_iff (rx : RxState) : aligned rx = true ↔ rx = .sync ∨ rx = .brk := by
  simp [aligned]

theorem badSymbol_outside {s : State} {p : PortId} (pos : Nat)
    (h : ¬ ((s.port p).rx = .sync ∨ (s.port p).rx = .brk)) : badSymbol s p pos = s := by
  rw [badSymbol_eq, if_neg (by rwa [aligned_iff])]

theorem badSymbol_counted {s : State} {p : PortId} {pos : Nat}
    (h : (s.port p).rx = .sync ∨ (s.port p).rx = .brk)
    (hl : (recordInvalid pos (s.port p).invalid).length < 4) :
    badSymbol s p pos = symbolCounted s p pos := by
  rw [badSymbol_eq, if_pos ((aligned_iff _).mpr h), if_neg (Nat.not_le.mpr hl)]

theorem badSymbol_fourth {s : State} {p : PortId} {pos : Nat}
    (h : (s.port p).rx = .sync ∨ (s.port p).rx = .brk)
    (hl : 4 ≤ (recordInvalid pos (s.port p).invalid).length) :
    badSymbol s p pos = changeRx (symbolCounted s p pos) p .hunt := by
  rw [badSymbol_eq, if_pos ((aligned_iff _).mpr h), if_pos hl]

theorem symbolCounted_port (s : State) (p : PortId) (pos : Nat) :
    (symbolCounted s p pos).port p = { s.port p with
      invalid := recordInvalid pos (s.port p).invalid, breakRun := 0,
      ctr := { (s.port p).ctr with symbolErrors := bump (s.port p).ctr.symbolErrors } } := by
  simp [symbolCounted]

/-! ## What leaving SYNC counts -/

theorem failSide_port (s : State) (p : PortId) (rx : RxState) :
    (failSide s p rx).port p = { s.port p with
      rx := rx, side := .failed, hold := none, fillRun := 0, breakRun := 0, skipping := false,
      ctr := { (s.port p).ctr with syncLoss := bump (s.port p).ctr.syncLoss } } := by
  simp [failSide]

/-- The counters of a port that leaves SYNC: SYNC_LOSS, TRUNCATED where a frame was cut, and aborts (R18). -/
theorem leaveSync_ctr (s : State) (p : PortId) (rx : RxState) (short : Bool) :
    SameButAborts { (s.port p).ctr with
        syncLoss := bump (s.port p).ctr.syncLoss,
        truncated := if short || (s.port p).reception.isSome then bump (s.port p).ctr.truncated
          else (s.port p).ctr.truncated }
      ((leaveSync s p rx short).port p).ctr := by
  rw [leaveSync_eq, (keepsTraffic_reportRing p _).ctr p]
  refine SameButAborts.trans ?_ (updateRole_ctr _ p)
  refine SameButAborts.trans ?_ ((abortsOnly_abortTx _ p).ctr p)
  have received : ((failSide s p rx).port p).reception = (s.port p).reception := by
    rw [failSide_port]
  unfold cutFrame
  rw [received]
  split
  · exact SameButAborts.trans (by rw [failSide_port]; rfl) (truncate_ctr _ p)
  · rw [failSide_port]; rfl

theorem cutFrame_line (s : State) (p : PortId) (short : Bool) :
    ((cutFrame s p short).port p).line = { (s.port p).line with receiving := none } := by
  unfold cutFrame
  split
  · exact truncate_line s p
  · next hn =>
    have hr : (s.port p).reception = none := by
      simp only [Bool.or_eq_true, not_or, Bool.not_eq_true, Option.isSome_eq_false_iff,
        Option.isNone_iff_eq_none] at hn
      exact hn.2
    simp [Port.line, hr]

/-- A side that leaves SYNC has its new receive state, has failed, and receives no frame (R5, R13, R46). -/
theorem leaveSync_line (s : State) (p : PortId) (rx : RxState) (short : Bool) :
    ((leaveSync s p rx short).port p).line = { (s.port p).line with
      rx := rx, side := .failed, hold := none, fillRun := 0, breakRun := 0, skipping := false,
      receiving := none } := by
  rw [leaveSync_eq, line_of_standing (standing_reportRing p _), lostSync, updateRole_line,
    line_of_standing (standing_abortTx _ p), cutFrame_line, failSide_port]
  rfl

/-- What a side that has left SYNC is. -/
structure LeftSync (x y : Port) (rx : RxState) : Prop where
  rx : y.rx = rx
  side : y.side = .failed
  hold : y.hold = none
  reception : y.reception = none

theorem leaveSync_left (s : State) (p : PortId) (rx : RxState) (short : Bool) :
    LeftSync (s.port p) ((leaveSync s p rx short).port p) rx := by
  have h := leaveSync_line s p rx short
  simp only [Port.line, Line.mk.injEq, Option.map_eq_none_iff] at h
  obtain ⟨-, hrx, -, -, -, -, hside, hhold, hrec⟩ := h
  exact ⟨hrx, hside, hhold, hrec⟩

/-! ## An open frame cut by a symbol -/

/-- The state once the frame open on a port was cut and the outputs have chosen. -/
theorem cutOpenFrame_open {s : State} {p : PortId} (h : (s.port p).rx = .sync)
    (hr : (s.port p).reception ≠ none) : cutOpenFrame s p = arbitrate (truncate s p) := by
  unfold cutOpenFrame
  rw [if_pos ⟨h, by simpa [Option.isSome_iff_ne_none] using hr⟩]

theorem cutOpenFrame_closed {s : State} {p : PortId}
    (h : ¬ ((s.port p).rx = .sync ∧ (s.port p).reception ≠ none)) : cutOpenFrame s p = s := by
  unfold cutOpenFrame
  rw [if_neg (by simpa [Option.isSome_iff_ne_none] using h)]

theorem cut_ring (s : State) (p : PortId) : RingOnly s (arbitrate (truncate s p)) :=
  (truncate_ring s p).trans (arbitrate_ring _)

theorem cut_reception (s : State) (p : PortId) :
    ((arbitrate (truncate s p)).port p).reception = none :=
  reception_none_of_line (line_of_standing (standing_arbitrate _) p) (truncate_reception s p)

theorem cut_ctr (s : State) (p : PortId) :
    SameButAborts { (s.port p).ctr with truncated := bump (s.port p).ctr.truncated }
      ((arbitrate (truncate s p)).port p).ctr := by
  rw [(keepsTraffic_arbitrate _).ctr p]
  exact truncate_ctr s p

theorem cut_noReservation (s : State) (p : PortId) : NoReservation (arbitrate (truncate s p)) p :=
  (keepsTraffic_arbitrate _).noResv p (truncate_noReservation s p)

/-- The receive side of the state in which a symbol is counted, whether or not it cut a frame. -/
theorem cutOpenFrame_side (s : State) (p : PortId) :
    SameSide (s.port p) ((cutOpenFrame s p).port p) := by
  by_cases h : (s.port p).rx = .sync ∧ (s.port p).reception ≠ none
  · rw [cutOpenFrame_open h.1 h.2]; exact (cut_ring s p).ring.side p
  · rw [cutOpenFrame_closed h]; exact .refl _

/-- The fourth invalid symbol takes the side to HUNT; a frame in reception ends where the side was in SYNC (R4, R13). -/
theorem changeRx_hunt (s : State) (p : PortId) :
    ((changeRx s p .hunt).port p).rx = .hunt ∧
    ((changeRx s p .hunt).port p).reception =
      (if (s.port p).rx = .sync then none else (s.port p).reception) ∧
    ((changeRx s p .hunt).port p).ctr.symbolErrors = (s.port p).ctr.symbolErrors := by
  by_cases h : (s.port p).rx = .sync
  · rw [changeRx_leave _ h (by decide), if_pos h]
    have left := leaveSync_left s p .hunt false
    refine ⟨left.rx, left.reception, ?_⟩
    rw [leaveSync_ctr s p .hunt false]
  · rw [changeRx_outside _ h (by decide), if_neg h]
    simp

/-- The state at which an invalid or stray symbol is counted: an invalid symbol has cut the frame open on the port. -/
def symbolMet (s : State) (p : PortId) (sym : BadSymbol) : State :=
  if sym = .invalid then cutOpenFrame s p else s

theorem exec_invalidSymbol (m : Moment) {p : PortId} {sym : BadSymbol} (pos : Nat) {s : State}
    (h : (s.port p).skipping = false ∨ sym = .invalid) :
    exec (.invalidSymbol m p sym pos) s = .next (badSymbol (symbolMet (s.tick m) p sym) p pos) := by
  cases hk : (s.port p).skipping <;> cases sym <;>
    simp_all [exec, execInvalidSymbol, symbolMet]

theorem symbolMet_side (s : State) (p : PortId) (sym : BadSymbol) :
    SameSide (s.port p) ((symbolMet s p sym).port p) := by
  unfold symbolMet
  split
  · exact cutOpenFrame_side s p
  · exact .refl _

theorem symbolMet_uncut {s : State} {p : PortId} {sym : BadSymbol}
    (h : ¬ (sym = .invalid ∧ (s.port p).rx = .sync ∧ (s.port p).reception ≠ none)) :
    symbolMet s p sym = s := by
  unfold symbolMet
  split
  · next hs => exact cutOpenFrame_closed fun hc => h ⟨hs, hc⟩
  · rfl

theorem symbolMet_cut {s : State} {p : PortId} {sym : BadSymbol}
    (h : sym = .invalid ∧ (s.port p).rx = .sync ∧ (s.port p).reception ≠ none) :
    symbolMet s p sym = arbitrate (truncate s p) := by
  obtain ⟨hs, hx, hr⟩ := h
  rw [symbolMet, if_pos hs, cutOpenFrame_open hx hr]

/-- A symbol counted, its record and the break run apart, touches counters alone. -/
theorem symbolCounted_ring (s : State) (p : PortId) (pos : Nat) : RingOnly s
    ((symbolCounted s p pos).setPort p { (symbolCounted s p pos).port p with
      invalid := (s.port p).invalid, breakRun := (s.port p).breakRun }) := by
  rw [symbolCounted, setPort_setPort, State.setPort_port_same]
  exact ringOnly_setPort s p _

theorem symbolCounted_sw (s : State) (p : PortId) (pos : Nat) : (symbolCounted s p pos).sw = s.sw := by
  simp [symbolCounted]

end Sys2Proof.Machine

open Sys2Proof Sys2Proof.Machine

/-- Settles O14: `badSymbol` at the state in which an open frame is cut. -/
theorem invalidSymbolCounted : Obligations.InvalidSymbolCounted := by
  intro m p sym pos s x l cuts
  have ticked : (s.tick m).port p = x := State.tick_port s m p
  refine ⟨fun hk h1 h2 => ?_, fun hk hs => ?_, fun hk hs => ?_, fun hk ha => ?_⟩
  · rw [exec_invalidSymbol m pos (.inl hk), symbolMet_uncut (by rw [ticked]; exact fun hc => h1 hc.2.1),
      badSymbol_outside pos (by rw [ticked]; exact not_or.mpr ⟨h1, h2⟩)]
  · simp [exec, execInvalidSymbol, x, hk, hs]
  · rcases hs with rfl | rfl <;> simp [exec, execInvalidSymbol, x, hk]
  · have run := exec_invalidSymbol m pos hk
    have side := symbolMet_side (s.tick m) p sym
    rw [ticked] at side
    generalize hv : symbolMet (s.tick m) p sym = v at run side
    have hl : recordInvalid pos (v.port p).invalid = l := by rw [side.invalid]; rfl
    have counted (h4 : l.length < 4) : badSymbol v p pos = symbolCounted v p pos :=
      badSymbol_counted (by rwa [side.rx]) (by rwa [hl])
    have cut (hc : cuts) : v = arbitrate (truncate (s.tick m) p) := by
      rw [← hv, symbolMet_cut (by rwa [ticked])]
    have uncut (hc : ¬ cuts) : v = s.tick m := by rw [← hv, symbolMet_uncut (by rwa [ticked])]
    have errors : (v.port p).ctr.symbolErrors = x.ctr.symbolErrors := by
      rw [← ticked]
      by_cases hc : cuts
      · rw [cut hc, cut_ctr]
      · rw [uncut hc]
    rw [run]
    refine ⟨fun h4 hc => ?_, fun h4 hc => ⟨_, rfl, ?_⟩, fun h4 => ⟨_, rfl, ?_⟩⟩
    · rw [counted h4, symbolCounted, hl, uncut hc, ticked]
    · have port := symbolCounted_port v p pos
      have ctr := cut_ctr (s.tick m) p
      rw [← cut hc, ticked] at ctr
      rw [counted h4]
      refine ⟨?_, by rw [port, hl], by rw [port], ?_, ?_, ?_, ?_⟩
      · rw [← side.invalid, ← side.breakRun]
        refine .trans ?_ (symbolCounted_ring v p pos)
        rw [cut hc]
        exact cut_ring _ p
      · rw [port, cut hc]
        exact cut_reception _ p
      · refine noReservation_of_sw (symbolCounted_sw v p pos) ?_
        rw [cut hc]
        exact cut_noReservation _ p
      · rw [port, errors]
      · rw [port, ctr]
    · rw [badSymbol_fourth (by rwa [side.rx]) (by rwa [hl])]
      obtain ⟨hrx, hrec, hctr⟩ := changeRx_hunt (symbolCounted v p pos) p
      rw [symbolCounted_port] at hrec hctr
      refine ⟨hrx, ?_, by rw [hctr, errors]⟩
      rw [hrec, side.rx]
      split
      · rfl
      · next hx =>
        rw [uncut fun hc => hx hc.2.1, ticked]
end

