-- ==== Sys2Proof/Proofs/Discards.lean ====
section
/-! A frame that closes at a port and goes no further: what its discarding counts, removes and ends, and what it leaves
alone (R13, R17, R21, R22, R36, R52). -/

namespace Sys2Proof.Machine

/-- Busy outputs stay so while the frames being sent, the sides and the role stay and the repeat FIFO gains nothing. -/
theorem OutputsBusy.of {s t : State} (h : OutputsBusy s) (hr : t.sw.role = s.sw.role)
    (hc : s.sw.counter = [] → t.sw.counter = [])
    (hx : ∀ o, (s.port o).tx ≠ none → (t.port o).tx ≠ none)
    (hs : ∀ o, (t.port o).side = (s.port o).side) : OutputsBusy t := by
  obtain ⟨hk, o, ho, hb⟩ := h
  have side : t.portA.side = s.portA.side := hs .a
  refine ⟨?_, o, by rw [hr]; exact ho, hb.imp (hx o) fun h => by rw [hs]; exact h⟩
  rw [hr, side]
  exact hk.imp hc (.imp id (.imp (hx .a) id))

/-- The state at a frame's end: the port's frame in reception, runs and counters as `y` has them, its reservation gone,
the outputs' choice made. -/
def discarded (s : State) (p : PortId) (y : Port) : State := arbitrate (removeResv (s.setPort p y) p)

/-- What a frame does that is discarded at its end; `f` is what is counted for it at its port. -/
structure DiscardedAs (s t : State) (p : PortId) (f : PortCounters → PortCounters) : Prop where
  moment : SameMoment s t
  control : SameControl s t
  station : t.station = s.station
  rx : (t.port p).rx = (s.port p).rx
  noResv : NoReservation t p
  ctr : SameButAborts (f (s.port p).ctr) (t.port p).ctr
  role : t.sw.role = s.sw.role
  tap : t.sw.tap = s.sw.tap
  swCtr : SameButIsolated s.sw.ctr t.sw.ctr
  busy : OutputsBusy s → t.sw = withoutResv p s.sw
  aborts : ∀ o x, (s.port o).tx = some x → x.copyOf = some p → x.aborted = false → AbortedOn s t o x

/-- A port with another count, and its frame in reception, runs and skipping changed. -/
def CountedAs (x y : Port) (f : PortCounters → PortCounters) : Prop :=
  y = { x with skipping := y.skipping, breakRun := y.breakRun, reception := y.reception, ctr := f x.ctr }

section Counted
variable {s : State} {p : PortId} {y : Port} {f : PortCounters → PortCounters}

/-- Setting such a port changes no side, no frame being sent and no count of aborts. -/
theorem CountedAs.setPort (hy : CountedAs (s.port p) y f) (hf : ∀ c, (f c).abortsSent = c.abortsSent)
    (o : PortId) : ((s.setPort p y).port o).tx = (s.port o).tx ∧
      ((s.setPort p y).port o).side = (s.port o).side ∧ ((s.setPort p y).port o).rx = (s.port o).rx ∧
      ((s.setPort p y).port o).ctr.abortsSent = (s.port o).ctr.abortsSent := by
  unfold CountedAs at hy
  by_cases ho : o = p
  · subst ho
    rw [State.setPort_port_same, hy]
    exact ⟨rfl, rfl, rfl, hf _⟩
  · rw [setPort_port_ne _ ho]
    exact ⟨rfl, rfl, rfl, rfl⟩

theorem setPort_control (s : State) (p : PortId) (y : Port) :
    SameControl s (s.setPort p y) ∧ (s.setPort p y).station = s.station := by
  cases p <;> exact ⟨⟨rfl, rfl, rfl, rfl, rfl, rfl, rfl⟩, rfl⟩

theorem discarded_as (hy : CountedAs (s.port p) y f) (hf : ∀ c, (f c).abortsSent = c.abortsSent) :
    DiscardedAs s (discarded s p y) p f := by
  have set := hy.setPort hf
  obtain ⟨control, station⟩ := setPort_control s p y
  have ring : RingOnly (s.setPort p y) (discarded s p y) := (removeResv_ring _ p).trans (arbitrate_ring _)
  have traffic : KeepsTraffic (removeResv (s.setPort p y) p) (discarded s p y) := keepsTraffic_arbitrate _
  have removed := abortsOnly_removeResv (s.setPort p y) p
  have sw : (removeResv (s.setPort p y) p).sw = withoutResv p s.sw := by
    rw [removeResv_sw, State.setPort_sw]
  refine
    { moment := (sameMoment_setPort s p y).trans ring.moment
      control := control.trans ring.control
      station := ring.station.trans station
      rx := (ring.ring.side p).rx.trans (set p).2.2.1
      noResv := traffic.noResv p (removeResv_noReservation _ p)
      role := ring.ring.role.trans (by simp)
      tap := ring.ring.tap.trans (by simp)
      ctr := ?_, swCtr := ?_, busy := fun hb => ?_, aborts := fun o x hx hc ha => ?_ }
  · rw [traffic.ctr p]
    have h := removed.ctr p
    have hctr : y.ctr = f (s.port p).ctr := congrArg Port.ctr hy
    rwa [State.setSw_port, State.setPort_port_same, hctr] at h
  · refine SameButIsolated.trans ?_ (arbitrate_ctr _)
    rw [sw]; rfl
  · have still : OutputsBusy (removeResv (s.setPort p y) p) := by
      refine hb.of (by rw [sw]; rfl) (fun hn => by rw [sw]; simp [withoutResv, hn]) (fun o ho => ?_) fun o => ?_
      · refine removed.busy ?_
        rw [State.setSw_port, (set o).1]
        exact ho
      · exact ((removeResv_ring _ p).ring.side o).side.trans (set o).2.1
    rw [discarded, arbitrate_busy still, sw]
  · have aborted : AbortedOn (s.setPort p y) (removeResv (s.setPort p y) p) o x :=
      removeResv_aborts ((set o).1.trans hx) hc ha
    exact (aborted.keeps traffic).of_port (set o).2.2.2.symm ⟨rfl, rfl⟩

end Counted

/-- A change of the port's reception, runs and skipping afterwards takes nothing of this back. -/
theorem DiscardedAs.setPort {s t : State} {p : PortId} {f : PortCounters → PortCounters}
    (h : DiscardedAs s t p f) (b : Bool) (n : Nat) (r : Option Reception) :
    DiscardedAs s (t.setPort p { t.port p with skipping := b, breakRun := n, reception := r }) p f := by
  obtain ⟨control, station⟩ := setPort_control t p
    { t.port p with skipping := b, breakRun := n, reception := r }
  refine
    { moment := h.moment.trans (sameMoment_setPort t p _)
      control := h.control.trans control
      station := station.trans h.station
      rx := by rw [State.setPort_port_same]; exact h.rx
      noResv := noReservation_of_sw (by simp) h.noResv
      ctr := by rw [State.setPort_port_same]; exact h.ctr
      role := by rw [State.setPort_sw]; exact h.role
      tap := by rw [State.setPort_sw]; exact h.tap
      swCtr := by rw [State.setPort_sw]; exact h.swCtr
      busy := fun hb => by rw [State.setPort_sw]; exact h.busy hb
      aborts := fun o x hx hc ha => (h.aborts o x hx hc ha).of_port rfl ?_ }
  by_cases ho : o = p
  · subst ho; simp
  · rw [setPort_port_ne _ ho]; exact ⟨rfl, rfl⟩


theorem discarded_reception {s : State} {p : PortId} {y : Port} (h : y.reception = none) :
    ((discarded s p y).port p).reception = none :=
  reception_none_of_line (line_of_standing ((standing_arbitrate _).trans (standing_removeResv _ p)) p)
    (by rwa [State.setPort_port_same])

theorem discarded_side (s : State) (p : PortId) (y : Port) : SameSide y ((discarded s p y).port p) := by
  have h := line_of_standing ((standing_arbitrate _).trans (standing_removeResv (s.setPort p y) p)) p
  rw [State.setPort_port_same] at h
  exact sameSide_of_line h

/-- The port at whose frame's end the frame is counted by `f`, the frame still its reception. -/
def counted (x : Port) (f : PortCounters → PortCounters) : Port := { x with ctr := f x.ctr }

theorem countedAs_counted (x : Port) (f : PortCounters → PortCounters) : CountedAs x (counted x f) f := rfl

/-- The port whose frame was cut short (R13). -/
def cutShort (x : Port) : Port :=
  { x with skipping := false, breakRun := 0, reception := none,
           ctr := { x.ctr with truncated := bump x.ctr.truncated } }

theorem countedAs_cutShort (x : Port) :
    CountedAs x (cutShort x) fun c => { c with truncated := bump c.truncated } := rfl

theorem truncatedArrival_discarded (s : State) (p : PortId) (by_ : CutBy) :
    truncatedArrival p by_ s = cutSymbol (discarded s p (cutShort (s.port p))) p by_ := by
  cases p <;> rfl

end Sys2Proof.Machine
end

