-- ==== Sys2Proof/Proofs/Verdict.lean ====
section
/-! The verdict on the bytes of a closed frame, spelled out: when a T, C or K body reads, what the form check asks,
and the check value byte by byte (R8, R9, R10, R14, R15). -/

namespace Sys2Proof.Machine

/-! ## Bytes -/

theorem byteAt_lt (b : List Byte) (i : Nat) : byteAt b i < 256 := (b.getD i 0).isLt

theorem byteAt_take {b : List Byte} {n i : Nat} (h : i < n) : byteAt (b.take n) i = byteAt b i := by
  simp [byteAt, List.getD_eq_getElem?_getD, List.getElem?_take_of_lt h]

theorem byteAt_drop (b : List Byte) (n i : Nat) : byteAt (b.drop n) i = byteAt b (n + i) := by
  simp [byteAt, List.getD_eq_getElem?_getD]

theorem numAt_two (b : List Byte) (i : Nat) : numAt b i 2 = byteAt b i * 256 + byteAt b (i + 1) := by
  simp [numAt]

theorem signedOf_ne_min {v : Nat} (h : v < 65536) : signedOf 16 v ≠ -32768 ↔ v ≠ 0x8000 := by
  have toNat : (BitVec.ofNat 16 v).toNat = v := by simpa using Nat.mod_eq_of_lt h
  rw [signedOf, BitVec.toInt_eq_toNat_cond, toNat]
  split <;> omega

/-! ## Bodies -/

theorem levelOfNat_isSome (n : Nat) : (Level.ofNat? n).isSome = true ↔ n ≤ 3 := by
  match n with
  | 0 | 1 | 2 | 3 => decide
  | n + 4 => simp [Level.ofNat?]

theorem masterOfCode_isSome (n : Nat) : (masterOfCode n).isSome = true ↔ n ≤ 3 := by
  match n with
  | 0 | 1 | 2 | 3 => decide
  | n + 4 => simp [masterOfCode]

/-- When a T body reads (R9). -/
theorem readTrip_isSome (b : List Byte) : (readTrip b).isSome = true ↔
    b.length = 4 ∧ byteAt b 0 ≤ 3 ∧ byteAt b 2 ≤ 63 ∧ byteAt b 3 ≤ 1 := by
  rw [← levelOfNat_isSome]
  unfold readTrip
  split
  · next h =>
    split <;> simp_all
  · next h => simp [h]

/-- When a C body reads (R8). -/
theorem readCycle_isSome (b : List Byte) : (readCycle b).isSome = true ↔
    b.length = 16 ∧ numAt b 2 4 < 2 ^ 28 ∧ numAt b 6 4 ≤ 8388607 ∧ 250 ≤ numAt b 10 2 ∧
    numAt b 10 2 ≤ 4000 ∧ 20 ≤ numAt b 12 2 ∧ numAt b 12 2 + 20 ≤ numAt b 10 2 ∧
    byteAt b 14 ≤ 3 ∧ byteAt b 15 ≤ 3 := by
  rw [← masterOfCode_isSome (byteAt b 14), ← levelOfNat_isSome (byteAt b 15)]
  unfold readCycle
  split
  · next hm hl =>
    dsimp only
    split <;> simp_all
  · next h =>
    have : ¬ ((masterOfCode (byteAt b 14)).isSome = true ∧ (Level.ofNat? (byteAt b 15)).isSome = true) := by
      rintro ⟨hm, hl⟩
      obtain ⟨m, hm⟩ := Option.isSome_iff_exists.mp hm
      obtain ⟨l, hl⟩ := Option.isSome_iff_exists.mp hl
      exact h m l hm hl
    simp only [Option.isSome_none, Bool.false_eq_true, false_iff]
    tauto

/-- What the record at byte `i` of a K body's list must be (R10). -/
def corrRecOk (b : List Byte) (i : Nat) : Prop :=
  byteAt b i / 4 % 4 = 0 ∧ numAt b (i + 1) 2 ≠ 0x8000 ∧ byteAt b (i + 3) = 0

/-- The record at its place in a K body, byte by byte. -/
theorem corrRecOk_place (b : List Byte) (i : Nat) : corrRecOk b (4 + 4 * i) ↔
    byteAt b (4 + 4 * i) / 4 % 4 = 0 ∧ numAt b (5 + 4 * i) 2 ≠ 0x8000 ∧ byteAt b (7 + 4 * i) = 0 := by
  rw [corrRecOk, show 4 + 4 * i + 1 = 5 + 4 * i by omega, show 4 + 4 * i + 3 = 7 + 4 * i by omega]

theorem numAt_two_lt (b : List Byte) (i : Nat) : numAt b i 2 < 65536 := by
  have h1 := byteAt_lt b i
  have h2 := byteAt_lt b (i + 1)
  rw [numAt_two]
  omega

theorem readCorrRec_isSome (b : List Byte) : (readCorrRec (b.take 4)).isSome = true ↔ corrRecOk b 0 := by
  have h0 : byteAt (b.take 4) 0 = byteAt b 0 := byteAt_take (by decide)
  have h1 : numAt (b.take 4) 1 2 = numAt b 1 2 := by
    rw [numAt_two, numAt_two, byteAt_take (by decide), byteAt_take (by decide)]
  have h3 : byteAt (b.take 4) 3 = byteAt b 3 := byteAt_take (by decide)
  have amount := signedOf_ne_min (numAt_two_lt b 1)
  unfold readCorrRec
  dsimp only
  rw [h0, h1, h3]
  split
  · next h =>
    obtain ⟨hz, h3, ha⟩ := h
    exact iff_of_true rfl ⟨hz, amount.mp ha, h3⟩
  · next h =>
    refine iff_of_false (by simp) fun hk => h ?_
    obtain ⟨hz, ha, h3⟩ := hk
    exact ⟨hz, h3, amount.mpr ha⟩

theorem corrRecOk_drop (b : List Byte) (n i : Nat) : corrRecOk (b.drop n) i ↔ corrRecOk b (n + i) := by
  simp only [corrRecOk, byteAt_drop, numAt_two, Nat.add_assoc]

theorem readCorrRecs_succ (n : Nat) (b : List Byte) : (readCorrRecs (n + 1) b).isSome = true ↔
    4 ≤ b.length ∧ corrRecOk b 0 ∧ (readCorrRecs n (b.drop 4)).isSome = true := by
  rw [← readCorrRec_isSome, readCorrRecs]
  split
  · next h => exact iff_of_false (by simp) fun hk => absurd hk.1 (Nat.not_le.mpr h)
  · next h =>
    rw [and_iff_right (Nat.not_lt.mp h)]
    cases readCorrRec (b.take 4) <;> cases readCorrRecs n (b.drop 4) <;> simp

/-- When a list of correction records reads (R10). -/
theorem readCorrRecs_isSome (n : Nat) (b : List Byte) : (readCorrRecs n b).isSome = true ↔
    b.length = 4 * n ∧ ∀ i, i < n → corrRecOk b (4 * i) := by
  induction n generalizing b with
  | zero => cases b <;> simp [readCorrRecs]
  | succ n ih =>
    have all : (∀ i, i < n + 1 → corrRecOk b (4 * i)) ↔
        corrRecOk b 0 ∧ ∀ i, i < n → corrRecOk (b.drop 4) (4 * i) := by
      rw [Nat.forall_lt_succ_left]
      simp only [corrRecOk_drop, Nat.mul_add, Nat.mul_zero, Nat.mul_one, Nat.add_comm 4]
    rw [readCorrRecs_succ, ih, all, List.length_drop]
    constructor
    · rintro ⟨h1, h2, h3, h4⟩
      exact ⟨by omega, h2, h4⟩
    · rintro ⟨h1, h2, h3⟩
      exact ⟨by omega, h2, by omega, h3⟩

/-- The records of a K body, each at its place (R10). -/
theorem corrRecs_of_length {b : List Byte} (hl : b.length = 4 + 4 * byteAt b 2) :
    (readCorrRecs (byteAt b 2) (b.drop 4)).isSome = true ↔
    ∀ i, i < byteAt b 2 → corrRecOk b (4 + 4 * i) := by
  rw [readCorrRecs_isSome, List.length_drop, hl, and_iff_right (by omega)]
  simp only [corrRecOk_drop]

/-- When a K body reads (R10). -/
theorem readCorr_isSome (b : List Byte) : (readCorr b).isSome = true ↔
    b.length = 4 + 4 * byteAt b 2 ∧ 1 ≤ byteAt b 2 ∧ byteAt b 2 ≤ 16 ∧ byteAt b 3 = 0 ∧
    ∀ i, i < byteAt b 2 → corrRecOk b (4 + 4 * i) := by
  unfold readCorr
  dsimp only
  split
  · next h =>
    obtain ⟨hl, h1, h16, h3⟩ := h
    rw [← corrRecs_of_length hl, and_iff_right hl, and_iff_right h1, and_iff_right h16, and_iff_right h3]
    split
    · next rs hr => simp [hr]
    · next hn => simp [hn]
  · next h => exact iff_of_false (by simp) fun ⟨h1, h2, h3, h4, _⟩ => h ⟨h1, h2, h3, h4⟩

/-! ## The form check -/

/-- What the form check asks of a body by its class byte (R15). -/
def bodyOk (code : Nat) (body : List Byte) : Bool :=
  match classOfCode code with
  | .bad _ => false
  | .c => (readCycle body).isSome
  | .t => (readTrip body).isSome
  | .k => (readCorr body).isSome
  | .i | .s | .m => true

theorem bodyOk_iff (n : Nat) (body : List Byte) : bodyOk n body = true ↔
    (n = 1 ∧ (readTrip body).isSome = true) ∨ (n = 2 ∧ (readCycle body).isSome = true) ∨
    (n = 3 ∧ (readCorr body).isSome = true) ∨ n = 4 ∨ n = 5 ∨ n = 6 := by
  match n with
  | 0 | 1 | 2 | 3 | 4 | 5 | 6 => simp [bodyOk, classOfCode]
  | n + 7 => simp [bodyOk, classOfCode]

theorem formOk_eq (header body : List Byte) : formOk header body =
    (headerZeros header && numAt header 12 2 == body.length && decide (numAt header 12 2 ≤ 1024) &&
      decide (1 ≤ byteAt header 3 % 64) && decide (byteAt header 3 % 64 ≤ 62) &&
      bodyOk (byteAt header 0) body) := rfl

/-- What the form check asks, field by field (R15). -/
theorem formOk_iff (header body : List Byte) : formOk header body = true ↔
    byteAt header 2 < 64 ∧ byteAt header 3 < 64 ∧ byteAt header 8 < 128 ∧ byteAt header 14 = 0 ∧
    byteAt header 15 = 0 ∧ numAt header 12 2 = body.length ∧ body.length ≤ 1024 ∧
    1 ≤ byteAt header 3 ∧ byteAt header 3 ≤ 62 ∧ bodyOk (byteAt header 0) body = true := by
  have small : byteAt header 3 < 64 → byteAt header 3 % 64 = byteAt header 3 := Nat.mod_eq_of_lt
  simp only [formOk_eq, headerZeros, Bool.and_eq_true, decide_eq_true_eq, beq_iff_eq]
  constructor
  · rintro ⟨⟨⟨⟨⟨⟨⟨⟨⟨h2, h3⟩, h8⟩, h14⟩, h15⟩, hl⟩, hm⟩, hs⟩, ht⟩, hb⟩
    rw [small h3] at hs ht
    exact ⟨h2, h3, h8, h14, h15, hl, hl ▸ hm, hs, ht, hb⟩
  · rintro ⟨h2, h3, h8, h14, h15, hl, hm, hs, ht, hb⟩
    rw [small h3]
    exact ⟨⟨⟨⟨⟨⟨⟨⟨⟨h2, h3⟩, h8⟩, h14⟩, h15⟩, hl⟩, hl.symm ▸ hm⟩, hs⟩, ht⟩, hb⟩

/-- The verdict on at least 20 bytes: the check value first, then the form (R13 to R15). -/
theorem judgeFrame_long {bytes : List Byte} (h : 20 ≤ bytes.length) : judgeFrame bytes =
    if numAt bytes (bytes.length - 4) 4 = (crc32 (bytes.take (bytes.length - 4))).toNat then
      if formOk (bytes.take 16) (bodyBytes bytes) then .good else .formatBad
    else .crcBad := by
  have hd : (bytes.take (bytes.length - 4)).take 16 = bytes.take 16 := by
    rw [List.take_take]; congr 1; omega
  simp only [judgeFrame, if_neg (Nat.not_lt.mpr h), hd, bodyBytes, eq_comm]

theorem crc32_append (bytes : List Byte) (b : Byte) :
    ~~~ crc32 (bytes ++ [b]) = crc32Byte (~~~ crc32 bytes) b := by
  simp [crc32, List.foldl_append]

end Sys2Proof.Machine
end

