-- ==== Sys2Proof/Proofs/BadFrames.lean ====
section
/-! A frame that closes badly (R13 to R15, R17, R36), and what of its end a failure of the side keeps. -/

namespace Sys2Proof.Machine

/-! ## An abort lasts -/

theorem AbortedOn.abortCopyOn {s t : State} {o : PortId} {x : Tx} (h : AbortedOn s t o x)
    (q p : PortId) : AbortedOn s (abortCopyOn t q p) o x := by
  obtain hs | hs := abortCopyOn_forms t q p <;> rw [hs]
  · exact h
  · exact h.abortTx p

theorem AbortedOn.removeResv {s t : State} {o : PortId} {x : Tx} (h : AbortedOn s t o x) (q : PortId) :
    AbortedOn s (removeResv t q) o x := by
  rw [removeResv_eq]
  refine AbortedOn.abortCopyOn (AbortedOn.abortCopyOn ?_ q .a) q .b
  exact h.of_port rfl (by rw [State.setSw_port]; exact ⟨rfl, rfl⟩)

theorem AbortedOn.truncate {s t : State} {o : PortId} {x : Tx} (h : AbortedOn s t o x) (p : PortId) :
    AbortedOn s (truncate t p) o x := by
  rw [truncate_eq]
  refine AbortedOn.removeResv ⟨(cutReception_tx t p o).1.trans h.1, ?_⟩ p
  rw [(cutReception_tx t p o).2]
  exact h.2

theorem AbortedOn.changeRole {s t : State} {o : PortId} {x : Tx} (h : AbortedOn s t o x)
    (role : RingRole) : AbortedOn s (changeRole t role) o x := by
  unfold Machine.changeRole
  refine AbortedOn.keeps ?_ (keepsTraffic_arbitrate _)
  refine ((h.abortTx .a).abortTx .b).of_port rfl ?_
  rw [(markUse_traffic _ role .b o).1, (markUse_traffic _ role .b o).2, (markUse_traffic _ role .a o).1,
    (markUse_traffic _ role .a o).2, State.setSw_port]
  exact ⟨rfl, rfl⟩

theorem AbortedOn.updateRole {s t : State} {o : PortId} {x : Tx} (h : AbortedOn s t o x) :
    AbortedOn s (updateRole t) o x := by
  simp only [Machine.updateRole]
  split
  · exact h.keeps (keepsTraffic_arbitrate t)
  · exact h.changeRole _

theorem failSide_traffic (s : State) (p : PortId) (rx : RxState) (o : PortId) :
    ((failSide s p rx).port o).tx = (s.port o).tx ∧
    ((failSide s p rx).port o).ctr.abortsSent = (s.port o).ctr.abortsSent := by
  cases p <;> cases o <;> exact ⟨rfl, rfl⟩

theorem AbortedOn.failSide {s t : State} {o : PortId} {x : Tx} (h : AbortedOn s t o x) (p : PortId)
    (rx : RxState) : AbortedOn s (failSide t p rx) o x :=
  ⟨(failSide_traffic t p rx o).1.trans h.1, (failSide_traffic t p rx o).2.trans h.2⟩

theorem AbortedOn.cutFrame {s t : State} {o : PortId} {x : Tx} (h : AbortedOn s t o x) (p : PortId)
    (short : Bool) : AbortedOn s (cutFrame t p short) o x := by
  unfold Machine.cutFrame
  split
  · exact h.truncate p
  · exact h

theorem AbortedOn.leaveSync {s t : State} {o : PortId} {x : Tx} (h : AbortedOn s t o x) (p : PortId)
    (rx : RxState) (short : Bool) : AbortedOn s (leaveSync t p rx short) o x := by
  rw [leaveSync_eq]
  exact (((((h.failSide p rx).cutFrame p short).abortTx p).updateRole)).keeps (keepsTraffic_reportRing p _)

theorem leaveSync_noReservation {s : State} {p : PortId} (h : NoReservation s p) (rx : RxState)
    (short : Bool) : NoReservation (leaveSync s p rx short) p := by
  have failed : NoReservation (failSide s p rx) p := noReservation_of_sw (by simp [failSide]) h
  have cut : NoReservation (cutFrame (failSide s p rx) p short) p := by
    unfold cutFrame
    split
    · exact truncate_noReservation _ p
    · exact failed
  rw [leaveSync_eq]
  exact (keepsTraffic_reportRing p _).noResv p
    (updateRole_noReservation (noReservation_of_sw (abortsOnly_abortTx _ p).sw cut))

theorem symbolCounted_traffic (s : State) (p : PortId) (pos : Nat) (o : PortId) :
    ((symbolCounted s p pos).port o).tx = (s.port o).tx ∧
    ((symbolCounted s p pos).port o).ctr.abortsSent = (s.port o).ctr.abortsSent := by
  cases p <;> cases o <;> exact ⟨rfl, rfl⟩

theorem AbortedOn.symbolCounted {s t : State} {o : PortId} {x : Tx} (h : AbortedOn s t o x)
    (p : PortId) (pos : Nat) : AbortedOn s (symbolCounted t p pos) o x :=
  ⟨(symbolCounted_traffic t p pos o).1.trans h.1, (symbolCounted_traffic t p pos o).2.trans h.2⟩

/-! ## Arrivals that discard the frame -/

/-- A frame discarded at its end: as `DiscardedAs`, and the reception is over. -/
theorem closeReception_settleDrop (s : State) (p : PortId) {f : PortCounters → PortCounters}
    (hf : ∀ c, (f c).abortsSent = c.abortsSent) :
    let t := closeReception p (settleDrop (s.countPort p f) p)
    DiscardedAs s t p f ∧ (t.port p).reception = none := by
  intro t
  have as : DiscardedAs s (discarded s p (counted (s.port p) f)) p f :=
    discarded_as (countedAs_counted _ f) hf
  refine ⟨as.setPort false 0 none, ?_⟩
  simp [t, closeReception]

theorem discarded_cutShort (s : State) (p : PortId) :
    let t := discarded s p (cutShort (s.port p))
    DiscardedAs s t p (fun c => { c with truncated := bump c.truncated }) ∧
      (t.port p).reception = none :=
  ⟨discarded_as (countedAs_cutShort _) fun _ => rfl, discarded_reception rfl⟩

/-- A frame cut by a symbol that is not an invalid one: beside its discarding only the run of break symbols or the
skipping of data symbols changes. -/
theorem truncatedArrival_discards (s : State) (p : PortId) {by_ : CutBy}
    (h : by_ = .startDelimiter ∨ by_ = .idle ∨ by_ = .breakHeard ∨ by_ = .brk ∨ by_ = .overlong) :
    let t := truncatedArrival p by_ s
    DiscardedAs s t p (fun c => { c with truncated := bump c.truncated }) ∧
      (t.port p).reception = none := by
  obtain ⟨as, reception⟩ := discarded_cutShort s p
  intro t
  have ht : t = cutSymbol (discarded s p (cutShort (s.port p))) p by_ := truncatedArrival_discarded s p by_
  generalize discarded s p (cutShort (s.port p)) = u at as reception ht
  rw [ht]
  rcases h with rfl | rfl | rfl | rfl | rfl
  · exact ⟨as, reception⟩
  · exact ⟨as, reception⟩
  · exact ⟨as, reception⟩
  · exact ⟨as.setPort (u.port p).skipping ((u.port p).breakRun + 1) (u.port p).reception,
      by simpa [cutSymbol] using reception⟩
  · exact ⟨as.setPort true (u.port p).breakRun (u.port p).reception,
      by simpa [cutSymbol] using reception⟩

theorem exec_ended {m : Moment} {p : PortId} {s : State} {bytes : List Byte} (reading : Body)
    (hs : (s.port p).rx = .sync) (hf : arrivalFits (s.tick m) p bytes = true) :
    exec (.frameArrival m p (.ended bytes reading)) s = .next (endedArrival p bytes reading (s.tick m)) := by
  simp [exec, execFrameArrival, hs, hf]

theorem exec_aborted {m : Moment} {p : PortId} {s : State} (hs : (s.port p).rx = .sync) :
    exec (.frameArrival m p .aborted) s = .next (abortedArrival p (s.tick m)) := by
  simp [exec, execFrameArrival, hs]

theorem exec_truncated {m : Moment} {p : PortId} {s : State} (by_ : CutBy) (hs : (s.port p).rx = .sync) :
    exec (.frameArrival m p (.truncated by_)) s = .next (truncatedArrival p by_ (s.tick m)) := by
  simp [exec, execFrameArrival, hs]

/-- What a bad closing is counted as (R13 to R15, R18). -/
def BadClosing (s : State) (m : Moment) (p : PortId) (closing : Closing)
    (f : PortCounters → PortCounters) : Prop :=
  (∃ bytes reading, closing = .ended bytes reading ∧ arrivalFits (s.tick m) p bytes = true ∧
    ((judgeFrame bytes = .crcBad ∧ f = fun c => { c with crcBad := bump c.crcBad }) ∨
     (judgeFrame bytes = .formatBad ∧ f = fun c => { c with formatBad := bump c.formatBad }))) ∨
  (closing = .aborted ∧ f = fun c => { c with aborted := bump c.aborted }) ∨
  ((closing = .truncated .startDelimiter ∨ closing = .truncated .idle ∨
    closing = .truncated .breakHeard ∨ closing = .truncated .brk ∨ closing = .truncated .overlong) ∧
    f = fun c => { c with truncated := bump c.truncated })

/-- A frame that closes badly is counted once and discarded. -/
theorem badClosing_discards {m : Moment} {p : PortId} {s : State} {closing : Closing}
    {f : PortCounters → PortCounters} (hs : (s.port p).rx = .sync) (h : BadClosing s m p closing f) :
    ∃ t, exec (.frameArrival m p closing) s = .next t ∧ DiscardedAs (s.tick m) t p f ∧
      (t.port p).reception = none := by
  rcases h with ⟨bytes, reading, rfl, hfit, hv⟩ | ⟨rfl, rfl⟩ | ⟨hc, rfl⟩
  · refine ⟨_, exec_ended reading hs hfit, ?_⟩
    rcases hv with ⟨hj, rfl⟩ | ⟨hj, rfl⟩
    · simp only [endedArrival, hj]
      exact closeReception_settleDrop _ p fun _ => rfl
    · simp only [endedArrival, hj]
      exact closeReception_settleDrop _ p fun _ => rfl
  · exact ⟨_, exec_aborted hs, closeReception_settleDrop _ p fun _ => rfl⟩
  · obtain ⟨by_, rfl, hb⟩ : ∃ by_, closing = .truncated by_ ∧ (by_ = .startDelimiter ∨ by_ = .idle ∨
        by_ = .breakHeard ∨ by_ = .brk ∨ by_ = .overlong) := by
      rcases hc with rfl | rfl | rfl | rfl | rfl <;> exact ⟨_, rfl, by simp⟩
    exact ⟨_, exec_truncated by_ hs, truncatedArrival_discards _ p hb⟩

/-- The fourth invalid symbol of the last 256 fails the side the frame was cut on. -/
theorem badSymbol_fails {s u : State} {p : PortId} {pos : Nat}
    (as : DiscardedAs s u p fun c => { c with truncated := bump c.truncated })
    (hrec : (u.port p).reception = none) (hs : (s.port p).rx = .sync)
    (hl : 4 ≤ (recordInvalid pos (u.port p).invalid).length) :
    let t := badSymbol u p pos
    NoReservation t p ∧ LeftSync (u.port p) (t.port p) .hunt ∧
    (t.port p).ctr.truncated = bump (s.port p).ctr.truncated ∧
    (t.port p).ctr.symbolErrors = bump (s.port p).ctr.symbolErrors ∧
    (t.port p).ctr.syncLoss = bump (s.port p).ctr.syncLoss ∧
    ∀ o x, (s.port o).tx = some x → x.copyOf = some p → x.aborted = false → AbortedOn s t o x := by
  intro t
  have hu : (u.port p).rx = .sync := as.rx.trans hs
  have port := symbolCounted_port u p pos
  have left := leaveSync_left (symbolCounted u p pos) p .hunt false
  have ctr := leaveSync_ctr (symbolCounted u p pos) p .hunt false
  have ht : t = leaveSync (symbolCounted u p pos) p .hunt false := by
    rw [show t = _ from badSymbol_fourth (.inl hu) hl]
    exact changeRx_leave false (by rw [port]; exact hu) (by decide)
  have uctr := as.ctr
  simp only [port, hrec, Option.isSome_none, Bool.or_false, Bool.false_eq_true, if_false] at ctr
  rw [ht]
  refine ⟨?_, ⟨left.rx, left.side, left.hold, left.reception⟩, ?_, ?_, ?_, fun o x hx hc ha => ?_⟩
  · exact leaveSync_noReservation (noReservation_of_sw (symbolCounted_sw u p pos) as.noResv) _ _
  · rw [ctr, uctr]
  · rw [ctr, uctr]
  · rw [ctr, uctr]
  · exact ((as.aborts o x hx hc ha).symbolCounted p pos).leaveSync p _ _

/-! ## From the command's moment -/

theorem OutputsBusy.tick {s : State} (h : OutputsBusy s) (m : Moment) : OutputsBusy (s.tick m) :=
  h.of (by simp) (by simp) (by simp) (by simp)

section Ticked
variable {s t : State} {m : Moment} {p : PortId} {f : PortCounters → PortCounters}

theorem DiscardedAs.ctr_ticked (h : DiscardedAs (s.tick m) t p f) :
    SameButAborts (f (s.port p).ctr) (t.port p).ctr := by
  rw [← State.tick_port s m p]; exact h.ctr

theorem DiscardedAs.rx_ticked (h : DiscardedAs (s.tick m) t p f) : (t.port p).rx = (s.port p).rx := by
  rw [← State.tick_port s m p]; exact h.rx

theorem DiscardedAs.busy_ticked (h : DiscardedAs (s.tick m) t p f) (hb : OutputsBusy s) :
    t.sw = withoutResv p s.sw := by
  rw [h.busy (hb.tick m), State.tick_sw]

theorem AbortedOn.of_tick {o : PortId} {x : Tx} (h : AbortedOn (s.tick m) t o x) : AbortedOn s t o x :=
  h.of_port (by rw [State.tick_port]) ⟨rfl, rfl⟩

theorem DiscardedAs.aborts_ticked (h : DiscardedAs (s.tick m) t p f) {o : PortId} {x : Tx}
    (hx : (s.port o).tx = some x) (hc : x.copyOf = some p) (ha : x.aborted = false) :
    AbortedOn s t o x :=
  (h.aborts o x (by rwa [State.tick_port]) hc ha).of_tick

end Ticked

end Sys2Proof.Machine

open Sys2Proof Sys2Proof.Machine

/-- Settles O17: every bad close is `discarded` with its counter, and a symbol that cut the frame is then counted. -/
theorem badFrameDiscarded : Obligations.BadFrameDiscarded := by
  refine ⟨fun m p s closing f hs hc => ?_, fun m p s pos hs => ?_, fun bytes => ?_, by decide,
    fun bytes b => crc32_append bytes b⟩
  · obtain ⟨t, run, as, reception⟩ := badClosing_discards hs hc
    exact ⟨t, run, as.moment, as.control, as.station, reception, as.rx_ticked.trans hs, as.noResv,
      as.ctr_ticked, as.role.trans (by simp), as.tap.trans (by simp), as.busy_ticked,
      fun o x => as.aborts_ticked⟩
  · intro l
    obtain ⟨as, reception⟩ := discarded_cutShort (s.tick m) p
    have run := exec_truncated (m := m) (.invalid pos) hs
    rw [truncatedArrival_discarded, cutSymbol] at run
    have side := discarded_side (s.tick m) p (cutShort (s.port p))
    rw [State.tick_port] at as reception run
    generalize discarded (s.tick m) p (cutShort (s.port p)) = u at as reception run side
    have hl : recordInvalid pos (u.port p).invalid = l := by rw [side.invalid]; rfl
    have hsync : ((s.tick m).port p).rx = .sync := by rwa [State.tick_port]
    refine ⟨_, run, as.moment.trans (badSymbol_moment u p pos), ?_⟩
    by_cases h4 : 4 ≤ l.length
    · obtain ⟨noResv, left, truncated, errors, loss, aborts⟩ :=
        badSymbol_fails as reception hsync (by rwa [hl])
      rw [State.tick_port] at truncated errors loss
      exact ⟨noResv, left.reception, truncated, errors,
        fun o x hx hc ha => (aborts o x (by rwa [State.tick_port]) hc ha).of_tick,
        fun h => absurd h4 (Nat.not_le.mpr h), fun _ => ⟨left.rx, left.side, loss⟩⟩
    · have h3 : l.length < 4 := Nat.not_le.mp h4
      have port := symbolCounted_port u p pos
      obtain ⟨control, station⟩ := setPort_control u p ((symbolCounted u p pos).port p)
      rw [port] at control station
      have ctr := as.ctr_ticked
      rw [badSymbol_counted (.inl (as.rx.trans hsync)) (by rwa [hl])]
      refine ⟨noReservation_of_sw (symbolCounted_sw u p pos) as.noResv, by rw [port]; exact reception,
        by rw [port, ctr], by rw [port, ctr],
        fun o x hx hc ha => (as.aborts_ticked hx hc ha).symbolCounted p pos, fun _ => ?_,
        fun h => absurd h h4⟩
      rw [port, hl]
      exact ⟨as.control.trans control, station.trans as.station, as.rx_ticked.trans hs, side.side, rfl,
        by rw [ctr]⟩
  · intro n body at_ right trip cycle corr formed
    have hn : n < 20 → judgeFrame bytes = .formatBad := fun h => by simp [judgeFrame, n, h] at *
    have form : formOk (bytes.take 16) body = true ↔ formed := by
      have at16 (i : Nat) (h : i < 16) : byteAt (bytes.take 16) i = at_ i := byteAt_take h
      have len : numAt (bytes.take 16) 12 2 = numAt bytes 12 2 := by
        rw [numAt_two, numAt_two, at16 _ (by decide), at16 _ (by decide)]
      rw [formOk_iff, bodyOk_iff, readTrip_isSome, readCycle_isSome, readCorr_isSome, len]
      rw [at16 0 (by decide), at16 2 (by decide), at16 3 (by decide), at16 8 (by decide), at16 14 (by decide),
        at16 15 (by decide)]
      simp only [corrRecOk_place]
      exact Iff.rfl
    refine ⟨hn, fun h hr => ?_, fun h hr hf => ?_, fun h hr hf => ?_⟩ <;> rw [judgeFrame_long h]
    · rw [if_neg hr]
    · rw [if_pos hr, if_neg (by rwa [form])]
    · rw [if_pos hr, if_pos (by rwa [form])]
end

