-- ==== Sys2Proof/Proofs/SwitchEnds.lean ====
section
/-! Good frames that end at the Ring Switch: at the hop limit, on an unused side, or come home (R21, R22, R50, R52). -/

namespace Sys2Proof.Machine

/-- The counter of a good frame at its port (R18). -/
def framesInOne (c : PortCounters) : PortCounters := { c with framesIn := bump c.framesIn }

theorem arrived_eq (s : State) (m : Moment) (p : PortId) :
    s.arrived m p = (s.tick m).countPort p framesInOne := by
  simp [State.arrived, State.countPort, framesInOne]

theorem arrived_arrivalUse (s : State) (m : Moment) (p q : PortId) :
    (s.arrived m p).arrivalUse q = s.arrivalUse q := by
  cases p <;> cases q <;> rfl

theorem arrived_sw (s : State) (m : Moment) (p : PortId) : (s.arrived m p).sw = s.sw := by
  simp [State.arrived]

theorem arrived_station (s : State) (m : Moment) (p : PortId) : (s.arrived m p).station = s.station := by
  cases p <;> rfl

theorem arrived_tag (s : State) (m : Moment) (p : PortId) : (s.arrived m p).tag = s.tag := by
  cases p <;> rfl

/-- A good frame at its arrival, by the use of its side (R50, R52). -/
def inputOf (use : RxUse) (p : PortId) (g : Frame) (u : State) : State :=
  match use with
  | .forwardInput => forwardInput p g u
  | .counterInput => counterInput p g u
  | .unused => unusedInput p u

theorem exec_good {m : Moment} {p : PortId} {s : State} {bytes : List Byte} (reading : Body)
    (h : GoodArrival s m p bytes) : exec (.frameArrival m p (.ended bytes reading)) s =
      .next (closeReception p (inputOf (s.arrivalUse p) p (readFrame bytes reading) (s.arrived m p))) := by
  rw [exec_ended reading h.sync h.fits, endedArrival, h.good]
  simp only [goodArrival]
  rw [← arrived_arrivalUse s m p p, arrived_eq]
  rfl

/-- A frame dropped at the switch: counted there by `f`, and settled as not forwarded. -/
def droppedAt (u : State) (p : PortId) (f : SwitchCounters → SwitchCounters) : State :=
  settleDrop (u.countSw f) p

theorem forwardInput_hopLimit {p : PortId} {g : Frame} (u : State) (h : 127 ≤ g.hdr.hop + 1) :
    forwardInput p g u = droppedAt u p fun c => { c with hopLimit := bump c.hopLimit } := by
  unfold forwardInput
  rw [if_pos (show Config.hopLimit ≤ g.hdr.hop + 1 from h)]
  rfl

theorem counterInput_hopLimit {p : PortId} {g : Frame} (u : State) (h : 127 ≤ g.hdr.hop + 1) :
    counterInput p g u = droppedAt u p fun c => { c with hopLimit := bump c.hopLimit } := by
  unfold counterInput
  rw [if_pos (show Config.hopLimit ≤ g.hdr.hop + 1 from h)]
  rfl

/-- The frame with its hop count increased by 1 (R21). -/
def hopped (g : Frame) : Frame := { g with hdr := { g.hdr with hop := g.hdr.hop + 1 } }

theorem returnedSweep_other {f : Frame} (u : State) (h : ¬ (f.hdr.cls = .m ∧ f.hdr.dest = 0 ∧
    (mgmtOf f.body).kind = .command ∧ sweepCommand (mgmtOf f.body).cmd = true)) :
    returnedSweep f u = u := by
  unfold returnedSweep
  dsimp only
  split
  · next hm =>
    obtain ⟨hc, hd, hk⟩ := hm
    split
    · next hcmd => exact absurd ⟨hc, hd, hk, by rw [hcmd]; rfl⟩ h
    · next hcmd => exact absurd ⟨hc, hd, hk, by rw [hcmd]; rfl⟩ h
    · rfl
  · rfl

/-- The forward input below the hop limit: by the own address, and for the own source by the tag (R20 to R24). -/
theorem forwardInput_eq {p : PortId} {g : Frame} (u : State) (h : g.hdr.hop + 1 < 127) :
    forwardInput p g u =
      if u.station.address = 0 then unassignedFrame p (hopped g) u
      else if g.hdr.src = u.station.address then
        if g.hdr.tag = u.tag then
          returnedSweep (hopped g) (droppedAt u p fun c => { c with stripped := bump c.stripped })
        else classFrame false p (hopped g) (clash g.hdr.tag u)
      else classFrame true p (hopped g) u := by
  unfold forwardInput
  rw [if_neg (show ¬ Config.hopLimit ≤ g.hdr.hop + 1 from Nat.not_le.mpr h)]
  rfl

theorem forwardInput_own {p : PortId} {g : Frame} {u : State} (h : g.hdr.hop + 1 < 127)
    (ha : u.station.address ≠ 0) (hs : g.hdr.src = u.station.address) (ht : g.hdr.tag = u.tag) :
    forwardInput p g u =
      returnedSweep (hopped g) (droppedAt u p fun c => { c with stripped := bump c.stripped }) := by
  rw [forwardInput_eq u h, if_neg ha, if_pos hs, if_pos ht]

/-- What is counted for a good frame that ends at the Ring Switch (R21, R22, R50, R52). -/
def EndsAs (s : State) (use : RxUse) (g : Frame) (f : SwitchCounters → SwitchCounters) : Prop :=
  (use ≠ .unused ∧ 127 ≤ g.hdr.hop + 1 ∧ f = fun c => { c with hopLimit := bump c.hopLimit }) ∨
  (use = .unused ∧ f = fun c => { c with roleDiscard := bump c.roleDiscard }) ∨
  (use = .forwardInput ∧ g.hdr.hop + 1 < 127 ∧ s.station.address ≠ 0 ∧
    g.hdr.src = s.station.address ∧ g.hdr.tag = s.tag ∧
    ¬ (g.hdr.cls = .m ∧ g.hdr.dest = 0 ∧ (mgmtOf g.body).kind = .command ∧
      sweepCommand (mgmtOf g.body).cmd = true) ∧
    f = fun c => { c with stripped := bump c.stripped })

theorem inputOf_ends {s : State} {m : Moment} {p : PortId} {g : Frame} {use : RxUse}
    {f : SwitchCounters → SwitchCounters} (h : EndsAs s use g f) :
    inputOf use p g (s.arrived m p) = droppedAt (s.arrived m p) p f := by
  rcases h with ⟨hu, hh, rfl⟩ | ⟨rfl, rfl⟩ | ⟨rfl, hh, ha, hs, ht, hn, rfl⟩
  · cases use with
    | forwardInput => exact forwardInput_hopLimit _ hh
    | counterInput => exact counterInput_hopLimit _ hh
    | unused => exact absurd rfl hu
  · rfl
  · rw [← arrived_tag s m p] at ht
    rw [← arrived_station s m p] at ha hs
    exact (forwardInput_own hh ha hs ht).trans (returnedSweep_other _ hn)

/-- A frame that ends at the switch is discarded as any other, its count the switch's. -/
theorem droppedAt_discards (s : State) (m : Moment) (p : PortId) (f : SwitchCounters → SwitchCounters) :
    let t := closeReception p (droppedAt (s.arrived m p) p f)
    DiscardedAs ((s.tick m).countSw f) t p framesInOne ∧ (t.port p).reception = none := by
  have commutes : (s.arrived m p).countSw f = ((s.tick m).countSw f).countPort p framesInOne := by
    rw [arrived_eq]
    cases p <;> rfl
  simp only [droppedAt, commutes]
  exact closeReception_settleDrop _ p fun _ => rfl

end Sys2Proof.Machine

open Sys2Proof Sys2Proof.Machine

/-- Settles O18: the three ends at the switch each give up the frame's place. -/
theorem frameEndsAtTheSwitch : Obligations.FrameEndsAtTheSwitch := by
  intro m p s bytes reading f hg g use hends
  have run := exec_good reading hg
  rw [inputOf_ends (f := f) hends] at run
  obtain ⟨as, reception⟩ := droppedAt_discards s m p f
  have port (o : PortId) : (((s.tick m).countSw f).port o) = s.port o := by cases o <;> rfl
  have sw : ((s.tick m).countSw f).sw = { s.sw with ctr := f s.sw.ctr } := rfl
  refine ⟨_, run, ?_, ?_, as.station, reception, as.noResv, ?_, ?_, fun hb => ?_, fun o x hx hc ha => ?_⟩
  · exact (ringOnly_countSw _ f).moment.trans as.moment
  · exact (ringOnly_countSw _ f).control.trans as.control
  · rw [as.ctr, port]; rfl
  · exact as.swCtr
  · rw [as.busy (hb.of rfl id (fun o h => by rwa [port]) fun o => by rw [port]), sw]
    rfl
  · have aborted := as.aborts o x (by rwa [port]) hc ha
    exact ⟨aborted.1, by rw [aborted.2, port]⟩
end

