-- ==== Sys2Proof/Proofs/FaultTree.lean ====
section
/-! The fault tree under a latched fault, a changed condition and a report: what is latched stays latched, other
conditions stay, and the levels of a tree that latches one more fault are no lower (R149, R150, R154, R155). -/

namespace Sys2Proof.Machine

/-! ## One entry -/

theorem mem_allFaults (f : FaultId) : f ∈ allFaults := by
  cases f with
  | portDown p => cases p <;> decide
  | driveFault a | driveLink a | followError a | correctionLimit a => fin_cases a <;> decide
  | tripInput n => fin_cases n <;> decide
  | ringIsolated | addressClash | ringCongestion | cycleLoss | cycleLate | masterJump | cycleConflict
  | stopUnconfirmed | lineOverrun | markLost | webBreak | cameraLost | mgmtSilent | mgmtLost | hostTrip
  | stationReset => decide

theorem treeUpdate_ids (tree : List FaultEntry) (f : FaultId) {g : FaultEntry → FaultEntry}
    (hg : ∀ e, (g e).id = e.id) : (treeUpdate tree f g).map (·.id) = tree.map (·.id) := by
  simp only [treeUpdate, List.map_map]
  congr 1
  funext e
  simp only [Function.comp]
  split
  · exact hg e
  · rfl

theorem treeGet_cons (e : FaultEntry) (es : List FaultEntry) (f : FaultId) :
    treeGet (e :: es) f = if e.id = f then e else treeGet es f := by
  unfold treeGet
  by_cases h : e.id = f
  · rw [List.find?_cons_of_pos (by simpa using h), if_pos h]; rfl
  · rw [List.find?_cons_of_neg (by simpa using h), if_neg h]

theorem treeGet_update_other {tree : List FaultEntry} {f h : FaultId} {g : FaultEntry → FaultEntry}
    (hg : ∀ e, (g e).id = e.id) (hne : h ≠ f) : treeGet (treeUpdate tree f g) h = treeGet tree h := by
  induction tree with
  | nil => rfl
  | cons e es ih =>
    change treeGet ((if e.id == f then g e else e) :: treeUpdate es f g) h = _
    rw [treeGet_cons, treeGet_cons, ih]
    by_cases he : e.id = f
    · have hh : ¬ e.id = h := fun hx => hne (hx.symm.trans he)
      simp [he, hg, Ne.symm hne]
    · simp [he]

theorem treeGet_update_same {tree : List FaultEntry} {f : FaultId} {g : FaultEntry → FaultEntry}
    (hg : ∀ e, (g e).id = e.id) (hf : f ∈ tree.map (·.id)) :
    treeGet (treeUpdate tree f g) f = g (treeGet tree f) := by
  induction tree with
  | nil => cases hf
  | cons e es ih =>
    change treeGet ((if e.id == f then g e else e) :: treeUpdate es f g) f = _
    rw [treeGet_cons, treeGet_cons]
    by_cases he : e.id = f
    · simp [he, hg]
    · have hf : f ∈ es.map (·.id) := by
        simpa [Ne.symm he] using hf
      simp [he, ih hf]

/-! ## Latching and conditions -/

/-- The tree has its entry for every fault (R149). -/
def TreeWhole (t : TripUnit) : Prop := t.tree.map (·.id) = allFaults

theorem TreeWhole.mem {t : TripUnit} (h : TreeWhole t) (f : FaultId) : f ∈ t.tree.map (·.id) := by
  unfold TreeWhole at h
  rw [h]
  exact mem_allFaults f

theorem TreeWhole.latch {t : TripUnit} (h : TreeWhole t) (f : FaultId) : TreeWhole (t.latch f) :=
  (treeUpdate_ids t.tree f (g := fun e => { e with latched := true }) fun _ => rfl).trans h

theorem TreeWhole.setCond {t : TripUnit} (h : TreeWhole t) (f : FaultId) (b : Bool) :
    TreeWhole (t.setCond f b) :=
  (treeUpdate_ids t.tree f (g := fun e => { e with cond := b }) fun _ => rfl).trans h

theorem TreeWhole.latch_get {t : TripUnit} (h : TreeWhole t) (f : FaultId) :
    treeGet (t.latch f).tree f = { treeGet t.tree f with latched := true } :=
  treeGet_update_same (g := fun e => { e with latched := true }) (fun _ => rfl) (h.mem f)

theorem latch_get_other {t : TripUnit} {f k : FaultId} (hk : k ≠ f) :
    treeGet (t.latch f).tree k = treeGet t.tree k :=
  treeGet_update_other (g := fun e => { e with latched := true }) (fun _ => rfl) hk

theorem TreeWhole.setCond_get {t : TripUnit} (h : TreeWhole t) (f : FaultId) (b : Bool) :
    treeGet (t.setCond f b).tree f = { treeGet t.tree f with cond := b } :=
  treeGet_update_same (g := fun e => { e with cond := b }) (fun _ => rfl) (h.mem f)

theorem setCond_get_other {t : TripUnit} {f k : FaultId} (b : Bool) (hk : k ≠ f) :
    treeGet (t.setCond f b).tree k = treeGet t.tree k :=
  treeGet_update_other (g := fun e => { e with cond := b }) (fun _ => rfl) hk

theorem TreeWhole.isLatched_latch {t : TripUnit} (h : TreeWhole t) (f : FaultId) :
    (t.latch f).isLatched f = true := by
  rw [TripUnit.isLatched, h.latch_get]

theorem isLatched_latch_other {t : TripUnit} {f k : FaultId} (hk : k ≠ f) :
    (t.latch f).isLatched k = t.isLatched k := by
  rw [TripUnit.isLatched, latch_get_other hk, TripUnit.isLatched]

theorem TreeWhole.isPresent_latch {t : TripUnit} (h : TreeWhole t) (f k : FaultId) :
    (t.latch f).isPresent k = t.isPresent k := by
  unfold TripUnit.isPresent
  by_cases hk : k = f
  · rw [hk, h.latch_get]
  · rw [latch_get_other hk]

theorem TreeWhole.isPresent_setCond {t : TripUnit} (h : TreeWhole t) (f : FaultId) (b : Bool) :
    (t.setCond f b).isPresent f = b := by
  rw [TripUnit.isPresent, h.setCond_get]

theorem isPresent_setCond_other {t : TripUnit} {f k : FaultId} (b : Bool) (hk : k ≠ f) :
    (t.setCond f b).isPresent k = t.isPresent k := by
  rw [TripUnit.isPresent, setCond_get_other b hk, TripUnit.isPresent]

theorem treeUpdate_absent {tree : List FaultEntry} {f : FaultId} (g : FaultEntry → FaultEntry)
    (hf : f ∉ tree.map (·.id)) : treeUpdate tree f g = tree := by
  refine (List.map_congr_left fun e he => ?_).trans (List.map_id tree)
  exact if_neg fun h => hf (List.mem_map.mpr ⟨e, he, by simpa using h⟩)

/-- A condition latches nothing by itself (R150). -/
theorem isLatched_setCond (t : TripUnit) (f k : FaultId) (b : Bool) :
    (t.setCond f b).isLatched k = t.isLatched k := by
  unfold TripUnit.isLatched
  by_cases hk : k = f
  · by_cases hf : f ∈ t.tree.map (·.id)
    · rw [hk, TripUnit.setCond, treeGet_update_same (g := fun e => { e with cond := b }) (fun _ => rfl) hf]
    · rw [TripUnit.setCond, treeUpdate_absent _ hf]
  · rw [setCond_get_other b hk]

/-! ## Reports -/

/-- A Trip Unit whose tree has latched at most more: whole, conditions as they were, nothing unlatched. -/
structure Grows (x y : TripUnit) : Prop where
  whole : TreeWhole y
  present : ∀ f, y.isPresent f = x.isPresent f
  latched : ∀ f, x.isLatched f = true → y.isLatched f = true

theorem Grows.of_tree {x y : TripUnit} (hx : TreeWhole x) (h : y.tree = x.tree) : Grows x y := by
  refine ⟨?_, fun f => ?_, fun f hf => ?_⟩
  · unfold TreeWhole; rw [h]; exact hx
  · unfold TripUnit.isPresent; rw [h]
  · unfold TripUnit.isLatched; rw [h]; exact hf

theorem Grows.trans {x y z : TripUnit} (h : Grows x y) (k : Grows y z) : Grows x z :=
  ⟨k.whole, fun f => (k.present f).trans (h.present f), fun f hf => k.latched f (h.latched f hf)⟩

theorem Grows.latch {x : TripUnit} (hx : TreeWhole x) (f : FaultId) : Grows x (x.latch f) := by
  refine ⟨hx.latch f, hx.isPresent_latch f, fun k hk => ?_⟩
  by_cases h : k = f
  · rw [h]; exact hx.isLatched_latch f
  · rw [isLatched_latch_other h]; exact hk

theorem recompute_grows {s : State} (h : TreeWhole s.trip) : Grows s.trip (recompute s).trip := by
  rcases recompute_tree s with ht | ht
  · exact .of_tree h ht
  · exact (Grows.latch h .ringCongestion).trans (.of_tree (h.latch _) ht)

theorem axisFault_trip (f : FaultId) (s : State) : (axisFault f s).trip = s.trip := by
  unfold axisFault
  split
  · rfl
  · rfl
  · split <;> rfl
  · rfl

theorem report_grows {s : State} (h : TreeWhole s.trip) (f : FaultId) :
    Grows s.trip (report f s).trip := by
  unfold report
  split
  · exact .of_tree h rfl
  · have latched := Grows.latch h f
    have same : (axisFault f (s.setTrip (s.trip.latch f))).trip = s.trip.latch f := axisFault_trip _ _
    have k := recompute_grows (s := axisFault f (s.setTrip (s.trip.latch f))) (by rw [same]; exact latched.whole)
    rw [same] at k
    exact latched.trans k

/-- A fault reported is latched (R150). -/
theorem report_isLatched {s : State} (h : TreeWhole s.trip) (f : FaultId) :
    (report f s).trip.isLatched f = true := by
  unfold report
  split
  · next hf => exact hf
  · have same : (axisFault f (s.setTrip (s.trip.latch f))).trip = s.trip.latch f := axisFault_trip _ _
    have k := recompute_grows (s := axisFault f (s.setTrip (s.trip.latch f)))
      (by rw [same]; exact h.latch f)
    rw [same] at k
    exact k.latched f (h.isLatched_latch f)

/-- RING_CONGESTION reported is latched (R37). -/
theorem reportCongestion_grows {s : State} (h : TreeWhole s.trip) :
    Grows s.trip (reportCongestion s).trip ∧ (reportCongestion s).trip.isLatched .ringCongestion = true := by
  unfold reportCongestion
  split
  · next hl => exact ⟨.of_tree h rfl, hl⟩
  · have same := (recomputeOnce_trip (s.setTrip (s.trip.latch .ringCongestion))).tree
    have k : Grows (s.trip.latch .ringCongestion) _ := .of_tree (h.latch _) same
    exact ⟨(Grows.latch h _).trans k, k.latched _ (h.isLatched_latch _)⟩

theorem setCondition_grows {s : State} (h : TreeWhole s.trip) (f : FaultId) (b : Bool) :
    Grows (s.trip.setCond f b) (setCondition f b s).trip := by
  have whole : TreeWhole (s.setTrip (s.trip.setCond f b)).trip := h.setCond f b
  cases b with
  | false => exact .of_tree whole rfl
  | true => exact report_grows whole f

/-- A condition set is as it was set, and latched where it became present; other conditions stay, and what was
latched stays so (R150). -/
structure ConditionSet (x y : TripUnit) (f : FaultId) (b : Bool) : Prop where
  whole : TreeWhole y
  present : y.isPresent f = b
  latched : b = true → y.isLatched f = true
  others : ∀ k, k ≠ f → y.isPresent k = x.isPresent k
  kept : ∀ k, x.isLatched k = true → y.isLatched k = true

theorem setCondition_set {s : State} (h : TreeWhole s.trip) (f : FaultId) (b : Bool) :
    ConditionSet s.trip (setCondition f b s).trip f b := by
  have grows := setCondition_grows h f b
  refine ⟨grows.whole, ?_, fun hb => ?_, fun k hk => ?_, fun k hk => ?_⟩
  · rw [grows.present, h.isPresent_setCond]
  · subst hb
    exact report_isLatched (s := s.setTrip (s.trip.setCond f true)) (h.setCond f true) f
  · rw [grows.present, isPresent_setCond_other b hk]
  · exact grows.latched k (by rw [isLatched_setCond]; exact hk)

/-! ## The levels -/

theorem rank_sup (x y : Level) : (x.sup y).rank = max x.rank y.rank := by
  unfold Level.sup
  split <;> omega

theorem rank_maxLevel_cons (l : Level) (ls : List Level) :
    (maxLevel (l :: ls)).rank = max l.rank (maxLevel ls).rank := rank_sup _ _

theorem rank_le_maxLevel {l : Level} {ls : List Level} (h : l ∈ ls) : l.rank ≤ (maxLevel ls).rank := by
  induction ls with
  | nil => cases h
  | cons x ls ih =>
    rw [rank_maxLevel_cons]
    rcases List.mem_cons.mp h with rfl | h
    · exact Nat.le_max_left _ _
    · exact (ih h).trans (Nat.le_max_right _ _)

theorem maxLevel_le {ls : List Level} {n : Nat} (h : ∀ l ∈ ls, l.rank ≤ n) : (maxLevel ls).rank ≤ n := by
  induction ls with
  | nil => exact Nat.zero_le n
  | cons x ls ih =>
    rw [rank_maxLevel_cons]
    exact max_le (h x (List.mem_cons_self ..)) (ih fun l hl => h l (List.mem_cons_of_mem x hl))

theorem rank_inj {x y : Level} (h : x.rank = y.rank) : x = y := by
  cases x <;> cases y <;> first | rfl | cases h

/-- Latching one more fault lowers no level (R154, R155). -/
theorem latch_eff_le (t : TripUnit) (f : FaultId) : t.compute.eff.rank ≤ (t.latch f).compute.eff.rank := by
  have counts (e : FaultEntry) (he : e ∈ t.tree.filter (faultCounts t.masks t.hostLevel)) :
      entryLevel t.hostLevel e ∈ ((t.latch f).tree.filter (faultCounts t.masks t.hostLevel)).map
        (entryLevel t.hostLevel) := by
    obtain ⟨hm, hc⟩ := List.mem_filter.mp he
    have latched : e.latched = true := by
      simp only [faultCounts, Bool.and_eq_true] at hc
      exact hc.1
    have same : (if e.id == f then { e with latched := true } else e) = e := by
      split
      · rw [← latched]
      · rfl
    refine List.mem_map.mpr ⟨e, List.mem_filter.mpr ⟨List.mem_map.mpr ⟨e, hm, same⟩, hc⟩, rfl⟩
  have loc : t.compute.loc.rank ≤ (t.latch f).compute.loc.rank := by
    refine maxLevel_le fun l hl => ?_
    obtain ⟨e, he, rfl⟩ := List.mem_map.mp hl
    exact rank_le_maxLevel (counts e he)
  have rem : (t.latch f).compute.rem = t.compute.rem := rfl
  change (t.compute.loc.sup t.compute.rem).rank ≤ ((t.latch f).compute.loc.sup (t.latch f).compute.rem).rank
  rw [rank_sup, rank_sup, rem]
  omega

/-- The levels read of an entry its code, whether it is latched, its level and whether it is published (R154). -/
theorem computeLevels_map {u : FaultEntry → FaultEntry} (hid : ∀ e, (u e).id = e.id)
    (hlat : ∀ e, (u e).latched = e.latched) (hlev : ∀ e, (u e).level = e.level)
    (hpub : ∀ e, (u e).publish = e.publish) (tree : List FaultEntry) (hl : Option Level)
    (masks : List Bool) (rs : List RemoteEntry) :
    computeLevels (tree.map u) hl masks rs = computeLevels tree hl masks rs := by
  have level (e : FaultEntry) : entryLevel hl (u e) = entryLevel hl e := by
    simp only [entryLevel, hid, hlev]
  have counts (e : FaultEntry) : faultCounts masks hl (u e) = faultCounts masks hl e := by
    simp only [faultCounts, hid, hlat, level]
  have counted : (tree.map u).filter (faultCounts masks hl) = (tree.filter (faultCounts masks hl)).map u := by
    rw [List.filter_map]; congr 2; funext e; exact counts e
  have levels (l : List FaultEntry) : (l.map u).map (entryLevel hl) = l.map (entryLevel hl) := by
    rw [List.map_map]; congr 1; funext e; exact level e
  have published (l : List FaultEntry) : (l.map u).filter (·.publish) = (l.filter (·.publish)).map u := by
    rw [List.filter_map]; congr 2; funext e; exact hpub e
  have code (x : Level) (l : List FaultEntry) : firstCode hl x (l.map u) = firstCode hl x l := by
    have same : (fun e => entryLevel hl e == x) ∘ u = fun e => entryLevel hl e == x := by
      funext e; simp [level]
    rw [firstCode, List.find?_map, same, firstCode]
    cases l.find? fun e => entryLevel hl e == x <;> simp [hid]
  have groups (g : Nat) (l : List FaultEntry) :
      (l.map u).any (fun e => faultGroup e.id == g) = l.any fun e => faultGroup e.id == g := by
    simp [List.any_map, Function.comp_def, hid]
  unfold computeLevels
  simp only [counted, published, levels, code, groups, List.length_map]

/-- Conditions do not enter the levels (R154). -/
theorem setCond_compute (t : TripUnit) (f : FaultId) (b : Bool) : (t.setCond f b).compute = t.compute := by
  refine computeLevels_map ?_ ?_ ?_ ?_ t.tree t.hostLevel t.masks t.remote <;>
    · intro e
      dsimp only
      split <;> rfl

end Sys2Proof.Machine
end

