-- ==== Sys2Proof/Proofs/LevelChanges.lean ====
section
/-! What a change of the levels delivers to no unit, and what it does to the queues of a forward output that makes no
choice: a CHANGE frame or its URGENT_DROP, REPAINT notices or their S_DROP (R37, R156, R161, R177). -/

namespace Sys2Proof.Machine

/-! ## Nothing delivered -/

theorem NotDelivered.refl (s : State) : NotDelivered s s :=
  ⟨rfl, rfl, rfl, rfl, fun _ => ⟨rfl, rfl⟩, rfl, rfl, rfl⟩

theorem NotDelivered.trans {s t u : State} (h : NotDelivered s t) (k : NotDelivered t u) :
    NotDelivered s u where
  ctx := k.ctx.trans h.ctx
  drive := k.drive.trans h.drive
  image := k.image.trans h.image
  motion := k.motion.trans h.motion
  corr a := ⟨(k.corr a).1.trans (h.corr a).1, (k.corr a).2.trans (h.corr a).2⟩
  remote := k.remote.trans h.remote
  screen := by rw [k.screen, h.screen]
  station := by rw [k.station, h.station]

theorem notDelivered_of_control {s t : State} (c : SameControl s t)
    (st : t.station = { s.station with seq := t.station.seq }) : NotDelivered s t := by
  refine ⟨c.ctx, c.drive, c.image, by rw [c.axes], fun a => ?_, by rw [c.trip], by rw [c.screen], st⟩
  unfold State.axis
  rw [c.axes]
  exact ⟨rfl, rfl⟩

theorem RingOnly.notDelivered {s t : State} (h : RingOnly s t) : NotDelivered s t :=
  notDelivered_of_control h.control (by rw [h.station])

theorem notDelivered_setTrip (s : State) {t : TripUnit} (h : t.remote = s.trip.remote) :
    NotDelivered s (s.setTrip t) :=
  ⟨rfl, rfl, rfl, rfl, fun _ => ⟨rfl, rfl⟩, h, rfl, rfl⟩

/-- A Screen Unit that differs in tile map, panel queue, link and job at most. -/
def SamePicture (u v : ScreenUnit) : Prop :=
  v = { u with tiles := v.tiles, queue := v.queue, link := v.link, job := v.job }

theorem SamePicture.trans {u v w : ScreenUnit} (h : SamePicture u v) (k : SamePicture v w) :
    SamePicture u w := by
  unfold SamePicture at *
  rw [k, h]

theorem samePicture_arbitrate (u : ScreenUnit) : SamePicture u u.arbitrate := by
  unfold ScreenUnit.arbitrate
  split
  · rfl
  · split
    · rfl
    · split <;> rfl

theorem samePicture_startUnlessClear (u : ScreenUnit) (j : BannerJob) :
    SamePicture u (u.startUnlessClear j) := by
  unfold ScreenUnit.startUnlessClear
  split <;> rfl

theorem SamePicture.foldl {α : Type} {f : ScreenUnit → α → ScreenUnit} (h : ∀ u x, SamePicture u (f u x))
    (l : List α) (u : ScreenUnit) : SamePicture u (l.foldl f u) := by
  induction l generalizing u with
  | nil => rfl
  | cons x l ih => exact (h u x).trans (ih _)

theorem samePicture_markRemoved (u : ScreenUnit) (ws : List TileWrite) :
    SamePicture u (u.markRemoved ws) := by
  refine SamePicture.foldl (fun v w => ?_) ws u
  split <;> rfl

theorem samePicture_raiseBanner (u : ScreenUnit) (l : Level) : SamePicture u (u.raiseBanner l) := by
  unfold ScreenUnit.raiseBanner
  refine SamePicture.trans ?_ (samePicture_arbitrate _)
  refine SamePicture.trans ?_ (samePicture_startUnlessClear _ _)
  refine SamePicture.trans ?_ (samePicture_markRemoved _ _)
  rfl

theorem samePicture_withdrawBanner (u : ScreenUnit) : SamePicture u u.withdrawBanner := by
  unfold ScreenUnit.withdrawBanner
  refine SamePicture.trans ?_ (samePicture_arbitrate _)
  refine SamePicture.trans ?_ (samePicture_startUnlessClear _ _)
  rfl

theorem notDelivered_setScreen (s : State) {u : ScreenUnit} (h : SamePicture s.screen u) :
    NotDelivered s (s.setScreen u) :=
  ⟨rfl, rfl, rfl, rfl, fun _ => ⟨rfl, rfl⟩, rfl, h, rfl⟩

theorem notDelivered_insertLocal (s : State) (cls : FrameClass) (stream dest len : Nat) (b : Body) :
    NotDelivered s (insertLocal s cls stream dest len b) :=
  notDelivered_of_control (insertLocal_queue s cls stream dest len b).control
    (insertLocal_level s cls stream dest len b).station

theorem notDelivered_sendNotices (s : State) : NotDelivered s (sendNotices s) := by
  have fold (l : List ScreenStream) (u : State) : NotDelivered u (l.foldl sendNotice u) := by
    induction l generalizing u with
    | nil => exact .refl u
    | cons x l ih =>
      refine NotDelivered.trans ?_ (ih _)
      unfold sendNotice
      split
      · exact .refl u
      · exact notDelivered_insertLocal u _ _ _ _ _
  unfold sendNotices
  split
  · exact .refl s
  · exact fold _ s

theorem notDelivered_screenLevel (old new : Level) (s : State) :
    NotDelivered s (screenLevel old new s) := by
  unfold screenLevel
  split
  · exact .refl s
  · split
    · exact notDelivered_setScreen s (samePicture_raiseBanner _ _)
    · split
      · exact (notDelivered_setScreen s (samePicture_withdrawBanner _)).trans (notDelivered_sendNotices _)
      · exact notDelivered_setScreen s
          ((samePicture_startUnlessClear _ _).trans (samePicture_arbitrate _))

theorem axisToOff_corr (r : AxisRecord) :
    (axisToOff r).corrTarget = r.corrTarget ∧ (axisToOff r).corr = r.corr := by
  unfold axisToOff
  split <;> exact ⟨rfl, rfl⟩

theorem settleStop_recs (t : AxisTable) : t.settleStop.recs = t.recs := by
  unfold AxisTable.settleStop
  split <;> rfl

theorem startStop_recs (due : Nat) (t : AxisTable) : (t.startStop due).recs = t.recs := by
  unfold AxisTable.startStop
  split <;> rfl

/-- A change of the level moves no correction (R97, R108). -/
theorem axes_level_corr (old new : Level) (due : Nat) (t : AxisTable) (a : Fin 4) :
    ((t.level old new due).recs.get a).corrTarget = (t.recs.get a).corrTarget ∧
    ((t.level old new due).recs.get a).corr = (t.recs.get a).corr := by
  have started : (if old.rank < 2 ∧ 2 ≤ new.rank then t.startStop due else t).recs = t.recs := by
    split
    · exact startStop_recs due t
    · rfl
  simp only [AxisTable.level]
  split
  · rw [AxisTable.off, settleStop_recs, Four.get_map, started]
    exact axisToOff_corr _
  · rw [started]
    exact ⟨rfl, rfl⟩

theorem notDelivered_levelChange (old new : Level) (s : State) :
    NotDelivered s (levelChange old new s) := by
  unfold levelChange
  split
  · exact .refl s
  · refine NotDelivered.trans ?_ (notDelivered_screenLevel old new _)
    exact ⟨rfl, rfl, rfl, axes_level_ctr _ _ _ _, fun a => axes_level_corr old new _ s.axes a, rfl, rfl, rfl⟩

theorem notDelivered_queueTrip (s : State) (stream : Nat) (b : TripBody) :
    NotDelivered s (queueTrip s stream b).1 := by
  unfold queueTrip
  split
  · refine NotDelivered.trans ?_ (arbitrate_ring _).notDelivered
    exact ⟨rfl, rfl, rfl, rfl, fun _ => ⟨rfl, rfl⟩, rfl, rfl, rfl⟩
  · have dropped : NotDelivered s (countUrgentDrop s) := (ringOnly_countSw s _).notDelivered
    exact dropped

theorem notDelivered_originateTrip (r : Bool) (s : State) : NotDelivered s (originateTrip r s).1 := by
  unfold originateTrip
  split
  · exact notDelivered_queueTrip s _ _
  · exact .refl s

theorem notDelivered_recomputeOnce (s : State) : NotDelivered s (recomputeOnce s).1 := by
  have level (old new : Level) (l : Levels) :
      NotDelivered s (levelChange old new (s.setTrip { s.trip with levels := l })) :=
    (notDelivered_setTrip s (t := { s.trip with levels := l }) rfl).trans
      (notDelivered_levelChange old new _)
  simp only [recomputeOnce]
  split
  · exact level _ _ _
  · exact (level _ _ _).trans (notDelivered_originateTrip _ _)

/-- A report of RING_CONGESTION delivers nothing (R37). -/
theorem notDelivered_reportCongestion (s : State) : NotDelivered s (reportCongestion s) := by
  unfold reportCongestion
  split
  · exact .refl s
  · exact (notDelivered_setTrip s (t := s.trip.latch .ringCongestion) rfl).trans
      (notDelivered_recomputeOnce _)

theorem notDelivered_recompute (s : State) : NotDelivered s (recompute s) := by
  unfold recompute afterQueue
  split
  · exact (notDelivered_recomputeOnce s).trans (notDelivered_reportCongestion _)
  · exact notDelivered_recomputeOnce s

theorem offOne_corr (t : AxisTable) (b a : Fin 4) :
    ((t.offOne b).recs.get a).corrTarget = (t.recs.get a).corrTarget ∧
    ((t.offOne b).recs.get a).corr = (t.recs.get a).corr := by
  rw [AxisTable.offOne, settleStop_recs]
  by_cases h : a = b
  · rw [h, Four.get_set_same]
    exact axisToOff_corr _
  · rw [Four.get_set_other _ _ _ _ h]
    exact ⟨rfl, rfl⟩

theorem notDelivered_axisFault (f : FaultId) (s : State) : NotDelivered s (axisFault f s) := by
  have off (b : Fin 4) : NotDelivered s (s.setAxes (s.axes.offOne b)) :=
    ⟨rfl, rfl, rfl, offOne_ctr _ _, fun a => offOne_corr s.axes b a, rfl, rfl, rfl⟩
  unfold axisFault
  split
  · exact off _
  · exact off _
  · split
    · exact off _
    · exact .refl s
  · exact .refl s

/-- A fault report delivers nothing and moves no correction (R97, R150). -/
theorem notDelivered_report (f : FaultId) (s : State) : NotDelivered s (report f s) := by
  unfold report
  split
  · exact .refl s
  · exact (notDelivered_setTrip s (t := s.trip.latch f) rfl).trans <|
      (notDelivered_axisFault f _).trans (notDelivered_recompute _)

theorem notDelivered_setCondition (f : FaultId) (b : Bool) (s : State) :
    NotDelivered s (setCondition f b s) := by
  have set := notDelivered_setTrip s (t := s.trip.setCond f b) rfl
  cases b with
  | false => exact set
  | true => exact set.trans (notDelivered_report f _)

/-! ## The ports while no output makes a choice -/

/-- While no output makes a choice both ports stay as they are, and still none does. -/
def PortsStay (s t : State) : Prop :=
  OutputsBusy s → t.portA = s.portA ∧ t.portB = s.portB ∧ OutputsBusy t

theorem PortsStay.refl (s : State) : PortsStay s s := fun h => ⟨rfl, rfl, h⟩

theorem PortsStay.trans {s t u : State} (h : PortsStay s t) (k : PortsStay t u) : PortsStay s u := by
  intro hb
  obtain ⟨a, b, ht⟩ := h hb
  obtain ⟨a', b', hu⟩ := k ht
  exact ⟨a'.trans a, b'.trans b, hu⟩

/-- Ports untouched, the role kept and no item come into the repeat FIFO. -/
theorem PortsStay.of {s t : State} (ha : t.portA = s.portA) (hb : t.portB = s.portB)
    (hr : t.sw.role = s.sw.role) (hc : t.sw.counter = s.sw.counter) : PortsStay s t := by
  rintro ⟨hk, o, ho, hx⟩
  have hp : t.port o = s.port o := by cases o <;> assumption
  exact ⟨ha, hb, by rw [hr, hc, ha]; exact hk, o, by rw [hr]; exact ho, by rw [hp]; exact hx⟩

theorem portsStay_setTrip (s : State) (t : TripUnit) : PortsStay s (s.setTrip t) := .of rfl rfl rfl rfl

theorem portsStay_setScreen (s : State) (u : ScreenUnit) : PortsStay s (s.setScreen u) :=
  .of rfl rfl rfl rfl

theorem portsStay_arbitrate (s : State) : PortsStay s (arbitrate s) := by
  intro hb
  rw [arbitrate_busy hb]
  exact ⟨rfl, rfl, hb⟩

theorem portsStay_insertLocal (s : State) (cls : FrameClass) (stream dest len : Nat) (b : Body)
    (wire : Option (List Byte)) : PortsStay s (insertLocal s cls stream dest len b wire) := by
  unfold insertLocal
  split
  · refine PortsStay.trans ?_ (portsStay_arbitrate _)
    refine .of rfl rfl ?_ ?_ <;> cases cls <;> rfl
  · exact .of rfl rfl rfl rfl

theorem PortsStay.foldl {α : Type} {f : State → α → State} (h : ∀ s x, PortsStay s (f s x)) (l : List α)
    (s : State) : PortsStay s (l.foldl f s) := by
  induction l generalizing s with
  | nil => exact .refl s
  | cons x l ih => exact (h s x).trans (ih _)

theorem portsStay_sendNotices (s : State) : PortsStay s (sendNotices s) := by
  unfold sendNotices
  split
  · exact .refl s
  · refine .foldl (fun u x => ?_) _ s
    unfold sendNotice
    split
    · exact .refl u
    · exact portsStay_insertLocal u _ _ _ _ _ _

theorem portsStay_levelChange (old new : Level) (s : State) : PortsStay s (levelChange old new s) := by
  have motion : PortsStay s (setTripOut new (motionLevel old new s)) := .of rfl rfl rfl rfl
  unfold levelChange screenLevel
  split
  · exact .refl s
  · split
    · exact motion.trans (.of rfl rfl rfl rfl)
    · split
      · exact motion.trans ((portsStay_setScreen _ _).trans (portsStay_sendNotices _))
      · exact motion.trans (.of rfl rfl rfl rfl)

theorem portsStay_originateTrip (r : Bool) (s : State) : PortsStay s (originateTrip r s).1 := by
  unfold originateTrip queueTrip
  split
  · split
    · refine PortsStay.trans ?_ (portsStay_arbitrate _)
      exact .of rfl rfl rfl rfl
    · exact .of rfl rfl rfl rfl
  · exact .refl s

theorem portsStay_recomputeOnce (s : State) : PortsStay s (recomputeOnce s).1 := by
  have level (old new : Level) (l : Levels) :
      PortsStay s (levelChange old new (s.setTrip { s.trip with levels := l })) :=
    (portsStay_setTrip s _).trans (portsStay_levelChange old new _)
  simp only [recomputeOnce]
  split
  · exact level _ _ _
  · exact (level _ _ _).trans (portsStay_originateTrip _ _)

theorem portsStay_recompute (s : State) : PortsStay s (recompute s) := by
  unfold recompute afterQueue reportCongestion
  split
  · split
    · exact portsStay_recomputeOnce s
    · exact (portsStay_recomputeOnce s).trans ((portsStay_setTrip _ _).trans (portsStay_recomputeOnce _))
  · exact portsStay_recomputeOnce s

theorem portsStay_axisFault (f : FaultId) (s : State) : PortsStay s (axisFault f s) := by
  unfold axisFault
  split
  · exact .of rfl rfl rfl rfl
  · exact .of rfl rfl rfl rfl
  · split <;> exact .of rfl rfl rfl rfl
  · exact .refl s

theorem portsStay_report (f : FaultId) (s : State) : PortsStay s (report f s) := by
  unfold report
  split
  · exact .refl s
  · exact (portsStay_setTrip s _).trans ((portsStay_axisFault f _).trans (portsStay_recompute _))

theorem portsStay_setCondition (f : FaultId) (b : Bool) (s : State) :
    PortsStay s (setCondition f b s) := by
  cases b with
  | false => exact .of rfl rfl rfl rfl
  | true => exact (portsStay_setTrip s _).trans (portsStay_report f _)

/-! ## The queues of a forward output that makes no choice -/

/-- The forward output is sending, or may send nothing (R42, R43). -/
def ForwardHeld (s : State) : Prop :=
  ∃ o, forwardOutput s.sw.role = some o ∧ ((s.port o).tx ≠ none ∨ (s.port o).side ≠ .usable)

theorem OutputsBusy.held {s : State} (h : OutputsBusy s) : ForwardHeld s := h.2

theorem ForwardSending.held {s : State} (h : ForwardSending s s.sw.role) : ForwardHeld s := by
  obtain ⟨o, ho, hx⟩ := h
  exact ⟨o, ho, .inl hx⟩

theorem ForwardHeld.still {s : State} (h : ForwardHeld s) : ForwardStill s := by
  obtain ⟨o, ho, hx⟩ := h
  exact ⟨o, ho, hx.imp id .inl⟩

theorem KeepsTraffic.busy {s t : State} (h : KeepsTraffic s t) {o : PortId} (hx : (s.port o).tx ≠ none) :
    (t.port o).tx ≠ none := by
  obtain ⟨x, hx⟩ := Option.ne_none_iff_exists'.mp hx
  rw [h.sending o x hx]
  simp

/-- What leaves the standing and the traffic as they are leaves a held forward output held. -/
theorem ForwardHeld.of {s t : State} (h : ForwardHeld s) (hs : t.standing = s.standing)
    (k : KeepsTraffic s t) : ForwardHeld t := by
  obtain ⟨o, ho, hx⟩ := h
  refine ⟨o, by rw [role_of_standing hs]; exact ho, hx.imp k.busy fun h => ?_⟩
  rw [(sameSide_of_line (line_of_standing hs o)).side]
  exact h

/-- Two switches that differ in the repeat FIFO at most. -/
def SameButCounter (v w : Switch) : Prop := w = { v with counter := w.counter }

theorem arbitrate_held {s : State} (h : ForwardHeld s) : SameButCounter s.sw (arbitrate s).sw := by
  unfold arbitrate
  rw [arbitrateForward_still h.still]
  unfold arbitrateCounter
  split
  · split
    · split
      · rw [startTx_sw]; rfl
      · rfl
    · rfl
  · rfl

/-- Two switches that differ in the repeat FIFO, and in REPAINT notices and their drops at most. -/
def SameButNotices (v w : Switch) : Prop :=
  w = { v with counter := w.counter, localS := w.localS, ctr := { v.ctr with sDrop := w.ctr.sDrop } }

theorem SameButNotices.trans {u v w : Switch} (h : SameButNotices u v) (k : SameButNotices v w) :
    SameButNotices u w := by
  unfold SameButNotices at *
  rw [k, h]

theorem SameButCounter.notices {v w : Switch} (h : SameButCounter v w) : SameButNotices v w := by
  unfold SameButCounter at h
  unfold SameButNotices
  rw [h]

theorem sendNotice_held {s : State} (h : ForwardHeld s) (e : ScreenStream) :
    SameButNotices s.sw (sendNotice s e).sw ∧ ForwardHeld (sendNotice s e) := by
  refine ⟨?_, h.of (by simp) (keepsTraffic_sendNotice s e)⟩
  unfold sendNotice
  split
  · rfl
  · dsimp only
    unfold insertLocal
    split
    · refine SameButNotices.trans ?_ (arbitrate_held ?_).notices
      · rfl
      · obtain ⟨o, ho, hx⟩ := h
        exact ⟨o, ho, by cases o <;> exact hx⟩
    · rfl

theorem sendNotices_held {s : State} (h : ForwardHeld s) : SameButNotices s.sw (sendNotices s).sw := by
  have fold (l : List ScreenStream) (u : State) (hu : ForwardHeld u) :
      SameButNotices u.sw (l.foldl sendNotice u).sw := by
    induction l generalizing u with
    | nil => rfl
    | cons x l ih => exact (sendNotice_held hu x).1.trans (ih _ (sendNotice_held hu x).2)
  unfold sendNotices
  split
  · rfl
  · exact fold _ s h

/-- A change of the level that does not fall to CLEAR touches neither port nor queue (R158, R177). -/
theorem levelChange_quiet {old new : Level} (h : new = .clear → old = .clear) (s : State) :
    (levelChange old new s).sw = s.sw ∧ (levelChange old new s).portA = s.portA ∧
    (levelChange old new s).portB = s.portB := by
  unfold levelChange
  split
  · exact ⟨rfl, rfl, rfl⟩
  · next hne =>
    unfold screenLevel
    rw [if_neg hne]
    split
    · exact ⟨rfl, rfl, rfl⟩
    · next hold =>
      rw [if_neg fun hn => hold (h hn)]
      exact ⟨rfl, rfl, rfl⟩

theorem levelChange_held {s : State} (h : ForwardHeld s) (old new : Level) :
    SameButNotices s.sw (levelChange old new s).sw := by
  by_cases hn : new = .clear → old = .clear
  · rw [(levelChange_quiet hn s).1]; rfl
  · push Not at hn
    obtain ⟨rfl, ho⟩ := hn
    unfold levelChange
    rw [if_neg ho]
    unfold screenLevel
    rw [if_neg ho, if_neg ho, if_pos rfl]
    refine sendNotices_held ?_
    obtain ⟨o, hf, hx⟩ := h
    exact ⟨o, hf, by cases o <;> exact hx⟩

theorem publishStream_of_station {s t : State} (h : t.station = { s.station with seq := t.station.seq }) :
    t.publishStream = s.publishStream := by
  unfold State.publishStream
  rw [h]

/-- With the urgent queue full, a recomputation's CHANGE frame is dropped (R37, R161). -/
theorem recomputeOnce_full {s : State} (h : ForwardHeld s) (hu : 8 ≤ s.sw.urgent.length) :
    (recomputeOnce s).1.trip.ctr.sent = s.trip.ctr.sent ∧
    (recomputeOnce s).1.sw.ctr.urgentDrop =
      if s.publishStream ≠ none ∧ s.trip.levels.pub ≠ s.trip.compute.pub then bump s.sw.ctr.urgentDrop
      else s.sw.ctr.urgentDrop := by
  have set : ForwardHeld (s.setTrip { s.trip with levels := s.trip.compute }) := by
    obtain ⟨o, hf, hx⟩ := h
    exact ⟨o, hf, by cases o <;> exact hx⟩
  have sw := levelChange_held set s.trip.levels.eff s.trip.compute.eff
  have trip := levelChange_trip s.trip.levels.eff s.trip.compute.eff
    (s.setTrip { s.trip with levels := s.trip.compute })
  have stream := publishStream_of_station
    (levelChange_level s.trip.levels.eff s.trip.compute.eff
      (s.setTrip { s.trip with levels := s.trip.compute })).station
  simp only [recomputeOnce]
  generalize levelChange s.trip.levels.eff s.trip.compute.eff
    (s.setTrip { s.trip with levels := s.trip.compute }) = u at sw trip stream
  have drop : u.sw.ctr.urgentDrop = s.sw.ctr.urgentDrop := by rw [sw]; rfl
  have sent : u.trip.ctr.sent = s.trip.ctr.sent := by rw [trip]; rfl
  have full : ¬ u.sw.urgent.length < Config.urgentCap := by
    rw [sw]; exact Nat.not_lt.mpr hu
  by_cases hp : s.trip.levels.pub = s.trip.compute.pub
  · simp [hp, drop, sent]
  · rw [if_neg hp]
    unfold originateTrip
    change u.publishStream = s.publishStream at stream
    rw [stream]
    cases hs : s.publishStream with
    | none => simp [drop, sent]
    | some n => simp [queueTrip, full, countUrgentDrop, drop, sent, hp]

/-- RING_CONGESTION newly reported with the urgent queue full: a CHANGE frame it gives rise to is dropped too
(assumption log 36). -/
theorem reportCongestion_full {s : State} (h : ForwardHeld s) (hu : 8 ≤ s.sw.urgent.length)
    (hl : s.trip.isLatched .ringCongestion = false) :
    (reportCongestion s).trip.ctr.sent = s.trip.ctr.sent ∧
    (reportCongestion s).sw.ctr.urgentDrop =
      if s.publishStream ≠ none ∧ s.trip.levels.pub ≠ (s.trip.latch .ringCongestion).compute.pub then
        bump s.sw.ctr.urgentDrop
      else s.sw.ctr.urgentDrop := by
  have set : ForwardHeld (s.setTrip (s.trip.latch .ringCongestion)) := by
    obtain ⟨o, hf, hx⟩ := h
    exact ⟨o, hf, by cases o <;> exact hx⟩
  unfold reportCongestion
  rw [hl, if_neg Bool.false_ne_true]
  exact recomputeOnce_full set hu

end Sys2Proof.Machine
end

