-- ==== Sys2Proof/Proofs/Forwarding.lean ====
section
/-! Frames that go on: in place of their reservation, as the copy being sent, or at the tail of a queue (R21, R36, R37,
R39, R51). -/

namespace Sys2Proof.Machine

/-! ## In place, in the copy, at the tail -/

theorem confirm_map (q : PortId) (f : Frame) (now : Nat) (l : List QItem) :
    l.map (confirmItem q f now) =
      l.map fun j => if j.origin = .reserved q then passingItem f now else j := by
  refine List.map_congr_left fun j _ => ?_
  by_cases h : j.origin = .reserved q <;> simp [confirmItem, QItem.reservedFor, passingItem, h]

/-- No cut-through copy of the frame being received on the port is being sent. -/
def NoCopy (s : State) (q : PortId) : Prop := ∀ o x, (s.port o).tx = some x → x.copyOf ≠ some q

theorem completeCopyOn_other {s : State} {q p : PortId} {f : Frame}
    (h : ∀ x, (s.port p).tx = some x → x.copyOf ≠ some q) : completeCopyOn s q p f = s := by
  unfold completeCopyOn
  split
  · next x hx => rw [if_neg (h x hx)]
  · rfl

/-- The port whose copy of the frame being received gets its body and its check value (R14, R17). -/
def withBody (s : State) (o : PortId) (x : Tx) (f : Frame) : State :=
  s.setPort o { s.port o with tx := some { x with
    frame := { f with hdr := x.frame.hdr }, copyOf := none,
    check := some (checkOf { f with hdr := x.frame.hdr }) } }

theorem completeCopyOn_copy {s : State} {q p : PortId} {f : Frame} {x : Tx}
    (hx : (s.port p).tx = some x) (hc : x.copyOf = some q) :
    completeCopyOn s q p f = withBody s p x f := by
  unfold completeCopyOn
  rw [hx]
  simp only [hc, if_true]
  rfl

/-- The one copy being sent is completed, whichever port sends it. -/
theorem completeCopies {s : State} {q o : PortId} {f : Frame} {x : Tx} (hx : (s.port o).tx = some x)
    (hc : x.copyOf = some q)
    (hy : ∀ y, (s.port (otherPort o)).tx = some y → y.copyOf ≠ some q) :
    completeCopyOn (completeCopyOn s q .a f) q .b f = withBody s o x f := by
  cases o with
  | a =>
    rw [completeCopyOn_copy hx hc]
    exact completeCopyOn_other fun y h => hy y h
  | b =>
    have other : completeCopyOn s q .a f = s := completeCopyOn_other fun y h => hy y h
    rw [other, completeCopyOn_copy hx hc]

theorem completeCopies_none {s : State} {q : PortId} {f : Frame} (h : NoCopy s q) :
    completeCopyOn (completeCopyOn s q .a f) q .b f = s := by
  have a : completeCopyOn s q .a f = s := completeCopyOn_other fun y hy => h .a y hy
  rw [a]
  exact completeCopyOn_other fun y hy => h .b y hy

/-- Busy outputs stay so when queues other than the repeat FIFO change. -/
theorem OutputsBusy.setSw {s : State} (h : OutputsBusy s) {w : Switch} (hr : w.role = s.sw.role)
    (hc : w.counter = s.sw.counter) : OutputsBusy (s.setSw w) :=
  h.of hr (fun hn => hc.trans hn) (fun o ho => by rwa [State.setSw_port]) fun o => by rw [State.setSw_port]

/-! ## Settled as forwarded -/

/-- While the outputs make no choice a forwarded frame goes where `forwardedSw` says, a drop that newly reports
RING_CONGESTION apart (R36, R37, R39). -/
theorem settleForward_busy {s : State} {q : PortId} {f : Frame} (hb : OutputsBusy s)
    (hn : s.resvOf q ≠ .none ∨ (f.hdr.cls ≠ .t ∧ f.hdr.cls ≠ .c) ∨ s.sw.urgent.length < 8 ∨
      s.trip.isLatched .ringCongestion = true) (hc : s.resvOf q = .picked → NoCopy s q) :
    settleForward s q f = s.setSw (forwardedSw q (s.resvOf q) f s.clock s.sw) := by
  have chosen {w : Switch} (hr : w.role = s.sw.role) (hk : w.counter = s.sw.counter) :
      arbitrate (s.setSw w) = s.setSw w := arbitrate_busy (hb.setSw hr hk)
  unfold settleForward forwardedSw
  cases hv : s.resvOf q with
  | held =>
    simp only [confirm_map]
    exact chosen rfl rfl
  | picked => exact completeCopies_none (hc hv)
  | none =>
    dsimp only
    by_cases hu : f.hdr.cls = .t ∨ f.hdr.cls = .c
    · rw [if_pos ((usesUrgent_iff _).mpr hu), if_pos hu]
      unfold placeUrgent
      by_cases hl : s.sw.urgent.length < 8
      · rw [if_pos hl, if_pos (show s.sw.urgent.length < Config.urgentCap from hl)]
        exact chosen rfl rfl
      · rw [if_neg hl, if_neg (show ¬ s.sw.urgent.length < Config.urgentCap from hl)]
        have latched : s.trip.isLatched .ringCongestion = true := by
          rcases hn with hn | ⟨h1, h2⟩ | hn | hn
          · exact absurd hv hn
          · exact absurd hu (not_or.mpr ⟨h1, h2⟩)
          · exact absurd hn hl
          · exact hn
        unfold reportCongestion
        rw [if_pos (show (countUrgentDrop s).trip.isLatched .ringCongestion = true from latched)]
        rfl
    · have hu' : ¬ usesUrgent f.hdr.cls = true := fun h => hu ((usesUrgent_iff _).mp h)
      rw [if_neg hu', if_neg hu]
      unfold placeTransit
      dsimp only
      by_cases hl : queueBytes s.sw.transit + (20 + f.hdr.len) ≤ 4096
      · rw [if_pos hl]
        exact (if_pos (show queueBytes s.sw.transit + (passingItem f s.clock).bytes ≤ Config.transitCap from hl)).trans
          (chosen rfl rfl)
      · rw [if_neg hl]
        exact if_neg (show ¬ queueBytes s.sw.transit + (passingItem f s.clock).bytes ≤ Config.transitCap from hl)

/-- A T or C frame that finds the urgent queue full is dropped, with RING_CONGESTION (R37). -/
theorem settleForward_full {s : State} {q : PortId} {f : Frame} (hv : s.resvOf q = .none)
    (hu : f.hdr.cls = .t ∨ f.hdr.cls = .c) (hl : 8 ≤ s.sw.urgent.length) :
    settleForward s q f = reportCongestion (countUrgentDrop s) := by
  unfold settleForward
  rw [hv]
  dsimp only
  rw [if_pos ((usesUrgent_iff _).mpr hu), placeUrgent,
    if_neg (show ¬ s.sw.urgent.length < Config.urgentCap from Nat.not_lt.mpr hl)]

/-- A reservation that was picked: the copy being sent is completed (R17, R36). -/
theorem settleForward_copy {s : State} {q o : PortId} {f : Frame} {x : Tx} (hv : s.resvOf q = .picked)
    (hx : (s.port o).tx = some x) (hc : x.copyOf = some q)
    (hy : ∀ y, (s.port (otherPort o)).tx = some y → y.copyOf ≠ some q) :
    settleForward s q f = withBody s o x f := by
  unfold settleForward
  rw [hv]
  exact completeCopies hx hc hy

/-- While the outputs make no choice a frame repeated on the counter path goes where `repeatedSw` says (R51). -/
theorem settleCounter_busy {s : State} {q : PortId} {f : Frame} (hb : OutputsBusy s)
    (ha : s.sw.role ≠ .through ∨ s.portA.tx ≠ none ∨ s.portA.side ≠ .usable) (hc : NoCopy s q) :
    settleCounter s q f = s.setSw (repeatedSw q (s.resvOf q) f s.clock s.sw) := by
  have chosen {w : Switch} (hr : w.role = s.sw.role) : arbitrate (s.setSw w) = s.setSw w := by
    obtain ⟨-, o, ho, hx⟩ := hb
    refine arbitrate_busy ⟨?_, o, (hr ▸ ho), by rw [State.setSw_port]; exact hx⟩
    exact .inr (by rw [State.setSw_sw, hr]; exact ha)
  unfold settleCounter repeatedSw
  cases hv : s.resvOf q with
  | held =>
    simp only [confirm_map]
    exact chosen rfl
  | picked => exact completeCopies_none hc
  | none =>
    unfold placeCounter
    dsimp only
    by_cases hl : queueBytes s.sw.counter + (20 + f.hdr.len) ≤ 2048
    · rw [if_pos hl]
      exact (if_pos (show queueBytes s.sw.counter + (passingItem f s.clock).bytes ≤ Config.repeatCap from hl)).trans
        (chosen rfl)
    · rw [if_neg hl]
      exact if_neg (show ¬ queueBytes s.sw.counter + (passingItem f s.clock).bytes ≤ Config.repeatCap from hl)

theorem settleCounter_copy {s : State} {q o : PortId} {f : Frame} {x : Tx} (hv : s.resvOf q = .picked)
    (hx : (s.port o).tx = some x) (hc : x.copyOf = some q)
    (hy : ∀ y, (s.port (otherPort o)).tx = some y → y.copyOf ≠ some q) :
    settleCounter s q f = withBody s o x f := by
  unfold settleCounter
  rw [hv]
  exact completeCopies hx hc hy

/-! ## Frames that pass -/

theorem tapFrame_none {deliver : Bool} {q : PortId} {f : Frame} {s : State}
    (h : tapFind s.sw.tap f.hdr.cls f.hdr.stream = none) : tapFrame deliver q f s = settleForward s q f := by
  unfold tapFrame
  rw [h]

/-- A frame that no unit of the station takes is forwarded at the forward input (R24 to R29). -/
theorem forwardInput_passes {s u : State} {p : PortId} {g : Frame} (hh : g.hdr.hop + 1 < 127)
    (hs : u.station = s.station) (ht : u.sw.tap = s.sw.tap) (h : PassesOn s g) :
    forwardInput p g u = settleForward u p (hopped g) := by
  rw [forwardInput_eq u hh, hs]
  unfold PassesOn at h
  dsimp only at h
  by_cases h0 : s.station.address = 0
  · rw [if_pos h0] at h ⊢
    exact if_neg h
  · rw [if_neg h0] at h ⊢
    obtain ⟨hsrc, hcls⟩ := h
    rw [if_neg hsrc]
    unfold classFrame
    have cls : (hopped g).hdr.cls = g.hdr.cls := rfl
    have dest : (hopped g).hdr.dest = g.hdr.dest := rfl
    have tapped (hn : tapFind s.sw.tap g.hdr.cls g.hdr.stream = none) :
        tapFrame true p (hopped g) u = settleForward u p (hopped g) :=
      tapFrame_none (by rw [ht]; exact hn)
    rw [cls]
    cases hc : g.hdr.cls with
    | k =>
      rw [hc] at hcls
      obtain ⟨h1, h2⟩ := hcls
      simp [corrFrame, settleFrame, dest, hs, h1, h2]
    | m =>
      rw [hc] at hcls
      obtain ⟨h1, h2, h3⟩ := hcls
      have sweep : ¬ (g.hdr.dest = 0 ∧ (mgmtOf g.body).kind = .command) := fun h => h3 ⟨rfl, h⟩
      have body : (hopped g).body = g.body := rfl
      simp only [mgmtFrame, dest, hs, h1, h2, body, sweep, if_false]
    | s =>
      simp only [hc] at hcls tapped
      obtain ⟨h1, h2⟩ := hcls
      dsimp only
      rw [hs]
      exact (if_neg h1).trans (tapped h2)
    | t => simp only [hc] at hcls tapped; exact tapped hcls
    | c => simp only [hc] at hcls tapped; exact tapped hcls
    | i => simp only [hc] at hcls tapped; exact tapped hcls
    | bad n => simp only [hc] at hcls

/-- The body bytes a frame came with are those it is sent with (R14). -/
theorem sentBytes_readFrame (bytes : List Byte) (reading : Body) :
    sentBytes (readFrame bytes reading) = bodyBytes bytes := by
  have kept (cls : FrameClass) (b : List Byte) :
      (keptBytes (bodyOf cls b reading) b).getD (wireBody (bodyOf cls b reading)) = b := by
    unfold bodyOf
    split <;> first | rfl | (split <;> rfl)
  exact kept _ _

/-! ## The end of the reception -/

theorem closeReception_setSw (s : State) (p : PortId) (w : Switch) :
    closeReception p (s.setSw w) = (s.closed p).setSw w := by
  cases p <;> rfl

theorem closeReception_reception (s : State) (p : PortId) :
    ((closeReception p s).port p).reception = none := by
  simp [closeReception]

theorem arrived_resvOf (s : State) (m : Moment) (p q : PortId) :
    (s.arrived m p).resvOf q = s.resvOf q := by
  cases p <;> cases q <;> rfl

theorem arrived_tx (s : State) (m : Moment) (p o : PortId) :
    ((s.arrived m p).port o).tx = (s.port o).tx ∧ ((s.arrived m p).port o).side = (s.port o).side := by
  cases p <;> cases o <;> exact ⟨rfl, rfl⟩

theorem arrived_trip (s : State) (m : Moment) (p : PortId) : (s.arrived m p).trip = s.trip := by
  cases p <;> rfl

theorem OutputsBusy.arrived {s : State} (h : OutputsBusy s) (m : Moment) (p : PortId) :
    OutputsBusy (s.arrived m p) :=
  h.of (by rw [arrived_sw]) (fun hn => by rw [arrived_sw]; exact hn)
    (fun o ho => by rwa [(arrived_tx s m p o).1]) fun o => (arrived_tx s m p o).2

theorem arrived_noCopy {s : State} {q : PortId} (h : NoCopy s q) (m : Moment) (p : PortId) :
    NoCopy (s.arrived m p) q := fun o x hx => h o x (by rwa [(arrived_tx s m p o).1] at hx)

/-- Setting a port delivers nothing. -/
theorem notDelivered_setPort (s : State) (p : PortId) (x : Port) : NotDelivered s (s.setPort p x) := by
  obtain ⟨control, station⟩ := setPort_control s p x
  exact notDelivered_of_control control (by rw [station])

theorem TripWhole.tree_whole {s : State} (h : TripWhole s) : TreeWhole s.trip := h.tree

end Sys2Proof.Machine

open Sys2Proof Sys2Proof.Machine

/-- Settles O19: by what was held for the frame, its reservation, its copy or nothing. -/
theorem frameForwarded : Obligations.FrameForwarded := by
  intro m p s bytes reading hg hh hb f u c use
  have run : exec c s = .next (closeReception p (inputOf use p (readFrame bytes reading) u)) :=
    exec_good reading hg
  have busy : OutputsBusy u := hb.arrived m p
  have resv : u.resvOf p = s.resvOf p := arrived_resvOf s m p p
  have sw : u.sw = s.sw := arrived_sw s m p
  have trip : u.trip = s.trip := arrived_trip s m p
  have station : u.station = s.station := arrived_station s m p
  have tx (o : PortId) : (u.port o).tx = (s.port o).tx := (arrived_tx s m p o).1
  have forwards (h : use = .forwardInput ∧ PassesOn s (readFrame bytes reading)) :
      inputOf use p (readFrame bytes reading) u = settleForward u p f := by
    rw [h.1]
    exact forwardInput_passes hh station (by rw [sw]) h.2
  have repeats (h : use = .counterInput) :
      inputOf use p (readFrame bytes reading) u = settleCounter u p f := by
    rw [h]
    exact if_neg (show ¬ Config.hopLimit ≤ _ from Nat.not_le.mpr hh)
  refine ⟨fun hf => ⟨fun hn hc => ?_, fun hu hv hl hw => ?_⟩, fun hk ha hc => ?_, fun hk hv o x hx hc hy => ?_⟩
  · rw [run, forwards hf, settleForward_busy busy (by rw [resv, sw, trip]; exact hn)
      (fun _ => arrived_noCopy hc m p), closeReception_setSw, resv, sw]
  · rw [run, forwards hf, settleForward_full (by rw [resv, hv]) hu (by rw [sw]; exact hl)]
    have whole : TreeWhole (countUrgentDrop u).trip := by
      rw [show (countUrgentDrop u).trip = s.trip from trip]
      exact hw.tree_whole
    refine ⟨_, rfl, ?_, ?_, fun hn => ?_⟩
    · rw [closeReception, State.setPort_trip]
      exact (reportCongestion_grows whole).2
    · refine .trans ?_ (notDelivered_setPort _ p _)
      refine .trans ?_ (notDelivered_reportCongestion _)
      exact (notDelivered_setPort _ p _).trans (ringOnly_countSw u _).notDelivered
    · have port (o : PortId) : (countUrgentDrop u).port o = u.port o := by cases o <;> rfl
      have held : ForwardHeld (countUrgentDrop u) :=
        (busy.of (t := countUrgentDrop u) rfl id (fun o h => by rwa [port]) fun o => by rw [port]).held
      obtain ⟨-, drop⟩ := reportCongestion_full held (by simpa [countUrgentDrop, sw] using hl)
        (by simpa [countUrgentDrop, trip] using hn)
      rw [closeReception, State.setPort_sw, drop]
      simp only [countUrgentDrop, State.countSw_sw, State.countSw_trip, trip, sw]
      have stream : (u.countSw fun c => { c with urgentDrop := bump c.urgentDrop }).publishStream =
          s.publishStream := by
        unfold State.publishStream
        rw [State.countSw_station, station]
      rw [stream]
  · rw [run, repeats hk, settleCounter_busy busy ?_ (arrived_noCopy hc m p), closeReception_setSw, resv, sw]
    have a := arrived_tx s m p .a
    simp only [State.port_a] at a
    rw [sw, a.1, a.2]
    exact ha
  · have body : checkOf { f with hdr := x.frame.hdr } =
        crc32 (headerBytes x.frame.hdr ++ bodyBytes bytes) := by
      rw [← sentBytes_readFrame bytes reading]; rfl
    have settled : inputOf use p (readFrame bytes reading) u = withBody u o x f := by
      rcases hk with hk | hk
      · rw [repeats hk]
        exact settleCounter_copy (resv.trans hv) ((tx o).trans hx) hc fun y h => hy y (by rwa [tx] at h)
      · rw [forwards hk]
        exact settleForward_copy (resv.trans hv) ((tx o).trans hx) hc fun y h => hy y (by rwa [tx] at h)
    rw [run, settled, withBody, body]
    rfl
end

