-- ==== Sys2Proof/Proofs/RemoteTrips.lean ====
section
/-! T frames: the refresh timer, entries that fall silent, and the remote trip table (R161 to R164). -/

namespace Sys2Proof.Machine

/-! ## The remote trip table -/

theorem remoteFind_cons (e : RemoteEntry) (rs : List RemoteEntry) (k : Nat) :
    remoteFind (e :: rs) k = if e.source = k then some e else remoteFind rs k := by
  unfold remoteFind
  by_cases h : e.source = k
  · rw [List.find?_cons_of_pos (by simpa using h), if_pos h]
  · rw [List.find?_cons_of_neg (by simpa using h), if_neg h]

theorem remoteFind_insert_same (r : RemoteEntry) (rs : List RemoteEntry) :
    remoteFind (remoteInsert r rs) r.source = some r := by
  induction rs with
  | nil => rw [remoteInsert, remoteFind_cons, if_pos rfl]
  | cons e rs ih =>
    unfold remoteInsert
    split
    · rw [remoteFind_cons, if_pos rfl]
    · split
      · rw [remoteFind_cons, if_pos rfl]
      · next hne => rw [remoteFind_cons, if_neg (Ne.symm hne), ih]

theorem remoteFind_insert_other (r : RemoteEntry) (rs : List RemoteEntry) {k : Nat} (h : k ≠ r.source) :
    remoteFind (remoteInsert r rs) k = remoteFind rs k := by
  induction rs with
  | nil => rw [remoteInsert, remoteFind_cons, if_neg (Ne.symm h)]
  | cons e rs ih =>
    unfold remoteInsert
    split
    · rw [remoteFind_cons, if_neg (Ne.symm h)]
    · split
      · next heq =>
        rw [remoteFind_cons, if_neg (Ne.symm h), remoteFind_cons, if_neg fun he => h (by rw [heq, ← he])]
      · rw [remoteFind_cons, ih, remoteFind_cons]

theorem mem_remoteInsert {r y : RemoteEntry} {rs : List RemoteEntry} (h : y ∈ remoteInsert r rs) :
    y = r ∨ y ∈ rs := by
  induction rs with
  | nil => exact .inl (by simpa [remoteInsert] using h)
  | cons e rs ih =>
    unfold remoteInsert at h
    split at h
    · simpa using h
    · split at h
      · rcases List.mem_cons.mp h with h | h
        · exact .inl h
        · exact .inr (List.mem_cons_of_mem e h)
      · rcases List.mem_cons.mp h with rfl | h
        · exact .inr (List.mem_cons_self ..)
        · exact (ih h).imp id (List.mem_cons_of_mem e)

theorem remoteSorted_insert (r : RemoteEntry) {rs : List RemoteEntry} (h : RemoteSorted rs) :
    RemoteSorted (remoteInsert r rs) := by
  induction rs with
  | nil => exact List.pairwise_singleton _ _
  | cons e rs ih =>
    have hrs := h
    unfold RemoteSorted at h
    rw [List.pairwise_cons] at h
    obtain ⟨he, hs⟩ := h
    unfold remoteInsert
    split
    · next hlt =>
      refine List.pairwise_cons.mpr ⟨fun y hy => ?_, hrs⟩
      rcases List.mem_cons.mp hy with rfl | hy
      · exact hlt
      · exact hlt.trans (he y hy)
    · split
      · next heq => exact List.pairwise_cons.mpr ⟨fun y hy => by rw [heq]; exact he y hy, hs⟩
      · next hlt hne =>
        refine List.pairwise_cons.mpr ⟨fun y hy => ?_, ih hs⟩
        rcases mem_remoteInsert hy with rfl | hy
        · omega
        · exact he y hy

theorem remoteErase_eq (rs : List RemoteEntry) (k : Nat) :
    remoteErase rs k = rs.filter fun y => decide (y.source ≠ k) := by
  unfold remoteErase
  congr 1
  funext y
  by_cases h : y.source = k <;> simp [h]

theorem remoteFind_filter (rs : List RemoteEntry) (k : Nat) :
    remoteFind (rs.filter fun y => decide (y.source ≠ k)) k = none := by
  unfold remoteFind
  rw [List.find?_eq_none]
  intro y hy
  simpa using (List.mem_filter.mp hy).2

/-! ## T frames taken -/

/-- The entry a T frame gives its source (R163). -/
def tripEntry (src : Nat) (b : TripBody) (s : State) : RemoteEntry :=
  { source := src, level := b.level, code := b.code, last := s.clock, stale := false }

/-- A T frame above level 0: its entry, and a recomputation where the entry is new or its level another (R163). -/
theorem takeTrip_raised {b : TripBody} (h : b.level ≠ .clear) (src : Nat) (s : State) :
    let s' := s.setTrip { s.trip with remote := remoteInsert (tripEntry src b s) s.trip.remote }
    takeTrip src b s =
      if (remoteFind s.trip.remote src).map (·.level) = some b.level then s' else recompute s' := by
  unfold takeTrip
  rw [if_neg h]
  rfl

theorem takeTrip_absent {b : TripBody} (h : b.level = .clear) {src : Nat} {s : State}
    (hn : remoteFind s.trip.remote src = none) : takeTrip src b s = s := by
  simp only [takeTrip, h, hn, if_true]

theorem takeTrip_removed {b : TripBody} (h : b.level = .clear) {src : Nat} {s : State} {x : RemoteEntry}
    (hx : remoteFind s.trip.remote src = some x) : takeTrip src b s =
      recompute (s.setTrip { s.trip with remote := remoteErase s.trip.remote src }) := by
  simp only [takeTrip, h, hx, if_true]

theorem recompute_remote (s : State) : (recompute s).trip.remote = s.trip.remote := by
  rw [(recompute_level s).trip]

theorem takeTrip_remote {b : TripBody} (h : b.level ≠ .clear) (src : Nat) (s : State) :
    (takeTrip src b s).trip.remote = remoteInsert (tripEntry src b s) s.trip.remote := by
  rw [takeTrip_raised h]
  split
  · rfl
  · rw [recompute_remote]; rfl

/-! ## The refresh timer -/

/-- The state whose refresh timer has restarted (R162). -/
def refreshRestarted (s : State) : State :=
  s.setTrip { s.trip with refreshAt := s.clock + s.station.cfg.refresh * Config.msec }

theorem refreshRestarted_ring (s : State) :
    SameMoment s (refreshRestarted s) ∧ SameRing s (refreshRestarted s) :=
  ⟨⟨rfl, rfl, rfl, rfl, rfl⟩, ⟨.refl _, .refl _, rfl, rfl, rfl⟩⟩

theorem exec_refreshTimer (m : Moment) (s : State) : exec (.refreshTimerExpiry m) s =
    .next (if s.trip.refreshAt ≤ max s.clock m.time then sendTrip true (refreshRestarted (s.tick m))
      else s.tick m) := rfl

theorem sendTrip_unpublished {s : State} (h : s.publishStream = none) (r : Bool) : sendTrip r s = s := by
  unfold sendTrip originateTrip
  rw [h]
  rfl

/-- The state in which a T frame waits at the urgent queue's tail (R37, R161). -/
def tripQueued (s : State) (stream : Nat) (b : TripBody) : State :=
  ((s.setSw { s.sw with
    urgent := s.sw.urgent ++ [ownItem s .t stream 63 4 (.bytes (tripBytes b))] }).nextSeq).setTrip
    { s.trip with ctr := { s.trip.ctr with sent := bump s.trip.ctr.sent } }

theorem queueTrip_room {s : State} (h : s.sw.urgent.length < 8) (stream : Nat) (b : TripBody) :
    queueTrip s stream b = (arbitrate (tripQueued s stream b), false) :=
  if_pos (show s.sw.urgent.length < Config.urgentCap from h)

theorem queueTrip_full {s : State} (h : 8 ≤ s.sw.urgent.length) (stream : Nat) (b : TripBody) :
    queueTrip s stream b = (countUrgentDrop s, true) :=
  if_neg (show ¬ s.sw.urgent.length < Config.urgentCap from Nat.not_lt.mpr h)

theorem sendTrip_room {s : State} {stream : Nat} (hp : s.publishStream = some stream)
    (h : s.sw.urgent.length < 8) (r : Bool) :
    sendTrip r s = arbitrate (tripQueued s stream (s.tripBody r)) := by
  unfold sendTrip originateTrip
  rw [hp]
  dsimp only
  rw [queueTrip_room h]
  rfl

theorem sendTrip_full {s : State} {stream : Nat} (hp : s.publishStream = some stream)
    (h : 8 ≤ s.sw.urgent.length) (r : Bool) :
    sendTrip r s = reportCongestion (countUrgentDrop s) := by
  unfold sendTrip originateTrip
  rw [hp]
  dsimp only
  rw [queueTrip_full h]
  rfl

theorem publishStream_some {s : State} (ha : s.station.address ≠ 0) :
    s.publishStream = s.station.cfg.tripStream := if_neg ha

/-- The T frame queued changes the urgent queue, the sequence counter and TRIP_SENT, no ring side and no other
block. -/
theorem tripQueued_ring (s : State) (stream : Nat) (b : TripBody) :
    SameMoment s (tripQueued s stream b) ∧ SameRing s (tripQueued s stream b) :=
  ⟨⟨rfl, rfl, rfl, rfl, rfl⟩, ⟨.refl _, .refl _, rfl, rfl, rfl⟩⟩

theorem OutputsBusy.tripQueued {s : State} (h : OutputsBusy s) (stream : Nat) (b : TripBody) :
    OutputsBusy (tripQueued s stream b) := by
  refine h.of rfl id (fun o ho => ?_) fun o => ?_ <;> cases o <;> first | exact ho | rfl

/-! ## Silence -/

theorem exec_remoteEntryStale {m : Moment} {s : State} {source : Nat} {x : RemoteEntry}
    (h : remoteFind s.trip.remote source = some x) : exec (.remoteEntryStale m source) s =
      .next (if !x.stale && remoteSilent (max s.clock m.time) s.station.cfg.refresh x then
        staleEntry source (s.tick m) else s.tick m) := by
  simp only [exec, execRemoteEntryStale, State.tick_trip, h]
  rfl

theorem remoteSilent_iff (clock rf : Nat) (x : RemoteEntry) :
    remoteSilent clock rf x = true ↔ x.last + 4 * rf * 100000 ≤ clock := decide_eq_true_iff

end Sys2Proof.Machine

open Sys2Proof Sys2Proof.Machine

/-- Settles O47: the refresh timer, the silence of an entry, and a T frame taken. -/
theorem tripFramesAndStale : Obligations.TripFramesAndStale := by
  refine ⟨fun m s => ?_, fun src b s => ?_⟩
  · intro now rf restarted
    have run := exec_refreshTimer m s
    have restart : refreshRestarted (s.tick m) = restarted := rfl
    rw [restart] at run
    have stream (ha : s.station.address ≠ 0) : restarted.publishStream = s.station.cfg.tripStream :=
      publishStream_some (s := restarted) ha
    refine ⟨fun hn => ?_, fun hd hp => ?_, fun hd ha ht hl => ?_, fun hd ha ht hl => ?_, fun source x hx => ⟨?_, ?_⟩⟩
    · rw [run, if_neg (Nat.not_le.mpr hn)]
    · rw [run, if_pos hd, sendTrip_unpublished]
      by_cases ha : s.station.address = 0
      · exact if_pos ha
      · rw [stream ha]
        exact hp.resolve_left ha
    · obtain ⟨n, hn⟩ := Option.ne_none_iff_exists'.mp ht
      have hs : restarted.publishStream = some n := by rw [stream ha, hn]
      have ring := arbitrate_ring (tripQueued restarted n (restarted.tripBody true))
      obtain ⟨moment, same⟩ := tripQueued_ring restarted n (restarted.tripBody true)
      obtain ⟨moment', same'⟩ := refreshRestarted_ring (s.tick m)
      rw [run, if_pos hd, sendTrip_room hs hl]
      refine ⟨_, rfl, ring.station, ring.control.trip, moment'.trans (moment.trans ring.moment),
        same'.trans (same.trans ring.ring), ring.control.gen, ring.control.ctx, ring.control.axes,
        ring.control.drive, ring.control.image, ring.control.screen, fun k hk hb => ?_⟩
      have busy : OutputsBusy restarted :=
        hb.of rfl id (fun o ho => by cases o <;> exact ho) fun o => by cases o <;> rfl
      rw [arbitrate_busy (busy.tripQueued n _)]
      rw [hn] at hk
      cases hk
      rfl
    · obtain ⟨n, hn⟩ := Option.ne_none_iff_exists'.mp ht
      have hs : restarted.publishStream = some n := by rw [stream ha, hn]
      intro dropped
      have full : countUrgentDrop restarted = dropped := rfl
      rw [run, if_pos hd, sendTrip_full hs hl, full]
      refine ⟨_, rfl, rfl, reportCongestion_level _, fun hw => ?_, fun hc => ?_, fun hb => ?_⟩
      · exact (reportCongestion_grows (s := dropped) hw.tree_whole).2
      · exact if_pos (show dropped.trip.isLatched .ringCongestion = true from hc)
      · have busy : OutputsBusy dropped :=
          hb.of rfl id (fun o ho => by cases o <;> exact ho) fun o => by cases o <;> rfl
        have published : dropped.publishStream ≠ none := by
          rw [show dropped.publishStream = restarted.publishStream from rfl, hs]; simp
        cases hc : s.trip.isLatched .ringCongestion with
        | true =>
          have same : reportCongestion dropped = dropped :=
            if_pos (show dropped.trip.isLatched .ringCongestion = true from hc)
          exact ⟨by rw [same]; rfl, fun h => by cases h⟩
        | false =>
          obtain ⟨sent, drop⟩ := reportCongestion_full busy.held hl hc
          refine ⟨sent, fun _ => ?_⟩
          rw [drop]
          simp only [published, ne_eq, not_false_eq_true, true_and]
          rfl
    · intro h
      rw [exec_remoteEntryStale hx, if_neg]
      rw [Bool.and_eq_true, remoteSilent_iff]
      rintro ⟨h1, h2⟩
      rcases h with h | h
      · rw [h] at h1; cases h1
      · exact absurd h2 (Nat.not_le.mpr h)
    · intro h1 h2
      rw [exec_remoteEntryStale hx, if_pos]
      · rfl
      · rw [Bool.and_eq_true, remoteSilent_iff, h1]
        exact ⟨rfl, h2⟩
  · intro old t e
    refine ⟨fun hc hn => ?_, fun hc hn => ?_, fun hc => ⟨?_, fun k hk => ?_, fun hs => ?_, fun hl => ?_, fun hl => ?_⟩⟩
    · exact takeTrip_absent hc hn
    · obtain ⟨x, hx⟩ := Option.ne_none_iff_exists'.mp hn
      have ht : t = recompute (s.setTrip { s.trip with
          remote := s.trip.remote.filter fun y => decide (y.source ≠ src) }) := by
        rw [show t = _ from takeTrip_removed hc hx, ← remoteErase_eq]
      rw [ht]
      refine ⟨recompute_level _, recompute_levels _, ?_⟩
      rw [recompute_remote]
      exact remoteFind_filter _ _
    · rw [show t.trip.remote = _ from takeTrip_remote hc src s]
      exact remoteFind_insert_same e _
    · rw [show t.trip.remote = _ from takeTrip_remote hc src s]
      exact remoteFind_insert_other e _ hk
    · rw [show t.trip.remote = _ from takeTrip_remote hc src s]
      exact remoteSorted_insert _ hs
    · have ht : t = _ := takeTrip_raised hc src s
      rw [if_pos hl] at ht
      rw [ht]
      rfl
    · have ht : t = _ := takeTrip_raised hc src s
      rw [if_neg hl] at ht
      rw [show t.trip.remote = _ from takeTrip_remote hc src s, ht]
      exact ⟨recompute_level _, recompute_levels _⟩
end

