-- ==== Sys2Proof/Proofs/Corrections.lean ====
section
/-! Corrections: one record, records in order, and a K frame at the forward input (R10, R25, R103, R104). -/

namespace Sys2Proof.Machine

/-! ## One record -/

/-- The correction target a record asks for, limited to the maximum (R103). -/
def corrTarget (r : AxisRecord) (amount : Int) : Int :=
  clampInt (-(r.cfg.corrMax : Int)) r.cfg.corrMax (r.corrTarget + amount)

/-- The axis table once a record has acted on a COUPLED axis (R103). -/
def correctedAxes (t : AxisTable) (a : Fin 4) (amount : Int) : AxisTable :=
  let r := t.recs.get a
  { t with
    recs := t.recs.set a { r with corrTarget := corrTarget r amount },
    ctr := if corrTarget r amount = r.corrTarget + amount then t.ctr
      else { t.ctr with corrClamped := bump t.ctr.corrClamped } }

theorem takeCorrection_ignored {s : State} {c : CorrRec} (h : (s.axis c.axis).state ≠ .coupled) :
    takeCorrection s c = s.setAxes { s.axes with
      ctr := { s.axes.ctr with corrIgnored := bump s.axes.ctr.corrIgnored } } :=
  if_neg h

theorem takeCorrection_coupled {s : State} {c : CorrRec} (h : (s.axis c.axis).state = .coupled) :
    takeCorrection s c =
      reportCorrLimit c.axis (s.setAxes (correctedAxes s.axes c.axis c.amount)) := by
  unfold takeCorrection
  dsimp only
  rw [if_pos h]
  congr 1
  have sum : (s.axis c.axis).corrTarget + c.amount = clampInt (-((s.axis c.axis).cfg.corrMax : Int))
      (s.axis c.axis).cfg.corrMax ((s.axis c.axis).corrTarget + c.amount) ↔
      corrTarget (s.axes.recs.get c.axis) c.amount = (s.axes.recs.get c.axis).corrTarget + c.amount := eq_comm
  unfold correctedAxes
  dsimp only
  by_cases hc : corrTarget (s.axes.recs.get c.axis) c.amount =
      (s.axes.recs.get c.axis).corrTarget + c.amount
  · rw [if_pos (sum.mpr hc), if_pos hc]
    rfl
  · rw [if_neg (sum.not.mpr hc), if_neg hc]
    rfl

/-! ## What a record leaves alone -/

theorem portsStay_takeCorrection (s : State) (c : CorrRec) : PortsStay s (takeCorrection s c) := by
  have set (t : AxisTable) : PortsStay s (s.setAxes t) := .of rfl rfl rfl rfl
  by_cases h : (s.axis c.axis).state = .coupled
  · rw [takeCorrection_coupled h]
    exact (set _).trans (portsStay_setCondition _ _ _)
  · rw [takeCorrection_ignored h]
    exact set _

theorem portsStay_takeCorrections (cs : List CorrRec) (s : State) : PortsStay s (takeCorrections cs s) :=
  .foldl portsStay_takeCorrection cs s

/-! ## Settling a frame that is not urgent -/

/-- A frame of another class than T and C is settled among queues and frames being sent alone (R36). -/
theorem settleForward_ring {s : State} {q : PortId} {f : Frame} (h : usesUrgent f.hdr.cls = false) :
    RingOnly s (settleForward s q f) := by
  unfold settleForward
  split
  · exact (ringOnly_setSw s _).trans (arbitrate_ring _)
  · exact (completeCopyOn_ring s q .a f).trans (completeCopyOn_ring _ q .b f)
  · rw [h, if_neg Bool.false_ne_true]
    exact placeTransit_ring s f

theorem completeCopyOn_sw (s : State) (q p : PortId) (f : Frame) :
    (completeCopyOn s q p f).sw = s.sw := by
  unfold completeCopyOn
  split
  · split <;> simp
  · rfl

/-- While the outputs make no choice the queues are then as `forwardedSw` says, a copy being sent or not. -/
theorem settleForward_sw {s : State} {q : PortId} {f : Frame} (hb : OutputsBusy s)
    (h : usesUrgent f.hdr.cls = false) :
    (settleForward s q f).sw = forwardedSw q (s.resvOf q) f s.clock s.sw := by
  have plain : ¬ (f.hdr.cls = .t ∨ f.hdr.cls = .c) := fun hu => by
    rw [(usesUrgent_iff _).mpr hu] at h; cases h
  by_cases hv : s.resvOf q = .picked
  · unfold settleForward
    rw [hv]
    exact (completeCopyOn_sw _ q .b f).trans (completeCopyOn_sw s q .a f)
  · rw [settleForward_busy hb (.inr (.inl (not_or.mp plain))) fun hn => absurd hn hv]
    rfl

theorem setPort_self (s : State) (p : PortId) : s.setPort p (s.port p) = s := by cases p <;> rfl

/-- A frame settled as not forwarded is discarded (R36). -/
theorem settleDrop_discards (s : State) (p : PortId) : DiscardedAs s (settleDrop s p) p id := by
  have h := discarded_as (countedAs_counted (s.port p) id) fun _ => rfl
  rwa [discarded, show counted (s.port p) id = s.port p from rfl, setPort_self] at h

theorem closeReception_control (s : State) (p : PortId) :
    SameControl s (closeReception p s) ∧ (closeReception p s).station = s.station := setPort_control s p _

/-! ## A K frame -/

theorem deliverCorrections_eq {f : Frame} {b : List Byte} {k : CorrBody} (hf : f.body = .bytes b)
    (hk : readCorr b = some k) (s : State) : deliverCorrections s f = takeCorrections k.records s := by
  unfold deliverCorrections
  simp only [hf, hk]

theorem bodyOf_k (b : List Byte) (reading : Body) : bodyOf .k b reading = .bytes b := by
  cases reading <;> rfl

/-- The state once a K frame has acted (R25). -/
def correctedBy (k : CorrBody) (dest own : Nat) (u : State) : State :=
  if dest = own ∨ dest = 63 then takeCorrections k.records u else u

/-- A K frame of another station at the forward input: it acts, and is forwarded unless it is for this station
alone (R25). -/
theorem forwardInput_corr {p : PortId} {g : Frame} {u : State} {b : List Byte} {k : CorrBody}
    (hh : g.hdr.hop + 1 < 127) (ha : u.station.address ≠ 0) (hs : g.hdr.src ≠ u.station.address)
    (hc : g.hdr.cls = .k) (hb : g.body = .bytes b) (hk : readCorr b = some k) :
    forwardInput p g u = settleFrame (g.hdr.dest != u.station.address)
      (correctedBy k g.hdr.dest u.station.address u) p (hopped g) := by
  rw [forwardInput_eq u hh, if_neg ha, if_neg hs]
  have cls : (hopped g).hdr.cls = .k := hc
  have acts : deliverCorrections u (hopped g) = takeCorrections k.records u := deliverCorrections_eq hb hk u
  simp only [classFrame, cls, corrFrame, acts, true_and]
  rfl

end Sys2Proof.Machine

open Sys2Proof Sys2Proof.Machine

/-- Settles O22: one record, then the list of them, then the K frame by its destination. -/
theorem correctionsTaken : Obligations.CorrectionsTaken := by
  refine ⟨fun s c => ?_, fun s cs ds => List.foldl_append, fun m p s bytes reading k hg hu ha => ?_⟩
  · intro r t max sum target full ctr
    refine ⟨fun h => takeCorrection_ignored h, fun h => ?_⟩
    have ht : t = reportCorrLimit c.axis (s.setAxes (correctedAxes s.axes c.axis c.amount)) :=
      takeCorrection_coupled h
    have axes : correctedAxes s.axes c.axis c.amount = { s.axes with
        recs := s.axes.recs.set c.axis { r with corrTarget := target }, ctr := ctr } := rfl
    rw [axes] at ht
    generalize hv : s.setAxes { s.axes with
        recs := s.axes.recs.set c.axis { r with corrTarget := target }, ctr := ctr } = v at ht ⊢
    have own : v.axis c.axis = { r with corrTarget := target } := by
      rw [← hv]; simp [State.axis]
    have other (a : Fin 4) (hne : a ≠ c.axis) : v.axis a = s.axis a := by
      rw [← hv]; simp [State.axis, Four.get_set_other _ _ _ _ hne]
    have limit : atCorrLimit (v.axis c.axis) = decide full := by
      rw [own]
      simp only [atCorrLimit, full, Bool.decide_and]
      rfl
    have trip : v.trip = s.trip := by rw [← hv]; rfl
    rw [reportCorrLimit, limit] at ht
    have kept := notDelivered_setCondition (.correctionLimit c.axis) (decide full) v
    rw [← ht] at kept
    refine ⟨?_, ?_, fun a => ?_, fun a hne => ?_, ?_, ?_, ?_, fun hw => ?_, fun hq => ?_⟩
    · rw [(kept.corr c.axis).1, own]
    · rw [kept.motion, ← hv]; rfl
    · rw [(kept.corr a).2]
      by_cases hne : a = c.axis
      · rw [hne, own]
      · rw [other a hne]
    · rw [(kept.corr a).1, other a hne]
    · rw [kept.ctx, ← hv]; rfl
    · rw [kept.drive, ← hv]; rfl
    · rw [kept.image, ← hv]; rfl
    · have set := setCondition_set (s := v) (by rw [trip]; exact hw.tree_whole)
        (.correctionLimit c.axis) (decide full)
      rw [← ht] at set
      exact ⟨set.present, fun hf => set.latched (decide_eq_true hf)⟩
    · rw [ht, ← trip]
      rcases hq with hf | hl
      · rw [decide_eq_false hf]
        rfl
      · unfold setCondition
        split
        · exact report_latched _ _ (by rw [State.setTrip_trip, isLatched_setCond, trip]; exact hl)
        · rfl
  · intro h u hc hh hs hk v
    have station : u.station = s.station := arrived_station s m p
    have run := exec_good reading hg
    have body : (readFrame bytes reading).body = .bytes (bodyBytes bytes) := by
      rw [← bodyOf_k (bodyBytes bytes) reading, ← hc]; rfl
    have input := forwardInput_corr (p := p) (u := u) hh (by rwa [station]) (by rwa [station]) hc body hk
    have corrected : correctedBy k h.dest u.station.address u = v := by rw [station]; rfl
    rw [hu, inputOf, input, corrected, station] at run
    refine ⟨_, run, ?_⟩
    have stays : PortsStay u v := by
      rw [← corrected, correctedBy]
      split
      · exact portsStay_takeCorrections k.records u
      · exact .refl u
    have clock : v.clock = u.clock := by
      rw [← corrected, correctedBy]
      split
      · exact (sameMoment_of_standing (by simp)).clock
      · rfl
    have plain : usesUrgent (hopped (readFrame bytes reading)).hdr.cls = false := by
      rw [show (hopped (readFrame bytes reading)).hdr.cls = .k from hc]; rfl
    obtain ⟨control, closed⟩ := closeReception_control
      (settleFrame (h.dest != s.station.address) v p (hopped (readFrame bytes reading))) p
    by_cases hd : h.dest = s.station.address
    · have settled : settleFrame (h.dest != s.station.address) v p (hopped (readFrame bytes reading)) =
          settleDrop v p := by simp [settleFrame, hd]
      have as := settleDrop_discards v p
      rw [settled] at control closed ⊢
      refine ⟨as.control.trans control, closed.trans as.station, closeReception_reception _ p,
        fun _ => noReservation_of_sw (by simp [closeReception]) as.noResv, fun hb => ?_⟩
      rw [if_pos hd, closeReception, State.setPort_sw]
      exact as.busy (stays (hb.arrived m p)).2.2
    · have settled : settleFrame (h.dest != s.station.address) v p (hopped (readFrame bytes reading)) =
          settleForward v p (hopped (readFrame bytes reading)) := by simp [settleFrame, hd]
      have ring := settleForward_ring (s := v) (q := p) plain
      rw [settled] at control closed ⊢
      refine ⟨ring.control.trans control, closed.trans ring.station, closeReception_reception _ p,
        fun hn => absurd hn hd, fun hb => ?_⟩
      obtain ⟨portA, portB, busy⟩ := stays (hb.arrived m p)
      have resv : v.resvOf p = s.resvOf p := by
        rw [← arrived_resvOf s m p p]
        unfold State.resvOf
        cases p <;> simp only [State.port_a, State.port_b, portA, portB] <;> rfl
      rw [if_neg hd, closeReception, State.setPort_sw, settleForward_sw busy plain, resv, clock]
      rfl
end

