-- ==== Sys2Proof/Proofs/ImageStream.lean ====
section
/-! The image stream: the frame in assembly queued, and a line placed in it segment by segment (R143 to R145). -/

namespace Sys2Proof.Machine

/-! ## The frame in assembly -/

theorem queueAssembly_empty {s : State} (h : s.image.asm = []) : queueAssembly s = s := by
  unfold queueAssembly
  dsimp only
  rw [h]
  rfl

/-- The state whose assembly has been emptied. -/
def assemblyEmptied (s : State) : State := s.setImage { s.image with asm := [] }

theorem queueAssembly_eq {s : State} (h : s.image.asm ≠ []) : queueAssembly s =
    if s.station.address = 0 then assemblyEmptied s
    else insertLocal (assemblyEmptied s) .i s.image.asmStream 63 (segmentBytes s.image.asm)
      (.image s.image.asm false) := by
  unfold queueAssembly
  dsimp only
  rw [List.isEmpty_eq_false_iff.mpr h]
  rfl

theorem assemblyEmptied_ring (s : State) :
    SameMoment s (assemblyEmptied s) ∧ SameRing s (assemblyEmptied s) :=
  ⟨⟨rfl, rfl, rfl, rfl, rfl⟩, ⟨.refl _, .refl _, rfl, rfl, rfl⟩⟩

theorem queueAssembly_cam (s : State) : (queueAssembly s).image.cam = s.image.cam := by
  by_cases h : s.image.asm = []
  · rw [queueAssembly_empty h]
  · rw [queueAssembly_eq h]
    split
    · rfl
    · rw [(insertLocal_queue _ _ _ _ _ _).control.image]
      rfl

/-! ## A line -/

/-- What queues a frame that is full keeps the camera record. -/
theorem queueFull_cam (z : State) (n : Nat) :
    (if n = 1024 then queueAssembly z else z).image.cam = z.image.cam := by
  split
  · exact queueAssembly_cam z
  · rfl

theorem viewSegment_image (s : State) (k : Nat) (g : Segment) : (viewSegment s k g).image = s.image := by
  unfold viewSegment
  split <;> rfl

theorem placeSegment_cam (s : State) (g : Segment) : (placeSegment s g).image.cam = s.image.cam := by
  unfold placeSegment
  dsimp only
  rw [queueFull_cam, viewSegment_image]
  rfl

/-- A segment placed, with the stream of a camera record (R144, R145). -/
def placedSegment (stream : Nat) (x : State) (g : Segment) : State :=
  let asm := x.image.asm ++ [g]
  let y := x.setImage { x.image with
    asm := asm, asmStream := if x.image.asm = [] then stream else x.image.asmStream }
  let z := if y.screen.panel.viewStream = some stream then
    y.setScreen (y.screen.takeSegment (decide (y.trip.levels.eff ≠ .clear)) g) else y
  if (asm.map fun g => 16 + g.count).sum = 1024 then queueAssembly z else z

theorem placeSegment_eq (x : State) (g : Segment) :
    placeSegment x g = placedSegment x.image.cam.stream x g := by
  have active (y : State) : y.bannerActive = decide (y.trip.levels.eff ≠ .clear) := by
    by_cases h : y.trip.levels.eff = .clear <;> simp [State.bannerActive, h]
  unfold placeSegment placedSegment
  dsimp only
  rw [viewSegment_image]
  simp only [viewSegment, active, List.isEmpty_iff, segmentBytes]
  rfl

theorem foldl_placeSegment {stream : Nat} (gs : List Segment) {x : State} (h : x.image.cam.stream = stream) :
    gs.foldl placeSegment x = gs.foldl (placedSegment stream) x := by
  induction gs generalizing x with
  | nil => rfl
  | cons g gs ih =>
    rw [List.foldl_cons, List.foldl_cons, ih (by rw [placeSegment_cam, h]), placeSegment_eq, h]

/-- The pieces of at most 1,008 pixels a line is cut into (R144). -/
theorem segmentOf_eq (c : CameraRecord) (l : CameraLine) (line : List Byte) (i : Nat) :
    segmentOf c l line (1008 * i) =
      { line := l.num, step := c.lineStep, stamp := l.stamp, offset := 1008 * i,
        count := min 1008 (line.length - 1008 * i), width := line.length,
        pixels := (line.drop (1008 * i)).take 1008 } := by
  simp [segmentOf]

theorem streamLine_off {l : CameraLine} {fresh : Bool} {pixels : List Byte} {s : State}
    (h : s.image.cam.streaming = false ∨ l.num.toNat % s.image.cam.lineStep ≠ 0) :
    streamLine l fresh pixels s = if fresh then queueAssembly s else s := by
  have cam : (if fresh then queueAssembly s else s).image.cam = s.image.cam := by
    split
    · exact queueAssembly_cam s
    · rfl
  unfold streamLine
  dsimp only
  rw [cam, if_neg]
  rintro ⟨h1, h2⟩
  rcases h with h | h
  · rw [h] at h1; cases h1
  · exact h h2

theorem streamLine_on {l : CameraLine} {fresh : Bool} {pixels : List Byte} {s : State}
    (h1 : s.image.cam.streaming = true) (h2 : l.num.toNat % s.image.cam.lineStep = 0) :
    streamLine l fresh pixels s = placeLine l (streamedLine s.image.cam pixels)
      (if fresh then queueAssembly s else s) := by
  have cam : (if fresh then queueAssembly s else s).image.cam = s.image.cam := by
    split
    · exact queueAssembly_cam s
    · rfl
  unfold streamLine
  dsimp only
  rw [cam, if_pos ⟨h1, h2⟩]

end Sys2Proof.Machine

open Sys2Proof Sys2Proof.Machine

/-- Settles O41: the line as cropped, then its segments one after the other. -/
theorem imageStream : Obligations.ImageStream := by
  refine ⟨fun s => ?_, fun l fresh pixels s => ?_⟩
  · intro u emptied
    refine ⟨queueAssembly_empty, fun hn ha => ?_, fun hn ha hl => ?_, fun hn ha hl => ?_⟩
    · rw [queueAssembly_eq hn, if_pos ha]; rfl
    · rw [queueAssembly_eq hn, if_neg ha,
        insertLocal_full (assemblyEmptied s) .i _ _ _ _ none (Nat.not_lt.mpr hl)]
      rfl
    · intro t
      have ht : t = _ := (queueAssembly_eq hn).trans (if_neg ha)
      obtain ⟨moment, ring⟩ := assemblyEmptied_ring s
      have q := insertLocal_queue (assemblyEmptied s) .i u.asmStream 63 (segmentBytes u.asm)
        (.image u.asm false)
      obtain ⟨station, -⟩ := insertLocal_room (assemblyEmptied s) .i u.asmStream 63 (segmentBytes u.asm)
        (.image u.asm false) none hl
      rw [ht]
      refine ⟨moment.trans q.moment, ring.trans q.ring, q.control.image, q.control.gen, q.control.ctx,
        q.control.axes, q.control.drive, q.control.trip, q.control.screen, station, fun hb => ?_⟩
      have busy : OutputsBusy (assemblyEmptied s) :=
        hb.of rfl id (fun o ho => by cases o <;> exact ho) fun o => by cases o <;> rfl
      rw [insertLocal_busy busy .i _ _ _ _ none hl]
      rfl
  · intro c v n px bytes room place piece
    have line : streamedLine c pixels = px := by
      simp [streamedLine, px, n, stripMean]
    have length : px.length = n := by simp [px]
    have pieces (i : Nat) : segmentOf c l px (1008 * i) = piece i := by rw [segmentOf_eq, length]
    have cam : v.image.cam = c := by
      simp only [v]
      split
      · exact queueAssembly_cam s
      · rfl
    have roomCam : room.image.cam = c := by
      simp only [room]
      split
      · exact cam
      · rw [queueAssembly_cam, cam]
    have placed (h1 : c.streaming = true) (h2 : l.num.toNat % c.lineStep = 0) :
        streamLine l fresh pixels s = ((List.range ((n + 1007) / 1008)).map piece).foldl place room := by
      rw [streamLine_on h1 h2, line]
      unfold placeLine
      dsimp only
      rw [length, show (if fresh then queueAssembly s else s) = v from rfl, cam]
      simp only [pieces]
      exact foldl_placeSegment _ (by rw [show (if n + 16 + segmentBytes v.image.asm ≤ 1024 then v
        else queueAssembly v) = room from rfl, roomCam])
    refine ⟨fun h => streamLine_off h, fun h1 h2 => ⟨fun hn hm => ?_, fun _ => placed h1 h2⟩⟩
    rw [placed h1 h2, show (n + 1007) / 1008 = 1 by omega]
    rfl
end

