-- ==== Sys2Proof/Proofs/Repaint.lean ====
section
/-! REPAINT notices: the spans of a stream's stale tiles, and what the repaint timer sends (R11, R40, R178). -/

namespace Sys2Proof.Machine

/-! ## Runs of a row -/

/-- A run under way ends where the rest of the row begins. -/
def RunEnds (col : Nat) (run : Option (Nat × Nat)) : Prop :=
  ∀ c n, run = some (c, n) → 1 ≤ n ∧ c + n = col

theorem runEnds_none (col : Nat) : RunEnds col none := fun _ _ h => by cases h

/-- The run under way with one more tile. -/
def runNext (col : Nat) : Option (Nat × Nat) → Option (Nat × Nat)
  | some (c, n) => some (c, n + 1)
  | none => some (col, 1)

theorem RunEnds.next {col : Nat} {run : Option (Nat × Nat)} (h : RunEnds col run) :
    RunEnds (col + 1) (runNext col run) := by
  intro c n hc
  cases run with
  | none => cases hc; exact ⟨Nat.le_refl 1, rfl⟩
  | some r =>
    obtain ⟨c', n'⟩ := r
    cases hc
    obtain ⟨h1, h2⟩ := h _ _ rfl
    exact ⟨by omega, by omega⟩

theorem runsFrom_true (col : Nat) (run : Option (Nat × Nat)) (bs : List Bool) :
    runsFrom col run (true :: bs) = runsFrom (col + 1) (runNext col run) bs := by
  cases run <;> rfl

theorem runsFrom_false (col : Nat) (run : Option (Nat × Nat)) (bs : List Bool) :
    runsFrom col run (false :: bs) = run.toList ++ runsFrom (col + 1) none bs := rfl

/-- Where the first run can begin. -/
def runStart (col : Nat) : Option (Nat × Nat) → Nat
  | some (c, _) => c
  | none => col

theorem runStart_le {col : Nat} {run : Option (Nat × Nat)} (h : RunEnds col run) :
    runStart col run ≤ col := by
  cases run with
  | none => exact Nat.le_refl _
  | some r =>
    obtain ⟨h1, h2⟩ := h r.1 r.2 rfl
    simp only [runStart]
    omega

theorem runStart_next (col : Nat) (run : Option (Nat × Nat)) :
    runStart (col + 1) (runNext col run) = runStart col run := by
  cases run <;> rfl

/-- Every run has a tile and lies within the row. -/
theorem runsFrom_bounds {col : Nat} {run : Option (Nat × Nat)} (bs : List Bool) (h : RunEnds col run) :
    ∀ r ∈ runsFrom col run bs, 1 ≤ r.2 ∧ runStart col run ≤ r.1 ∧ r.1 + r.2 ≤ col + bs.length := by
  induction bs generalizing col run with
  | nil =>
    intro r hr
    cases run with
    | none => cases hr
    | some x =>
      obtain rfl : r = x := by simpa [runsFrom] using hr
      obtain ⟨h1, h2⟩ := h r.1 r.2 rfl
      exact ⟨h1, Nat.le_refl _, by simp [h2]⟩
  | cons b bs ih =>
    intro r hr
    cases b with
    | true =>
      rw [runsFrom_true] at hr
      obtain ⟨h1, h2, h3⟩ := ih h.next r hr
      rw [runStart_next] at h2
      exact ⟨h1, h2, by rw [List.length_cons]; omega⟩
    | false =>
      rw [runsFrom_false, List.mem_append] at hr
      rcases hr with hr | hr
      · obtain ⟨h1, h2⟩ := h r.1 r.2 (by simpa using hr)
        have hs : runStart col run = r.1 := by
          rw [show run = some r by simpa using hr]; rfl
        exact ⟨h1, by omega, by rw [List.length_cons]; omega⟩
      · obtain ⟨h1, h2, h3⟩ := ih (runEnds_none _) r hr
        have hs := runStart_le h
        simp only [runStart] at h2
        exact ⟨h1, by omega, by rw [List.length_cons]; omega⟩

/-- Runs are apart and in order. -/
theorem runsFrom_pairwise {col : Nat} {run : Option (Nat × Nat)} (bs : List Bool) (h : RunEnds col run) :
    (runsFrom col run bs).Pairwise fun x y => x.1 + x.2 < y.1 := by
  induction bs generalizing col run with
  | nil => cases run <;> simp [runsFrom]
  | cons b bs ih =>
    cases b with
    | true =>
      rw [runsFrom_true]
      exact ih h.next
    | false =>
      rw [runsFrom_false]
      refine List.pairwise_append.mpr ⟨by cases run <;> simp, ih (runEnds_none _), fun x hx y hy => ?_⟩
      obtain ⟨-, h2⟩ := h x.1 x.2 (by simpa using hx)
      obtain ⟨-, h4, -⟩ := runsFrom_bounds bs (runEnds_none (col + 1)) y hy
      simp only [runStart] at h4
      omega

/-- A place is in a run exactly where it is in the run under way or marked in the rest of the row. -/
theorem runsFrom_covers {col : Nat} {run : Option (Nat × Nat)} (bs : List Bool) (h : RunEnds col run)
    (j : Nat) : (∃ r ∈ runsFrom col run bs, r.1 ≤ j ∧ j < r.1 + r.2) ↔
      (∃ r ∈ run, r.1 ≤ j ∧ j < r.1 + r.2) ∨ (col ≤ j ∧ bs[j - col]? = some true) := by
  induction bs generalizing col run with
  | nil => simp [runsFrom]
  | cons b bs ih =>
    have rest (hj : col < j) : (b :: bs)[j - col]? = bs[j - (col + 1)]? := by
      rw [show j - col = (j - (col + 1)) + 1 by omega, List.getElem?_cons_succ]
    have rest_iff : (col ≤ j ∧ (b :: bs)[j - col]? = some true) ↔
        (j = col ∧ b = true) ∨ (col + 1 ≤ j ∧ bs[j - (col + 1)]? = some true) := by
      rcases Nat.lt_trichotomy j col with hj | rfl | hj
      · constructor
        · rintro ⟨h1, -⟩; omega
        · rintro (⟨h1, -⟩ | ⟨h1, -⟩) <;> omega
      · simp
      · rw [rest hj]
        constructor
        · rintro ⟨-, h2⟩; exact .inr ⟨hj, h2⟩
        · rintro (⟨h1, -⟩ | ⟨h1, h2⟩)
          · omega
          · exact ⟨by omega, h2⟩
    rw [rest_iff]
    cases b with
    | true =>
      rw [runsFrom_true, ih h.next, ← or_assoc]
      refine or_congr_left ?_
      cases run with
      | none => simp [runNext]; omega
      | some r =>
        obtain ⟨h1, h2⟩ := h r.1 r.2 rfl
        simp [runNext]
        omega
    | false =>
      rw [runsFrom_false]
      simp only [List.mem_append, or_and_right, exists_or, ih (runEnds_none (col + 1))]
      simp

/-! ## Stale spans -/

/-- Which tiles of a row are stale for a stream. -/
def staleRow (u : ScreenUnit) (stream row : Nat) : List Bool :=
  ((u.tiles.drop (row * u.panel.width)).take u.panel.width).map (staleFor stream)

theorem mem_staleSpans {u : ScreenUnit} {stream : Nat} {sp : Span} : sp ∈ u.staleSpans stream ↔
    sp.row < u.panel.height ∧ (sp.col, sp.count) ∈ runsFrom 0 none (staleRow u stream sp.row) := by
  simp only [ScreenUnit.staleSpans, List.mem_flatMap, List.mem_range, List.mem_map, staleRow]
  constructor
  · rintro ⟨row, hr, r, hm, rfl⟩
    exact ⟨hr, hm⟩
  · rintro ⟨hr, hm⟩
    exact ⟨sp.row, hr, _, hm, rfl⟩

theorem staleRow_length_le (u : ScreenUnit) (stream row : Nat) :
    (staleRow u stream row).length ≤ u.panel.width := by
  simp [staleRow]

theorem staleSpans_pairwise (u : ScreenUnit) (stream : Nat) : (u.staleSpans stream).Pairwise fun x y =>
    x.row < y.row ∨ (x.row = y.row ∧ x.col + x.count < y.col) := by
  unfold ScreenUnit.staleSpans
  refine List.pairwise_flatMap.mpr ⟨fun row _ => ?_, List.pairwise_lt_range.imp fun {a b} hab x hx y hy => ?_⟩
  · exact List.pairwise_map.mpr ((runsFrom_pairwise _ (runEnds_none 0)).imp fun h => .inr ⟨rfl, h⟩)
  · obtain ⟨r, -, rfl⟩ := List.mem_map.mp hx
    obtain ⟨r', -, rfl⟩ := List.mem_map.mp hy
    exact .inl hab

theorem staleFor_iff (stream : Nat) (e : TileEntry) :
    staleFor stream e = true ↔ e.source = .stream stream ∧ e.stale = true := by
  simp [staleFor]

/-- A tile of the row as the row's list has it. -/
theorem staleRow_getElem? {u : ScreenUnit} {row col : Nat} (stream : Nat) (hc : col < u.panel.width)
    (hl : row * u.panel.width + col < u.tiles.length) : (staleRow u stream row)[col]? =
      some (staleFor stream (u.tiles.getD (row * u.panel.width + col) emptyTile)) := by
  simp [staleRow, List.getElem?_take_of_lt hc, List.getD_eq_getElem?_getD, List.getElem?_eq_getElem hl]

/-! ## Notices -/

/-- A notice names the spans, or all tiles where there are more than 64 spans (R11). -/
theorem repaintBody_eq (u : ScreenUnit) (stream : Nat) : u.repaintBody stream =
    .repaint stream (decide (64 < (u.staleSpans stream).length))
      (if 64 < (u.staleSpans stream).length then [] else u.staleSpans stream) := by
  unfold ScreenUnit.repaintBody
  dsimp only
  split
  · next h => rw [decide_eq_true h]
  · next h => rw [decide_eq_false h]

theorem repaintLen_repaint (stream : Nat) (all : Bool) (spans : List Span) :
    repaintLen (.repaint stream all spans) = 4 + 3 * spans.length := rfl

/-- The notice of a stream with its place in the sequence (R7, R11). -/
def noticeItem (s : State) (i : Nat) (x : ScreenStream) : QItem :=
  { frame :=
      { hdr := { cls := .s, stream := x.stream, dest := x.owner, src := s.station.address, tag := s.tag,
                 seq := s.station.seq + BitVec.ofNat 16 i, hop := 0, age := 0,
                 len := repaintLen (s.screen.repaintBody x.stream) },
        body := s.screen.repaintBody x.stream },
    since := s.clock, origin := .own, ready := true }

/-- The state once items have joined the local S queue, each with a sequence number, and others were dropped (R40). -/
def joinedS (s : State) (items : List QItem) (drops : Nat) : State :=
  (s.setSw { s.sw with
    localS := s.sw.localS ++ items,
    ctr := { s.sw.ctr with sDrop := min (s.sw.ctr.sDrop + drops) 65535 } }).setStation
    { s.station with seq := s.station.seq + BitVec.ofNat 16 items.length }

/-- The state once the notices of some streams were sent while the outputs make no choice: those that found room
wait, the others are counted S_DROP (R40). -/
def noticesSent (s : State) (due : List ScreenStream) : State :=
  let sent := due.take (8 - s.sw.localS.length)
  joinedS s (sent.mapIdx (noticeItem s)) (due.length - sent.length)

/-- The state in which one notice has joined the local S queue. -/
def noticeQueued (s : State) (e : ScreenStream) : State :=
  (s.setSw { s.sw with localS := s.sw.localS ++ [noticeItem s 0 e] }).nextSeq

/-- The streams with stale tiles. -/
def dueStreams (u : ScreenUnit) : List ScreenStream :=
  u.streams.filter fun x => decide (u.staleCount x.stream ≠ 0)

theorem sendNotice_fresh {s : State} {e : ScreenStream} (h : s.screen.staleCount e.stream = 0) :
    sendNotice s e = s := if_pos h

theorem sendNotice_screen (s : State) (e : ScreenStream) : (sendNotice s e).screen = s.screen := by
  unfold sendNotice
  split
  · rfl
  · exact (insertLocal_queue s _ _ _ _ _).control.screen

/-- Streams without stale tiles send nothing. -/
theorem foldl_sendNotice_due (l : List ScreenStream) (s : State) : l.foldl sendNotice s =
    (l.filter fun x => decide (s.screen.staleCount x.stream ≠ 0)).foldl sendNotice s := by
  induction l generalizing s with
  | nil => rfl
  | cons e l ih =>
    rw [List.foldl_cons, ih, sendNotice_screen]
    by_cases h : s.screen.staleCount e.stream = 0
    · rw [List.filter_cons_of_neg (by simpa using h), sendNotice_fresh h]
    · rw [List.filter_cons_of_pos (by simpa using h), List.foldl_cons]

theorem sendNotice_room {s : State} {e : ScreenStream} (hb : OutputsBusy s)
    (h : s.screen.staleCount e.stream ≠ 0) (hl : s.sw.localS.length < 8) :
    sendNotice s e = noticeQueued s e := by
  unfold sendNotice
  rw [if_neg h, insertLocal_busy hb .s _ _ _ _ none hl]
  simp [noticeQueued, noticeItem, ownItem, State.ownHeader, Switch.setLocalQ, Switch.localQ]

theorem sendNotice_full {s : State} {e : ScreenStream} (h : s.screen.staleCount e.stream ≠ 0)
    (hl : ¬ s.sw.localS.length < 8) :
    sendNotice s e = s.countSw fun c => { c with sDrop := bump c.sDrop } := by
  unfold sendNotice
  rw [if_neg h]
  exact insertLocal_full s .s _ _ _ _ none hl

theorem bitVec_ofNat_succ (n : Nat) : BitVec.ofNat 16 (n + 1) = 1 + BitVec.ofNat 16 n := by
  rw [Nat.add_comm, BitVec.ofNat_add]
  rfl

theorem joinedS_noticeQueued (s : State) (e : ScreenStream) (items : List QItem) (drops : Nat) :
    joinedS (noticeQueued s e) items drops = joinedS s (noticeItem s 0 e :: items) drops := by
  have seq : s.station.seq + 1 + BitVec.ofNat 16 items.length =
      s.station.seq + BitVec.ofNat 16 (noticeItem s 0 e :: items).length := by
    rw [List.length_cons, bitVec_ofNat_succ, BitVec.add_assoc]
  have queue : s.sw.localS ++ [noticeItem s 0 e] ++ items = s.sw.localS ++ noticeItem s 0 e :: items := by
    simp
  unfold joinedS
  rw [← seq, ← queue]
  rfl

/-- The next notice has the next sequence number. -/
theorem noticeItem_noticeQueued (s : State) (e : ScreenStream) (i : Nat) (x : ScreenStream) :
    noticeItem (noticeQueued s e) i x = noticeItem s (i + 1) x := by
  have seq : s.station.seq + 1 + BitVec.ofNat 16 i = s.station.seq + BitVec.ofNat 16 (i + 1) := by
    rw [bitVec_ofNat_succ, BitVec.add_assoc]
  unfold noticeItem
  rw [← seq]
  rfl

/-- After a notice that found room, the others are sent as from the state with it queued. -/
theorem noticesSent_cons_room {s : State} {e : ScreenStream} (due : List ScreenStream)
    (hl : s.sw.localS.length < 8) :
    noticesSent (noticeQueued s e) due = noticesSent s (e :: due) := by
  have length : (noticeQueued s e).sw.localS.length = s.sw.localS.length + 1 := by
    simp [noticeQueued, State.nextSeq]
  have room : 8 - s.sw.localS.length = (8 - (s.sw.localS.length + 1)) + 1 := by omega
  have items (l : List ScreenStream) : l.mapIdx (noticeItem (noticeQueued s e)) =
      l.mapIdx fun i => noticeItem s (i + 1) := by
    congr 1
    funext i x
    exact noticeItem_noticeQueued s e i x
  simp only [noticesSent]
  rw [length, room, List.take_succ_cons, List.mapIdx_cons, items, joinedS_noticeQueued,
    List.length_cons, List.length_cons, Nat.add_sub_add_right]

/-- A notice that finds the queue full is counted, and so are those after it. -/
theorem noticesSent_cons_full {s : State} {e : ScreenStream} (due : List ScreenStream)
    (hl : ¬ s.sw.localS.length < 8) :
    noticesSent (s.countSw fun c => { c with sDrop := bump c.sDrop }) due = noticesSent s (e :: due) := by
  have room : 8 - s.sw.localS.length = 0 := by omega
  have count : min (bump s.sw.ctr.sDrop + due.length) 65535 = min (s.sw.ctr.sDrop + (due.length + 1)) 65535 := by
    simp only [bump, Config.counterMax]
    omega
  simp only [noticesSent, joinedS, State.countSw_sw, room, List.take_zero, List.length_nil, Nat.sub_zero,
    List.length_cons, count, List.mapIdx_nil]
  rfl

/-- All notices in their order, those beyond the room of the local S queue dropped (R40, R178). -/
theorem foldl_sendNotice_busy (due : List ScreenStream) {s : State} (hb : OutputsBusy s)
    (hd : ∀ x ∈ due, s.screen.staleCount x.stream ≠ 0) (hc : s.sw.ctr.sDrop ≤ 65535) :
    due.foldl sendNotice s = noticesSent s due := by
  induction due generalizing s with
  | nil =>
    have count : min s.sw.ctr.sDrop 65535 = s.sw.ctr.sDrop := Nat.min_eq_left hc
    simp only [noticesSent, joinedS, List.take_nil, List.mapIdx_nil, List.append_nil, List.length_nil, Nat.sub_self,
      Nat.add_zero, count, BitVec.add_zero]
    rfl
  | cons e due ih =>
    have he := hd e (List.mem_cons_self ..)
    have hd' : ∀ x ∈ due, s.screen.staleCount x.stream ≠ 0 := fun x hx => hd x (List.mem_cons_of_mem e hx)
    rw [List.foldl_cons]
    by_cases hl : s.sw.localS.length < 8
    · rw [sendNotice_room hb he hl, ← noticesSent_cons_room due hl]
      exact ih (hb.of rfl id (fun o ho => by cases o <;> exact ho) fun o => by cases o <;> rfl) hd' hc
    · rw [sendNotice_full he hl, ← noticesSent_cons_full due hl]
      refine ih (hb.of rfl id (fun o ho => by cases o <;> exact ho) fun o => by cases o <;> rfl) hd' ?_
      simp only [State.countSw_sw, bump, Config.counterMax]
      omega

/-- The notices of the repaint timer at a station with an address, while the outputs make no choice (R178). -/
theorem sendNotices_busy {s : State} (ha : s.station.address ≠ 0) (hb : OutputsBusy s)
    (hc : s.sw.ctr.sDrop ≤ 65535) : sendNotices s = noticesSent s (dueStreams s.screen) := by
  unfold sendNotices
  rw [if_neg ha, foldl_sendNotice_due]
  exact foldl_sendNotice_busy _ hb (fun x hx => by simpa using (List.mem_filter.mp hx).2) hc

theorem sendNotices_nothing {s : State} (h : s.station.address = 0 ∨ dueStreams s.screen = []) :
    sendNotices s = s := by
  unfold sendNotices
  split
  · rfl
  · next ha =>
    rw [foldl_sendNotice_due, show (s.screen.streams.filter _) = [] from h.resolve_left ha]
    rfl

end Sys2Proof.Machine

open Sys2Proof Sys2Proof.Machine

/-- Settles O49: the notices in their order, then the spans of one row after the other. -/
theorem repaintTimer : Obligations.RepaintTimer := by
  refine ⟨fun m s => ?_, fun u stream => ⟨?_, staleSpans_pairwise u stream, fun _ sp hs => ?_⟩,
    fun u stream row col hr hc hl => ?_⟩
  · intro now u restarted due sent notice
    have run : exec (.repaintTimerExpiry m) s =
        .next (if u.repaintAt ≤ now then sendNotices restarted else s.tick m) := rfl
    have fired (h : u.repaintAt ≤ now) : exec (.repaintTimerExpiry m) s = .next (sendNotices restarted) := by
      rw [run, if_pos h]
    refine ⟨fun h => by rw [run, if_neg (Nat.not_le.mpr h)], fired, fun h hn => ?_, fun h ha hb hc => ?_⟩
    · rw [fired h, sendNotices_nothing (s := restarted) hn]
    · have busy : OutputsBusy restarted :=
        hb.of rfl id (fun o ho => by cases o <;> exact ho) fun o => by cases o <;> rfl
      have item : noticeItem restarted = notice := by
        funext i x
        have spans : restarted.screen.staleSpans x.stream = u.staleSpans x.stream := rfl
        unfold noticeItem
        rw [repaintBody_eq, repaintLen_repaint, spans]
        by_cases h64 : 64 < (u.staleSpans x.stream).length
        · simp only [notice, if_pos h64]
          rfl
        · simp only [notice, if_neg h64]
          rfl
      rw [fired h, sendNotices_busy (s := restarted) ha busy hc]
      simp only [noticesSent, joinedS, List.length_mapIdx]
      rw [item]
      rfl
  · rw [ScreenUnit.staleCount, List.countP_pos_iff]
    simp only [staleFor_iff]
  · obtain ⟨hrow, hm⟩ := mem_staleSpans.mp hs
    obtain ⟨h1, -, h3⟩ := runsFrom_bounds _ (runEnds_none 0) _ hm
    have := staleRow_length_le u stream sp.row
    exact ⟨hrow, h1, by omega⟩
  · intro x
    have inside : row * u.panel.width + col < u.tiles.length := by
      rw [hl, Nat.mul_comm]
      calc u.panel.width * row + col < u.panel.width * row + u.panel.width := by omega
        _ = u.panel.width * (row + 1) := by rw [Nat.mul_succ]
        _ ≤ u.panel.width * u.panel.height := Nat.mul_le_mul_left _ hr
    have covers := runsFrom_covers (staleRow u stream row) (runEnds_none 0) col
    simp only [Option.mem_def, reduceCtorEq, false_and, exists_false, false_or, Nat.zero_le, true_and,
      Nat.sub_zero, staleRow_getElem? stream hc inside, Option.some.injEq, staleFor_iff] at covers
    rw [← covers]
    constructor
    · rintro ⟨r, hm, h1, h2⟩
      exact ⟨⟨row, r.1, r.2⟩, mem_staleSpans.mpr ⟨hr, hm⟩, rfl, h1, h2⟩
    · rintro ⟨sp, hs, rfl, h1, h2⟩
      exact ⟨(sp.col, sp.count), (mem_staleSpans.mp hs).2, h1, h2⟩
end

