-- ==== Sys2Proof/Proofs/RingReports.lean ====
section
/-! The two ring reports while the forward output is held: at most a CHANGE frame each joins the urgent queue, and no
other queue of the forward output changes (R37, R56, R161). -/

namespace Sys2Proof.Machine

/-- The queues of the forward output once at most `n` CHANGE frames of the station have joined the urgent queue. -/
structure TripsJoin (s t : State) (n : Nat) : Prop where
  transit : t.sw.transit = s.sw.transit
  localK : t.sw.localK = s.sw.localK
  localM : t.sw.localM = s.sw.localM
  localS : t.sw.localS = s.sw.localS
  localI : t.sw.localI = s.sw.localI
  urgent : ∃ l, t.sw.urgent = s.sw.urgent ++ l ∧ l.length ≤ n ∧ ∀ i ∈ l,
    i.origin = .own ∧ i.frame.hdr.cls = .t ∧ s.publishStream = some i.frame.hdr.stream
  stream : t.publishStream = s.publishStream

/-- Two switches alike in the queues of the forward output. -/
def SameForward (v w : Switch) : Prop :=
  w = { v with role := w.role, counter := w.counter, tap := w.tap, clash := w.clash, ctr := w.ctr }

theorem TripsJoin.of_same {s t : State} (hw : SameForward s.sw t.sw)
    (hs : t.publishStream = s.publishStream) (n : Nat) : TripsJoin s t n := by
  unfold SameForward at hw
  refine ⟨?_, ?_, ?_, ?_, ?_, ⟨[], ?_, Nat.zero_le n, fun _ h => by cases h⟩, hs⟩ <;> rw [hw]
  rw [List.append_nil]

theorem tripsJoin_setTrip (s : State) (x : TripUnit) (n : Nat) : TripsJoin s (s.setTrip x) n :=
  .of_same (t := s.setTrip x) rfl rfl n

theorem tripsJoin_setAxes (s : State) (x : AxisTable) (n : Nat) : TripsJoin s (s.setAxes x) n :=
  .of_same (t := s.setAxes x) rfl rfl n

theorem ForwardHeld.setTrip {s : State} (h : ForwardHeld s) (x : TripUnit) : ForwardHeld (s.setTrip x) :=
  h.of (t := s.setTrip x) rfl (keepsTraffic_setTrip s x)

theorem TripsJoin.trans {s t u : State} {n k : Nat} (h : TripsJoin s t n) (g : TripsJoin t u k) :
    TripsJoin s u (n + k) := by
  obtain ⟨l, hl, hn, hi⟩ := h.urgent
  obtain ⟨r, hr, hk, hj⟩ := g.urgent
  refine ⟨g.transit.trans h.transit, g.localK.trans h.localK, g.localM.trans h.localM,
    g.localS.trans h.localS, g.localI.trans h.localI, ⟨l ++ r, ?_, ?_, fun i hm => ?_⟩,
    g.stream.trans h.stream⟩
  · rw [hr, hl, List.append_assoc]
  · rw [List.length_append]; omega
  · rcases List.mem_append.mp hm with hm | hm
    · exact hi i hm
    · rw [← h.stream]; exact hj i hm

/-- While the urgent queue is full no CHANGE frame joins it. -/
theorem TripsJoin.full {s t : State} (h : TripsJoin s t 0) (hu : 8 ≤ s.sw.urgent.length) :
    8 ≤ t.sw.urgent.length := by
  obtain ⟨l, hl, -, -⟩ := h.urgent
  rw [hl, List.length_append]
  omega

theorem tripsJoin_levelChange {old new : Level} (h : new = .clear → old = .clear) (s : State) :
    TripsJoin s (levelChange old new s) 0 := by
  refine .of_same ?_ (publishStream_of_station (levelChange_level old new s).station) 0
  rw [(levelChange_quiet h s).1]
  rfl

/-- A T frame queued while the forward output is held waits at the urgent queue's tail. -/
theorem tripsJoin_tripQueued {s : State} (h : ForwardHeld s) {stream : Nat}
    (hs : s.publishStream = some stream) (b : TripBody) :
    TripsJoin s (arbitrate (tripQueued s stream b)) 1 := by
  have queued : ForwardHeld (tripQueued s stream b) := by
    obtain ⟨o, ho, hx⟩ := h
    exact ⟨o, ho, by cases o <;> exact hx⟩
  have sw := arbitrate_held queued
  unfold SameButCounter at sw
  refine ⟨by rw [sw]; rfl, by rw [sw]; rfl, by rw [sw]; rfl, by rw [sw]; rfl, by rw [sw]; rfl,
    ⟨[ownItem s .t stream 63 4 (.bytes (tripBytes b))], by rw [sw]; rfl, Nat.le_refl 1, fun i hi => ?_⟩,
    publishStream_of_station (s := s) (by rw [(arbitrate_ring _).station]; rfl)⟩
  rw [List.mem_singleton] at hi
  subst hi
  exact ⟨rfl, rfl, hs⟩

/-- A CHANGE frame joins the urgent queue where it has room, and is dropped where not (R37, R161). -/
theorem originateTrip_room {s : State} (h : ForwardHeld s) (hu : s.sw.urgent.length < 8) (r : Bool) :
    TripsJoin s (originateTrip r s).1 1 ∧ (originateTrip r s).2 = false := by
  unfold originateTrip
  cases hs : s.publishStream with
  | none => exact ⟨.of_same rfl rfl 1, rfl⟩
  | some stream =>
    dsimp only
    rw [queueTrip_room hu]
    exact ⟨tripsJoin_tripQueued h hs _, rfl⟩

theorem originateTrip_full {s : State} (hu : 8 ≤ s.sw.urgent.length) (r : Bool) :
    TripsJoin s (originateTrip r s).1 0 := by
  unfold originateTrip
  cases hs : s.publishStream with
  | none => exact .of_same rfl rfl 0
  | some stream =>
    dsimp only
    rw [queueTrip_full hu]
    exact .of_same (s := s) (t := countUrgentDrop s) rfl rfl 0

/-! ## Recomputations that lower no level -/

/-- The state at which a recomputation may send a CHANGE frame. -/
def recomputed (s : State) : State :=
  levelChange s.trip.levels.eff s.trip.compute.eff (s.setTrip { s.trip with levels := s.trip.compute })

theorem recomputeOnce_eq (s : State) : recomputeOnce s =
    if s.trip.levels.pub = s.trip.compute.pub then (recomputed s, false) else originateTrip false (recomputed s) :=
  rfl

/-- The effective level does not fall to CLEAR. -/
def KeepsLevel (s : State) : Prop := s.trip.compute.eff = .clear → s.trip.levels.eff = .clear

theorem keepsLevel_of_rank {s : State} (h : s.trip.levels.eff.rank ≤ s.trip.compute.eff.rank) : KeepsLevel s := by
  intro hc
  rw [hc] at h
  exact rank_inj (Nat.le_antisymm h (Nat.zero_le _))

theorem recomputed_joins {s : State} (h : KeepsLevel s) : TripsJoin s (recomputed s) 0 :=
  (tripsJoin_setTrip s _ 0).trans
    (tripsJoin_levelChange h _)

theorem recomputed_held {s : State} (h : ForwardHeld s) : ForwardHeld (recomputed s) :=
  h.of (standing_levelChange _ _ _)
    ((keepsTraffic_setTrip s _).trans (keepsTraffic_levelChange _ _ _))

theorem recomputeOnce_room {s : State} (h : ForwardHeld s) (hl : KeepsLevel s) (hu : s.sw.urgent.length < 8) :
    TripsJoin s (recomputeOnce s).1 1 ∧ (recomputeOnce s).2 = false := by
  have joins := recomputed_joins hl
  obtain ⟨l, hl', hn, -⟩ := joins.urgent
  have room : (recomputed s).sw.urgent.length < 8 := by
    rw [hl', List.length_append]; omega
  obtain ⟨sent, flag⟩ := originateTrip_room (recomputed_held h) room false
  rw [recomputeOnce_eq]
  split
  · exact ⟨joins.trans (.of_same rfl rfl 1), rfl⟩
  · exact ⟨joins.trans sent, flag⟩

theorem recomputeOnce_joins_full {s : State} (hl : KeepsLevel s) (hu : 8 ≤ s.sw.urgent.length) :
    TripsJoin s (recomputeOnce s).1 0 := by
  have joins := recomputed_joins hl
  rw [recomputeOnce_eq]
  split
  · exact joins
  · exact joins.trans (originateTrip_full (joins.full hu) false)

/-- RING_CONGESTION newly latched raises the levels at most. -/
theorem keepsLevel_latch {s : State} (h : s.trip.levels = s.trip.compute) (f : FaultId) :
    KeepsLevel (s.setTrip (s.trip.latch f)) := by
  refine keepsLevel_of_rank ?_
  change s.trip.levels.eff.rank ≤ (s.trip.latch f).compute.eff.rank
  rw [h]
  exact latch_eff_le s.trip f

theorem reportCongestion_joins_full {s : State} (h : s.trip.levels = s.trip.compute)
    (hu : 8 ≤ s.sw.urgent.length) : TripsJoin s (reportCongestion s) 0 := by
  unfold reportCongestion
  split
  · exact .of_same rfl rfl 0
  · have latched := keepsLevel_latch h .ringCongestion
    exact (tripsJoin_setTrip s _ 0).trans
      (recomputeOnce_joins_full latched hu)

/-- A recomputation that lowers no level to CLEAR sends one CHANGE frame at most. -/
theorem recompute_joins {s : State} (h : ForwardHeld s) (hl : KeepsLevel s) : TripsJoin s (recompute s) 1 := by
  unfold recompute afterQueue
  by_cases hu : s.sw.urgent.length < 8
  · obtain ⟨joins, flag⟩ := recomputeOnce_room h hl hu
    rw [flag]
    exact joins
  · have full := Nat.not_lt.mp hu
    have joins := recomputeOnce_joins_full hl full
    have grown : TripsJoin s (recomputeOnce s).1 1 := joins.trans (.of_same rfl rfl 1)
    split
    · have congestion := reportCongestion_joins_full (recomputeOnce_levels s) (joins.full full)
      exact grown.trans congestion
    · exact grown

/-! ## Reports and conditions -/

theorem tripsJoin_axisFault (f : FaultId) (s : State) : TripsJoin s (axisFault f s) 0 := by
  unfold axisFault
  split
  · exact tripsJoin_setAxes s _ 0
  · exact tripsJoin_setAxes s _ 0
  · split
    · exact tripsJoin_setAxes s _ 0
    · exact .of_same rfl rfl 0
  · exact .of_same rfl rfl 0

theorem axisFault_held {s : State} (h : ForwardHeld s) (f : FaultId) : ForwardHeld (axisFault f s) := by
  refine h.of ?_ (keepsTraffic_axisFault f s)
  unfold axisFault
  split
  · rfl
  · rfl
  · split <;> rfl
  · rfl

theorem report_joins {s : State} (h : ForwardHeld s) (hl : s.trip.levels = s.trip.compute) (f : FaultId) :
    TripsJoin s (report f s) 1 := by
  unfold report
  split
  · exact .of_same rfl rfl 1
  · have latched := tripsJoin_axisFault f (s.setTrip (s.trip.latch f))
    have held : ForwardHeld (axisFault f (s.setTrip (s.trip.latch f))) :=
      axisFault_held (h.setTrip _) f
    have keeps : KeepsLevel (axisFault f (s.setTrip (s.trip.latch f))) := by
      unfold KeepsLevel
      rw [axisFault_trip]
      exact keepsLevel_latch hl f
    exact ((tripsJoin_setTrip s _ 0).trans latched).trans
      (recompute_joins held keeps)

/-- A report leaves the levels those the tables give. -/
theorem report_levels {s : State} (h : s.trip.levels = s.trip.compute) (f : FaultId) :
    (report f s).trip.levels = (report f s).trip.compute := by
  unfold report
  split
  · exact h
  · exact recompute_levels _

theorem setCondition_levels {s : State} (h : s.trip.levels = s.trip.compute) (f : FaultId) (b : Bool) :
    (setCondition f b s).trip.levels = (setCondition f b s).trip.compute := by
  have set : (s.setTrip (s.trip.setCond f b)).trip.levels = (s.setTrip (s.trip.setCond f b)).trip.compute :=
    h.trans (setCond_compute s.trip f b).symm
  cases b with
  | false => exact set
  | true => exact report_levels set f

/-- A condition set while the forward output is held sends one CHANGE frame at most. -/
theorem setCondition_joins {s : State} (h : ForwardHeld s) (hl : s.trip.levels = s.trip.compute) (f : FaultId)
    (b : Bool) : TripsJoin s (setCondition f b s) 1 := by
  have set : (s.setTrip (s.trip.setCond f b)).trip.levels = (s.setTrip (s.trip.setCond f b)).trip.compute :=
    hl.trans (setCond_compute s.trip f b).symm
  cases b with
  | false => exact tripsJoin_setTrip s _ 1
  | true => exact (tripsJoin_setTrip s _ 0).trans (report_joins (h.setTrip _) set f)

/-- The two ring reports send two CHANGE frames at most. -/
theorem reportRing_joins {s : State} (h : ForwardHeld s) (hl : s.trip.levels = s.trip.compute) (p : PortId) :
    TripsJoin s (reportRing p s) 2 := by
  unfold reportRing
  exact (setCondition_joins h hl _ _).trans
    (setCondition_joins (h.of (standing_setCondition s _ _) (keepsTraffic_setCondition _ _ s))
      (setCondition_levels hl _ _) _ _)

end Sys2Proof.Machine
end

