-- ==== Sys2Proof/Proofs/RoleChange.lean ====
section
/-! A change of the ring role: what it does to the frames being sent and received, the repeat FIFO and the queues of
the forward output (R48, R49, R52, R53). -/

namespace Sys2Proof.Machine

/-! ## The blocks stay -/

/-- Ports and Ring Switch apart, nothing has changed. -/
structure BlocksStay (s t : State) : Prop where
  moment : SameMoment s t
  control : SameControl s t
  station : t.station = s.station

theorem BlocksStay.refl (s : State) : BlocksStay s s := ⟨.refl s, .refl s, rfl⟩

theorem BlocksStay.trans {s t u : State} (h : BlocksStay s t) (k : BlocksStay t u) : BlocksStay s u :=
  ⟨h.moment.trans k.moment, h.control.trans k.control, k.station.trans h.station⟩

theorem RingOnly.blocks {s t : State} (h : RingOnly s t) : BlocksStay s t := ⟨h.moment, h.control, h.station⟩

theorem blocksStay_setPort (s : State) (p : PortId) (x : Port) : BlocksStay s (s.setPort p x) := by
  cases p <;> exact ⟨⟨rfl, rfl, rfl, rfl, rfl⟩, ⟨rfl, rfl, rfl, rfl, rfl, rfl, rfl⟩, rfl⟩

theorem blocksStay_setSw (s : State) (w : Switch) : BlocksStay s (s.setSw w) :=
  ⟨⟨rfl, rfl, rfl, rfl, rfl⟩, ⟨rfl, rfl, rfl, rfl, rfl, rfl, rfl⟩, rfl⟩

theorem blocksStay_markUse (s : State) (role : RingRole) (p : PortId) : BlocksStay s (markUse s role p) := by
  unfold markUse
  split
  · split
    · exact .refl s
    · exact blocksStay_setPort s p _
  · exact .refl s

/-- The state with its new role, before the outputs choose again. -/
def roleChanged (s : State) (role : RingRole) : State :=
  let s := abortTx (abortTx s .a) .b
  let removed := if role = .through then 0 else s.sw.counter.length
  let s := s.setSw { s.sw with
    role := role, counter := [],
    ctr := { s.sw.ctr with
      roleChanges := bump s.sw.ctr.roleChanges,
      roleDiscard := bumpBy s.sw.ctr.roleDiscard removed } }
  markUse (markUse s role .a) role .b

theorem updateRole_same {s : State} (h : roleOf s.portA.side s.portB.side = s.sw.role) :
    updateRole s = arbitrate s := if_pos h

theorem updateRole_changed {s : State} (h : roleOf s.portA.side s.portB.side ≠ s.sw.role) :
    updateRole s = arbitrate (roleChanged s (roleOf s.portA.side s.portB.side)) := if_neg h

/-- A role change is counted, the repeat FIFO is emptied, and beside the role nothing else of the switch changes. -/
theorem roleChanged_sw (s : State) (role : RingRole) : (roleChanged s role).sw = { s.sw with
    role := role, counter := [],
    ctr := { s.sw.ctr with
      roleChanges := bump s.sw.ctr.roleChanges,
      roleDiscard := min (s.sw.ctr.roleDiscard + if role = .through then 0 else s.sw.counter.length) 65535 } } := by
  have sw : (abortTx (abortTx s .a) .b).sw = s.sw :=
    ((abortsOnly_abortTx s .a).trans (abortsOnly_abortTx _ .b)).sw
  unfold roleChanged
  rw [markUse_sw, markUse_sw, State.setSw_sw, sw]
  rfl

theorem blocksStay_roleChanged (s : State) (role : RingRole) : BlocksStay s (roleChanged s role) := by
  unfold roleChanged
  refine BlocksStay.trans ?_ (blocksStay_markUse _ role .b)
  refine BlocksStay.trans ?_ (blocksStay_markUse _ role .a)
  exact ((abortTx_ring s .a).trans (abortTx_ring _ .b)).blocks.trans (blocksStay_setSw _ _)

theorem blocksStay_updateRole (s : State) : BlocksStay s (updateRole s) := by
  by_cases h : roleOf s.portA.side s.portB.side = s.sw.role
  · rw [updateRole_same h]
    exact (arbitrate_ring s).blocks
  · rw [updateRole_changed h]
    exact (blocksStay_roleChanged s _).trans (arbitrate_ring _).blocks

/-- Of the frames being sent and the counters of the ports, a change of role ends frames with abort marks and counts
them. -/
theorem roleChanged_traffic (s : State) (role : RingRole) (o : PortId) :
    ((roleChanged s role).port o).tx = ((abortTx (abortTx s .a) .b).port o).tx ∧
    ((roleChanged s role).port o).ctr = ((abortTx (abortTx s .a) .b).port o).ctr := by
  unfold roleChanged
  rw [(markUse_traffic _ role .b o).1, (markUse_traffic _ role .b o).2, (markUse_traffic _ role .a o).1,
    (markUse_traffic _ role .a o).2, State.setSw_port]
  exact ⟨rfl, rfl⟩

theorem roleChanged_busy {s : State} {o : PortId} (h : (s.port o).tx ≠ none) (role : RingRole) :
    ((roleChanged s role).port o).tx ≠ none := by
  rw [(roleChanged_traffic s role o).1]
  exact ((abortsOnly_abortTx s .a).trans (abortsOnly_abortTx _ .b)).busy h

/-- Where the new role's forward output is sending, the outputs make no choice after a change of the role. -/
theorem arbitrate_roleChanged {s : State} {role : RingRole} {o : PortId} (ho : forwardOutput role = some o)
    (hx : (s.port o).tx ≠ none) : arbitrate (roleChanged s role) = roleChanged s role := by
  have sw := roleChanged_sw s role
  have forward : ForwardStill (roleChanged s role) :=
    ⟨o, by rw [sw]; exact ho, .inl (roleChanged_busy hx role)⟩
  have counter : CounterStill (roleChanged s role) := .inr (.inr (.inr fun i hi => by
    rw [sw] at hi; cases hi))
  exact arbitrate_still forward counter

/-! ## A frame being sent is carried on or aborted -/

/-- A frame being sent is being sent still, or was ended with an abort mark. -/
def Carried (s t : State) (o : PortId) (x : Tx) : Prop :=
  ((t.port o).tx = some x ∧ (t.port o).ctr.abortsSent = (s.port o).ctr.abortsSent) ∨ AbortedOn s t o x

theorem Carried.of_port {s t u : State} {o : PortId} {x : Tx} (h : Carried s t o x)
    (hx : (u.port o).tx = (t.port o).tx)
    (hc : (u.port o).ctr.abortsSent = (t.port o).ctr.abortsSent) : Carried s u o x := by
  refine h.imp (fun h => ⟨hx.trans h.1, hc.trans h.2⟩) fun h => ⟨hx.trans h.1, hc.trans h.2⟩

theorem Carried.sentAbort {s t : State} {o : PortId} (x : Tx)
    (hc : (t.port o).ctr.abortsSent = (s.port o).ctr.abortsSent) : AbortedOn s (sentAbort t o x) o x :=
  (abortedOn_sentAbort t o x).of_port hc.symm ⟨rfl, rfl⟩

theorem Carried.abortTx {s t : State} {o : PortId} {x : Tx} (h : Carried s t o x) (p : PortId) :
    Carried s (abortTx t p) o x := by
  rcases h with ⟨hx, hc⟩ | h
  · by_cases hp : o = p
    · subst hp
      obtain ht | ⟨y, hy, ht⟩ := abortTx_forms t o <;> rw [ht]
      · exact .inl ⟨hx, hc⟩
      · rw [hx] at hy
        cases hy
        exact .inr (Carried.sentAbort x hc)
    · exact .inl (by rw [abortTx_port_other hp]; exact ⟨hx, hc⟩)
  · exact .inr (h.abortTx p)

theorem Carried.abortCopyOn {s t : State} {o : PortId} {x : Tx} (h : Carried s t o x) (q p : PortId) :
    Carried s (abortCopyOn t q p) o x := by
  obtain ht | ht := abortCopyOn_forms t q p <;> rw [ht]
  · exact h
  · exact h.abortTx p

theorem Carried.truncate {s t : State} {o : PortId} {x : Tx} (h : Carried s t o x) (p : PortId) :
    Carried s (truncate t p) o x := by
  rw [truncate_eq, removeResv_eq]
  refine Carried.abortCopyOn (Carried.abortCopyOn ?_ p .a) p .b
  refine Carried.of_port (t := cutReception t p) ?_ (by rw [State.setSw_port]) (by rw [State.setSw_port])
  exact h.of_port (cutReception_tx t p o).1 (cutReception_tx t p o).2

/-- A frame that has not gone out ends when its port is told to abort. -/
theorem Carried.aborts {s t : State} {o : PortId} {x : Tx} (h : Carried s t o x) (ha : x.aborted = false)
    (hc : x.copyOf ≠ none ∨ t.clock < x.endAt) : AbortedOn s (Machine.abortTx t o) o x := by
  rcases h with ⟨hx, hs⟩ | h
  · rw [abortTx_sending hx ha hc]
    exact Carried.sentAbort x hs
  · exact h.abortTx o

/-- A change of the role ends every frame being sent (R53). -/
theorem Carried.roleChanged {s t : State} {o : PortId} {x : Tx} (h : Carried s t o x) (ha : x.aborted = false)
    (hc : x.copyOf ≠ none ∨ t.clock < x.endAt) (role : RingRole) : AbortedOn s (roleChanged t role) o x := by
  have aborted : AbortedOn s (Machine.abortTx (Machine.abortTx t .a) .b) o x := by
    cases o with
    | a => exact (h.aborts ha hc).abortTx .b
    | b =>
      refine (h.abortTx .a).aborts ha (hc.imp id fun hlt => ?_)
      rw [(abortTx_ring t .a).moment.clock]
      exact hlt
  exact aborted.of_port rfl (roleChanged_traffic t role o)

/-! ## The effects of a recomputation of the role -/

/-- The state at which the role is recomputed: the frame cut is out of the queues, other frames are as they were. -/
structure CutAt (s u : State) (m : Moment) (w : Switch) (cut : PortId → Prop) : Prop where
  sw : u.sw = w
  role : w.role = s.sw.role
  ctr : w.ctr = s.sw.ctr
  carried : ∀ o x, (s.port o).tx = some x → x.aborted = false → Carried s u o x
  sending : ∀ o, (s.port o).tx ≠ none → (u.port o).tx ≠ none
  reception : ∀ q, ¬ cut q → (u.port q).reception = (s.port q).reception
  blocks : BlocksStay (s.tick m) u

variable {s u t : State} {m : Moment} {w : Switch} {cut : PortId → Prop}

/-- The switch once the role was recomputed: while the forward outputs of the old and the new role are sending only
role, repeat FIFO and the two counters of a role change differ. -/
theorem updateRole_sw_held (ho : ForwardSending u u.sw.role) (hn : ForwardSending u (updateRole u).sw.role) :
    (updateRole u).sw = { u.sw with
      role := (updateRole u).sw.role, counter := (updateRole u).sw.counter,
      ctr := { u.sw.ctr with
        roleChanges := (updateRole u).sw.ctr.roleChanges,
        roleDiscard := (updateRole u).sw.ctr.roleDiscard } } := by
  by_cases h : roleOf u.portA.side u.portB.side = u.sw.role
  · have same := arbitrate_held ho.held
    unfold SameButCounter at same
    rw [updateRole_same h, same]
  · obtain ⟨o, hf, hx⟩ := hn
    rw [updateRole_role] at hf
    rw [updateRole_changed h, arbitrate_roleChanged hf hx, roleChanged_sw]

theorem updateRole_changes (u : State) : (updateRole u).sw.ctr.roleChanges =
    if roleOf u.portA.side u.portB.side = u.sw.role then u.sw.ctr.roleChanges
    else bump u.sw.ctr.roleChanges := by
  by_cases h : roleOf u.portA.side u.portB.side = u.sw.role
  · rw [updateRole_same h, if_pos h, (keepsTraffic_arbitrate u).changes]
  · rw [updateRole_changed h, if_neg h, (keepsTraffic_arbitrate _).changes, roleChanged_sw]

theorem updateRole_discards (u : State) : (updateRole u).sw.ctr.roleDiscard =
    if roleOf u.portA.side u.portB.side = u.sw.role then u.sw.ctr.roleDiscard
    else min (u.sw.ctr.roleDiscard +
      if roleOf u.portA.side u.portB.side = .through then 0 else u.sw.counter.length) 65535 := by
  by_cases h : roleOf u.portA.side u.portB.side = u.sw.role
  · rw [updateRole_same h, if_pos h, (keepsTraffic_arbitrate u).discards]
  · rw [updateRole_changed h, if_neg h, (keepsTraffic_arbitrate _).discards, roleChanged_sw]

theorem updateRole_counter (h : roleOf u.portA.side u.portB.side ≠ u.sw.role) :
    (updateRole u).sw.counter = [] := by
  rw [updateRole_changed h]
  have suffix := (keepsTraffic_arbitrate (roleChanged u (roleOf u.portA.side u.portB.side))).counter
  rw [roleChanged_sw] at suffix
  exact List.suffix_nil.mp suffix

/-- The forward output of the role as recomputed is held where it was sending. -/
theorem updateRole_held (hn : ForwardSending u (updateRole u).sw.role) : ForwardHeld (updateRole u) := by
  obtain ⟨o, hf, hx⟩ := hn
  refine ⟨o, hf, .inl ?_⟩
  by_cases h : roleOf u.portA.side u.portB.side = u.sw.role
  · rw [updateRole_same h]
    exact (keepsTraffic_arbitrate u).busy hx
  · rw [updateRole_changed h]
    exact (keepsTraffic_arbitrate _).busy (roleChanged_busy hx _)

theorem CutAt.forward (h : CutAt s u m w cut) {role : RingRole} (hs : ForwardSending s role) :
    ForwardSending u role := by
  obtain ⟨o, hf, hx⟩ := hs
  exact ⟨o, hf, h.sending o hx⟩

/-- What a recomputation of the role does, whatever reports follow it. -/
theorem CutAt.effects (h : CutAt s u m w cut) (k : KeepsTraffic (updateRole u) t)
    (hs : t.standing = (updateRole u).standing)
    (joins : ForwardHeld (updateRole u) → s.trip.levels = s.trip.compute → TripsJoin (updateRole u) t 2) :
    RoleEffects s t (max s.clock m.time) w cut := by
  have role : t.sw.role = roleOf u.portA.side u.portB.side :=
    (role_of_standing hs).trans (updateRole_role u)
  have old : u.sw.role = s.sw.role := by rw [h.sw, h.role]
  have changed (hr : t.sw.role ≠ s.sw.role) : roleOf u.portA.side u.portB.side ≠ u.sw.role := by
    rw [old, ← role]; exact hr
  refine ⟨?_, ?_, fun hr => ?_, fun hr o x hx ha hc => ?_, fun q r hq hr => ?_, fun ho hn hl => ?_⟩
  · rw [k.changes, updateRole_changes, ← role, old, h.sw, h.ctr]
  · rw [k.discards, updateRole_discards, ← role, old, h.sw, h.ctr]
  · have suffix := k.counter
    rw [updateRole_counter (changed hr)] at suffix
    exact List.suffix_nil.mp suffix
  · refine AbortedOn.keeps ?_ k
    rw [updateRole_changed (changed hr)]
    refine AbortedOn.keeps ((h.carried o x hx ha).roleChanged ha (hc.imp id fun hlt => ?_) _)
      (keepsTraffic_arbitrate _)
    rw [h.blocks.moment.clock]
    exact hlt
  · have line : (t.port q).line = Port.line { u.port q with
        reception := (u.port q).reception.map (marked u.sw.role t.sw.role q) } := by
      rw [line_of_standing hs, updateRole_line, ← role]
      simp only [Line.marked, Port.line, Option.map_map]
      rfl
    obtain ⟨v, hv⟩ := reception_of_line line (r := marked u.sw.role t.sw.role q r)
      (by simp only [h.reception q hq, hr, Option.map_some])
    refine ⟨v, ?_⟩
    rw [hv, old]
    rfl
  · have hn' : ForwardSending u (updateRole u).sw.role := by
      rw [← role_of_standing hs]; exact h.forward hn
    have sw := updateRole_sw_held (h.forward (role := u.sw.role) (by rw [old]; exact ho)) hn'
    obtain ⟨j1, j2, j3, j4, j5, ⟨l, hl1, hl2, hl3⟩, -⟩ := joins (updateRole_held hn') hl
    have stream : (updateRole u).publishStream = s.publishStream :=
      publishStream_of_station (by rw [(blocksStay_updateRole u).station, h.blocks.station]; rfl)
    rw [j1, j2, j3, j4, j5, hl1, ← h.sw]
    rw [stream] at hl3
    exact ⟨by rw [sw], by rw [sw], by rw [sw], by rw [sw], by rw [sw], l, by rw [sw], hl2, hl3⟩

end Sys2Proof.Machine
end

