-- ==== Sys2Proof/Proofs/ReceiveSide.lean ====
section
/-! The six events of a receive side and the heal hold: entry to SYNC, its loss, and what follows each (R4, R5, R46 to
R48, R53, R55, R56). -/

namespace Sys2Proof.Machine

/-! ## Up to the change of role -/

/-- The clock and the ready lines are no control block. -/
theorem BlocksStay.ticked {s t : State} {m : Moment} (h : BlocksStay (s.tick m) t) : SameControl s t := by
  obtain ⟨h1, h2, h3, h4, h5, h6, h7⟩ := h.control
  exact ⟨h1, h2, h3, h4, h5, h6, h7⟩

section CutAt
variable {s u : State} {m : Moment} {w : Switch} {cut : PortId → Prop}

/-- A port whose frames and whose count of aborts are as before. -/
theorem cutAt_setPort (s : State) (m : Moment) {p : PortId} {z : Port} (cut : PortId → Prop)
    (hx : z.tx = (s.port p).tx) (hr : z.reception = (s.port p).reception)
    (hc : z.ctr.abortsSent = (s.port p).ctr.abortsSent) : CutAt s ((s.tick m).setPort p z) m s.sw cut := by
  have port (o : PortId) : (((s.tick m).setPort p z).port o).tx = (s.port o).tx ∧
      (((s.tick m).setPort p z).port o).reception = (s.port o).reception ∧
      (((s.tick m).setPort p z).port o).ctr.abortsSent = (s.port o).ctr.abortsSent := by
    by_cases ho : o = p
    · subst ho
      rw [State.setPort_port_same]
      exact ⟨hx, hr, hc⟩
    · rw [setPort_port_ne z ho]
      exact ⟨rfl, rfl, rfl⟩
  refine ⟨by cases p <;> rfl, rfl, rfl, fun o x ho _ => .inl ⟨(port o).1.trans ho, (port o).2.2⟩,
    fun o ho => by rw [(port o).1]; exact ho, fun q _ => (port q).2.1, blocksStay_setPort _ p z⟩

theorem CutAt.abortTx (h : CutAt s u m w cut) (p : PortId) : CutAt s (abortTx u p) m w cut where
  sw := (abortsOnly_abortTx u p).sw.trans h.sw
  role := h.role
  ctr := h.ctr
  carried o x hx ha := (h.carried o x hx ha).abortTx p
  sending o ho := (abortsOnly_abortTx u p).busy (h.sending o ho)
  reception q hq := ((abortsOnly_abortTx u p).reception q).trans (h.reception q hq)
  blocks := h.blocks.trans (abortTx_ring u p).blocks

theorem truncate_tx_busy {u : State} {o : PortId} (p : PortId) (h : (u.port o).tx ≠ none) :
    ((truncate u p).port o).tx ≠ none := by
  rw [truncate_eq]
  refine (abortsOnly_removeResv (cutReception u p) p).busy ?_
  rw [State.setSw_port, (cutReception_tx u p o).1]
  exact h

theorem truncate_reception_other {u : State} {p q : PortId} (h : q ≠ p) :
    ((truncate u p).port q).reception = (u.port q).reception := by
  rw [truncate_eq, (abortsOnly_removeResv (cutReception u p) p).reception q, State.setSw_port, cutReception,
    setPort_port_ne _ h]

theorem CutAt.truncate (h : CutAt s u m w cut) {p : PortId} (hp : cut p) :
    CutAt s (truncate u p) m (withoutResv p w) cut where
  sw := by rw [truncate_sw, h.sw]
  role := h.role
  ctr := h.ctr
  carried o x hx ha := (h.carried o x hx ha).truncate p
  sending o ho := truncate_tx_busy p (h.sending o ho)
  reception q hq := (truncate_reception_other fun (hqp : q = p) => hq (by rw [hqp]; exact hp)).trans (h.reception q hq)
  blocks := h.blocks.trans (truncate_ring u p).blocks

/-! ## After the two ring reports -/

theorem reportRing_eq (p : PortId) (v : State) : reportRing p v =
    setCondition .ringIsolated (decide (v.sw.role = .isolated))
      (setCondition (.portDown p) (decide ((v.port p).side = .failed)) v) := by
  have role : (setCondition (.portDown p) ((v.port p).side == .failed) v).sw.role = v.sw.role :=
    role_of_standing (standing_setCondition v _ _)
  unfold reportRing
  dsimp only
  rw [role]
  simp only [beq_eq_decide]

theorem reportRing_level (p : PortId) (v : State) : LevelOnly v (reportRing p v) :=
  (setCondition_level _ _ v).trans (setCondition_level _ _ _)

/-- The two ring conditions once reported (R55, R56). -/
theorem reportRing_trip {v : State} (h : TreeWhole v.trip) (p : PortId) :
    (reportRing p v).trip.isPresent (.portDown p) = decide ((v.port p).side = .failed) ∧
    ((v.port p).side = .failed → (reportRing p v).trip.isLatched (.portDown p) = true) ∧
    (reportRing p v).trip.isPresent .ringIsolated = (v.sw.role == .isolated) ∧
    (v.sw.role = .isolated → (reportRing p v).trip.isLatched .ringIsolated = true) := by
  have down := setCondition_set h (.portDown p) (decide ((v.port p).side = .failed))
  rw [reportRing_eq]
  generalize setCondition (.portDown p) (decide ((v.port p).side = .failed)) v = x at down
  have isolated := setCondition_set down.whole .ringIsolated (decide (v.sw.role = .isolated))
  refine ⟨(isolated.others _ (by simp)).trans down.present, fun hf => ?_, ?_, fun hr => ?_⟩
  · exact isolated.kept _ (down.latched (by simpa using hf))
  · rw [isolated.present, beq_eq_decide]
  · exact isolated.latched (by simpa using hr)

theorem CutAt.reported_effects (h : CutAt s u m w cut) (p : PortId) :
    RoleEffects s (reportRing p (updateRole u)) (max s.clock m.time) w cut := by
  refine h.effects (keepsTraffic_reportRing p _) (standing_reportRing p _) fun held hl => ?_
  refine reportRing_joins held ?_ p
  rw [(blocksStay_updateRole u).control.trip, h.blocks.control.trip]
  exact hl

theorem reported_side (p : PortId) (u : State) (q : PortId) :
    SameSide (u.port q) ((reportRing p (updateRole u)).port q) :=
  (updateRole_side u q).trans (sameSide_of_line (line_of_standing (standing_reportRing p _) q))

theorem reported_role (p : PortId) (u : State) :
    (reportRing p (updateRole u)).sw.role = roleOf u.portA.side u.portB.side :=
  (role_of_standing (standing_reportRing p _)).trans (updateRole_role u)

/-- The role is the one of the side states (R48). -/
theorem reported_role_sides (p : PortId) (u : State) : (reportRing p (updateRole u)).sw.role =
    roleOf (reportRing p (updateRole u)).portA.side (reportRing p (updateRole u)).portB.side := by
  have ha : (reportRing p (updateRole u)).portA.side = u.portA.side := (reported_side p u .a).side
  have hb : (reportRing p (updateRole u)).portB.side = u.portB.side := (reported_side p u .b).side
  rw [reported_role, ha, hb]

/-- The blocks that no ring report reaches. -/
theorem CutAt.reported_blocks (h : CutAt s u m w cut) (p : PortId) :
    (reportRing p (updateRole u)).ctx = s.ctx ∧ (reportRing p (updateRole u)).drive = s.drive ∧
    (reportRing p (updateRole u)).image = s.image ∧ (reportRing p (updateRole u)).station =
      { s.station with seq := (reportRing p (updateRole u)).station.seq } := by
  have level := reportRing_level p (updateRole u)
  have blocks := h.blocks.trans (blocksStay_updateRole u)
  exact ⟨level.ctx.trans blocks.control.ctx, level.drive.trans blocks.control.drive,
    level.image.trans blocks.control.image, by rw [level.station, blocks.station]; rfl⟩

/-- The ring conditions reported, at a station whose fault tree is whole. -/
theorem CutAt.reported_trip (h : CutAt s u m w cut) (p : PortId) (hw : TripWhole s) :
    let t := reportRing p (updateRole u)
    t.trip.isPresent (.portDown p) = decide ((u.port p).side = .failed) ∧
    ((u.port p).side = .failed → t.trip.isLatched (.portDown p) = true) ∧
    t.trip.isPresent .ringIsolated = (t.sw.role == .isolated) ∧
    (t.sw.role = .isolated → t.trip.isLatched .ringIsolated = true) := by
  intro t
  have blocks := h.blocks.trans (blocksStay_updateRole u)
  have whole : TreeWhole (updateRole u).trip := by
    rw [blocks.control.trip]; exact hw.tree_whole
  have role : t.sw.role = (updateRole u).sw.role := role_of_standing (standing_reportRing p _)
  have trip := reportRing_trip whole p
  rw [(updateRole_side u p).side] at trip
  rw [role]
  exact trip

/-- The state whose ring conditions are reported: only ports and switch differ, and of the switch only what a
change of role changes while the forward outputs are sending. -/
theorem CutAt.before_reports (h : CutAt s u m w cut) (p : PortId) :
    let t := reportRing p (updateRole u)
    t = setCondition .ringIsolated (decide (t.sw.role = .isolated))
      (setCondition (.portDown p) (decide ((u.port p).side = .failed)) (updateRole u)) ∧
    SameMoment (s.tick m) (updateRole u) ∧ SameControl s (updateRole u) ∧ (updateRole u).station = s.station ∧
    (ForwardSending s s.sw.role → ForwardSending s t.sw.role → (updateRole u).sw = { w with
      role := t.sw.role, counter := (updateRole u).sw.counter,
      ctr := { s.sw.ctr with
        roleChanges := t.sw.ctr.roleChanges, roleDiscard := t.sw.ctr.roleDiscard } }) := by
  intro t
  have blocks := h.blocks.trans (blocksStay_updateRole u)
  have role : t.sw.role = (updateRole u).sw.role := role_of_standing (standing_reportRing p _)
  have traffic : KeepsTraffic (updateRole u) t := keepsTraffic_reportRing p _
  refine ⟨?_, blocks.moment, blocks.ticked, blocks.station, fun ho hn => ?_⟩
  · rw [role, ← (updateRole_side u p).side]
    exact reportRing_eq p (updateRole u)
  · rw [role] at hn
    have old : ForwardSending u u.sw.role := h.forward (by rw [h.sw, h.role]; exact ho)
    have sw := updateRole_sw_held old (h.forward hn)
    rw [role, traffic.changes, traffic.discards, ← h.ctr, ← h.sw]
    exact sw

end CutAt

/-! ## Where SYNC is neither entered nor lost -/

/-- A port but for light, receive state, runs and records of symbols. -/
def SameFrames (x y : Port) : Prop :=
  y = { x with light := y.light, rx := y.rx, fillRun := y.fillRun, breakRun := y.breakRun, invalid := y.invalid,
               ctr := { x.ctr with symbolErrors := y.ctr.symbolErrors } }

theorem SameButSymbols.frames {x y : Port} (h : SameButSymbols x y) : SameFrames x y := by
  unfold SameButSymbols at h
  unfold SameFrames
  rw [h]

/-- What an event of a receive side does to a port whose SYNC it neither begins nor ends. -/
theorem roleEffects_unmoved (s : State) (m : Moment) {p : PortId} {z : Port} (h : SameFrames (s.port p) z) (now : Nat)
    (cut : PortId → Prop) : RoleEffects s ((s.tick m).setPort p z) now s.sw cut := by
  have sw : ((s.tick m).setPort p z).sw = s.sw := by cases p <;> rfl
  have reception (q : PortId) : (((s.tick m).setPort p z).port q).reception = (s.port q).reception := by
    by_cases hq : q = p
    · subst hq
      rw [State.setPort_port_same, h]
    · rw [setPort_port_ne z hq]
      rfl
  refine ⟨by simp, by simp, fun hr => absurd (by rw [sw]) hr, fun hr => absurd (by rw [sw]) hr,
    fun q r _ hr => ⟨r.resv, ?_⟩, fun _ _ _ => ?_⟩
  · rw [reception, hr, sw]
    simp
  · rw [sw]
    exact ⟨rfl, rfl, rfl, rfl, rfl, [], by simp, by simp, by simp⟩

/-- The three things an event of a receive side can do. -/
theorem lineEvent_cases {c : Instr} {p : PortId} (hc : lineEvent c = some p) (s : State) :
    (((s.port p).rx = .sync ↔ rxAfter c (s.port p).rx = .sync) ∧ ∃ z, SameFrames (s.port p) z ∧
      z.rx = rxAfter c (s.port p).rx ∧ exec c s = .next ((s.tick (momentOf c)).setPort p z)) ∨
    ((s.port p).rx = .sync ∧ rxAfter c (s.port p).rx ≠ .sync ∧ ∃ y, SameButSymbols (s.port p) y ∧
      exec c s = .next (leaveSync ((s.tick (momentOf c)).setPort p y) p (rxAfter c (s.port p).rx)
        (shortFrame c))) ∨
    ((s.port p).rx ≠ .sync ∧ rxAfter c (s.port p).rx = .sync ∧ ∃ y, SameButSymbols (s.port p) y ∧
      exec c s = .next (enterSync ((s.tick (momentOf c)).setPort p y) p)) := by
  obtain ⟨y, hy, ⟨hs, he⟩ | he⟩ := exec_lineEvent hc s
  · refine .inl ⟨by rw [hs], y, hy.frames, ?_, he⟩
    rw [hs, hy]
  · have rx : (((s.tick (momentOf c)).setPort p y).port p).rx = (s.port p).rx := by
      rw [State.setPort_port_same, hy]
    by_cases ho : (s.port p).rx = .sync <;> by_cases hn : rxAfter c (s.port p).rx = .sync
    · rw [hn, changeRx_same _ (rx.trans ho)] at he
      exact .inl ⟨iff_of_true ho hn, y, hy.frames, by rw [hy, hn, ho], he⟩
    · rw [changeRx_leave _ (rx.trans ho) hn] at he
      exact .inr (.inl ⟨ho, hn, y, hy, he⟩)
    · rw [hn, changeRx_enter _ (rx ▸ ho)] at he
      exact .inr (.inr ⟨ho, hn, y, hy, he⟩)
    · rw [changeRx_outside _ (rx ▸ ho) hn, setPort_setPort, State.setPort_port_same] at he
      refine .inl ⟨iff_of_false ho hn, _, ?_, rfl, he⟩
      unfold SameFrames
      rw [hy]

/-! ## SYNC lost -/

/-- The state of a side that has left SYNC at which the role is recomputed. -/
def sideLost (s : State) (p : PortId) (rx : RxState) (short : Bool) : State :=
  abortTx (cutFrame (failSide s p rx) p short) p

theorem leaveSync_reported (s : State) (p : PortId) (rx : RxState) (short : Bool) :
    leaveSync s p rx short = reportRing p (updateRole (sideLost s p rx short)) := leaveSync_eq s p rx short

section SyncLost
variable {s : State} {m : Moment} {p : PortId} {y : Port}

/-- The side has failed, and its frame is not yet cut. -/
theorem cutAt_failSide (hy : SameButSymbols (s.port p) y) (m : Moment) (rx : RxState) (cut : PortId → Prop) :
    CutAt s (failSide ((s.tick m).setPort p y) p rx) m s.sw cut := by
  have failed := cutAt_setPort s m (p := p) cut (z := { y with
    rx := rx, side := .failed, hold := none, fillRun := 0, breakRun := 0, skipping := false,
    ctr := { y.ctr with syncLoss := bump y.ctr.syncLoss } }) (by rw [hy]) (by rw [hy]) (by rw [hy])
  unfold failSide
  rwa [setPort_setPort, State.setPort_port_same]

theorem failSide_reception (hy : SameButSymbols (s.port p) y) (rx : RxState) :
    ((failSide ((s.tick m).setPort p y) p rx).port p).reception = (s.port p).reception := by
  rw [failSide_port, State.setPort_port_same, hy]

theorem cutAt_sideLost (hy : SameButSymbols (s.port p) y) (m : Moment) (rx : RxState) (short : Bool)
    {cut : PortId → Prop} (hp : cut p) : CutAt s (sideLost ((s.tick m).setPort p y) p rx short) m
      (if short = true ∨ (s.port p).reception.isSome = true then withoutResv p s.sw else s.sw) cut := by
  have failed := cutAt_failSide hy m rx cut
  refine CutAt.abortTx ?_ p
  unfold cutFrame
  rw [failSide_reception hy]
  by_cases h : short = true ∨ (s.port p).reception.isSome = true
  · rw [if_pos h, if_pos (by simpa using h)]
    exact failed.truncate hp
  · rw [if_neg h, if_neg (by simpa using h)]
    exact failed

/-- The frame being sent on the side is aborted, and so is a copy of the frame cut (R3, R17). -/
theorem leaveSync_aborts (hy : SameButSymbols (s.port p) y) (m : Moment) (rx : RxState) (short : Bool) {o : PortId}
    {x : Tx} (hx : (s.port o).tx = some x) (ha : x.aborted = false)
    (h : (o = p ∧ (x.copyOf ≠ none ∨ max s.clock m.time < x.endAt)) ∨
      ((short = true ∨ (s.port p).reception.isSome = true) ∧ x.copyOf = some p)) :
    AbortedOn s (leaveSync ((s.tick m).setPort p y) p rx short) o x := by
  have failed := cutAt_failSide hy m rx fun _ => True
  have before : AbortedOn s (sideLost ((s.tick m).setPort p y) p rx short) o x := by
    unfold sideLost
    rcases h with ⟨rfl, hc⟩ | ⟨hcut, hc⟩
    · have carried : Carried s (cutFrame (failSide ((s.tick m).setPort o y) o rx) o short) o x := by
        unfold cutFrame
        split
        · exact (failed.carried o x hx ha).truncate o
        · exact failed.carried o x hx ha
      refine carried.aborts ha (hc.imp id fun hlt => ?_)
      rw [(cutFrame_moment _ o short).clock, failed.blocks.moment.clock]
      exact hlt
    · have traffic := failSide_traffic ((s.tick m).setPort p y) p rx o
      have port : (((s.tick m).setPort p y).port o).tx = (s.port o).tx ∧
          (((s.tick m).setPort p y).port o).ctr.abortsSent = (s.port o).ctr.abortsSent := by
        by_cases ho : o = p
        · subst ho
          rw [State.setPort_port_same, hy]
          exact ⟨rfl, rfl⟩
        · rw [setPort_port_ne y ho]
          exact ⟨rfl, rfl⟩
      refine AbortedOn.abortTx ?_ p
      unfold cutFrame
      rw [failSide_reception hy, if_pos (by simpa using hcut)]
      exact (truncate_aborts (traffic.1.trans (port.1.trans hx)) hc ha).of_port
        (traffic.2.trans port.2).symm ⟨rfl, rfl⟩
  rw [leaveSync_reported]
  exact before.updateRole.keeps (keepsTraffic_reportRing p _)

theorem sideLost_other (s : State) (p : PortId) (rx : RxState) (short : Bool) :
    SameSide (s.port (otherPort p)) ((sideLost s p rx short).port (otherPort p)) := by
  have failed : ((failSide s p rx).port (otherPort p)) = s.port (otherPort p) := setPort_port_other s p _
  refine SameSide.trans ?_ (sameSide_of_line (line_of_standing (standing_abortTx _ p) _))
  unfold cutFrame
  split
  · have side := sameSide_of_line (truncate_line_other (failSide s p rx) p)
    rwa [failed] at side
  · rw [failed]
    exact .refl _

theorem sideLost_side (s : State) (p : PortId) (rx : RxState) (short : Bool) :
    ((sideLost s p rx short).port p).side = .failed := by
  have line := line_of_standing (standing_abortTx (cutFrame (failSide s p rx) p short) p) p
  rw [cutFrame_line, failSide_port] at line
  exact congrArg Line.side line

end SyncLost

/-! ## SYNC entered -/

/-- A side that enters SYNC is HEALING with its hold running; its frames are as they were. -/
theorem cutAt_healSide {s : State} {p : PortId} {y : Port} (hy : SameButSymbols (s.port p) y) (m : Moment)
    (cut : PortId → Prop) : CutAt s (healSide ((s.tick m).setPort p y) p) m s.sw cut := by
  have healed := cutAt_setPort s m (p := p) cut (z := { y with
    rx := .sync, side := .healing, fillRun := 0, breakRun := 0, skipping := false,
    hold := some (max s.clock m.time + s.station.cfg.heal * 100000) }) (by rw [hy]) (by rw [hy]) (by rw [hy])
  have same : healSide ((s.tick m).setPort p y) p = (s.tick m).setPort p { y with
      rx := .sync, side := .healing, fillRun := 0, breakRun := 0, skipping := false,
      hold := some (max s.clock m.time + s.station.cfg.heal * 100000) } := by
    cases p <;> rfl
  rw [same]
  exact healed

/-! ## The heal hold -/

/-- The state of a side whose hold has run (R47). -/
def sideHealed (s : State) (p : PortId) : State :=
  s.setPort p { s.port p with side := .usable, hold := none }

theorem exec_healHold {m : Moment} {p : PortId} {s : State} {due : Nat} (hs : (s.port p).side = .healing)
    (hh : (s.port p).hold = some due) : exec (.healHoldExpiry m p) s =
      .next (if due ≤ max s.clock m.time then reportRing p (updateRole (sideHealed (s.tick m) p))
        else s.tick m) := by
  simp only [exec, execHealHoldExpiry, State.tick_port, hs, hh]
  rfl

theorem cutAt_sideHealed (s : State) (m : Moment) (p : PortId) (cut : PortId → Prop) :
    CutAt s (sideHealed (s.tick m) p) m s.sw cut :=
  cutAt_setPort s m (z := { s.port p with side := .usable, hold := none }) cut rfl rfl rfl

/-- With a usable side the role is not ISOLATED (R48). -/
theorem roleOf_usable {s : State} {p : PortId} (h : (s.port p).side = .usable) :
    roleOf s.portA.side s.portB.side ≠ .isolated := by
  unfold roleOf
  cases p with
  | a =>
    rw [if_pos (show s.portA.side = .usable from h)]
    split <;> decide
  | b =>
    rw [if_pos (show s.portB.side = .usable from h), if_pos (show s.portB.side = .usable from h)]
    split <;> decide

/-- With neither ring condition present the reports reach no queue. -/
theorem reportRing_absent_sw {v : State} {p : PortId} (hr : v.sw.role ≠ .isolated)
    (hs : (v.port p).side ≠ .failed) : (reportRing p v).sw = v.sw := by
  rw [reportRing_eq, decide_eq_false hr, decide_eq_false hs]
  rfl

theorem sideHealed_switch {s : State} {m : Moment} {p : PortId}
    (hr : (reportRing p (updateRole (sideHealed (s.tick m) p))).sw.role ≠ s.sw.role)
    (hx : ∀ o ∈ forwardOutput (reportRing p (updateRole (sideHealed (s.tick m) p))).sw.role,
      (s.port o).tx ≠ none) :
    (reportRing p (updateRole (sideHealed (s.tick m) p))).sw = { s.sw with
      role := (reportRing p (updateRole (sideHealed (s.tick m) p))).sw.role, counter := [],
      ctr := { s.sw.ctr with
        roleChanges := (reportRing p (updateRole (sideHealed (s.tick m) p))).sw.ctr.roleChanges,
        roleDiscard := (reportRing p (updateRole (sideHealed (s.tick m) p))).sw.ctr.roleDiscard } } := by
  have at_ := cutAt_sideHealed s m p fun _ => False
  have side : ((sideHealed (s.tick m) p).port p).side = .usable := by simp [sideHealed]
  have role := reported_role p (sideHealed (s.tick m) p)
  rw [role] at hr hx
  generalize sideHealed (s.tick m) p = u at *
  have usable := roleOf_usable side
  obtain ⟨o, ho⟩ : ∃ o, forwardOutput (roleOf u.portA.side u.portB.side) = some o := by
    generalize roleOf u.portA.side u.portB.side = r at usable
    cases r <;> first | exact ⟨_, rfl⟩ | exact absurd rfl usable
  have changed : roleOf u.portA.side u.portB.side ≠ u.sw.role := by rw [at_.sw]; exact hr
  have quiet : (reportRing p (updateRole u)).sw = (updateRole u).sw :=
    reportRing_absent_sw (by rw [updateRole_role]; exact usable)
      (by rw [(updateRole_side u p).side, side]; decide)
  rw [quiet, updateRole_changed changed,
    arbitrate_roleChanged ho (at_.sending o (hx o ho)), roleChanged_sw, at_.sw]

end Sys2Proof.Machine

open Sys2Proof Sys2Proof.Machine

/-- Settles O13: an event of a receive side leaves SYNC, enters it, or does neither. -/
theorem receiveStateAndSide : Obligations.ReceiveStateAndSide := by
  refine ⟨fun c p s hc => ?_, fun m p s due hw hs hh => ?_⟩
  · intro now left cut w
    rcases lineEvent_cases hc s with ⟨hiff, z, hz, hrx, he⟩ | ⟨ho, hn, y, hy, he⟩ | ⟨ho, hn, y, hy, he⟩
    · have notLeft : ¬ left := fun h => h.2 (hiff.mp h.1)
      have notCut : ¬ cut := fun h => notLeft h.1
      have hwsw : w = s.sw := if_neg notCut
      have port : ((s.tick (momentOf c)).setPort p z).port p = z := State.setPort_port_same _ _ _
      have same : ((s.port p).rx = .sync ↔ z.rx = .sync) := by rw [hrx]; exact hiff
      have blocks := blocksStay_setPort (s.tick (momentOf c)) p z
      refine ⟨_, he, ?_, ?_, ?_, ?_, ?_, ?_, ?_, ?_, ?_, ?_, ?_, ?_⟩
      · rw [hwsw]
        exact roleEffects_unmoved s _ hz now _
      · rw [port]
        exact fun h => absurd same h
      · rintro o x - - (⟨h, -⟩ | ⟨h, -⟩)
        · exact absurd h notLeft
        · exact absurd h notCut
      · rw [port, hrx]
      · rw [setPort_port_other]
        exact .refl _
      · exact blocks.control.ctx
      · exact blocks.control.drive
      · exact blocks.control.image
      · rw [blocks.station]
        rfl
      · rw [port]
        exact fun h k => absurd (same.mp h) k
      · rw [port]
        exact fun h k => absurd (same.mpr k) h
      · intro _
        rw [port]
        refine ⟨by rw [hz], by rw [hz], by cases p <;> rfl, blocks.control.gen, blocks.control.axes,
          blocks.control.trip, blocks.control.screen, blocks.station⟩
    · have isLeft : left := ⟨ho, hn⟩
      have cutIff : cut ↔ shortFrame c = true ∨ (s.port p).reception.isSome = true :=
        ⟨fun h => h.2.symm, fun h => ⟨isLeft, h.symm⟩⟩
      have hwsw : w = if shortFrame c = true ∨ (s.port p).reception.isSome = true then
          withoutResv p s.sw else s.sw := if_congr cutIff rfl rfl
      have at_ : CutAt s (sideLost ((s.tick (momentOf c)).setPort p y) p (rxAfter c (s.port p).rx) (shortFrame c))
          (momentOf c) w (fun q => left ∧ q = p) := by
        rw [hwsw]
        exact cutAt_sideLost hy _ _ _ ⟨isLeft, rfl⟩
      have gone := leaveSync_left ((s.tick (momentOf c)).setPort p y) p (rxAfter c (s.port p).rx) (shortFrame c)
      have count := leaveSync_ctr ((s.tick (momentOf c)).setPort p y) p (rxAfter c (s.port p).rx) (shortFrame c)
      have aborts := fun o x hx ha h => leaveSync_aborts hy (momentOf c) (rxAfter c (s.port p).rx) (shortFrame c)
        (o := o) (x := x) hx ha h
      have other := sideLost_other ((s.tick (momentOf c)).setPort p y) p (rxAfter c (s.port p).rx) (shortFrame c)
      have failed := sideLost_side ((s.tick (momentOf c)).setPort p y) p (rxAfter c (s.port p).rx) (shortFrame c)
      rw [setPort_port_other] at other
      rw [State.setPort_port_same] at gone count
      rw [leaveSync_reported] at he gone count aborts
      generalize sideLost ((s.tick (momentOf c)).setPort p y) p (rxAfter c (s.port p).rx) (shortFrame c) = u at *
      have before := at_.before_reports p
      have role := reported_role_sides p u
      have effects := at_.reported_effects p
      obtain ⟨hctx, hdrive, himage, hstation⟩ := at_.reported_blocks p
      refine ⟨_, he, effects, fun _ => ⟨updateRole u, ?_⟩, fun o x hx ha h => aborts o x hx ha ?_, gone.rx,
        other.trans (reported_side p u _), hctx, hdrive, himage, hstation, fun _ _ => ?_, fun h => absurd ho h,
        fun h => absurd (h.mp ho) (by rw [gone.rx]; exact hn)⟩
      · rw [failed] at before
        rw [decide_eq_true isLeft]
        exact before
      · exact h.imp (fun h => h.2) fun h => ⟨cutIff.mp h.1, h.2⟩
      · refine ⟨gone.side, gone.hold, gone.reception, ?_, ?_, role, fun hw => ?_⟩
        · rw [count, hy]
        · rw [count, hy]
          exact if_congr (by simpa using or_comm) rfl rfl
        · obtain ⟨present, latched, isolated, isolatedLatched⟩ := at_.reported_trip p hw
          exact ⟨present.trans (decide_eq_true failed), latched failed, isolated, isolatedLatched⟩
    · have notLeft : ¬ left := fun h => ho h.1
      have notCut : ¬ cut := fun h => notLeft h.1
      have hwsw : w = s.sw := if_neg notCut
      have at_ : CutAt s (healSide ((s.tick (momentOf c)).setPort p y) p) (momentOf c) w
          (fun q => left ∧ q = p) := by
        rw [hwsw]
        exact cutAt_healSide hy _ _
      have other : SameSide (s.port (otherPort p))
          ((healSide ((s.tick (momentOf c)).setPort p y) p).port (otherPort p)) := by
        rw [healSide, setPort_port_other, setPort_port_other]
        exact .refl _
      have healing : ((healSide ((s.tick (momentOf c)).setPort p y) p).port p).side = .healing ∧
          ((healSide ((s.tick (momentOf c)).setPort p y) p).port p).rx = .sync ∧
          ((healSide ((s.tick (momentOf c)).setPort p y) p).port p).hold =
            some (max s.clock (momentOf c).time + s.station.cfg.heal * 100000) := by
        cases p <;> exact ⟨rfl, rfl, rfl⟩
      change exec c s = .next (reportRing p (updateRole (healSide ((s.tick (momentOf c)).setPort p y) p))) at he
      generalize healSide ((s.tick (momentOf c)).setPort p y) p = u at *
      obtain ⟨hside, hsync, hhold⟩ := healing
      have before := at_.before_reports p
      have same := reported_side p u p
      obtain ⟨hctx, hdrive, himage, hstation⟩ := at_.reported_blocks p
      have entered := same.rx.trans hsync
      refine ⟨_, he, at_.reported_effects p, fun _ => ⟨updateRole u, ?_⟩, ?_, entered.trans hn.symm,
        other.trans (reported_side p u _), hctx, hdrive, himage, hstation, fun h => absurd h ho, fun _ _ => ?_,
        fun h => absurd (h.mpr entered) ho⟩
      · rw [hside] at before
        rw [decide_eq_false notLeft]
        exact before
      · rintro o x - - (⟨h, -⟩ | ⟨h, -⟩)
        · exact absurd h notLeft
        · exact absurd h notCut
      · refine ⟨same.side.trans hside, same.hold.trans hhold, reported_role_sides p u, fun hw => ?_⟩
        obtain ⟨present, -, isolated, isolatedLatched⟩ := at_.reported_trip p hw
        exact ⟨present.trans (by rw [hside]; rfl), isolated, isolatedLatched⟩
  · refine ⟨fun hd => ?_, fun hd => ?_⟩
    · have at_ := cutAt_sideHealed s m p fun _ => False
      have switch := sideHealed_switch (s := s) (m := m) (p := p)
      have run := exec_healHold (m := m) hs hh
      rw [if_pos hd] at run
      have other : (sideHealed (s.tick m) p).port (otherPort p) = s.port (otherPort p) := setPort_port_other _ p _
      have healed : ((sideHealed (s.tick m) p).port p).side = .usable ∧
          ((sideHealed (s.tick m) p).port p).hold = none ∧
          ((sideHealed (s.tick m) p).port p).rx = (s.port p).rx := by
        cases p <;> exact ⟨rfl, rfl, rfl⟩
      generalize sideHealed (s.tick m) p = u at *
      obtain ⟨hside, hhold, hrx⟩ := healed
      have same := reported_side p u p
      obtain ⟨present, -, isolated, -⟩ := at_.reported_trip p hw
      obtain ⟨hctx, hdrive, himage, hstation⟩ := at_.reported_blocks p
      refine ⟨_, run, same.side.trans hside, same.hold.trans hhold, same.rx.trans hrx, ?_, reported_role_sides p u,
        present.trans (by rw [hside]; rfl), isolated, hctx, hdrive, himage, hstation, at_.reported_effects p, switch⟩
      rw [← other]
      exact reported_side p u _
    · rw [exec_healHold hs hh, if_neg (Nat.not_le.mpr hd)]
end

