-- ==== Sys2Proof/Proofs/ReleaseExchanges.lean ====
section
/-! The drive link's arbiter with releases pending and no batch: the lowest axis with a pending release and a ready
drive starts its release exchange, those passed over before it count as released (R113, R115, R122). -/

namespace Sys2Proof.Machine

theorem four_ext {α : Type} {f g : Four α} (h : ∀ a, f.get a = g.get a) : f = g := by
  cases f
  cases g
  exact Four.mk.injEq .. ▸ ⟨h 0, h 1, h 2, h 3⟩

/-- An axis record whose release exchange has had its outcome, where the axis is below `k`. -/
def passedAxis (k b : Nat) (r : AxisRecord) : AxisRecord := if b < k then { r with release := false } else r

/-- The axis records once the pending releases of the axes below `k` were passed over. -/
def passedRecs (k : Nat) (t : Four AxisRecord) : Four AxisRecord :=
  ⟨passedAxis k 0 t.a0, passedAxis k 1 t.a1, passedAxis k 2 t.a2, passedAxis k 3 t.a3⟩

theorem passedRecs_get (k : Nat) (t : Four AxisRecord) (a : Fin 4) :
    (passedRecs k t).get a = passedAxis k a.val (t.get a) := by
  fin_cases a <;> rfl

/-- The state once the pending releases of the axes below `k` were passed over. -/
def passedOver (k : Nat) (s : State) : State := s.setAxes { s.axes with recs := passedRecs k s.axes.recs }

theorem passedOver_axis (k : Nat) (s : State) (a : Fin 4) :
    (passedOver k s).axis a = passedAxis k a.val (s.axis a) := passedRecs_get k s.axes.recs a

theorem passedOver_zero (s : State) : passedOver 0 s = s := by
  have same : passedRecs 0 s.axes.recs = s.axes.recs := four_ext fun a => by
    rw [passedRecs_get]
    rfl
  unfold passedOver
  rw [same]
  rfl

theorem passedAxis_release (k : Nat) (r : AxisRecord) (b : Nat) :
    (passedAxis k b r).release = (r.release && !decide (b < k)) := by
  unfold passedAxis
  split
  · next h => simp [h]
  · next h => simp [h]

theorem passedAxis_of_released {k : Nat} {r : AxisRecord} {b : Nat} (h : r.release = false) :
    passedAxis k b r = r := by
  unfold passedAxis
  split
  · rw [← h]
  · rfl

/-- Axes without a pending release make no difference. -/
theorem passedOver_skip {k l : Nat} {s : State} (hkl : k ≤ l)
    (h : ∀ b : Fin 4, k ≤ b.val → b.val < l → (s.axis b).release = false) : passedOver l s = passedOver k s := by
  unfold passedOver
  congr 2
  refine congrArg (AxisTable.mk · s.axes.stopTimer s.axes.ctr) (four_ext fun b => ?_)
  rw [passedRecs_get, passedRecs_get]
  by_cases hk : k ≤ b.val
  · by_cases hl : b.val < l
    · have released : (s.axes.recs.get b).release = false := h b hk hl
      rw [passedAxis_of_released released, passedAxis_of_released released]
    · simp only [passedAxis, if_neg hl, if_neg (Nat.not_lt.mpr hk)]
  · have hk := Nat.lt_of_not_le hk
    simp only [passedAxis, if_pos hk, if_pos (Nat.lt_of_lt_of_le hk hkl)]

/-- One more axis is passed over. -/
theorem endRelease_passedOver (b : Fin 4) (s : State) :
    endRelease b (passedOver b.val s) = passedOver (b.val + 1) s := by
  have recs : (passedRecs b.val s.axes.recs).set b { (passedRecs b.val s.axes.recs).get b with release := false } =
      passedRecs (b.val + 1) s.axes.recs := four_ext fun a => by
    by_cases ha : a = b
    · subst ha
      rw [Four.get_set_same, passedRecs_get, passedRecs_get]
      simp [passedAxis]
    · rw [Four.get_set_other _ _ _ _ ha, passedRecs_get, passedRecs_get]
      have ne : a.val ≠ b.val := fun h => ha (Fin.ext h)
      simp only [passedAxis, show a.val < b.val + 1 ↔ a.val < b.val by omega]
  unfold endRelease passedOver State.setAxis
  rw [← recs]
  rfl

/-! ## The lowest pending release -/

theorem releaseAxis_pending {t : AxisTable} {a : Fin 4} (h : releaseAxis t = some a) :
    (t.recs.get a).release = true ∧ ∀ b < a, (t.recs.get b).release = false := by
  obtain ⟨ha, l, r, hl, hn⟩ := List.find?_eq_some_iff_append.mp h
  refine ⟨ha, fun b hb => ?_⟩
  have sorted : ([(0 : Fin 4), 1, 2, 3]).Pairwise (· < ·) := by decide
  have mem : b ∈ l ++ a :: r := by
    rw [← hl]
    fin_cases b <;> decide
  rw [hl] at sorted
  obtain ⟨-, sorted, -⟩ := List.pairwise_append.mp sorted
  rcases List.mem_append.mp mem with hm | hm
  · simpa using hn b hm
  · rcases List.mem_cons.mp hm with rfl | hm
    · exact absurd hb (lt_irrefl b)
    · exact absurd ((List.pairwise_cons.mp sorted).1 b hm) (lt_asymm hb)

theorem releaseAxis_nothing {t : AxisTable} (h : releaseAxis t = none) (a : Fin 4) :
    (t.recs.get a).release = false := by
  have none := List.find?_eq_none.mp h a (by fin_cases a <;> decide)
  simpa using none

/-! ## The arbiter -/

theorem endBatch_none {s : State} (h : s.drive.batch = none) : endBatch s = s := by
  unfold endBatch
  rw [h]

theorem driveArb_release {n : Nat} {s : State} {a : Fin 4} (he : s.drive.exchange = none)
    (hb : s.drive.batch = none) (ha : releaseAxis s.axes = some a) : driveArb (n + 1) s =
      if s.ready.get a = true then startExchange a true s else driveArb n (endRelease a s) := by
  rw [driveArb, he, if_neg (by decide), endBatch_none hb]
  dsimp only
  rw [ha]

theorem driveArb_nothing {n : Nat} {s : State} (he : s.drive.exchange = none)
    (hb : s.drive.batch = none) (ha : releaseAxis s.axes = none) : driveArb (n + 1) s = s := by
  rw [driveArb, he, if_neg (by decide), endBatch_none hb]
  dsimp only
  rw [ha]
  dsimp only
  rw [hb]

/-- From the state with the releases below `k` passed over, the lowest axis with a pending release and a ready drive
starts its exchange; with no such axis every release is passed over. -/
theorem driveArb_releases (n : Nat) {k : Nat} {s : State} (he : s.drive.exchange = none) (hb : s.drive.batch = none)
    (hk : k ≤ 4) (hn : 5 ≤ n + k) (hp : ∀ b : Fin 4, b.val < k → (s.axis b).release = true → s.ready.get b = false) :
    (∃ a, (s.axis a).release = true ∧ s.ready.get a = true ∧
      (∀ b < a, (s.axis b).release = true → s.ready.get b = false) ∧
      driveArb n (passedOver k s) = startExchange a true (passedOver a.val s)) ∨
    ((∀ a, (s.axis a).release = true → s.ready.get a = false) ∧ driveArb n (passedOver k s) = passedOver 4 s) := by
  induction n generalizing k with
  | zero => omega
  | succ n ih =>
    cases hr : releaseAxis (passedOver k s).axes with
    | none =>
      have released (a : Fin 4) : (passedAxis k a.val (s.axis a)).release = false := by
        rw [← passedOver_axis]
        exact releaseAxis_nothing hr a
      simp only [passedAxis_release, Bool.and_eq_false_imp, Bool.not_eq_false', decide_eq_true_eq] at released
      refine .inr ⟨fun a ha => hp a (released a ha) ha, ?_⟩
      rw [driveArb_nothing (s := passedOver k s) he hb hr]
      refine (passedOver_skip hk fun b hkb _ => ?_).symm
      by_contra hne
      exact absurd (released b (by simpa using hne)) (Nat.not_lt.mpr hkb)
    | some a =>
      obtain ⟨pending, below⟩ := releaseAxis_pending hr
      have at_ (b : Fin 4) : ((passedOver k s).axes.recs.get b).release =
          ((s.axis b).release && !decide (b.val < k)) := by
        rw [show (passedOver k s).axes.recs.get b = _ from passedOver_axis k s b, passedAxis_release]
      simp only [at_, Bool.and_eq_true, Bool.not_eq_true', decide_eq_false_iff_not, Nat.not_lt] at pending
      obtain ⟨ha, hka⟩ := pending
      have between (b : Fin 4) (hkb : k ≤ b.val) (hba : b.val < a.val) : (s.axis b).release = false := by
        have h := below b hba
        rw [at_, decide_eq_false (Nat.not_lt.mpr hkb)] at h
        simpa using h
      have before (b : Fin 4) (hba : b.val < a.val) (hbr : (s.axis b).release = true) : s.ready.get b = false := by
        by_cases hkb : k ≤ b.val
        · rw [between b hkb hba] at hbr
          cases hbr
        · exact hp b (Nat.lt_of_not_le hkb) hbr
      rw [driveArb_release (s := passedOver k s) he hb hr, ← passedOver_skip hka between]
      by_cases hready : s.ready.get a = true
      · rw [if_pos (show (passedOver a.val s).ready.get a = true from hready)]
        exact .inl ⟨a, ha, hready, before, rfl⟩
      · rw [if_neg (show ¬ (passedOver a.val s).ready.get a = true from hready), endRelease_passedOver]
        refine ih (by omega) (by omega) fun b hba hbr => ?_
        rcases Nat.lt_succ_iff_lt_or_eq.mp hba with hlt | heq
        · exact before b hlt hbr
        · rw [show b = a from Fin.ext heq]
          simpa using hready

end Sys2Proof.Machine
end

