-- ==== Sys2Proof/Proofs/ResetStation.lean ====
section
/-! RESET STATION: every block at its reset values, a change of the levels that finds nothing to act on, and the release
exchanges (R125, R168, R183, R194, R195). -/

namespace Sys2Proof.Machine

/-! ## A change of the levels on blocks at rest -/

theorem generator_reset_level (old new : Level) : Generator.reset.level old new = Generator.reset := by
  unfold Generator.level
  split
  · rfl
  · split
    · rfl
    · split <;> rfl

theorem settleStop_idle {t : AxisTable} (h : t.stopTimer = none) : t.settleStop = t := by
  unfold AxisTable.settleStop
  split
  · rfl
  · rw [← h]

theorem anyCoupled_of_disabled {t : AxisTable} (h : ∀ a, (t.recs.get a).state = .disabled) :
    t.anyCoupled = false := by
  have h0 : t.recs.a0.state = .disabled := h 0
  have h1 : t.recs.a1.state = .disabled := h 1
  have h2 : t.recs.a2.state = .disabled := h 2
  have h3 : t.recs.a3.state = .disabled := h 3
  simp [AxisTable.anyCoupled, Four.toList, h0, h1, h2, h3]

theorem off_disabled {t : AxisTable} (h : ∀ a, (t.recs.get a).state = .disabled) (ht : t.stopTimer = none) :
    t.off = t := by
  have recs : t.recs.map axisToOff = t.recs := four_ext fun a => by
    rw [Four.get_map, axisToOff, h a]
    rfl
  unfold AxisTable.off
  rw [recs]
  exact settleStop_idle ht

/-- Axes all DISABLED take no notice of the level (R97, R108). -/
theorem axes_level_disabled {t : AxisTable} (h : ∀ a, (t.recs.get a).state = .disabled) (ht : t.stopTimer = none)
    (old new : Level) (due : Nat) : t.level old new due = t := by
  have start : t.startStop due = t := by
    unfold AxisTable.startStop
    rw [anyCoupled_of_disabled h]
    rfl
  unfold AxisTable.level
  rw [start, ite_self]
  dsimp only
  rw [off_disabled h ht, ite_self]

/-- A Screen Unit in a CLEAR pass, its panel link busy, with no write waiting and no stream. -/
structure Clearing (u : ScreenUnit) : Prop where
  queue : u.queue = []
  streams : u.streams = []
  link : u.link.isSome = true
  job : ∃ n, u.job = .clear n
  tiles : ∀ e ∈ u.tiles, e.source = .none

theorem screen_arbitrate_busy {u : ScreenUnit} (h : u.link.isSome = true) : u.arbitrate = u := if_pos h

theorem Clearing.start {u : ScreenUnit} (h : Clearing u) (j : BannerJob) : (u.startUnlessClear j).arbitrate = u := by
  obtain ⟨n, hn⟩ := h.job
  unfold ScreenUnit.startUnlessClear
  rw [hn]
  exact screen_arbitrate_busy h.link

theorem Clearing.raiseBanner {u : ScreenUnit} (h : Clearing u) (l : Level) : u.raiseBanner l = u := by
  have emptied (f : TileWrite → Bool) : ({ u with queue := u.queue.filter f } : ScreenUnit) = u := by
    rw [h.queue, List.filter_nil, ← h.queue]
  unfold ScreenUnit.raiseBanner
  dsimp only
  rw [emptied, h.queue]
  exact h.start _

theorem Clearing.withdrawBanner {u : ScreenUnit} (h : Clearing u) : u.withdrawBanner = u := by
  have kept : u.tiles.mapIdx (fun i e => if bannerHas u.panel (i / u.panel.width) then markStreamStale e else e) =
      u.tiles := by
    refine List.ext_getElem (by simp) fun i h1 h2 => ?_
    have none := h.tiles u.tiles[i] (List.getElem_mem h2)
    rw [List.getElem_mapIdx, markStreamStale, none]
    exact ite_self _
  unfold ScreenUnit.withdrawBanner ScreenUnit.mapTiles
  rw [kept]
  exact h.start _

/-- During the CLEAR pass of an empty screen a change of the level does nothing (R177). -/
theorem screenLevel_clearing {s : State} (h : Clearing s.screen) (old new : Level) : screenLevel old new s = s := by
  have notices : sendNotices s = s := by
    unfold sendNotices
    rw [h.streams]
    exact ite_self _
  unfold screenLevel
  split
  · rfl
  · split
    · rw [h.raiseBanner]
      rfl
    · split
      · rw [h.withdrawBanner]
        exact notices
      · rw [h.start]
        rfl

/-- With generator, axes and screen at rest a change of the level sets TRIP OUT alone (R157). -/
theorem levelChange_idle {s : State} (hg : s.gen = Generator.reset)
    (ha : ∀ a, (s.axis a).state = .disabled) (ht : s.axes.stopTimer = none) (hu : Clearing s.screen)
    (old new : Level) : levelChange old new s = s.setTrip { s.trip with
      tripOut := if old = new then s.trip.tripOut else new == .driveOff } := by
  have motion : motionLevel old new s = s := by
    unfold motionLevel
    dsimp only
    rw [hg, generator_reset_level, ← hg]
    exact congrArg s.setAxes (axes_level_disabled ha ht old new _)
  unfold levelChange
  split
  · rfl
  · rw [motion]
    exact screenLevel_clearing (s := setTripOut new s) hu old new

/-! ## The blocks as reset -/

/-- Every block at its reset values, the levels not yet recomputed. -/
def bareReset (s : State) : State :=
  resetTrip (resetScreen ((resetDrive (resetMotion (resetControl (resetSwitch s)))).setImage ImageUnit.reset))

theorem resetStation_eq (s : State) : resetStation s = driveArbitrate (recompute (bareReset s)) := rfl

/-- The Screen Unit as RESET STATION leaves it. -/
def clearedScreen (now : Nat) (link : Option LinkWrite) : ScreenUnit :=
  { panel := defaultPanel, tiles := List.replicate 1200 emptyTile, streams := [], queue := [],
    link := some (link.getD { col := 0, row := 0, content := .fill 0 }),
    job := .clear (if link = none then 1 else 0), store := emptyBanner,
    view := { buffer := [], current := none, row := 0 }, repaintAt := now + 100 * 100000,
    ctr := ScreenUnit.reset.ctr }

/-- The Screen Unit at the start of its CLEAR pass, before the panel link takes a tile (R183). -/
def clearStarted (now : Nat) (link : Option LinkWrite) : ScreenUnit :=
  { ScreenUnit.reset with link := link, job := .clear 0, repaintAt := now + 100 * Config.msec }

theorem clearStarted_tile (now : Nat) : passWrite (clearStarted now none) =
    { col := 0, row := 0, content := .fill 0 } := by
  simp only [passWrite, passPos, ScreenUnit.background, clearStarted, ScreenUnit.reset, Nat.zero_mod, Nat.zero_div,
    Nat.zero_mul, Nat.add_zero]
  rfl

theorem screen_arbitrate_pass {u : ScreenUnit} (hl : u.link = none)
    (hp : passPos u.job < passTiles u.panel u.job) :
    u.arbitrate = { u with link := some (passWrite u), job := passNext u.job } := by
  unfold ScreenUnit.arbitrate
  rw [if_neg (by rw [hl]; decide), if_pos hp]

/-- A busy link keeps its write; an idle one takes the CLEAR pass's first tile (assumption log 51). -/
theorem clearStarted_arbitrate (now : Nat) (link : Option LinkWrite) :
    (clearStarted now link).arbitrate = clearedScreen now link := by
  cases link with
  | some w => exact screen_arbitrate_busy rfl
  | none =>
    have first : passPos (.clear 0) < passTiles defaultPanel (.clear 0) := by decide
    rw [screen_arbitrate_pass rfl first, clearStarted_tile]
    rfl

theorem resetScreen_screen (s : State) : (resetScreen s).screen = clearedScreen s.clock s.screen.link :=
  clearStarted_arbitrate s.clock s.screen.link

theorem resetTrip_screen (s : State) : (resetTrip s).screen = s.screen := rfl

theorem bareReset_screen (s : State) : (bareReset s).screen = clearedScreen s.clock s.screen.link := by
  have clock : ((resetDrive (resetMotion (resetControl (resetSwitch s)))).setImage ImageUnit.reset).clock =
      s.clock := by
    simp [resetDrive, resetMotion, resetControl, resetSwitch]
  have screen : ((resetDrive (resetMotion (resetControl (resetSwitch s)))).setImage ImageUnit.reset).screen =
      s.screen := by
    simp [resetDrive, resetMotion, resetControl, resetSwitch]
  unfold bareReset
  rw [resetTrip_screen, resetScreen_screen, clock, screen]

theorem clearedScreen_clearing (now : Nat) (link : Option LinkWrite) : Clearing (clearedScreen now link) where
  queue := rfl
  streams := rfl
  link := rfl
  job := ⟨_, rfl⟩
  tiles e he := by rw [List.eq_of_mem_replicate he]; rfl

theorem bareReset_axis (s : State) (a : Fin 4) : (bareReset s).axis a = resetAxis (s.axis a) :=
  Four.get_map resetAxis s.axes.recs a

theorem bareReset_publishes (s : State) : (bareReset s).publishStream = none := ite_self _

/-- The state once the levels of the tables are taken (R168). -/
def levelsReset (s : State) : State :=
  (bareReset s).setTrip { (bareReset s).trip with
    levels := (bareReset s).trip.compute
    tripOut := if s.trip.levels.eff = (bareReset s).trip.compute.eff then s.trip.tripOut
      else (bareReset s).trip.compute.eff == .driveOff }

theorem recompute_bareReset (s : State) : recompute (bareReset s) = levelsReset s := by
  have level : levelChange (bareReset s).trip.levels.eff (bareReset s).trip.compute.eff
      ((bareReset s).setTrip { (bareReset s).trip with levels := (bareReset s).trip.compute }) = levelsReset s :=
    levelChange_idle (s := (bareReset s).setTrip { (bareReset s).trip with levels := (bareReset s).trip.compute })
      rfl (fun a => congrArg AxisRecord.state (bareReset_axis s a)) rfl
      (by rw [State.setTrip_screen, bareReset_screen]; exact clearedScreen_clearing _ _) _ _
  have quiet : originateTrip false (levelsReset s) = (levelsReset s, false) := by
    unfold originateTrip
    rw [show (levelsReset s).publishStream = none from bareReset_publishes s]
  unfold recompute recomputeOnce
  dsimp only
  rw [level, quiet, ite_self]
  rfl

/-! ## The fault tree -/

theorem treeGet_map {l : List FaultId} {g : FaultId → FaultEntry} (hg : ∀ f, (g f).id = f) {f : FaultId}
    (hf : f ∈ l) : treeGet (l.map g) f = g f := by
  induction l with
  | nil => cases hf
  | cons k l ih =>
    rw [List.map_cons, treeGet_cons, hg]
    by_cases h : k = f
    · rw [if_pos h, h]
    · rw [if_neg h]
      exact ih ((List.mem_cons.mp hf).resolve_left (Ne.symm h))

theorem treeAfterReset_get (s : State) (f : FaultId) : treeGet (treeAfterReset s) f =
    { freshFault f with
      cond := heldCondition s f, latched := heldCondition s f || f == .stationReset } :=
  treeGet_map (g := fun f => { freshFault f with
    cond := heldCondition s f, latched := heldCondition s f || f == .stationReset }) (fun _ => rfl) (mem_allFaults f)

end Sys2Proof.Machine
end

