-- ==== Sys2Proof/Proofs/ResetOutcome.lean ====
section
/-! What RESET STATION leaves of each block, and its release exchanges (R125, R168, R194, R195). -/

namespace Sys2Proof.Machine

/-! ## Block by block -/

theorem bareReset_sw (s : State) : (bareReset s).sw = { s.sw with
    tap := List.replicate 32 none, clash := none, localK := [], localM := [], localS := [], localI := [],
    ctr := Switch.reset.ctr } := rfl

theorem bareReset_ports (s : State) : (bareReset s).portA = { s.portA with ctr := Port.reset.ctr } ∧
    (bareReset s).portB = { s.portB with ctr := Port.reset.ctr } := ⟨rfl, rfl⟩

theorem bareReset_station (s : State) : (bareReset s).station = { StationCtl.reset with
    address := s.station.address, seq := s.station.seq, sendStatus := s.station.sendStatus,
    taken := s.station.taken, resetAt := some s.clock } := rfl

theorem bareReset_drive (s : State) : (bareReset s).drive = { DriveLink.reset with
    exchange := s.drive.exchange.map fun x => { x with void := true } } := rfl

/-- The ring and the trip inputs hold conditions. -/
theorem heldCondition_congr {s t : State} (hs : ∀ p, (t.port p).side = (s.port p).side)
    (hr : t.sw.role = s.sw.role) (hi : t.trip.inputs = s.trip.inputs) : heldCondition t = heldCondition s := by
  funext f
  cases f <;> simp only [heldCondition, hs, hr, hi]

/-- The state whose fault tree is reset. -/
def beforeTripReset (s : State) : State :=
  resetScreen ((resetDrive (resetMotion (resetControl (resetSwitch s)))).setImage ImageUnit.reset)

theorem bareReset_eq (s : State) : bareReset s = resetTrip (beforeTripReset s) := rfl

theorem beforeTripReset_trip (s : State) : (beforeTripReset s).trip = s.trip := by
  simp [beforeTripReset, resetScreen, resetDrive, resetMotion, resetControl, resetSwitch]

theorem beforeTripReset_clock (s : State) : (beforeTripReset s).clock = s.clock := by
  simp [beforeTripReset, resetScreen, resetDrive, resetMotion, resetControl, resetSwitch]

theorem beforeTripReset_side (s : State) (p : PortId) :
    ((beforeTripReset s).port p).side = (s.port p).side := by
  cases p <;> simp [beforeTripReset, resetScreen, resetDrive, resetMotion, resetControl, resetSwitch, State.port,
    State.countPort, State.setPort]

theorem beforeTripReset_role (s : State) : (beforeTripReset s).sw.role = s.sw.role := by
  simp [beforeTripReset, resetScreen, resetDrive, resetMotion, resetControl, resetSwitch, Switch.emptyLocal]

theorem beforeTripReset_held (s : State) : heldCondition (beforeTripReset s) = heldCondition s :=
  heldCondition_congr (beforeTripReset_side s) (beforeTripReset_role s) (by rw [beforeTripReset_trip])

theorem bareReset_trip (s : State) : (bareReset s).trip = { s.trip with
    tree := treeAfterReset s, hostLevel := none, masks := List.replicate 7 false,
    refreshAt := s.clock + 20 * 100000, ctr := TripUnit.reset.ctr } := by
  have tree : treeAfterReset (beforeTripReset s) = treeAfterReset s := by
    unfold treeAfterReset
    rw [beforeTripReset_held]
  rw [bareReset_eq]
  unfold resetTrip
  rw [State.setTrip_trip, beforeTripReset_trip, beforeTripReset_clock, tree]
  rfl

/-! ## The release exchanges -/

/-- Only pending releases and the Drive Link have changed. -/
structure ReleasesOnly (u v : State) : Prop where
  gen : v.gen = u.gen
  ctx : v.ctx = u.ctx
  image : v.image = u.image
  sw : v.sw = u.sw
  portA : v.portA = u.portA
  portB : v.portB = u.portB
  station : v.station = u.station
  trip : v.trip = u.trip
  screen : v.screen = u.screen
  counters : v.axes.ctr = u.axes.ctr
  stopTimer : v.axes.stopTimer = u.axes.stopTimer
  axis : ∀ a, v.axis a = { u.axis a with release := (v.axis a).release }

theorem ReleasesOnly.refl (u : State) : ReleasesOnly u u :=
  ⟨rfl, rfl, rfl, rfl, rfl, rfl, rfl, rfl, rfl, rfl, rfl, fun _ => rfl⟩

theorem passedAxis_eq (k b : Nat) (r : AxisRecord) :
    passedAxis k b r = { r with release := (passedAxis k b r).release } := by
  unfold passedAxis
  split <;> rfl

theorem releasesOnly_passedOver (k : Nat) (u : State) : ReleasesOnly u (passedOver k u) :=
  ⟨rfl, rfl, rfl, rfl, rfl, rfl, rfl, rfl, rfl, rfl, rfl, fun a => by rw [passedOver_axis]; exact passedAxis_eq k a.val _⟩

theorem releasesOnly_startExchange (k : Nat) (u : State) (a : Fin 4) (r : Bool) :
    ReleasesOnly u (startExchange a r (passedOver k u)) :=
  ⟨rfl, rfl, rfl, rfl, rfl, rfl, rfl, rfl, rfl, rfl, rfl, (releasesOnly_passedOver k u).axis⟩

theorem passedOver_drive (k : Nat) (u : State) : (passedOver k u).drive = u.drive := rfl

/-- The release exchange of an axis after RESET STATION (R114, R122). -/
def releaseExchange (a : Fin 4) (r : AxisRecord) (level : Level) : Exchange :=
  { axis := a, release := true, setpoint := r.setpoint, enable := false, level := level, sequence := 0,
    record := commandRecord r.setpoint false level 0, limit := r.cfg.followLimit, noCapture := false, void := false }

/-- On a Drive Link as reset the release exchange is the first of its axis. -/
theorem startExchange_release {u : State} (h : u.drive = DriveLink.reset) (a : Fin 4) :
    (startExchange a true (passedOver a.val u)).drive = { DriveLink.reset with
      axes := DriveLink.reset.axes.set a { DriveLink.reset.axes.get a with sequence := 1 },
      exchange := some (releaseExchange a (u.axis a) u.trip.levels.eff) } := by
  have axis : (passedOver a.val u).axis a = u.axis a := by
    rw [passedOver_axis, passedAxis, if_neg (Nat.lt_irrefl _)]
  have drive := (passedOver_drive a.val u).trans h
  have get : DriveLink.reset.axes.get a = DriveAxis.reset := Four.get_all4 DriveAxis.reset a
  unfold startExchange State.driveAxis State.setDriveAxis
  rw [axis, drive, get]
  rfl

/-- What the arbiter does with the releases pending after RESET STATION. -/
theorem driveArbitrate_reset {u : State} (h : u.drive = DriveLink.reset) :
    (∃ a, (u.axis a).release = true ∧ u.ready.get a = true ∧
      (∀ b < a, (u.axis b).release = true → u.ready.get b = false) ∧
      driveArbitrate u = startExchange a true (passedOver a.val u)) ∨
    ((∀ a, (u.axis a).release = true → u.ready.get a = false) ∧ driveArbitrate u = passedOver 4 u) := by
  have run := driveArb_releases 9 (k := 0) (s := u) (by rw [h]; rfl) (by rw [h]; rfl) (by decide) (by decide)
    fun b hb => absurd hb (Nat.not_lt_zero _)
  rw [passedOver_zero] at run
  exact run

theorem driveArbitrate_underway {u : State} (h : u.drive.exchange ≠ none) : driveArbitrate u = u := by
  unfold driveArbitrate driveArb
  rw [if_pos (Option.isSome_iff_ne_none.mpr h)]

theorem releasesOnly_driveArbitrate {u : State}
    (h : u.drive.exchange ≠ none ∨ u.drive = DriveLink.reset) : ReleasesOnly u (driveArbitrate u) := by
  rcases h with h | h
  · rw [driveArbitrate_underway h]
    exact .refl u
  · obtain ⟨a, -, -, -, he⟩ | ⟨-, he⟩ := driveArbitrate_reset h <;> rw [he]
    · exact releasesOnly_startExchange _ u a true
    · exact releasesOnly_passedOver 4 u

/-! ## The whole station -/

theorem levelsReset_axis (s : State) (a : Fin 4) : (levelsReset s).axis a = resetAxis (s.axis a) :=
  bareReset_axis s a

theorem levelsReset_drive (s : State) : (levelsReset s).drive = { DriveLink.reset with
    exchange := s.drive.exchange.map fun x => { x with void := true } } := bareReset_drive s

theorem levelsReset_idle {s : State} (h : s.drive.exchange = none) : (levelsReset s).drive = DriveLink.reset := by
  rw [levelsReset_drive, h]
  rfl

theorem resetStation_run (s : State) : resetStation s = driveArbitrate (levelsReset s) := by
  rw [resetStation_eq, recompute_bareReset]

theorem resetStation_releases (s : State) : ReleasesOnly (levelsReset s) (resetStation s) := by
  rw [resetStation_run]
  refine releasesOnly_driveArbitrate ?_
  by_cases h : s.drive.exchange = none
  · exact .inr (levelsReset_idle h)
  · refine .inl ?_
    rw [levelsReset_drive]
    simpa using h

/-- The pending releases after RESET STATION (R125). -/
def pendingRelease (s : State) (a : Fin 4) : Bool := (s.axis a).release || (s.axis a).state != .disabled

theorem levelsReset_pending (s : State) (a : Fin 4) : ((levelsReset s).axis a).release = pendingRelease s a := by
  rw [levelsReset_axis]
  rfl

theorem levelsReset_ready (s : State) : (levelsReset s).ready = s.ready := by
  simp [levelsReset, bareReset, resetTrip, resetScreen, resetDrive, resetMotion, resetControl, resetSwitch]

/-- An exchange under way runs on, and every release stays pending. -/
theorem resetStation_underway {s : State} {x : Exchange} (h : s.drive.exchange = some x) :
    (resetStation s).drive = { DriveLink.reset with exchange := some { x with void := true } } ∧
    ∀ a, ((resetStation s).axis a).release = pendingRelease s a := by
  have drive : (levelsReset s).drive = { DriveLink.reset with exchange := some { x with void := true } } := by
    rw [levelsReset_drive, h]
    rfl
  rw [resetStation_run, driveArbitrate_underway (by rw [drive]; simp)]
  exact ⟨drive, levelsReset_pending s⟩

/-- With none under way the lowest axis with a release pending and its drive ready starts its exchange. -/
theorem resetStation_starts {s : State} (h : s.drive.exchange = none) {a : Fin 4}
    (ha : pendingRelease s a = true) (hr : s.ready.get a = true)
    (hb : ∀ b < a, pendingRelease s b = true → s.ready.get b = false) :
    (resetStation s).drive = { DriveLink.reset with
      axes := DriveLink.reset.axes.set a { DriveLink.reset.axes.get a with sequence := 1 },
      exchange := some (releaseExchange a (resetAxis (s.axis a)) (resetStation s).trip.levels.eff) } ∧
    ∀ b, ((resetStation s).axis b).release = (pendingRelease s b && decide (a ≤ b)) := by
  rw [resetStation_run]
  obtain ⟨c, hc, hcr, hcb, he⟩ | ⟨none, -⟩ := driveArbitrate_reset (levelsReset_idle h)
  · simp only [levelsReset_pending, levelsReset_ready] at hc hcr hcb
    have same : a = c := by
      rcases lt_trichotomy a c with hlt | heq | hlt
      · rw [hcb a hlt ha] at hr
        cases hr
      · exact heq
      · rw [hb c hlt hc] at hcr
        cases hcr
    subst same
    rw [he]
    refine ⟨?_, fun b => ?_⟩
    · rw [startExchange_release (levelsReset_idle h), levelsReset_axis]
      rfl
    · have axis : (startExchange a true (passedOver a.val (levelsReset s))).axis b =
          passedAxis a.val b.val ((levelsReset s).axis b) := passedOver_axis a.val _ b
      rw [axis, passedAxis_release, levelsReset_pending, ← decide_not]
      simp only [Nat.not_lt, Fin.le_def]
  · simp only [levelsReset_pending, levelsReset_ready] at none
    rw [none a ha] at hr
    cases hr

/-- With no drive ready where a release is pending every axis counts as released. -/
theorem resetStation_released {s : State} (h : s.drive.exchange = none)
    (hb : ∀ a, pendingRelease s a = true → s.ready.get a = false) :
    (resetStation s).drive = DriveLink.reset ∧ ∀ a, ((resetStation s).axis a).release = false := by
  rw [resetStation_run]
  obtain ⟨c, hc, hcr, -, -⟩ | ⟨-, he⟩ := driveArbitrate_reset (levelsReset_idle h)
  · simp only [levelsReset_pending, levelsReset_ready] at hc hcr
    rw [hb c hc] at hcr
    cases hcr
  · rw [he]
    refine ⟨(passedOver_drive 4 _).trans (levelsReset_idle h), fun a => ?_⟩
    rw [passedOver_axis, passedAxis_release, decide_eq_true a.isLt]
    simp

/-- No drive has a status or a bad outcome (R125). -/
theorem resetStation_driveAxis (s : State) (b : Fin 4) :
    ((resetStation s).driveAxis b).status = none ∧ ((resetStation s).driveAxis b).bad = 0 := by
  have fresh : DriveLink.reset.axes.get b = DriveAxis.reset := Four.get_all4 DriveAxis.reset b
  unfold State.driveAxis
  cases h : s.drive.exchange with
  | some x =>
    rw [(resetStation_underway h).1, fresh]
    exact ⟨rfl, rfl⟩
  | none =>
    rw [resetStation_run]
    obtain ⟨a, -, -, -, he⟩ | ⟨-, he⟩ := driveArbitrate_reset (levelsReset_idle h) <;> rw [he]
    · rw [startExchange_release (levelsReset_idle h)]
      by_cases hb : b = a
      · rw [hb, Four.get_set_same]
        fin_cases a <;> exact ⟨rfl, rfl⟩
      · rw [Four.get_set_other _ _ _ _ hb, fresh]
        exact ⟨rfl, rfl⟩
    · rw [passedOver_drive, levelsReset_idle h, fresh]
      exact ⟨rfl, rfl⟩

theorem levelsReset_tree (s : State) : (levelsReset s).trip.tree = treeAfterReset s := by
  have kept : (levelsReset s).trip.tree = (bareReset s).trip.tree := rfl
  rw [kept, bareReset_trip]

/-- The Trip Unit after RESET STATION (R168). -/
theorem levelsReset_trip (s : State) : (levelsReset s).trip = { s.trip with
    tree := (levelsReset s).trip.tree, levels := (levelsReset s).trip.compute,
    tripOut := (levelsReset s).trip.tripOut, hostLevel := none, masks := List.replicate 7 false,
    refreshAt := s.clock + 20 * 100000, ctr := TripUnit.reset.ctr } := by
  have levels : (levelsReset s).trip.levels = (levelsReset s).trip.compute := rfl
  have kept : (levelsReset s).trip = { (bareReset s).trip with
      levels := (levelsReset s).trip.levels, tripOut := (levelsReset s).trip.tripOut } := rfl
  rw [← levels, levelsReset_tree, kept, bareReset_trip]

theorem levelsReset_tripOut {s : State} (h : s.trip.tripOut = (s.trip.levels.eff == .driveOff)) :
    (levelsReset s).trip.tripOut = ((levelsReset s).trip.levels.eff == .driveOff) := by
  have tripOut : (levelsReset s).trip.tripOut = if s.trip.levels.eff = (bareReset s).trip.compute.eff then
      s.trip.tripOut else (bareReset s).trip.compute.eff == .driveOff := rfl
  have levels : (levelsReset s).trip.levels = (bareReset s).trip.compute := rfl
  rw [tripOut, levels]
  split
  · next heq => rw [h, heq]
  · rfl

/-- The faults after RESET STATION (R168). -/
theorem levelsReset_fault (s : State) (f : FaultId) : treeGet (levelsReset s).trip.tree f =
    { freshFault f with
      cond := heldCondition s f, latched := heldCondition s f || f == .stationReset } := by
  rw [levelsReset_tree]
  exact treeAfterReset_get s f

theorem levelsReset_screen (s : State) : (levelsReset s).screen = clearedScreen s.clock s.screen.link :=
  bareReset_screen s

/-- An axis after RESET STATION: DISABLED at its setpoint (R88). -/
theorem resetStation_axis (s : State) (a : Fin 4) : (resetStation s).axis a = { defaultAxis with
    setpoint := (s.axis a).setpoint, release := ((resetStation s).axis a).release } := by
  rw [(resetStation_releases s).axis a, levelsReset_axis]
  rfl

end Sys2Proof.Machine

open Sys2Proof Sys2Proof.Machine

/-- Settles O58: the blocks as reset, then the release exchanges, then the answer. -/
theorem resetStation : Obligations.ResetStation := by
  intro m e s ha hl
  have answered : Answered e .resetStation (.plain .ok) (Machine.resetStation (countTaken (s.tick m)))
      (commandReset e (s.tick m)) :=
    taken_answered e .resetStation (okAfter Machine.resetStation) (s.tick m) ha hl
  refine ⟨Machine.resetStation (countTaken (s.tick m)), _, rfl, answered, ?_⟩
  have xsw : (countTaken (s.tick m)).sw = s.sw := by simp [countTaken]
  have xaxis (a : Fin 4) : (countTaken (s.tick m)).axis a = s.axis a := by simp [countTaken, State.axis]
  have xdrive : (countTaken (s.tick m)).drive = s.drive := by simp [countTaken]
  have xready : (countTaken (s.tick m)).ready = m.ready := by simp [countTaken]
  have xclock : (countTaken (s.tick m)).clock = max s.clock m.time := by simp [countTaken]
  have xtrip : (countTaken (s.tick m)).trip = s.trip := by simp [countTaken]
  have xscreen : (countTaken (s.tick m)).screen = s.screen := by simp [countTaken]
  have xportA : (countTaken (s.tick m)).portA = s.portA := by simp [countTaken]
  have xportB : (countTaken (s.tick m)).portB = s.portB := by simp [countTaken]
  have xstation : (countTaken (s.tick m)).station = { s.station with ctr := (countTaken (s.tick m)).station.ctr } := by
    simp [countTaken]
  have xheld : heldCondition (countTaken (s.tick m)) = heldCondition s :=
    heldCondition_congr (fun p => by cases p <;> simp [State.port, xportA, xportB]) (by rw [xsw]) (by rw [xtrip])
  have xpending (a : Fin 4) : pendingRelease (countTaken (s.tick m)) a = pendingRelease s a := by
    unfold pendingRelease
    rw [xaxis]
  generalize countTaken (s.tick m) = x at *
  have kept := resetStation_releases x
  have axis (a : Fin 4) := resetStation_axis x a
  have station : (Machine.resetStation x).station = { StationCtl.reset with
      address := s.station.address, seq := s.station.seq, sendStatus := s.station.sendStatus,
      taken := s.station.taken, resetAt := some (max s.clock m.time) } := by
    rw [kept.station, ← xclock]
    refine (bareReset_station x).trans ?_
    rw [xstation]
  have fault (f : FaultId) : treeGet (Machine.resetStation x).trip.tree f = { freshFault f with
      cond := heldCondition s f, latched := heldCondition s f || f == .stationReset } := by
    rw [kept.trip, levelsReset_fault, xheld]
  refine ⟨kept.gen, kept.ctx, kept.image, kept.counters, kept.stopTimer, fun a => ?_, ?_, ⟨fun y hy => ?_,
    fun hn => ⟨fun a ha hr hb => ?_, fun hb => ?_⟩⟩, ?_, ?_, station, ?_, ?_, ?_, ?_, ?_, ?_, ?_, ?_, fun f => ?_,
    ?_, fun ho => ?_, ?_⟩
  · obtain ⟨status, bad⟩ := resetStation_driveAxis x a
    have record := axis a
    rw [xaxis] at record
    refine ⟨?_, ?_, ?_, ?_, ?_, status, bad, record⟩ <;> rw [record] <;> rfl
  · rw [kept.sw]
    refine (bareReset_sw x).trans ?_
    rw [xsw]
  · obtain ⟨drive, release⟩ := resetStation_underway (s := x) (xdrive ▸ hy)
    exact ⟨drive, fun a => (release a).trans (xpending a)⟩
  · obtain ⟨drive, release⟩ := resetStation_starts (s := x) (xdrive ▸ hn) (a := a) ((xpending a).trans ha)
      (xready ▸ hr) fun b hlt hp => xready ▸ hb b hlt ((xpending b).symm.trans hp)
    refine ⟨drive.trans ?_, fun b => (release b).trans (by rw [xpending]; rfl)⟩
    rw [xaxis]
    rfl
  · obtain ⟨drive, release⟩ := resetStation_released (s := x) (xdrive ▸ hn) fun a hp =>
      xready ▸ hb a ((xpending a).symm.trans hp)
    exact ⟨drive, release⟩
  · rw [kept.portA]
    refine (bareReset_ports x).1.trans ?_
    rw [xportA]
  · rw [kept.portB]
    refine (bareReset_ports x).2.trans ?_
    rw [xportB]
  · rw [station]
    rfl
  · rw [station]
    rfl
  · rw [station]
    rfl
  · rw [station]
    rfl
  · rw [station]
    rfl
  · rw [answered.headInUse]
    rw [station]
    rfl
  · rw [answered.shortTimer]
    rw [station]
    rfl
  · rw [answered.longTimer]
    rw [station]
    rfl
  · unfold TripUnit.isPresent TripUnit.isLatched
    rw [fault]
    dsimp only [freshFault]
    exact ⟨rfl, rfl, rfl, Bool.or_comm (heldCondition s f) (f == .stationReset)⟩
  · have trip := levelsReset_trip x
    rw [xtrip, xclock] at trip
    rw [kept.trip]
    exact trip
  · rw [kept.trip]
    exact levelsReset_tripOut (by rw [xtrip]; exact ho)
  · rw [kept.screen, levelsReset_screen, xscreen, xclock]
    rfl
end

