-- ==== Sys2Proof/Proofs/Bounds.lean ====
section
/-! The queue bounds are not kept from every state that meets them. `QueueInv` asks of the local insert queues their
lengths alone, so one of them may hold an item marked as the reservation of a frame being received. The arbiter that
picks it records that frame's reservation as picked, while the true reservation still waits in the urgent queue. No
such state is reachable, for local queues are filled with own frames only (R40), but the condition does not say so. -/

namespace Sys2Proof.Machine

/-- The header of a T frame from station 1. -/
def strayHeader : Header :=
  { cls := .t, stream := 0, dest := 63, src := 1, tag := 0, seq := 0, hop := 0, age := 0, len := 4 }

/-- The T frame's reservation for port A as its frame start makes it, before its 32 bytes have come (R35). -/
def waitingResv : QItem := resvItem .a 0 strayHeader

/-- The frame being received on port A for which `waitingResv` waits. -/
def heldReception : Reception :=
  { stamp := 0, hdr := strayHeader, use := .forwardInput, resv := .held, got32 := false }

/-- A frame on port B whose end delimiter and fill have gone out. -/
def sentFrame : Tx :=
  { frame := { hdr := strayHeader, body := .bytes [] }, copyOf := none, endAt := 0, aborted := false, check := none }

/-- A station in ISOLATED at which port B completes a frame: a reservation for port A heads the urgent queue, and the
local K queue holds an item that claims to be a reservation for port A too. -/
def straySt : State :=
  { State.reset with
    pending := [.transmitCompletion { time := 0, ready := Four.all4 false } .b]
    portA := { Port.reset with reception := some heldReception }
    portB := { Port.reset with tx := some sentFrame }
    sw := { Switch.reset with urgent := [waitingResv], localK := [{ waitingResv with ready := true }] } }

theorem straySt_reservationInv : ReservationInv straySt where
  once p := by cases p <;> decide
  forward p i hi hp := by
    obtain rfl : i = waitingResv := List.mem_singleton.mp hi
    obtain rfl : PortId.a = p := QOrigin.reserved.inj hp
    exact ⟨heldReception, rfl, rfl, by decide, rfl⟩
  counter _ _ hi := (List.not_mem_nil hi).elim

theorem straySt_queueInv : QueueInv straySt :=
  { reset_queueInv with
    reservations := straySt_reservationInv
    urgent := by decide
    cycle := by decide
    locals := fun cls => by cases cls <;> simp [Switch.localQ, straySt, Switch.reset, Config.localCap] }

/-- The arbiter passes over the reservation that is not ready, picks the stray item of the local queue, and so takes
port A's reservation as picked. -/
theorem straySt_step : ∃ t, step straySt = .next t ∧ waitingResv ∈ t.sw.urgent ∧
    (t.port .a).reception = some { heldReception with resv := .picked } :=
  ⟨_, rfl, by decide, by decide⟩

end Sys2Proof.Machine

open Sys2Proof Sys2Proof.Machine

/-- Refutes O10: after `straySt_step` the reservation in the urgent queue is no longer recorded as held. -/
theorem not_stepKeepsBounds : ¬ Obligations.StepKeepsBounds := by
  rintro ⟨keeps, -⟩
  obtain ⟨t, ht, hw, hr⟩ := straySt_step
  obtain ⟨r, hr', held, -⟩ :=
    (keeps straySt t straySt_queueInv ht).reservations.forward .a waitingResv (List.mem_append_left _ hw) rfl
  obtain rfl : { heldReception with resv := .picked } = r := Option.some.inj (hr.symm.trans hr')
  cases held
end

