-- ==== Sys2Proof/Proofs/Refusals.lean ====
section
/-! Management commands that fail check 3, and WRITEs of tables that cannot be written (R184, R187). Every management
command of the table is `stationCommand` of its own check 3 and its own effects; what is refused is refused there. -/

namespace Sys2Proof.Machine

/-! ## The course of a command that is not taken -/

theorem stationCommand_unassigned {s : State} (h : s.station.address = 0) (e : Envelope) (cmd : MgmtCmd)
    (wf fb : Bool) (run : State → State × Answer) : stationCommand e cmd wf fb run s = s := if_pos h

/-- A command that fails check 3 is refused with BAD_LENGTH (R184). -/
theorem stationCommand_badLength {s : State} (ha : s.station.address ≠ 0) {e : Envelope} (cmd : MgmtCmd)
    {wf : Bool} (fb : Bool) (run : State → State × Answer) (h : e.lengthOk = false ∨ wf = false) :
    stationCommand e cmd wf fb run s = refuse e cmd .badLength s := by
  have fails : (!(e.lengthOk && wf)) = true := by
    rcases h with h | h <;> simp [h]
  rw [stationCommand, if_neg ha, if_pos fails]

/-! ## Check 3 of each command -/

theorem countOk_false {α : Type} {es : List α} (h : es.length = 0 ∨ 8 < es.length) : countOk es = false := by
  unfold countOk
  simp only [Bool.and_eq_false_iff, decide_eq_false_iff_not]
  omega

theorem within_false {n : Nat} (h : n = 0 ∨ 8 < n) : within 1 n 8 = false := by
  unfold within
  simp only [Bool.and_eq_false_iff, decide_eq_false_iff_not]
  omega

/-- An entry of a wrong size fails the check of all of them. -/
theorem all_size_false {α : Type} {es : List α} {size : α → Nat} {n : Nat} (h : ∃ x ∈ es, size x ≠ n) :
    (es.all fun x => size x == n) = false := by
  simpa using h

/-- The check of a WRITE's number of entries and of their sizes. -/
theorem sizes_false {α : Type} {es : List α} {size : α → Nat} {n : Nat}
    (h : (es.length = 0 ∨ 8 < es.length) ∨ ∃ x ∈ es, size x ≠ n) :
    (countOk es && es.all fun x => size x == n) = false := by
  rcases h with h | h
  · rw [countOk_false h, Bool.false_and]
  · rw [all_size_false h, Bool.and_false]

/-- A management command of the table is one course of Station Control, whose check 3 fails where the entries are
wrong (R184, R187). -/
theorem commandCode_course {c : Instr} {e : Envelope} {cmd : MgmtCmd} (h : commandOf c = some (e, cmd)) :
    ∃ wf fb run, (∀ s, commandCode e cmd s = stationCommand e cmd wf fb run s) ∧
      (wrongEntries c → wf = false) := by
  cases c <;> simp only [commandOf, Option.some.injEq, Prod.mk.injEq, reduceCtorEq] at h <;>
    obtain ⟨rfl, rfl⟩ := h
  case writeStation => exact ⟨_, _, _, fun _ => rfl, sizes_false⟩
  case writeMasks => exact ⟨_, _, _, fun _ => rfl, sizes_false⟩
  case writeBanner => exact ⟨_, _, _, fun _ => rfl, sizes_false⟩
  case writeMaster => exact ⟨_, _, _, fun _ => rfl, countOk_false⟩
  case writeCamera => exact ⟨_, _, _, fun _ => rfl, countOk_false⟩
  case writePanel => exact ⟨_, _, _, fun _ => rfl, countOk_false⟩
  case writeTap => exact ⟨_, _, _, fun _ => rfl, countOk_false⟩
  case writeAxis => exact ⟨_, _, _, fun _ => rfl, countOk_false⟩
  case writeWindow => exact ⟨_, _, _, fun _ => rfl, countOk_false⟩
  case writeFaultConfig => exact ⟨_, _, _, fun _ => rfl, countOk_false⟩
  case writeTileMap => exact ⟨_, _, _, fun _ => rfl, countOk_false⟩
  all_goals exact ⟨_, _, _, fun _ => rfl, False.elim⟩

/-! ## Tables that cannot be written -/

/-- The code a WRITE of a table other than the eleven is answered with (R187). -/
def otherTableCode : TableId → Resp
  | .unknown _ => .badTable
  | _ => .readOnly

theorem otherTableCode_readOnly {table : TableId}
    (h : table ∈ [TableId.result, .faults, .remote, .screenStreams, .counters]) :
    otherTableCode table = .readOnly := by
  simp only [List.mem_cons, List.not_mem_nil, or_false] at h
  rcases h with rfl | rfl | rfl | rfl | rfl <;> rfl

/-- A WRITE of another table runs no effects: its code is its answer (R187). -/
theorem takeCommand_writeOther {via : Via} {b : MgmtBody} {table : TableId} {count : Nat}
    (hk : b.kind = .command) (hc : b.cmd = .write (.other table count)) (s : State) :
    takeCommand via b s = stationCommand ⟨via, b.hostTag, b.lengthOk⟩ b.cmd (within 1 count 8) true
      (fun s => (s, Answer.plain (otherTableCode table))) s := by
  rw [hc]
  simp only [takeCommand, hk, hc]
  cases table <;> rfl

end Sys2Proof.Machine

open Sys2Proof Sys2Proof.Machine

/-- Settles O52: each command's course ends at address 0 or at check 3; a WRITE of another table passes it and is
answered by its code alone. -/
theorem managementRefused : Obligations.ManagementRefused := by
  refine ⟨fun c e cmd s hc => ?_, ?_⟩
  · obtain ⟨wf, fb, run, course, entries⟩ := commandCode_course hc
    rw [exec_commandOf hc, course]
    refine ⟨fun ha => ?_, fun ha hw => ⟨_, rfl, ?_⟩⟩
    · rw [stationCommand_unassigned (s := s.tick (momentOf c)) ha]
    · rw [stationCommand_badLength (s := s.tick (momentOf c)) ha cmd fb run (hw.imp_right entries)]
      exact refuse_refused e cmd .badLength _ rfl
  · intro via b s table count hk hb e t
    have ht : t = stationCommand e b.cmd (within 1 count 8) true
        (fun s => (s, Answer.plain (otherTableCode table))) s := takeCommand_writeOther hk hb s
    refine ⟨fun ha => ?_, fun ha hl h1 h8 => ?_, fun ha hw => ?_⟩
    · rw [ht, stationCommand_unassigned ha]
    · have taken : Answered e b.cmd (.plain (otherTableCode table)) (countTaken s) t := by
        have number : within 1 count 8 = true := by simp [within, h1, h8]
        rw [ht, number]
        exact taken_answered e b.cmd (fun s => (s, Answer.plain (otherTableCode table))) s ha hl
      refine ⟨?_, fun hm => otherTableCode_readOnly hm ▸ taken⟩
      rintro ⟨n, rfl⟩
      exact taken
    · rw [ht, stationCommand_badLength ha b.cmd true _ (hw.imp_right within_false)]
      exact refuse_refused e b.cmd .badLength s rfl
end

