-- ==== Sys2Proof/Proofs/BlockWrites.lean ====
section
/-! WRITEs of the tables that touch one block: an entry list that passes its checks is written whole, and its effect is
one update of that block (R187). -/

namespace Sys2Proof.Machine

/-! ## Entries that pass -/

theorem firstFailure_none {α : Type} {check : α → Option Resp} {es : List α} (h : ∀ x ∈ es, check x = none) (n : Nat) :
    firstFailure check n es = none := by
  induction es generalizing n with
  | nil => rfl
  | cons x es ih =>
    rw [firstFailure, h x List.mem_cons_self]
    exact ih (fun y hy => h y (List.mem_cons_of_mem x hy)) (n + 1)

/-- A WRITE none of whose entries fails takes its effects (R187). -/
theorem runWrite_passed {α : Type} {check : State → α → Option Resp} {es : List α} {s : State}
    (h : ∀ x ∈ es, check s x = none) (act : State → State × Answer) : runWrite check es act s = act s := by
  rw [runWrite, firstFailure_none h]

/-- The course of a WRITE whose checks all pass, its effects being `act` (R184, R187). -/
theorem write_answered {α : Type} {e : Envelope} {s : State} (ha : s.station.address ≠ 0) (hl : e.lengthOk = true)
    (cmd : MgmtCmd) {wf : Bool} (hw : wf = true) {check : State → α → Option Resp} {es : List α}
    (h : ∀ x ∈ es, check (countTaken s) x = none) (act : State → State × Answer) :
    Answered e cmd (act (countTaken s)).2 (act (countTaken s)).1
      (stationCommand e cmd wf true (runWrite check es act) s) := by
  subst hw
  have answered := taken_answered e cmd (runWrite check es act) s ha hl
  rwa [runWrite_passed h] at answered

theorem lastRecord_eq {α : Type} {es : List (Nat × α)} {new : α} (h : es.getLast?.map (·.2) = some new) (old : α) :
    lastRecord old es = new := by
  obtain ⟨x, hx, rfl⟩ := Option.map_eq_some_iff.mp h
  obtain ⟨l, rfl⟩ := List.getLast?_eq_some_iff.mp hx
  simp [lastRecord]

/-! ## MASTER -/

/-- The generator after a write that is taken: its target falls to the new v_max (R67). -/
theorem generator_write_eq (g : Generator) (new : MasterRecord) (now : Nat) : g.write new now = { g with
    cfg := new, target := min g.target new.vMax,
    state := if new.vMax < g.target then masterState g.speed new.vMax g.limit else g.state,
    timer := timerAfter g.cfg new now g.timer } := by
  unfold Generator.write
  by_cases h : new.vMax < g.target
  · simp only [if_pos h, Nat.min_eq_right (Nat.le_of_lt h)]
    rfl
  · simp only [if_neg h, Nat.min_eq_left (Nat.not_lt.mp h)]

/-! ## PANEL -/

theorem viewChanged_iff (old new : PanelRecord) : viewChanged old new = true ↔
    old.viewStream ≠ new.viewStream ∨ old.viewCol ≠ new.viewCol ∨ old.viewRow ≠ new.viewRow ∨
      old.viewWidth ≠ new.viewWidth ∨ old.viewHeight ≠ new.viewHeight := by
  simp [viewChanged, or_assoc]

/-- A record that passes the check of a PANEL entry gives the panel a tile (R169). -/
theorem panelRanges_tiles {new : PanelRecord} {s : State} {x : Nat × PanelRecord} (h : checkPanel new s x = none)
    (hx : x.2 = new) : 0 < new.height * new.width := by
  have ranges : panelRanges new new = true := by
    by_contra hn
    cases he : x.1 != 0 <;> simp [checkPanel, firstFail, failIf, hx, hn, he] at h
  simp only [panelRanges, within, Bool.and_eq_true, decide_eq_true_eq] at ranges
  exact Nat.mul_pos (by omega) (by omega)

/-- The Screen Unit after a PANEL write, before the panel link chooses (R170). -/
def ScreenUnit.rewritten (w : ScreenUnit) (new : PanelRecord) : ScreenUnit :=
  let old := w.panel
  let resized := old.width ≠ new.width ∨ old.height ≠ new.height
  let moved := old.bannerRow ≠ new.bannerRow ∨ old.bannerHeight ≠ new.bannerHeight
  let viewed := old.viewStream ≠ new.viewStream ∨ old.viewCol ≠ new.viewCol ∨ old.viewRow ≠ new.viewRow ∨
    old.viewWidth ≠ new.viewWidth ∨ old.viewHeight ≠ new.viewHeight
  let stream (x : TileEntry) : Bool := match x.source with | .stream _ => true | .none => false
  { w with
    panel := new,
    tiles :=
      if resized then List.replicate (new.width * new.height) emptyTile
      else if moved then w.tiles.map fun x => if stream x then { x with stale := true } else x
      else w.tiles,
    streams := if resized then [] else w.streams,
    queue :=
      if resized ∨ moved then [] else if viewed then w.queue.filter fun x => x.stream.isSome else w.queue,
    view := if resized ∨ viewed then { buffer := [], current := none, row := 0 } else w.view,
    job := if resized ∨ moved then .clear 0 else w.job }

theorem startPass_clear {u : ScreenUnit} (h : 0 < u.panel.height * u.panel.width) :
    u.startPass (.clear 0) = { u with job := .clear 0 } := by
  rw [ScreenUnit.startPass, if_neg (by simp only [passTiles]; omega)]

theorem markStreamStale_eq : markStreamStale = fun x : TileEntry =>
    if (match x.source with | .stream _ => true | .none => false) then { x with stale := true } else x := by
  funext x
  unfold markStreamStale
  cases x.source <;> rfl

/-- A PANEL write acts as `ScreenUnit.rewritten` says, and the link chooses (R170). -/
theorem writePanel_eq (w : ScreenUnit) {new : PanelRecord} (h : 0 < new.height * new.width) :
    w.writePanel new = (w.rewritten new).arbitrate := by
  unfold ScreenUnit.writePanel ScreenUnit.rewritten
  dsimp only
  congr 1
  by_cases hr : w.panel.width ≠ new.width ∨ w.panel.height ≠ new.height
  · simp only [if_pos hr, if_pos (Or.inl hr)]
    exact startPass_clear h
  · simp only [hr, false_or, ← viewChanged_iff]
    by_cases hv : viewChanged w.panel new = true
    · simp only [if_pos hv, ScreenUnit.dropView, ScreenUnit.resetView]
      by_cases hm : w.panel.bannerRow ≠ new.bannerRow ∨ w.panel.bannerHeight ≠ new.bannerHeight
      · simp only [if_pos hm, markStreamStale_eq]
        exact startPass_clear h
      · simp only [if_neg hm, if_false]
    · simp only [if_neg hv]
      by_cases hm : w.panel.bannerRow ≠ new.bannerRow ∨ w.panel.bannerHeight ≠ new.bannerHeight
      · simp only [if_pos hm, markStreamStale_eq]
        exact startPass_clear h
      · simp only [if_neg hm, if_false]

/-- An idle link takes the first tile of a CLEAR pass at once (R175, R176; assumption log 51). -/
theorem arbitrate_clear {u : ScreenUnit} (hl : u.link = none) (hj : u.job = .clear 0)
    (h : 0 < u.panel.height * u.panel.width) : u.arbitrate = { u with
      job := .clear 1,
      link := some { col := 0, row := 0,
                     content := .fill (BitVec.ofNat 8 (u.tiles.getD 0 emptyTile).background) } } := by
  rw [screen_arbitrate_pass hl (by rw [hj]; exact h)]
  simp [passWrite, passNext, passPos, hj, ScreenUnit.background]

/-- An idle link with no pass and no write to send stays idle (R175). -/
theorem arbitrate_nothing {u : ScreenUnit} (hj : u.job = .idle) (hq : u.queue = []) : u.arbitrate = u := by
  unfold ScreenUnit.arbitrate
  rw [hj, hq]
  split <;> rfl

/-! ## WINDOW and TILE MAP -/

theorem foldl_setWindow (es : List (Nat × WindowConfig)) (u : ImageUnit) :
    es.foldl (fun u x => u.setWindow x.1 (freshWindow x.2)) u =
      { u with windows := es.foldl (fun l x => l.set x.1 { Window.reset with cfg := x.2 }) u.windows } := by
  induction es generalizing u with
  | nil => rfl
  | cons x es ih => exact ih _

theorem foldl_writeTile (es : List (Nat × TileFields)) (u : ScreenUnit) :
    es.foldl (fun v x => v.updateTile x.1 (writeTile x.2)) u =
      { u with tiles := es.foldl (fun l x => l.modify x.1 fun old =>
        { source := x.2.source, background := x.2.background,
          stale := if x.2.source = old.source then old.stale else false }) u.tiles } := by
  induction es generalizing u with
  | nil => rfl
  | cons x es ih => exact ih _

end Sys2Proof.Machine

open Sys2Proof Sys2Proof.Machine

/-- Settles O54: table by table the written block, under the course of a WRITE whose checks pass. -/
theorem writesOfOneBlock : Obligations.WritesOfOneBlock := by
  intro m e s ha hl u taken
  have written {α : Type} {c : Instr} {w : WriteSet} {wf : Bool} {check : State → α → Option Resp} {es : List α}
      {act : State → State × Answer} {r : Resp} {v : State}
      (run : exec c s = .next (stationCommand e (.write w) wf true (runWrite check es act) (s.tick m)))
      (hw : wf = true) (h : ∀ x ∈ es, check u x = none) (hv : act u = (v, .plain r)) : taken c w r v := by
    refine ⟨_, run, ?_⟩
    have answered := write_answered (s := s.tick m) ha hl (.write w) hw h act
    rwa [hv] at answered
  refine ⟨fun es new hn hnew hc => ?_, fun es new hn hnew hc => ?_, fun es hn hc => ?_, fun es hn hc => ?_,
    fun es hn hc => ?_, fun es hn hp hc => ?_⟩
  · have last : lastRecord u.gen.cfg es = new := lastRecord_eq hnew _
    refine written rfl hn (fun x hx => ?_) ?_
    · rw [show lastRecord _ es = new from last]
      exact hc x hx
    · rw [show lastRecord _ es = new from last]
      dsimp only
      rw [generator_write_eq]
      rfl
  · have last : lastRecord u.screen.panel es = new := lastRecord_eq hnew _
    have tiles : 0 < new.height * new.width := by
      obtain ⟨x, hx, rfl⟩ := Option.map_eq_some_iff.mp hnew
      exact panelRanges_tiles (hc x (List.mem_of_getLast? hx)) rfl
    have panel {v : ScreenUnit} (hv : (s.screen.rewritten new).arbitrate = v) :
        taken (.writePanel m e es) (.panel es) .ok (u.setScreen v) := by
      refine written rfl hn (fun x hx => ?_) ?_
      · rw [show lastRecord _ es = new from last]
        exact hc x hx
      · rw [show lastRecord _ es = new from last, ← hv, ← writePanel_eq _ tiles]
        rfl
    refine ⟨fun hlink => panel ?_, fun hlink hr => panel ?_, fun hlink hj hq hr => panel ?_⟩
    · exact screen_arbitrate_busy (Option.isSome_iff_ne_none.mpr hlink)
    · exact arbitrate_clear hlink (if_pos hr) tiles
    · refine arbitrate_nothing ((if_neg hr).trans hj) ((if_neg hr).trans ?_)
      rw [hq]
      exact ite_self _
  · exact written rfl hn hc rfl
  · refine written rfl hn hc ?_
    rw [← foldl_setWindow]
    rfl
  · refine written rfl hn hc ?_
    simp only [okAfter, ScreenUnit.writeTiles, foldl_writeTile]
    rfl
  · exact written rfl (by rw [hn, hp]; rfl) hc rfl
end

