-- ==== Sys2Proof/Proofs/TapDelivery.lean ====
section
/-! A T frame that the urgent queue has no room for is not always counted URGENT_DROP. Its delivery may change the
effective level, a REPAINT notice then joins a local insert queue, and the outputs choose. `NoReservation` asks of the
urgent, transit and repeat queues alone, so a local queue may hold an item marked as the reservation of this frame: the
arbiter picks it, the frame counts as picked, and it goes on as the copy being sent. No such state is reachable, for
local queues are filled with own frames only (R40), but the statement does not say so. -/

namespace Sys2Proof.Machine

/-- The T frame of `strayHeader` with level NOTICE, code 0x13, count 1 (1.7). -/
def strayFrame : List Byte :=
  [1, 0, 63, 1, 0, 0, 0, 0, 0, 0, 0, 0, 0, 4, 0, 0, 1, 0x13, 1, 0, 0x79, 0xD3, 0x91, 0xC4]

/-- Station 5 in THROUGH with idle outputs, its effective level not yet computed from its masks: group 7 is masked, so
the next recomputation takes the level from NOTICE to CLEAR, and the tile of a stream is stale then. Eight reservations
for port B wait in the urgent queue, and the local K queue holds an item that claims to be one for port A, whose frame
in reception has none. -/
def strayTap : State :=
  { State.reset with
    station := { StationCtl.reset with address := 5 }
    portA := { Port.reset with rx := .sync, side := .usable, reception := some { heldReception with resv := .none } }
    portB := { Port.reset with side := .usable }
    sw := { Switch.reset with
      role := .through
      urgent := List.replicate 8 (resvItem .b 0 strayHeader)
      localK := [{ waitingResv with ready := true }]
      tap := some { cls := .t, stream := 0, action := .passCopy, target := .unit } :: List.replicate 31 none }
    trip := { TripUnit.reset with
      tree := allFaults.map freshFault
      masks := List.replicate 7 true
      levels := { TripUnit.reset.levels with pub := .clear, eff := .notice } }
    screen := { ScreenUnit.reset with
      streams := [{ stream := 0, owner := 1 }]
      tiles := [{ source := .stream 0, background := 0, stale := true }] } }

/-- The moment of the arrival. -/
def strayMoment : Moment := { time := 1, ready := Four.all4 false }

/-- The station as the delivery of the frame leaves it, with the frame's copy begun on port B. -/
def strayDelivered : State :=
  deliverUnit (strayTap.arrived strayMoment .a) (hoppedFrame strayFrame (.bytes []))

theorem strayTap_arrives : GoodArrival strayTap strayMoment .a strayFrame where
  sync := rfl
  fits := by decide
  good := by decide +kernel

theorem strayTap_noReservation : NoReservation strayTap .a := by
  intro i hi
  obtain rfl : i = resvItem .b 0 strayHeader :=
    List.eq_of_mem_replicate (n := 8) (by simpa [strayTap, Switch.reset] using hi)
  decide

/-- The delivery leaves the urgent queue full, and RING_CONGESTION is not latched. -/
theorem strayDelivered_full :
    8 ≤ strayDelivered.sw.urgent.length ∧ strayDelivered.trip.isLatched .ringCongestion = false := by
  decide +kernel

/-- After the frame's end no frame has been counted URGENT_DROP. -/
theorem strayTap_exec : ∃ t, exec (.frameArrival strayMoment .a (.ended strayFrame (.bytes []))) strayTap = .next t ∧
    t.trip.isLatched .ringCongestion = false :=
  ⟨_, exec_good _ strayTap_arrives, by decide +kernel⟩

end Sys2Proof.Machine

open Sys2Proof Sys2Proof.Machine

/-- Refutes O21: at `strayTap` the statement demands that RING_CONGESTION is latched, but by `strayTap_exec` it is not. -/
theorem not_tapTableDelivers : ¬ Obligations.TapTableDelivers := by
  intro h
  obtain ⟨t, ht, latched⟩ := strayTap_exec
  obtain ⟨-, -, -, -, t', ht', -, -, -, drops, -⟩ := h strayMoment .a strayTap strayFrame (.bytes [])
    strayTap_arrives rfl (by decide) (by decide) (by decide) (.inl rfl)
  obtain rfl : t = t' := by injection ht.symm.trans ht'
  obtain ⟨-, full⟩ := drops (.inr ⟨_, rfl, rfl⟩) rfl (.inl rfl)
  obtain ⟨-, whole, -⟩ := full strayTap_noReservation strayDelivered_full.1
  exact absurd (whole ⟨by decide, rfl, rfl⟩) (by simp [latched])
end

