-- ==== Sys2Proof/Proofs/CycleIssue.lean ====
section
/-! The issue of a cycle (R70): the C frame's way into the urgent queue (R37, R38), and what the station's own context
makes of the cycle (R76 to R78, R85). A cycle of age 0 is never late. -/

namespace Sys2Proof.Machine

/-! ## A drop that reports RING_CONGESTION -/

theorem countUrgentDrop_busy {s : State} (h : OutputsBusy s) : OutputsBusy (countUrgentDrop s) := h.setSw rfl rfl

/-- A frame dropped at the full urgent queue is counted, and so is the CHANGE frame that the report of RING_CONGESTION
gives rise to (R37, R161). -/
theorem congestion_counted {s : State} (h : OutputsBusy s) (hu : 8 ≤ s.sw.urgent.length)
    (hl : s.trip.isLatched .ringCongestion = false) :
    (reportCongestion (countUrgentDrop s)).sw.ctr.urgentDrop =
      if s.publishStream ≠ none ∧ s.trip.levels.pub ≠ (s.trip.latch .ringCongestion).compute.pub then
        bump (bump s.sw.ctr.urgentDrop)
      else bump s.sw.ctr.urgentDrop :=
  (reportCongestion_full (countUrgentDrop_busy h).held hu hl).2

/-- RING_CONGESTION once latched, a drop is counted and nothing else happens (R37). -/
theorem congestion_latched {s : State} (hl : s.trip.isLatched .ringCongestion = true) :
    reportCongestion (countUrgentDrop s) = countUrgentDrop s := if_pos hl

/-! ## The C frame in the urgent queue -/

/-- The Ring Switch with a C frame of the station's own in the place of its waiting one, or at the tail of the urgent
queue, or counted URGENT_DROP (R37, R38). -/
def Switch.withCycle (w : Switch) (i : QItem) : Switch :=
  if w.urgent.any QItem.isLocalC then
    { w with urgent := replaceLocalC i w.urgent, ctr := { w.ctr with cSuperseded := bump w.ctr.cSuperseded } }
  else if w.urgent.length < 8 then { w with urgent := w.urgent ++ [i] }
  else { w with ctr := { w.ctr with urgentDrop := bump w.ctr.urgentDrop } }

/-- A C frame of the station's own was queued or dropped, and RING_CONGESTION not newly reported. -/
structure CycleQueued (i : QItem) (s t : State) : Prop where
  moment : SameMoment s t
  control : SameControl s t
  station : t.station = { s.station with
    seq := if s.sw.urgent.any QItem.isLocalC = true ∨ s.sw.urgent.length < 8 then s.station.seq + 1
      else s.station.seq }
  sw : OutputsBusy s → t.sw = s.sw.withCycle i

/-- A queue changed, the frame numbered, and the outputs left to choose. -/
theorem cycleQueued_arbitrate {i : QItem} {s : State} {w : Switch} (hr : w.role = s.sw.role)
    (hc : w.counter = s.sw.counter) (hw : w = s.sw.withCycle i)
    (hn : s.sw.urgent.any QItem.isLocalC = true ∨ s.sw.urgent.length < 8) :
    CycleQueued i s (arbitrate (s.setSw w).nextSeq) := by
  have ring := arbitrate_ring (s.setSw w).nextSeq
  have moment : SameMoment s (s.setSw w).nextSeq := ⟨rfl, rfl, rfl, rfl, rfl⟩
  have control : SameControl s (s.setSw w).nextSeq := ⟨rfl, rfl, rfl, rfl, rfl, rfl, rfl⟩
  refine ⟨moment.trans ring.moment, control.trans ring.control, ?_, fun hb => ?_⟩
  · rw [ring.station, if_pos hn]
    rfl
  · have busy : OutputsBusy (s.setSw w).nextSeq := hb.setSw hr hc
    rw [arbitrate_busy busy]
    exact hw

/-- The C frame of a new cycle in the urgent queue (R37, R38). -/
theorem queueCycle_queued (s : State) (stream : Nat) (c : CycleBody)
    (h : s.sw.urgent.any QItem.isLocalC = true ∨ s.sw.urgent.length < 8 ∨
      s.trip.isLatched .ringCongestion = true) :
    CycleQueued (ownItem s .c stream 63 16 (.bytes (cycleBytes c))) s (afterQueue (queueCycle s stream c)) := by
  by_cases mine : s.sw.urgent.any QItem.isLocalC = true
  · rw [show queueCycle s stream c = (_, false) from if_pos mine]
    exact cycleQueued_arbitrate (w := { s.sw with
      urgent := replaceLocalC (ownItem s .c stream 63 16 (.bytes (cycleBytes c))) s.sw.urgent
      ctr := { s.sw.ctr with cSuperseded := bump s.sw.ctr.cSuperseded } }) rfl rfl (if_pos mine).symm (.inl mine)
  · by_cases room : s.sw.urgent.length < 8
    · rw [show queueCycle s stream c = (_, false) from (if_neg mine).trans (if_pos room)]
      exact cycleQueued_arbitrate rfl rfl ((if_neg mine).trans (if_pos room)).symm (.inr room)
    · have latched := (h.resolve_left mine).resolve_left room
      rw [show queueCycle s stream c = (countUrgentDrop s, true) from (if_neg mine).trans (if_neg room),
        show afterQueue (countUrgentDrop s, true) = countUrgentDrop s from congestion_latched latched]
      refine ⟨⟨rfl, rfl, rfl, rfl, rfl⟩, ⟨rfl, rfl, rfl, rfl, rfl, rfl, rfl⟩, ?_, fun _ => ?_⟩
      · rw [if_neg (by rintro (h | h) <;> contradiction)]
        rfl
      · exact ((if_neg mine).trans (if_neg room)).symm

/-- An own C frame that finds the urgent queue full reports RING_CONGESTION (R37). -/
theorem queueCycle_full {s : State} (stream : Nat) (c : CycleBody) (mine : s.sw.urgent.any QItem.isLocalC = false)
    (full : 8 ≤ s.sw.urgent.length) :
    afterQueue (queueCycle s stream c) = reportCongestion (countUrgentDrop s) := by
  rw [show queueCycle s stream c = (countUrgentDrop s, true) from
    (if_neg (by simp [mine])).trans (if_neg (Nat.not_lt.mpr full))]
  rfl

/-! ## The station's own context -/

theorem isLate_zero (c : CycleBody) : isLate 0 c = false := by simp [isLate]

/-- The source is learnt anew in IDLE and LOST while no base waits (R76). -/
theorem learns_iff (c : CycleCtx) : c.learns = true ↔ (c.state = .idle ∨ c.state = .lost) ∧ c.pending = none := by
  unfold CycleCtx.learns
  cases c.state <;> cases c.pending <;> simp

/-- The first frame of a new source is the base that waits (R77, R78). -/
theorem classifyCycle_first {s : State} (h : s.ctx.learns = true) (c : CycleBody) (o : Option (Nat × BitVec 16)) :
    classifyCycle 0 c (s.setCtx { s.ctx with learnt := o }) =
      s.setCtx { s.ctx with learnt := o, pending := some (pendingOf s.clock 0 c) } := by
  obtain ⟨state, pending⟩ := (learns_iff s.ctx).mp h
  have pends : pendCycle false (pendingOf s.clock 0 c) (s.setCtx { s.ctx with learnt := o }) =
      s.setCtx { s.ctx with learnt := o, pending := some (pendingOf s.clock 0 c) } := by
    simp only [pendCycle, State.setCtx_ctx, pending]
    rfl
  rcases state with state | state <;>
    simpa only [classifyCycle, State.setCtx_ctx, State.setCtx_clock, state, isLate_zero] using pends

/-- A change of the context and of the Motion Unit's counters. -/
def State.setMotion (s : State) (x : CycleCtx × MotionCounters) : State :=
  (s.setCtx x.1).setAxes { s.axes with ctr := x.2 }

/-- A frame that is not late changes the context and STALE_CYCLE alone (R77, R78). -/
theorem pendCycle_motion (f : PendingCycle) (s : State) : ∃ x, pendCycle false f s = s.setMotion x := by
  unfold pendCycle
  split
  · exact ⟨({ s.ctx with pending := some f }, s.axes.ctr), rfl⟩
  · split
    · exact ⟨({ s.ctx with pending := some f }, { s.axes.ctr with staleCycle := bump s.axes.ctr.staleCycle }), rfl⟩
    · exact ⟨(s.ctx, { s.axes.ctr with staleCycle := bump s.axes.ctr.staleCycle }), rfl⟩

theorem classifyCycle_motion (c : CycleBody) (s : State) : ∃ x, classifyCycle 0 c s = s.setMotion x := by
  have stale : ∃ x, countStale s = s.setMotion x :=
    ⟨(s.ctx, { s.axes.ctr with staleCycle := bump s.axes.ctr.staleCycle }), rfl⟩
  unfold classifyCycle
  rw [isLate_zero]
  split
  · exact pendCycle_motion _ s
  · exact pendCycle_motion _ s
  all_goals
    split
    · split
      · exact ⟨({ s.ctx with
          delta := some (c.pos - s.ctx.pos).toInt, pos := c.pos, speed := c.speed, period := c.period
          lastMaster := c.state, rem := 0 }, s.axes.ctr), rfl⟩
      · exact stale
    · split
      · exact pendCycle_motion _ s
      · exact stale

/-- A cycle of a source that is learnt anew, or is the one followed, changes the context and its counters alone. -/
theorem takeCycle_motion {s : State} (src : Nat) (tag : BitVec 16) (c : CycleBody)
    (h : s.ctx.learns = true ∨ s.ctx.learnt = some (src, tag)) :
    ∃ x, takeCycle src tag 0 c s = s.setMotion x ∧
      (s.ctx.learns = true →
        x.1 = { s.ctx with learnt := some (src, tag), pending := some (pendingOf s.clock 0 c) }) := by
  by_cases learns : s.ctx.learns = true
  · refine ⟨({ s.ctx with learnt := some (src, tag), pending := some (pendingOf s.clock 0 c) }, s.axes.ctr), ?_,
      fun _ => rfl⟩
    exact (if_pos learns).trans (classifyCycle_first learns c _)
  · obtain ⟨x, hx⟩ := classifyCycle_motion c s
    exact ⟨x, ((if_neg learns).trans (if_pos (h.resolve_left learns))).trans hx, fun h => absurd h learns⟩

/-- A cycle of another source than the one followed is counted and reported (R76). -/
theorem takeCycle_foreign {s : State} {src : Nat} {tag : BitVec 16} (age : Nat) (c : CycleBody)
    (hn : s.ctx.learns = false) (hl : s.ctx.learnt ≠ some (src, tag)) :
    takeCycle src tag age c s = report .cycleConflict
      (s.countMotion fun n => { n with foreignCycle := bump n.foreignCycle }) :=
  (if_neg (by simp [hn])).trans (if_neg hl)

/-! ## The expiry -/

theorem exec_cycleTimerExpiry {m : Moment} {s : State} {x : CycleTimer} (h : s.gen.timer = some x) :
    exec (.cycleTimerExpiry m) s = .next
      (if x.due ≤ max s.clock m.time then
        issueCycle ((s.tick m).setGen (s.gen.advance x (max s.clock m.time)))
      else s.tick m) := by
  show Host.Outcome.next (match (s.tick m).gen.timer with | some t => _ | none => _) = _
  rw [State.tick_gen, h]
  rfl

/-- A cycle issued without a new report of RING_CONGESTION (R37, R70): what the station's own context takes. -/
theorem issueCycle_queued {s : State} (h : s.station.address ≠ 0 → s.sw.urgent.any QItem.isLocalC = true ∨
      s.sw.urgent.length < 8 ∨ s.trip.isLatched .ringCongestion = true) :
    let c := s.gen.body s.trip.levels.eff
    ∃ u, issueCycle s = takeCycle s.station.address s.tag 0 c u ∧ u.clock = s.clock ∧ SameControl s u ∧
      u.station = { s.station with seq := u.station.seq } ∧ (s.station.address = 0 → u = s) ∧
      (s.station.address ≠ 0 → CycleQueued (ownItem s .c s.gen.cfg.stream 63 16 (.bytes (cycleBytes c))) s u) := by
  intro c
  by_cases ha : s.station.address = 0
  · refine ⟨s, ?_, rfl, .refl s, rfl, fun _ => rfl, fun h => absurd ha h⟩
    rw [issueCycle, if_pos ha]
  · have queued := queueCycle_queued s s.gen.cfg.stream c (h ha)
    refine ⟨_, ?_, queued.moment.clock, queued.control, ?_, fun h => absurd h ha, fun _ => queued⟩
    · have address := congrArg StationCtl.address queued.station
      have tag : (afterQueue (queueCycle s s.gen.cfg.stream c)).tag = s.tag :=
        congrArg (BitVec.setWidth 16) queued.moment.serial
      simp only [issueCycle, if_neg ha]
      rw [address, tag]
    · rw [queued.station]

/-- A cycle issued to a full urgent queue that newly reports RING_CONGESTION (R37, R70). -/
theorem issueCycle_full {s : State} (ha : s.station.address ≠ 0) (mine : s.sw.urgent.any QItem.isLocalC = false)
    (full : 8 ≤ s.sw.urgent.length) :
    issueCycle s = takeCycle s.station.address s.tag 0 (s.gen.body s.trip.levels.eff)
      (reportCongestion (countUrgentDrop s)) := by
  have level := (countUrgentDrop_level s).trans (reportCongestion_level _)
  have address := congrArg StationCtl.address level.station
  have tag : (reportCongestion (countUrgentDrop s)).tag = s.tag := congrArg (BitVec.setWidth 16) level.moment.serial
  simp only [issueCycle, if_neg ha, queueCycle_full _ _ mine full]
  rw [address, tag]

end Sys2Proof.Machine

open Sys2Proof Sys2Proof.Machine

/-- Settles O26: by where the C frame goes, and then by whether the station follows itself. -/
theorem cycleTimerIssues : Obligations.CycleTimerIssues := by
  intro m s x hx
  refine ⟨fun hd => by rw [exec_cycleTimerExpiry hx, if_neg (Nat.not_le.mpr hd)], fun hd => ?_⟩
  intro g way pos down speed state now body next item mine own full issued
  have run : exec (.cycleTimerExpiry m) s = .next (issueCycle ((s.tick m).setGen next)) := by
    rw [exec_cycleTimerExpiry hx, if_pos hd]
    rfl
  let v := (s.tick m).setGen next
  have busy (h : OutputsBusy s) : OutputsBusy v := h.tick m
  refine ⟨fun ⟨ha, hm, hu, hl⟩ => ?_, fun hf => ?_, fun hf followed => ?_⟩
  · refine ⟨by rw [run, issueCycle_full (s := v) ha hm hu]; rfl, reportCongestion_level _,
      fun hw => (reportCongestion_grows (s := countUrgentDrop v) hw.tree_whole).2,
      fun hb => congestion_counted (busy hb) hu hl⟩
  all_goals
    have room (ha : s.station.address ≠ 0) : s.sw.urgent.any QItem.isLocalC = true ∨ s.sw.urgent.length < 8 ∨
        s.trip.isLatched .ringCongestion = true := by
      by_contra h
      simp only [not_or, Bool.not_eq_true, Nat.not_lt] at h
      exact hf ⟨ha, h⟩
    obtain ⟨u, issue, clock, control, station, unassigned, queued⟩ := issueCycle_queued (s := v) room
    have hu : issued u := by
      refine ⟨control.gen, by rw [control.axes]; rfl, control.drive, control.image, control.trip, control.screen,
        station, fun ha => ?_, fun ha => ?_⟩
      · rw [unassigned ha]
        exact ⟨rfl, rfl⟩
      · have q := queued ha
        exact ⟨by rw [q.station]; rfl, fun hb => q.sw (busy hb)⟩
  · refine ⟨u, hu, control.ctx, control.axes, run.trans (congrArg _ issue), fun hn hl => ?_⟩
    have foreign := takeCycle_foreign (s := u) (src := s.station.address) (tag := s.tag) 0 body
      (by rw [control.ctx]; exact hn) (by rw [control.ctx]; exact hl)
    let w := u.setAxes { s.axes with ctr := { s.axes.ctr with foreignCycle := bump s.axes.ctr.foreignCycle } }
    have ran : exec (.cycleTimerExpiry m) s = .next (report .cycleConflict w) := by
      rw [run]
      refine congrArg _ (issue.trans (foreign.trans ?_))
      rw [State.countMotion, control.axes]
      rfl
    have level := report_level .cycleConflict w
    refine ⟨ran, _, ran, level.ctx.trans control.ctx, by rw [level.counters]; rfl, ?_, ?_, fun hw => ?_⟩
    · rw [level.gen]
      exact congrArg Generator.pos control.gen
    · rw [level.gen]
      exact congrArg Generator.cycle control.gen
    · exact report_isLatched (s := w) (show TreeWhole u.trip by rw [control.trip]; exact hw.tree_whole) _
  · obtain ⟨y, taken, first⟩ := takeCycle_motion (s := u) s.station.address s.tag body
      (by rw [control.ctx]; exact followed)
    refine ⟨u.setMotion y, run.trans (congrArg _ (issue.trans taken)), hu, fun hl => ?_⟩
    have base := first (by rw [control.ctx]; exact hl)
    rw [control.ctx, clock] at base
    exact base
end

