-- ==== Sys2Proof/Proofs/Readdressing.lean ====
section
/-! What the taking of an address leaves as it was (R63, R148, R166). -/

namespace Sys2Proof.Machine

/-- The station's address is `own`; a new one ended the clash record, and beside the levels and the queues nothing
else changed. -/
structure Readdressed (own : Nat) (s t : State) : Prop where
  moment : SameMoment s t
  sideA : SameSide s.portA t.portA
  sideB : SameSide s.portB t.portB
  role : t.sw.role = s.sw.role
  tap : t.sw.tap = s.sw.tap
  clash : t.sw.clash = if own = s.station.address then s.sw.clash else none
  ctx : t.ctx = s.ctx
  counters : t.axes.ctr = s.axes.ctr
  drive : t.drive = s.drive
  image : t.image = s.image
  station : t.station = { s.station with address := own, seq := t.station.seq }

theorem Readdressed.level {own : Nat} {s t u : State} (h : Readdressed own s t) (k : LevelOnly t u) :
    Readdressed own s u where
  moment := h.moment.trans k.moment
  sideA := h.sideA.trans k.ring.sideA
  sideB := h.sideB.trans k.ring.sideB
  role := k.ring.role.trans h.role
  tap := k.ring.tap.trans h.tap
  clash := k.ring.clash.trans h.clash
  ctx := k.ctx.trans h.ctx
  counters := k.counters.trans h.counters
  drive := k.drive.trans h.drive
  image := k.image.trans h.image
  station := by rw [k.station, h.station]

theorem Readdressed.setTrip {own : Nat} {s t : State} (h : Readdressed own s t) (x : TripUnit) :
    Readdressed own s (t.setTrip x) := { h with moment := { h.moment with } }

/-- The station with its new address, before the Trip Unit takes it: the clash record has ended, and at 0 the local
insert queues are empty (R63). -/
def State.atAddress (s : State) (own : Nat) : State :=
  let w := { s.sw with clash := none }
  (s.setStation { s.station with address := own }).setSw
    (if own = 0 then { w with localK := [], localM := [], localS := [], localI := [] } else w)

theorem atAddress_spec {s : State} {own : Nat} (h : own ≠ s.station.address) : Readdressed own s (s.atAddress own) := by
  refine ⟨⟨rfl, rfl, rfl, rfl, rfl⟩, .refl _, .refl _, ?_, ?_, ?_, rfl, rfl, rfl, rfl, rfl⟩
  all_goals
    simp only [State.atAddress, h, if_false, State.setSw_sw]
    split <;> rfl

theorem readdressed_spec (s : State) (own : Nat) : Readdressed own s (s.readdressed own) := by
  unfold State.readdressed
  split
  · next h =>
    subst h
    exact ⟨.refl s, .refl _, .refl _, rfl, rfl, (if_pos rfl).symm, rfl, rfl, rfl, rfl, rfl⟩
  · next h =>
    have known (r : Prop) [Decidable r] (x : TripUnit) :
        Readdressed own s (if r then recompute ((s.atAddress own).setTrip x) else s.atAddress own) := by
      split
      · exact ((atAddress_spec h).setTrip x).level (recompute_level _)
      · exact atAddress_spec h
    dsimp only
    split
    · exact (known _ _).level (sendTrip_level _ _)
    · exact known _ _

end Sys2Proof.Machine
end

