-- ==== Sys2Proof/Proofs/SendQueue.lean ====
section
/-! The move of the send queue's head (R41, R193): whether it moves, and then what it is, a frame of the station's own,
a broadcast executed first, or a sweep acted on at its move (R59, R190). -/

namespace Sys2Proof.Machine

/-! ## A frame that finds room in its local insert queue -/

/-- What a frame that finds room leaves as it was, whichever way its bytes came (R40). -/
theorem insertLocal_stays {s : State} {cls : FrameClass} (hr : (s.sw.localQ cls).length < 8) (stream dest len : Nat)
    (b : Body) (wire : Option (List Byte)) :
    let t := insertLocal s cls stream dest len b wire
    SameMoment s t ∧ SameRing s t ∧ SameControl s t := by
  intro t
  have placed : t = arbitrate (s.setSw (s.sw.setLocalQ cls
      (s.sw.localQ cls ++ [ownItem s cls stream dest len b wire]))).nextSeq := if_pos hr
  have ring : RingOnly s (s.setSw (s.sw.setLocalQ cls
      (s.sw.localQ cls ++ [ownItem s cls stream dest len b wire]))) := by
    obtain ⟨role, tap, clash⟩ := setLocalQ_same s.sw cls
      (s.sw.localQ cls ++ [ownItem s cls stream dest len b wire])
    exact ringOnly_setSw s _ role tap clash
  have queue := (ring.queue.trans (nextSeq_queue _)).trans (arbitrate_ring _).queue
  rw [placed]
  exact ⟨queue.moment, queue.ring, queue.control⟩

/-! ## Whether the head moves -/

/-- The state once the head has left the send queue. -/
def State.popped (s : State) (q : List Frame) : State := s.setStation { s.station with sendQ := q }

/-- The management header of a frame, none for another class. -/
def mgmtHeader (f : Frame) : Option MgmtBody := if f.hdr.cls = .m then some (mgmtOf f.body) else none

/-- Only an ENUMERATE sweep moves at address 0 (R193). -/
theorem isEnumerate_iff (f : Frame) : isEnumerate f.hdr.dest (mgmtHeader f) = true ↔
    f.hdr.cls = .m ∧ f.hdr.dest = 0 ∧ (mgmtOf f.body).kind = .command ∧
      ∃ first next, (mgmtOf f.body).cmd = .enumerate first next := by
  unfold mgmtHeader
  by_cases hm : f.hdr.cls = .m
  · rw [if_pos hm]
    cases hc : (mgmtOf f.body).cmd <;> simp [isEnumerate, hc, hm]
  · simp [hm, isEnumerate]

section Head
variable {m : Moment} {s : State} {f : Frame} {q : List Frame}

theorem exec_sendQueueMove (h : s.station.sendQ = f :: q) : exec (.sendQueueMove m) s = .next
    (if s.station.address = 0 ∧ isEnumerate f.hdr.dest (mgmtHeader f) = false then
      countPortRefused ((s.tick m).popped q)
     else if (s.sw.localQ f.hdr.cls).length < 8 then moveFrame f ((s.tick m).popped q) else s.tick m) := by
  show Host.Outcome.next (match (s.tick m).station.sendQ with | f :: q => _ | [] => _) = _
  rw [State.tick_station, h]
  rfl

/-- At address 0 a frame that is no ENUMERATE sweep is removed and counted PORT_REFUSED (R193). -/
theorem exec_sendQueueMove_refused (h : s.station.sendQ = f :: q) (ha : s.station.address = 0)
    (hn : isEnumerate f.hdr.dest (mgmtHeader f) ≠ true) :
    exec (.sendQueueMove m) s = .next (countPortRefused ((s.tick m).popped q)) := by
  rw [exec_sendQueueMove h, if_pos ⟨ha, by simpa using hn⟩]

/-- The head waits while its local insert queue is full (R41). -/
theorem exec_sendQueueMove_waits (h : s.station.sendQ = f :: q)
    (ha : s.station.address ≠ 0 ∨ isEnumerate f.hdr.dest (mgmtHeader f) = true)
    (hr : 8 ≤ (s.sw.localQ f.hdr.cls).length) : exec (.sendQueueMove m) s = .next (s.tick m) := by
  have stays : ¬ (s.station.address = 0 ∧ isEnumerate f.hdr.dest (mgmtHeader f) = false) := by
    rintro ⟨h0, hf⟩
    rcases ha with ha | ha
    · exact ha h0
    · simp [hf] at ha
  rw [exec_sendQueueMove h, if_neg stays, if_neg (Nat.not_lt.mpr hr)]

theorem exec_sendQueueMove_moves (h : s.station.sendQ = f :: q)
    (ha : s.station.address ≠ 0 ∨ isEnumerate f.hdr.dest (mgmtHeader f) = true)
    (hr : (s.sw.localQ f.hdr.cls).length < 8) :
    exec (.sendQueueMove m) s = .next (moveFrame f ((s.tick m).popped q)) := by
  have stays : ¬ (s.station.address = 0 ∧ isEnumerate f.hdr.dest (mgmtHeader f) = false) := by
    rintro ⟨h0, hf⟩
    rcases ha with ha | ha
    · exact ha h0
    · simp [hf] at ha
  rw [exec_sendQueueMove h, if_neg stays, if_pos hr]

end Head

/-! ## What moves -/

theorem moveFrame_plain {f : Frame} (s : State)
    (h : ¬ (f.hdr.cls = .m ∧ (mgmtOf f.body).kind = .command ∧ (f.hdr.dest = 63 ∨ f.hdr.dest = 0))) :
    moveFrame f s = insertLocal s f.hdr.cls f.hdr.stream f.hdr.dest f.hdr.len f.body f.wire := by
  have h63 : ¬ (f.hdr.cls = .m ∧ (mgmtOf f.body).kind = .command ∧ f.hdr.dest = 63) :=
    fun ⟨hm, hk, hd⟩ => h ⟨hm, hk, .inl hd⟩
  have h0 : ¬ (f.hdr.cls = .m ∧ (mgmtOf f.body).kind = .command ∧ f.hdr.dest = 0) :=
    fun ⟨hm, hk, hd⟩ => h ⟨hm, hk, .inr hd⟩
  exact (if_neg h63).trans (if_neg h0)

theorem moveFrame_broadcast {f : Frame} (s : State) (hm : f.hdr.cls = .m) (hk : (mgmtOf f.body).kind = .command)
    (hd : f.hdr.dest = 63) : moveFrame f s =
      insertLocal (takeCommand .broadcast (mgmtOf f.body) s) .m f.hdr.stream 63 f.hdr.len f.body f.wire := by
  unfold moveFrame
  rw [if_pos ⟨hm, hk, hd⟩, hd]

section Sweep
variable {f : Frame} (s : State) (hm : f.hdr.cls = .m) (hk : (mgmtOf f.body).kind = .command) (hd : f.hdr.dest = 0)
include hm hk hd

/-- An ENUMERATE to 0 is acted on at its move (R59, R193). -/
theorem moveFrame_enumerate {first next : Nat} (hc : (mgmtOf f.body).cmd = .enumerate first next) :
    moveFrame f s =
      enumerateMove f.hdr.stream f.hdr.len first next (sweepOf f.wire (mgmtOf f.body)) s := by
  unfold moveFrame
  rw [if_neg (by simp [hd]), if_pos ⟨hm, hk, hd⟩, hc]

/-- A COLLECT to 0 is acted on at its move (R190, R193). -/
theorem moveFrame_collect (hc : (mgmtOf f.body).cmd = .collect) : moveFrame f s =
    collectMove f.hdr.stream f.hdr.len (sweepOf f.wire (mgmtOf f.body)) (digestsOf (mgmtOf f.body).data) s := by
  unfold moveFrame
  rw [if_neg (by simp [hd]), if_pos ⟨hm, hk, hd⟩, hc]

/-- Another command code to 0 is answered BAD_COMMAND here (R193). -/
theorem moveFrame_badCommand (hc : sweepCommand (mgmtOf f.body).cmd = false) : moveFrame f s =
    answerPort (mgmtOf f.body).cmd (mgmtOf f.body).hostTag (.plain .badCommand) s := by
  unfold moveFrame
  rw [if_neg (by simp [hd]), if_pos ⟨hm, hk, hd⟩]
  cases h : (mgmtOf f.body).cmd <;> simp_all [sweepCommand]

end Sweep

/-- A frame that moves as an item of its local insert queue (R41). -/
def movedItem (f : Frame) (s : State) : QItem :=
  { frame := { f with hdr := { f.hdr with src := s.station.address, tag := s.tag, seq := s.station.seq,
                                          hop := 0, age := 0 } },
    since := s.clock, origin := .own, ready := true }

theorem ownItem_moved {f : Frame} {cls : FrameClass} {dest : Nat} (s : State) (hc : f.hdr.cls = cls)
    (hd : f.hdr.dest = dest) : ownItem s cls f.hdr.stream dest f.hdr.len f.body f.wire = movedItem f s := by
  subst hc hd
  rfl

/-- The body of a sweep is the management header it came with, the sweep's fields in it (R58, R190). -/
theorem sweepBody_of {b : MgmtBody} {w : Sweep} (hk : b.kind = .command) (cmd : MgmtCmd) (d : RespData)
    (ht : w.hostTag = b.hostTag := by rfl) (hs : w.status = b.status := by rfl)
    (hl : w.lengthOk = b.lengthOk := by rfl) :
    sweepBody cmd w d = .mgmt { b with
      cmd := cmd, force := w.force, overflow := w.overflow, count := w.count, data := d } := by
  rw [sweepBody, ht, hs, hl, ← hk]

/-! ## The sweeps -/

theorem answerPort_received (cmd : MgmtCmd) (hostTag : BitVec 16) (a : Answer) (s : State) :
    answerPort cmd hostTag a s = s.received (portAnswer cmd hostTag a s) := deliverPort_received s _

section Enumerate
variable {s : State} {stream len first next : Nat} {w : Sweep}

theorem enumerateMove_badLength (h : w.lengthOk = false) : enumerateMove stream len first next w s =
    answerPort (.enumerate first next) w.hostTag (.plain .badLength) s := if_pos (by simp [h])

theorem enumerateMove_badValue (h : w.lengthOk = true) (hv : first ≠ next ∨ next = 0 ∨ 62 < next) :
    enumerateMove stream len first next w s =
      answerPort (.enumerate first next) w.hostTag (.plain .badValue) (countTaken s) := by
  unfold enumerateMove
  rw [if_neg (by simp [h]), if_pos (by omega)]

/-- An ENUMERATE that is right and gives this station no address (R59). -/
theorem enumerateMove_passed (h : w.lengthOk = true) (hf : first = next) (hl : 1 ≤ next) (hu : next ≤ 62)
    (ht : takesAddress s w.force = false) : enumerateMove stream len first next w s =
      insertLocal (countTaken s) .m stream 0 len (sweepBody (.enumerate first next) w .none) w.wire := by
  have takes : takesAddress (countTaken s) w.force = false := ht
  unfold enumerateMove
  rw [if_neg (by simp [h]), if_neg (by omega)]
  simp only [takes, Bool.false_eq_true, if_false]

/-- An ENUMERATE that gives this station the next address (R59, R63). -/
theorem enumerateMove_taken (h : w.lengthOk = true) (hf : first = next) (hl : 1 ≤ next) (hu : next ≤ 62)
    (ht : takesAddress s w.force = true) : enumerateMove stream len first next w s =
      insertLocal ((countTaken s).readdressed next) .m stream 0 len
        (sweepBody (.enumerate first (next + 1)) w .none) none := by
  have takes : takesAddress (countTaken s) w.force = true := ht
  unfold enumerateMove
  rw [if_neg (by simp [h]), if_neg (by omega)]
  simp only [takes, if_true, setAddress_eq]

end Enumerate

section Collect
variable {s : State} {stream len : Nat} {w : Sweep} {ds : List Digest}

/-- A sweep with room for 16 bytes more takes the station's digest (R190). -/
theorem appendDigest_room (w : Sweep) (ds : List Digest) (h : len + 16 ≤ 1024) :
    appendDigest s len w ds = (len + 16, { w with count := w.count + 1, wire := none }, ds ++ [s.digest]) :=
  if_neg (by omega)

theorem appendDigest_full (w : Sweep) (ds : List Digest) (h : 1024 < len + 16) :
    appendDigest s len w ds = (len, w.setOverflow, ds) := if_pos h

theorem collectMove_badValue (h : w.count ≠ 0) : collectMove stream len w ds s =
    answerPort .collect w.hostTag (.plain .badValue) (countTaken s) := if_pos h

theorem collectMove_badLength (h : w.count = 0) (hl : w.lengthOk = false) : collectMove stream len w ds s =
    answerPort .collect w.hostTag (.plain .badLength) s := by
  unfold collectMove
  rw [if_neg (by simp [h]), if_pos (by simp [hl])]

theorem collectMove_right (h : w.count = 0) (hl : w.lengthOk = true) : collectMove stream len w ds s =
    let r := appendDigest (countTaken s) len w ds
    insertLocal (countTaken s) .m stream 0 r.1 (sweepBody .collect r.2.1 (.digests r.2.2)) r.2.1.wire := by
  unfold collectMove
  rw [if_neg (by simp [h]), if_neg (by simp [hl])]

/-- A COLLECT that is right takes this station's digest (R190). -/
theorem collectMove_room (h : w.count = 0) (hl : w.lengthOk = true) (hr : len + 16 ≤ 1024) :
    collectMove stream len w ds s = insertLocal (countTaken s) .m stream 0 (len + 16)
      (sweepBody .collect { w with count := 1, wire := none } (.digests (ds ++ [s.digest]))) none := by
  rw [collectMove_right h hl, appendDigest_room _ _ hr, h]
  rfl

/-- A COLLECT that is right and has no room for a digest sets OVERFLOW (R190). -/
theorem collectMove_overflow (h : w.count = 0) (hl : w.lengthOk = true) (hr : 1024 < len + 16) :
    collectMove stream len w ds s = insertLocal (countTaken s) .m stream 0 len
      (sweepBody .collect w.setOverflow (.digests ds)) (if w.overflow then w.wire else none) := by
  rw [collectMove_right h hl, appendDigest_full _ _ hr]
  rfl

end Collect

theorem takesAddress_iff (s : State) (force : Bool) :
    takesAddress s force = true ↔ s.station.address = 0 ∨ force = true := by simp [takesAddress]

end Sys2Proof.Machine

open Sys2Proof Sys2Proof.Machine

/-- Settles O25: by what the head is, a frame to move, a broadcast or a sweep. -/
theorem sendQueueMoves : Obligations.SendQueueMoves := by
  intro m s f q hq popped moved
  refine ⟨fun hc => ?_, fun hm hk hd ha => ?_, fun hm hk hd ha => ?_, fun hm hk hd => ?_⟩
  · have plain : ¬ (f.hdr.cls = .m ∧ (mgmtOf f.body).kind = .command ∧ (f.hdr.dest = 63 ∨ f.hdr.dest = 0)) := by
      rintro ⟨hm, hk, hd⟩
      rcases hc with hc | hc | hc | ⟨-, hc | ⟨h0, h63⟩⟩
      · simp [hm] at hc
      · simp [hm] at hc
      · simp [hm] at hc
      · exact hc hk
      · exact hd.elim h63 h0
    refine ⟨fun ha => exec_sendQueueMove_refused hq ha fun hn => ?_,
      fun ha hr => exec_sendQueueMove_waits hq (.inl ha) hr, fun ha hr => ?_⟩
    · obtain ⟨hm, hd, hk, -⟩ := (isEnumerate_iff f).mp hn
      exact plain ⟨hm, hk, .inr hd⟩
    · have room : (popped.sw.localQ f.hdr.cls).length < 8 := hr
      obtain ⟨moment, ring, control⟩ :=
        insertLocal_stays room f.hdr.stream f.hdr.dest f.hdr.len f.body f.wire
      refine ⟨_, (exec_sendQueueMove_moves hq (.inl ha) hr).trans (congrArg _ (moveFrame_plain popped plain)),
        SameMoment.trans (t := popped) ⟨rfl, rfl, rfl, rfl, rfl⟩ moment,
        ⟨ring.sideA, ring.sideB, ring.role, ring.tap, ring.clash⟩,
        ⟨control.gen, control.ctx, control.axes, control.drive, control.image, control.trip, control.screen⟩,
        (insertLocal_room popped _ _ _ _ _ _ room).1, fun hb => ?_⟩
      rw [insertLocal_busy (show OutputsBusy popped from hb.tick m) _ _ _ _ _ _ room]
      rfl
  · refine exec_sendQueueMove_refused hq ha fun hn => ?_
    obtain ⟨-, h0, -⟩ := (isEnumerate_iff f).mp hn
    omega
  · intro v
    refine ⟨fun hr => exec_sendQueueMove_waits hq (.inl ha) (by rw [hm]; exact hr), fun hr hv => ?_⟩
    obtain ⟨-, -, control⟩ := insertLocal_stays (s := v) (cls := .m) hv f.hdr.stream 63 f.hdr.len f.body f.wire
    refine ⟨_, (exec_sendQueueMove_moves hq (.inl ha) (by rw [hm]; exact hr)).trans
      (congrArg _ (moveFrame_broadcast popped hm hk hd)), control, (insertLocal_room v .m _ _ _ _ _ hv).1,
      fun hb => ?_⟩
    rw [insertLocal_busy hb .m _ _ _ _ _ hv, ownItem_moved v hm hd]
    rfl
  · intro b c counted ds joins atPort takes
    have waits (ha : s.station.address ≠ 0 ∨ ∃ first next, b.cmd = .enumerate first next) :
        s.station.address ≠ 0 ∨ isEnumerate f.hdr.dest (mgmtHeader f) = true :=
      ha.imp_right fun h => (isEnumerate_iff f).mpr ⟨hm, hd, hk, h⟩
    have moves (ha : s.station.address ≠ 0 ∨ ∃ first next, b.cmd = .enumerate first next)
        (hr : s.sw.localM.length < 8) : exec c s = .next (moveFrame f popped) :=
      exec_sendQueueMove_moves hq (waits ha) (by rw [hm]; exact hr)
    refine ⟨fun ha hr => exec_sendQueueMove_waits hq (waits ha) (by rw [hm]; exact hr), fun hr first next hc => ?_,
      fun ha hc => exec_sendQueueMove_refused hq ha fun hn => ?_, fun ha hr hc => ?_, fun ha hr hc => ?_⟩
    · have run := moves (.inr ⟨first, next, hc⟩) hr
      rw [moveFrame_enumerate popped hm hk hd hc] at run
      refine ⟨fun hl => ?_, fun hl hv => ?_, fun hl hf h1 h62 => ⟨fun ht => ?_, fun ht => ?_⟩⟩
      · rw [enumerateMove_badLength hl, answerPort_received] at run
        exact run
      · rw [enumerateMove_badValue hl hv, answerPort_received] at run
        exact run
      · have passes : takesAddress popped b.force = false := by simpa using mt (takesAddress_iff popped b.force).mp ht
        rw [enumerateMove_passed hl hf h1 h62 passes, sweepBody_of hk, ← hc] at run
        exact run
      · rw [enumerateMove_taken hl hf h1 h62 ((takesAddress_iff popped b.force).mpr ht)] at run
        rw [sweepBody_of hk] at run
        have own := readdressed_spec counted next
        exact ⟨by rw [own.station], own.ctx, own.image, own.drive, by rw [own.station]; rfl, run⟩
    · obtain ⟨-, -, -, first, next, he⟩ := (isEnumerate_iff f).mp hn
      exact hc first next he
    · have run := moves (.inl ha) hr
      rw [moveFrame_collect popped hm hk hd hc] at run
      refine ⟨fun hn => ?_, fun h0 hl => ?_, fun h0 hl => ?_⟩
      · rw [collectMove_badValue hn, answerPort_received] at run
        exact run
      · rw [collectMove_badLength h0 hl, answerPort_received] at run
        exact run
      · refine ⟨fun room => ?_, fun full => ?_⟩
        · rw [collectMove_room h0 hl room, sweepBody_of hk, ← hc] at run
          exact run
        · rw [collectMove_overflow h0 hl full, sweepBody_of hk, ← hc] at run
          exact run
    · have run := moves (.inl ha) hr
      rw [moveFrame_badCommand popped hm hk hd hc, answerPort_received] at run
      exact run
end

