-- ==== Sys2Proof/Proofs/Settling.lean ====
section
/-! A frame at the forward input once its delivery is done: settled as dropped or as forwarded, its reception closed
(R36, R60). -/

namespace Sys2Proof.Machine

/-! ## Settled as dropped -/

theorem settleDrop_eq (s : State) (p : PortId) : settleDrop s p = arbitrate (removeResv s p) := rfl

theorem OutputsBusy.removeResv {s : State} (h : OutputsBusy s) (p : PortId) : OutputsBusy (removeResv s p) := by
  refine h.of (by rw [removeResv_sw]; rfl) (fun hn => by rw [removeResv_sw]; simp [withoutResv, hn])
    (fun o ho => ?_) fun o => ((removeResv_ring s p).ring.side o).side
  exact (abortsOnly_removeResv s p).busy (by rwa [State.setSw_port])

theorem abortCopyOn_other {s : State} {q p : PortId} (h : ∀ x, (s.port p).tx = some x → x.copyOf ≠ some q) :
    abortCopyOn s q p = s := by
  unfold abortCopyOn
  split
  · next x hx => rw [if_neg (h x hx)]
  · rfl

/-- A frame of which no copy is being sent loses its reservation, and nothing else changes (R36). -/
theorem settleDrop_noCopy {s : State} {p : PortId} (hb : OutputsBusy s) (hc : NoCopy s p) :
    settleDrop s p = s.setSw (withoutResv p s.sw) := by
  have none (o : PortId) : ∀ x, ((s.setSw (withoutResv p s.sw)).port o).tx = some x → x.copyOf ≠ some p :=
    fun x hx => hc o x (by rwa [State.setSw_port] at hx)
  rw [settleDrop_eq, arbitrate_busy (hb.removeResv p), removeResv_eq, abortCopyOn_other (none .a),
    abortCopyOn_other (none .b)]

/-- The copy being sent of a frame that goes no further is ended with an abort mark (R17, R36). -/
theorem settleDrop_copy {s : State} {p o : PortId} {x : Tx} (hb : OutputsBusy s) (hx : (s.port o).tx = some x)
    (hc : x.copyOf = some p) (ha : x.aborted = false)
    (hy : ∀ y, (s.port (otherPort o)).tx = some y → y.copyOf ≠ some p) :
    settleDrop s p = sentAbort (s.setSw (withoutResv p s.sw)) o x := by
  rw [settleDrop_eq, arbitrate_busy (hb.removeResv p), removeResv_eq]
  have sent (v : State) (hv : v.port o = s.port o) : abortCopyOn v p o = sentAbort v o x :=
    abortCopyOn_copy (by rw [hv]; exact hx) hc ha
  have other (v : State) (hv : v.port (otherPort o) = s.port (otherPort o)) : abortCopyOn v p (otherPort o) = v :=
    abortCopyOn_other fun y h => hy y (by rwa [hv] at h)
  cases o with
  | a => rw [sent _ (by simp), show PortId.b = otherPort .a from rfl, other]; simp [sentAbort, otherPort]
  | b => rw [show PortId.a = otherPort .b from rfl, other _ (by simp), sent _ (by simp)]

theorem withoutResv_absent {s : State} {p : PortId} (h : NoReservation s p) : withoutResv p s.sw = s.sw := by
  have keep (l : List QItem) (hl : ∀ i ∈ l, i.origin ≠ .reserved p) :
      l.filter (fun j => decide (j.origin ≠ .reserved p)) = l :=
    List.filter_eq_self.mpr fun i hi => decide_eq_true (hl i hi)
  have urgent := keep s.sw.urgent fun i hi => h i (by simp [hi])
  have transit := keep s.sw.transit fun i hi => h i (by simp [hi])
  have counter := keep s.sw.counter fun i hi => h i (by simp [hi])
  simp only [withoutResv, urgent, transit, counter]

/-! ## A frame for which nothing is held -/

/-- Of the frame being received on a port there is no reservation and no copy, and the outputs make no choice. -/
structure NothingHeld (s : State) (p : PortId) : Prop where
  busy : OutputsBusy s
  noResv : NoReservation s p
  resv : s.resvOf p = .none
  noCopy : NoCopy s p

theorem NothingHeld.arrived {s : State} {p : PortId} (h : NothingHeld s p) (m : Moment) :
    NothingHeld (s.arrived m p) p where
  busy := h.busy.arrived m p
  noResv := noReservation_of_sw (arrived_sw s m p) h.noResv
  resv := (arrived_resvOf s m p p).trans h.resv
  noCopy := arrived_noCopy h.noCopy m p

theorem NothingHeld.keeps {s t : State} {p : PortId} (h : NothingHeld s p) (ports : PortsStay s t)
    (traffic : KeepsTraffic s t) : NothingHeld t p := by
  obtain ⟨portA, portB, busy⟩ := ports h.busy
  have port (o : PortId) : t.port o = s.port o := by cases o <;> assumption
  refine ⟨busy, traffic.noResv p h.noResv, ?_, fun o x hx => h.noCopy o x (by rwa [port] at hx)⟩
  rw [← h.resv, State.resvOf, State.resvOf, port]

theorem NothingHeld.settleDrop {s : State} {p : PortId} (h : NothingHeld s p) : settleDrop s p = s := by
  rw [settleDrop_noCopy h.busy h.noCopy, withoutResv_absent h.noResv]
  rfl

theorem NothingHeld.settleForward {s : State} {p : PortId} (h : NothingHeld s p) {f : Frame}
    (hf : usesUrgent f.hdr.cls = false) : settleForward s p f = placeTransit s f := by
  unfold Machine.settleForward
  rw [h.resv, hf]
  rfl

/-! ## Settled and closed -/

/-- A frame dropped, its reception closed. -/
theorem closed_settleDrop (v : State) (p : PortId) :
    let t := closeReception p (settleDrop v p)
    SameControl v t ∧ t.station = v.station ∧ (t.port p).reception = none ∧ NoReservation t p ∧
      (OutputsBusy v → t.sw = withoutResv p v.sw) := by
  intro t
  obtain ⟨control, station⟩ := closeReception_control (settleDrop v p) p
  have as := settleDrop_discards v p
  have sw : t.sw = (settleDrop v p).sw := State.setPort_sw _ _ _
  exact ⟨as.control.trans control, station.trans as.station, closeReception_reception _ p,
    noReservation_of_sw sw as.noResv, fun hb => sw.trans (as.busy hb)⟩

/-- A frame of another class than T and C forwarded, its reception closed. -/
theorem closed_settleForward {f : Frame} (hf : usesUrgent f.hdr.cls = false) (v : State) (p : PortId) :
    let t := closeReception p (settleForward v p f)
    SameControl v t ∧ t.station = v.station ∧ (t.port p).reception = none ∧
      (OutputsBusy v → t.sw = forwardedSw p (v.resvOf p) f v.clock v.sw) := by
  intro t
  obtain ⟨control, station⟩ := closeReception_control (settleForward v p f) p
  have ring := settleForward_ring (s := v) (q := p) hf
  exact ⟨ring.control.trans control, station.trans ring.station, closeReception_reception _ p,
    fun hb => (State.setPort_sw _ _ _).trans (settleForward_sw hb hf)⟩

/-! ## At a station with an address -/

theorem forwardInput_other {p : PortId} {g : Frame} {u : State} (hh : g.hdr.hop + 1 < 127)
    (ha : u.station.address ≠ 0) (hs : g.hdr.src ≠ u.station.address) :
    forwardInput p g u = classFrame true p (hopped g) u := by
  rw [forwardInput_eq u hh, if_neg ha, if_neg hs]

/-- A frame with the station's own address and a foreign tag (R23). -/
theorem forwardInput_clash {p : PortId} {g : Frame} {u : State} (hh : g.hdr.hop + 1 < 127)
    (ha : u.station.address ≠ 0) (hs : g.hdr.src = u.station.address) (ht : g.hdr.tag ≠ u.tag) :
    forwardInput p g u = classFrame false p (hopped g) (clash g.hdr.tag u) := by
  rw [forwardInput_eq u hh, if_neg ha, if_pos hs, if_neg ht]

/-- The Ring Switch with a clash counted and recorded (R57). -/
def Switch.clashed (w : Switch) (tag : BitVec 16) : Switch :=
  { w with clash := some tag, ctr := { w.ctr with clashSeen := bump w.ctr.clashSeen } }

theorem clash_eq (tag : BitVec 16) (u : State) : clash tag u = report .addressClash (u.setSw (u.sw.clashed tag)) := rfl

theorem NothingHeld.clash {s : State} {p : PortId} (h : NothingHeld s p) (tag : BitVec 16) :
    NothingHeld (clash tag s) p := by
  have recorded : NothingHeld (s.setSw (s.sw.clashed tag)) p := by
    refine h.keeps (.of rfl rfl rfl rfl) (keepsTraffic_setSw s _ List.suffix_rfl (fun i hi _ _ => hi) ⟨rfl, rfl⟩)
  exact recorded.keeps (portsStay_report _ _) (keepsTraffic_report _ _)

end Sys2Proof.Machine
end

