-- ==== Sys2Proof/Proofs/ManagementInput.lean ====
section
/-! M frames and REPAINT notices from the ring (R26), and the sweeps that pass a station or come home (R60, R62, R190):
a sweep holds no place, so its settling as dropped changes nothing and it is placed anew. -/

namespace Sys2Proof.Machine

/-! ## M frames by destination -/

section Frame
variable {deliver : Bool} {p : PortId} {f : Frame} {s : State}

theorem classFrame_m (hc : f.hdr.cls = .m) : classFrame deliver p f s = mgmtFrame deliver p f s := by
  simp only [classFrame, hc]

/-- An M frame to this station is delivered and goes no further (R26). -/
theorem mgmtFrame_own (hd : f.hdr.dest = s.station.address) : mgmtFrame deliver p f s =
    settleDrop (if deliver then deliverMgmt (.ring f.hdr.src) f (mgmtOf f.body) s else s) p := if_pos hd

/-- An M frame to all is delivered and forwarded (R26). -/
theorem mgmtFrame_all (ho : f.hdr.dest ≠ s.station.address) (hd : f.hdr.dest = 63) : mgmtFrame deliver p f s =
    settleForward (if deliver then deliverMgmt .broadcast f (mgmtOf f.body) s else s) p f :=
  (if_neg ho).trans (if_pos hd)

/-- A COMMAND to 0 is a sweep (R27). -/
theorem mgmtFrame_sweep (ha : s.station.address ≠ 0) (hd : f.hdr.dest = 0) (hk : (mgmtOf f.body).kind = .command) :
    mgmtFrame deliver p f s = sweepFrame p f (mgmtOf f.body) s := by
  unfold mgmtFrame
  rw [if_neg (by rw [hd]; exact ha.symm), if_neg (by omega), if_pos ⟨hd, hk⟩]

theorem unassignedFrame_sweep (hc : f.hdr.cls = .m) (hd : f.hdr.dest = 0) (hk : (mgmtOf f.body).kind = .command) :
    unassignedFrame p f s = sweepFrame p f (mgmtOf f.body) s := if_pos ⟨hc, hd, hk⟩

/-- A REPAINT notice to this station goes to the frame port, and no further (R28). -/
theorem classFrame_repaint (hc : f.hdr.cls = .s) (hr : isRepaint f.body = true)
    (hd : f.hdr.dest = s.station.address) :
    classFrame deliver p f s = settleDrop (if deliver then deliverPort s f else s) p := by
  simp only [classFrame, hc]
  exact if_pos ⟨hr, hd⟩

end Frame

/-- What delivers an M frame: a RESPONSE joins the receive queue, any other is taken as a command (R26). -/
theorem deliverMgmt_eq (via : Via) (f : Frame) (b : MgmtBody) (s : State) : deliverMgmt via f b s =
    if b.kind = .response then deliverPort s f else takeCommand via b s := by
  unfold deliverMgmt
  cases b.kind <;> rfl

/-- Only a management body reads as a COMMAND. -/
theorem body_of_command {d : Body} (h : (mgmtOf d).kind = .command) : d = .mgmt (mgmtOf d) := by
  cases d <;> first | rfl | cases h

/-! ## Sweeps that pass -/

section Enumerate
variable {s : State} {next : Nat} {w : Sweep}

theorem enumerateInPlace_passes (h : takesAddress s w.force = false ∨ next = 0 ∨ 63 < next) :
    enumerateInPlace next w s = (s, next, w) := by
  unfold enumerateInPlace
  split
  · next ht =>
    have out : next = 0 ∨ 63 < next := h.resolve_left (by simp [ht])
    rw [if_neg (by omega), if_neg (by omega)]
  · rfl

theorem enumerateInPlace_takes (ht : takesAddress s w.force = true) (hl : 1 ≤ next) (hu : next ≤ 62) :
    enumerateInPlace next w s = (s.readdressed next, next + 1, { w with wire := none }) := by
  rw [← setAddress_eq]
  exact (if_pos ht).trans (if_pos ⟨hl, hu⟩)

/-- The next address 63 takes the station's address away (R61). -/
theorem enumerateInPlace_leaves (ht : takesAddress s w.force = true) :
    enumerateInPlace 63 w s = (s.readdressed 0, 63, w.setOverflow) := by
  rw [← setAddress_eq]
  exact (if_pos ht).trans ((if_neg (by decide)).trans (if_pos rfl))

end Enumerate

/-- A sweep as it is placed in the transit FIFO: its header with a length, its body and bytes (R60). -/
def passingSweep (h : Header) (len : Nat) (b : MgmtBody) (wire : Option (List Byte)) : Frame :=
  { hdr := { h with len := len }, body := .mgmt b, wire := wire }

section Passing
variable {s : State} {p : PortId} {f : Frame} (held : NothingHeld s p) (hm : f.hdr.cls = .m)
  (hk : (mgmtOf f.body).kind = .command)
include held hk

omit hk in
theorem sweepFrame_enumerate {first next n : Nat} {v : State} {w : Sweep}
    (hc : (mgmtOf f.body).cmd = .enumerate first next)
    (h : enumerateInPlace next (sweepOf f.wire (mgmtOf f.body)) s = (v, n, w)) :
    sweepFrame p f (mgmtOf f.body) s =
      placeTransit v (sweepFrameOf f.hdr (.enumerate first n) w (mgmtOf f.body).data) := by
  unfold sweepFrame
  rw [hc, held.settleDrop]
  simp only [enumeratePass, h]

theorem sweepFrame_enumerate_passes {first next : Nat} (hc : (mgmtOf f.body).cmd = .enumerate first next)
    (h : takesAddress s (mgmtOf f.body).force = false ∨ next = 0 ∨ 63 < next) :
    sweepFrame p f (mgmtOf f.body) s = placeTransit s (passingSweep f.hdr f.hdr.len (mgmtOf f.body) f.wire) := by
  rw [sweepFrame_enumerate held hc (enumerateInPlace_passes h), sweepFrameOf, sweepBody_of hk, ← hc]
  rfl

theorem sweepFrame_enumerate_takes {first next : Nat} (hc : (mgmtOf f.body).cmd = .enumerate first next)
    (ht : takesAddress s (mgmtOf f.body).force = true) (hl : 1 ≤ next) (hu : next ≤ 62) :
    sweepFrame p f (mgmtOf f.body) s = placeTransit (s.readdressed next)
      (passingSweep f.hdr f.hdr.len { mgmtOf f.body with cmd := .enumerate first (next + 1) } none) := by
  rw [sweepFrame_enumerate held hc (enumerateInPlace_takes ht hl hu), sweepFrameOf, sweepBody_of hk]
  rfl

theorem sweepFrame_enumerate_leaves {first : Nat} (hc : (mgmtOf f.body).cmd = .enumerate first 63)
    (ht : takesAddress s (mgmtOf f.body).force = true) :
    sweepFrame p f (mgmtOf f.body) s = placeTransit (s.readdressed 0)
      (passingSweep f.hdr f.hdr.len { mgmtOf f.body with overflow := true }
        (if (mgmtOf f.body).overflow then f.wire else none)) := by
  rw [sweepFrame_enumerate held hc (enumerateInPlace_leaves ht), sweepFrameOf, sweepBody_of hk, ← hc]
  rfl

omit hk in
theorem sweepFrame_collect {n : Nat} {w : Sweep} {ds : List Digest} (ha : s.station.address ≠ 0)
    (hc : (mgmtOf f.body).cmd = .collect)
    (h : appendDigest s f.hdr.len (sweepOf f.wire (mgmtOf f.body)) (digestsOf (mgmtOf f.body).data) = (n, w, ds)) :
    sweepFrame p f (mgmtOf f.body) s =
      placeTransit s (sweepFrameOf { f.hdr with len := n } .collect w (.digests ds)) := by
  unfold sweepFrame
  rw [hc, held.settleDrop]
  simp only [if_neg ha, collectPass, h]

theorem sweepFrame_collect_room (ha : s.station.address ≠ 0) (hc : (mgmtOf f.body).cmd = .collect)
    (hr : f.hdr.len + 16 ≤ 1024) : sweepFrame p f (mgmtOf f.body) s = placeTransit s
      (passingSweep f.hdr (f.hdr.len + 16) { mgmtOf f.body with
        count := (mgmtOf f.body).count + 1
        data := .digests (digestsOf (mgmtOf f.body).data ++ [s.digest]) } none) := by
  rw [sweepFrame_collect held ha hc (appendDigest_room _ _ hr), sweepFrameOf, sweepBody_of hk, ← hc]
  rfl

theorem sweepFrame_collect_overflow (ha : s.station.address ≠ 0) (hc : (mgmtOf f.body).cmd = .collect)
    (hr : 1024 < f.hdr.len + 16) : sweepFrame p f (mgmtOf f.body) s = placeTransit s
      (passingSweep f.hdr f.hdr.len { mgmtOf f.body with
        overflow := true, data := .digests (digestsOf (mgmtOf f.body).data) }
        (if (mgmtOf f.body).overflow then f.wire else none)) := by
  rw [sweepFrame_collect held ha hc (appendDigest_full _ _ hr), sweepFrameOf, sweepBody_of hk, ← hc]
  rfl

include hm

theorem settleForward_sweep :
    settleForward s p f = placeTransit s (passingSweep f.hdr f.hdr.len (mgmtOf f.body) f.wire) := by
  rw [held.settleForward (by rw [hm]; rfl)]
  congr 1
  rw [passingSweep, ← body_of_command hk]

/-- A COLLECT passes a station with address 0 unchanged (R190). -/
theorem sweepFrame_collect_unassigned (ha : s.station.address = 0) (hc : (mgmtOf f.body).cmd = .collect) :
    sweepFrame p f (mgmtOf f.body) s = placeTransit s (passingSweep f.hdr f.hdr.len (mgmtOf f.body) f.wire) := by
  unfold sweepFrame
  rw [hc, if_pos ha]
  exact settleForward_sweep held hm hk

/-- A COMMAND to 0 with another code passes unchanged (R27). -/
theorem sweepFrame_other (hc : sweepCommand (mgmtOf f.body).cmd = false) :
    sweepFrame p f (mgmtOf f.body) s = placeTransit s (passingSweep f.hdr f.hdr.len (mgmtOf f.body) f.wire) := by
  rw [← settleForward_sweep held hm hk]
  unfold sweepFrame
  split
  · next h => rw [h] at hc; cases hc
  · next h => rw [h] at hc; cases hc
  · rfl

end Passing

/-! ## Sweeps that come home -/

theorem answerSweep_received (h : Header) (cmd : MgmtCmd) (w : Sweep) (a : Answer) (s : State) :
    answerSweep h cmd w a s = s.received { hdr := h, body := responseBody cmd w.hostTag a w.overflow } :=
  deliverPort_received s _

section Returned
variable {f : Frame} (s : State) (hm : f.hdr.cls = .m) (hd : f.hdr.dest = 0) (hk : (mgmtOf f.body).kind = .command)
include hm hd hk

theorem returnedSweep_enumerate {first next : Nat} (hc : (mgmtOf f.body).cmd = .enumerate first next) :
    returnedSweep f s = enumerateReturn f.hdr first next (sweepOf f.wire (mgmtOf f.body)) s := by
  unfold returnedSweep
  rw [if_pos ⟨hm, hd, hk⟩, hc]

theorem returnedSweep_collect (hc : (mgmtOf f.body).cmd = .collect) : returnedSweep f s =
    collectReturn f.hdr (sweepOf f.wire (mgmtOf f.body)) (digestsOf (mgmtOf f.body).data) s := by
  unfold returnedSweep
  rw [if_pos ⟨hm, hd, hk⟩, hc]

end Returned

/-- The Ring Switch with a frame of the station's own counted STRIPPED (R22). -/
def Switch.stripped (w : Switch) : Switch := { w with ctr := { w.ctr with stripped := bump w.ctr.stripped } }

theorem NothingHeld.stripped {s : State} {p : PortId} (h : NothingHeld s p) :
    droppedAt s p (fun c => { c with stripped := bump c.stripped }) = s.setSw s.sw.stripped := by
  have counted : NothingHeld (s.setSw s.sw.stripped) p :=
    h.keeps (.of rfl rfl rfl rfl) (keepsTraffic_setSw s _ List.suffix_rfl (fun i hi _ _ => hi) ⟨rfl, rfl⟩)
  exact counted.settleDrop

/-! ## Where a sweep arrives -/

/-- The state at which a sweep that passes is acted on: at its arrival, or once its clash is recorded (R23, R60). -/
structure SweepActsAt (s w : State) (p : PortId) : Prop where
  held : NothingHeld w p
  address : w.station.address = s.station.address
  ctx : w.ctx = s.ctx
  image : w.image = s.image
  drive : w.drive = s.drive

theorem sweepActsAt_arrived {s : State} {p : PortId} (h : NothingHeld s p) (m : Moment) :
    SweepActsAt s (s.arrived m p) p :=
  ⟨h.arrived m, by rw [arrived_station], by simp [State.arrived], by simp [State.arrived], by simp [State.arrived]⟩

theorem SweepActsAt.clash {s u : State} {p : PortId} (h : SweepActsAt s u p) (tag : BitVec 16) :
    SweepActsAt s (clash tag u) p := by
  have level := report_level .addressClash (u.setSw (u.sw.clashed tag))
  rw [← clash_eq] at level
  exact ⟨h.held.clash tag, by rw [level.station]; exact h.address, level.ctx.trans h.ctx, level.image.trans h.image,
    level.drive.trans h.drive⟩

/-- A sweep that is not come home is acted on at its arrival, or once its clash is recorded (R23, R27, R60). -/
theorem forwardInput_sweep {s w : State} {m : Moment} {p : PortId} {g : Frame} (held : NothingHeld s p)
    (hh : g.hdr.hop + 1 < 127) (hm : g.hdr.cls = .m) (hd : g.hdr.dest = 0) (hk : (mgmtOf g.body).kind = .command)
    (hw : ((s.station.address = 0 ∨ g.hdr.src ≠ s.station.address) ∧ w = s.arrived m p) ∨
      (s.station.address ≠ 0 ∧ g.hdr.src = s.station.address ∧ g.hdr.tag ≠ s.tag ∧
        w = clash g.hdr.tag (s.arrived m p))) :
    SweepActsAt s w p ∧
      forwardInput p g (s.arrived m p) = sweepFrame p (hopped g) (mgmtOf (hopped g).body) w := by
  have station := arrived_station s m p
  have here := sweepActsAt_arrived held m
  rcases hw with ⟨hs, rfl⟩ | ⟨ha, hs, ht, rfl⟩
  · refine ⟨here, ?_⟩
    by_cases ha : s.station.address = 0
    · rw [forwardInput_eq _ hh, if_pos (by rw [station]; exact ha)]
      exact unassignedFrame_sweep (f := hopped g) hm hd hk
    · rw [forwardInput_other hh (by rwa [station]) (by rw [station]; exact hs.resolve_left ha)]
      exact (classFrame_m (f := hopped g) hm).trans (mgmtFrame_sweep (f := hopped g) (by rwa [station]) hd hk)
  · have there := here.clash g.hdr.tag
    refine ⟨there, ?_⟩
    rw [forwardInput_clash hh (by rwa [station]) (by rw [station]; exact hs) (by rw [arrived_tag]; exact ht)]
    exact (classFrame_m (f := hopped g) hm).trans
      (mgmtFrame_sweep (f := hopped g) (by rw [there.address]; exact ha) hd hk)

/-- A sweep come home is stripped (R22). -/
theorem forwardInput_home {s : State} {m : Moment} {p : PortId} {g : Frame} (held : NothingHeld s p)
    (hh : g.hdr.hop + 1 < 127) (ha : s.station.address ≠ 0) (hs : g.hdr.src = s.station.address)
    (ht : g.hdr.tag = s.tag) :
    forwardInput p g (s.arrived m p) = returnedSweep (hopped g) ((s.arrived m p).setSw s.sw.stripped) := by
  rw [forwardInput_own hh (by rwa [arrived_station]) (by rw [arrived_station]; exact hs)
    (by rw [arrived_tag]; exact ht), (held.arrived m).stripped, arrived_sw]

end Sys2Proof.Machine

open Sys2Proof Sys2Proof.Machine

/-- Settles O23: M frames and notices by destination, then sweeps by where they stand, then a command by its code. -/
theorem managementFrames : Obligations.ManagementFrames := by
  refine ⟨fun m p s bytes reading hg hu => ?_, fun m p s bytes reading first next hg hu hb hn hv hx => ?_,
    fun via b s ha => ?_⟩
  · intro g f b own u hh ha hs
    have station : u.station = s.station := arrived_station s m p
    have run : exec (.frameArrival m p (.ended bytes reading)) s =
        .next (closeReception p (classFrame true p f u)) := by
      rw [exec_good reading hg, hu]
      exact congrArg (Host.Outcome.next <| closeReception p ·)
        (forwardInput_other hh (by rwa [station]) (by rwa [station]))
    refine ⟨fun hm hd => ?_, fun hc hr hd => ?_⟩
    · intro via v
      have plain : usesUrgent f.hdr.cls = false := by rw [show f.hdr.cls = .m from hm]; rfl
      have port (hk : b.kind = .response) : v = u.received f := (if_pos hk).trans (deliverPort_received u f)
      have response (t : State) (hk : b.kind = .response) (same : SameControl v t) (stays : t.station = v.station) :
          SameControl u t ∧ t.station = (u.received f).station := by
        rw [port hk] at same stays
        exact ⟨⟨same.gen, same.ctx, same.axes, same.drive, same.image, same.trip, same.screen⟩, stays⟩
      rw [classFrame_m (f := f) hm] at run
      by_cases ho : g.hdr.dest = own
      · rw [mgmtFrame_own (f := f) (by rw [station]; exact ho), if_pos rfl, deliverMgmt_eq] at run
        have via_eq : via = .ring g.hdr.src := if_pos ho
        rw [show (if (mgmtOf f.body).kind = .response then deliverPort u f
          else takeCommand (.ring f.hdr.src) (mgmtOf f.body) u) = v by simp only [v, via_eq]; rfl] at run
        obtain ⟨same, stays, closed, noResv, sw⟩ := closed_settleDrop v p
        refine ⟨_, run, same, stays, closed, fun hk => response _ hk same stays, fun _ => noResv, fun hb => ?_⟩
        rw [if_pos ho]
        exact sw hb
      · rw [mgmtFrame_all (f := f) (by rw [station]; exact ho) (hd.resolve_left ho), if_pos rfl, deliverMgmt_eq] at run
        have via_eq : via = .broadcast := if_neg ho
        rw [show (if (mgmtOf f.body).kind = .response then deliverPort u f
          else takeCommand .broadcast (mgmtOf f.body) u) = v by simp only [v, via_eq]; rfl] at run
        obtain ⟨same, stays, closed, sw⟩ := closed_settleForward plain v p
        refine ⟨_, run, same, stays, closed, fun hk => response _ hk same stays, fun h => absurd h ho, fun hb => ?_⟩
        rw [if_neg ho]
        exact sw hb
    · rw [classFrame_repaint (f := f) hc hr (by rw [station]; exact hd), if_pos rfl, deliverPort_received] at run
      obtain ⟨same, stays, closed, noResv, -⟩ := closed_settleDrop (u.received f) p
      exact ⟨_, run, ⟨same.gen, same.ctx, same.axes, same.drive, same.image, same.trip, same.screen⟩, stays, closed,
        noResv⟩
  · intro g f b own u ds c passes answers takes hm hd hk hh
    have station : u.station = s.station := arrived_station s m p
    have held : NothingHeld s p := ⟨hb, hn, hv, hx⟩
    have arrives (x : State) (hi : forwardInput p g u = x) : exec c s = .next (x.closed p) := by
      rw [exec_good reading hg, hu, inputOf, hi]
      rfl
    have hm : f.hdr.cls = .m := hm
    have hd : f.hdr.dest = 0 := hd
    have hk : (mgmtOf f.body).kind = .command := hk
    have recorded : clash g.hdr.tag u = report .addressClash (u.setSw { s.sw with
        clash := some g.hdr.tag, ctr := { s.sw.ctr with clashSeen := bump s.sw.ctr.clashSeen } }) := by
      rw [clash_eq, show u.sw = s.sw from arrived_sw s m p]
      rfl
    have point (w : State) (hw : ((own = 0 ∨ g.hdr.src ≠ own) ∧ w = u) ∨
        (own ≠ 0 ∧ g.hdr.src = own ∧ g.hdr.tag ≠ s.tag ∧ w = clash g.hdr.tag u)) :
        SweepActsAt s w p ∧ forwardInput p g u = sweepFrame p f (mgmtOf f.body) w :=
      forwardInput_sweep held hh hm hd hk hw
    have home (ha : own ≠ 0) (hs : g.hdr.src = own) (ht : g.hdr.tag = s.tag) :
        forwardInput p g u = returnedSweep f (u.setSw s.sw.stripped) := forwardInput_home held hh ha hs ht
    rw [recorded] at point
    have read : b = mgmtOf f.body := rfl
    clear_value f b
    subst read
    refine ⟨fun w hw => ?_, fun ha hs ht => ?_⟩
    · obtain ⟨at_, input⟩ := point w hw
      have force : takesAddress w (mgmtOf f.body).force = true ↔ takes := by rw [takesAddress_iff, at_.address]
      refine ⟨fun hc => ⟨fun h => ?_, fun ht hl hu => ?_, fun ht hn => ?_⟩,
        fun hc => ⟨fun ha => ?_, fun ha hr => ?_, fun ha hr => ?_⟩, fun hc => ?_⟩
      · refine arrives _ (input.trans (sweepFrame_enumerate_passes at_.held hk hc ?_))
        exact h.imp_left fun ht => by simpa using mt force.mp ht
      · have own' := readdressed_spec w next
        exact ⟨by rw [own'.station], own'.ctx.trans at_.ctx, own'.image.trans at_.image, own'.drive.trans at_.drive,
          arrives _ (input.trans (sweepFrame_enumerate_takes at_.held hk hc (force.mpr ht) hl hu))⟩
      · subst hn
        have own' := readdressed_spec w 0
        exact ⟨by rw [own'.station], own'.ctx.trans at_.ctx, own'.image.trans at_.image, own'.drive.trans at_.drive,
          fun ha => if_pos (by rw [at_.address]; exact ha.symm),
          arrives _ (input.trans (sweepFrame_enumerate_leaves at_.held hk hc (force.mpr ht)))⟩
      · exact arrives _ (input.trans
          (sweepFrame_collect_unassigned at_.held hm hk (by rw [at_.address]; exact ha) hc))
      · exact arrives _ (input.trans
          (sweepFrame_collect_overflow at_.held hk (by rw [at_.address]; exact ha) hc hr))
      · exact arrives _ (input.trans
          (sweepFrame_collect_room at_.held hk (by rw [at_.address]; exact ha) hc hr))
      · exact arrives _ (input.trans (sweepFrame_other at_.held hm hk hc))
    · refine ⟨fun hc => arrives _ ((home ha hs ht).trans ?_), fun hc => arrives _ ((home ha hs ht).trans ?_)⟩
      · rw [returnedSweep_enumerate _ hm hd hk hc, enumerateReturn, answerSweep_received]
        rfl
      · rw [returnedSweep_collect _ hm hd hk hc, collectReturn, answerSweep_received]
        rfl
  · intro e
    have taken (s : State) (hk : b.kind = .command) : takeCommand via b s = commandCode e b.cmd s := by
      unfold takeCommand
      rw [hk]
    refine ⟨fun hk c hc => by rw [taken _ hk, exec_commandOf hc],
      fun hk m first next force overflow hc => by rw [taken _ hk, hc]; rfl,
      fun hk m count overflow ds hc => by rw [taken _ hk, hc]; rfl, fun h => ?_⟩
    have refused : takeCommand via b s = refuse e b.cmd .badCommand s := by
      rcases h with hk | ⟨hk, code, hc⟩
      · unfold takeCommand
        rw [hk]
      · rw [taken s hk, hc]
        rfl
    rw [refused]
    exact refuse_refused e b.cmd .badCommand s rfl
end

