-- ==== Sys2Proof/Proofs/Clashes.lean ====
section
/-! A frame with the station's own address and a foreign tag (R23, R57): the clash is counted, recorded and reported,
and the frame is settled by its class without a delivery, or is a sweep that is acted on in place (R60). -/

namespace Sys2Proof.Machine

/-! ## CLASH_SEEN

Only a clash counts it. -/

/-- The clashes counted. -/
def State.clashes (s : State) : Nat := s.sw.ctr.clashSeen

section Clashes
variable (s : State)

@[simp] theorem clashes_setTrip (x : TripUnit) : (s.setTrip x).clashes = s.clashes := rfl
@[simp] theorem clashes_setScreen (x : ScreenUnit) : (s.setScreen x).clashes = s.clashes := rfl
@[simp] theorem clashes_setAxes (x : AxisTable) : (s.setAxes x).clashes = s.clashes := rfl
@[simp] theorem clashes_nextSeq : s.nextSeq.clashes = s.clashes := rfl
@[simp] theorem clashes_countUrgentDrop : (countUrgentDrop s).clashes = s.clashes := rfl
@[simp] theorem clashes_motionLevel (old new : Level) : (motionLevel old new s).clashes = s.clashes := rfl
@[simp] theorem clashes_setTripOut (new : Level) : (setTripOut new s).clashes = s.clashes := rfl

@[simp] theorem clashes_setPort (p : PortId) (x : Port) : (s.setPort p x).clashes = s.clashes := by
  simp [State.clashes]

theorem SameButIsolated.clashes {s t : State} (h : SameButIsolated s.sw.ctr t.sw.ctr) : t.clashes = s.clashes := by
  unfold SameButIsolated at h
  rw [State.clashes, h, State.clashes]

@[simp] theorem clashes_arbitrate : (arbitrate s).clashes = s.clashes := (arbitrate_ctr s).clashes

@[simp] theorem clashes_settleDrop (p : PortId) : (settleDrop s p).clashes = s.clashes :=
  (settleDrop_discards s p).swCtr.clashes

@[simp] theorem clashes_completeCopyOn (q p : PortId) (f : Frame) : (completeCopyOn s q p f).clashes = s.clashes := by
  rw [State.clashes, completeCopyOn_sw, State.clashes]

@[simp] theorem clashes_insertLocal (cls : FrameClass) (stream dest len : Nat) (b : Body) :
    (insertLocal s cls stream dest len b).clashes = s.clashes := by
  unfold insertLocal
  split
  · rw [clashes_arbitrate, clashes_nextSeq]
    cases cls <;> rfl
  · cases cls <;> rfl

@[simp] theorem clashes_placeTransit (f : Frame) : (placeTransit s f).clashes = s.clashes := by
  unfold placeTransit
  dsimp only
  split
  · rw [clashes_arbitrate]; rfl
  · rfl

@[simp] theorem clashes_sendNotice (e : ScreenStream) : (sendNotice s e).clashes = s.clashes := by
  unfold sendNotice
  split <;> simp

@[simp] theorem clashes_sendNotices : (sendNotices s).clashes = s.clashes := by
  unfold sendNotices
  split
  · rfl
  · exact List.foldlRecOn (motive := fun v => v.clashes = s.clashes) s.screen.streams sendNotice rfl
      fun v hv e _ => (clashes_sendNotice v e).trans hv

@[simp] theorem clashes_screenLevel (old new : Level) : (screenLevel old new s).clashes = s.clashes := by
  unfold screenLevel
  split
  · rfl
  · split
    · simp
    · split <;> simp

@[simp] theorem clashes_levelChange (old new : Level) : (levelChange old new s).clashes = s.clashes := by
  unfold levelChange
  split <;> simp

@[simp] theorem clashes_originateTrip (r : Bool) : (originateTrip r s).1.clashes = s.clashes := by
  unfold originateTrip
  split
  · unfold queueTrip
    split
    · exact clashes_arbitrate _
    · rfl
  · rfl

@[simp] theorem clashes_recomputeOnce : (recomputeOnce s).1.clashes = s.clashes := by
  unfold recomputeOnce
  dsimp only
  split <;> simp

@[simp] theorem clashes_reportCongestion : (reportCongestion s).clashes = s.clashes := by
  unfold reportCongestion
  split <;> simp

@[simp] theorem clashes_afterQueue (r : State × Bool) : (afterQueue r).clashes = r.1.clashes := by
  unfold afterQueue
  split <;> simp

@[simp] theorem clashes_recompute : (recompute s).clashes = s.clashes := by simp [recompute]

@[simp] theorem clashes_sendTrip (r : Bool) : (sendTrip r s).clashes = s.clashes := by simp [sendTrip]

@[simp] theorem clashes_axisFault (f : FaultId) : (axisFault f s).clashes = s.clashes := by
  unfold axisFault
  split
  · simp
  · simp
  · split <;> simp
  · rfl

@[simp] theorem clashes_report (f : FaultId) : (report f s).clashes = s.clashes := by
  unfold report
  split <;> simp

@[simp] theorem clashes_atAddress (own : Nat) : (s.atAddress own).clashes = s.clashes := by
  simp only [State.clashes, State.atAddress, State.setSw_sw]
  split <;> rfl

end Clashes

/-! ## The taking of an address latches at most more -/

theorem sendTrip_grows {s : State} (h : TreeWhole s.trip) (r : Bool) : Grows s.trip (sendTrip r s).trip := by
  have sent : Grows s.trip (originateTrip r s).1.trip := .of_tree h (originateTrip_trip r s).tree
  unfold sendTrip afterQueue
  split
  · exact sent.trans (reportCongestion_grows sent.whole).1
  · exact sent

/-- What the taking of an address does is what its parts do, in turn. -/
theorem readdressed_keeps {P : State → Prop} {s : State} {own : Nat} (same : P s) (set : P (s.atAddress own))
    (known : ∀ x : TripUnit, x.tree = s.trip.tree → P (recompute ((s.atAddress own).setTrip x)))
    (sent : ∀ v, P v → P (sendTrip false v)) : P (s.readdressed own) := by
  unfold State.readdressed
  split
  · exact same
  · dsimp only
    have told (r : Prop) [Decidable r] (x : TripUnit) (hx : x.tree = s.trip.tree) :
        P (if r then recompute ((s.atAddress own).setTrip x) else s.atAddress own) := by
      split
      · exact known x hx
      · exact set
    split
    · exact sent _ (told _ _ rfl)
    · exact told _ _ rfl

@[simp] theorem clashes_readdressed (s : State) (own : Nat) : (s.readdressed own).clashes = s.clashes :=
  readdressed_keeps (P := fun v => v.clashes = s.clashes) rfl (by simp) (fun x _ => by simp) fun v hv => by simpa

theorem readdressed_grows {s : State} (h : TreeWhole s.trip) (own : Nat) : Grows s.trip (s.readdressed own).trip := by
  have same : Grows s.trip s.trip := .of_tree h rfl
  refine readdressed_keeps (P := fun v => Grows s.trip v.trip) same same (fun x hx => ?_) fun v hv =>
    hv.trans (sendTrip_grows hv.whole false)
  have told : Grows s.trip x := .of_tree h hx
  exact told.trans (recompute_grows (s := (s.atAddress own).setTrip x) told.whole)

/-! ## Settled without a delivery -/

/-- What the settling of a frame that was delivered to nothing leaves alone: but for a report of RING_CONGESTION, every
control block. -/
structure Settled (s t : State) : Prop where
  notDelivered : NotDelivered s t
  clashes : t.clashes = s.clashes
  clash : t.sw.clash = s.sw.clash
  grows : TreeWhole s.trip → Grows s.trip t.trip
  quiet : s.sw.urgent.length < 8 ∨ s.trip.isLatched .ringCongestion = true →
    SameControl s t ∧ t.station = s.station

theorem RingOnly.settled {s t : State} (h : RingOnly s t) (hc : t.clashes = s.clashes) : Settled s t where
  notDelivered := h.notDelivered
  clashes := hc
  clash := h.ring.clash
  grows hw := .of_tree hw (by rw [h.control.trip])
  quiet _ := ⟨h.control, h.station⟩

theorem settled_congestion {s : State} (hu : 8 ≤ s.sw.urgent.length) :
    Settled s (reportCongestion (countUrgentDrop s)) where
  notDelivered := (ringOnly_countSw s _).notDelivered.trans (notDelivered_reportCongestion _)
  clashes := by simp
  clash := (reportCongestion_level (countUrgentDrop s)).ring.clash
  grows hw := (reportCongestion_grows (s := countUrgentDrop s) hw).1
  quiet h := by
    rw [congestion_latched (h.resolve_left (by omega))]
    exact ⟨⟨rfl, rfl, rfl, rfl, rfl, rfl, rfl⟩, rfl⟩

theorem settled_settleForward (s : State) (q : PortId) (f : Frame) : Settled s (settleForward s q f) := by
  unfold settleForward
  split
  · exact ((ringOnly_setSw s _).trans (arbitrate_ring _)).settled (clashes_arbitrate _)
  · exact ((completeCopyOn_ring s q .a f).trans (completeCopyOn_ring _ q .b f)).settled (by simp)
  · split
    · unfold placeUrgent
      split
      · exact ((ringOnly_setSw s _).trans (arbitrate_ring _)).settled (clashes_arbitrate _)
      · next hu => exact settled_congestion (Nat.not_lt.mp hu)
    · exact (placeTransit_ring s f).settled (by simp)

theorem settled_settleDrop (s : State) (q : PortId) : Settled s (settleDrop s q) :=
  (settleDrop_ring s q).settled (by simp)

theorem Settled.closed {s t : State} (h : Settled s t) (p : PortId) : Settled s (closeReception p t) := by
  obtain ⟨control, station⟩ := closeReception_control t p
  refine ⟨h.notDelivered.trans (notDelivered_setPort t p _), (clashes_setPort t p _).trans h.clashes,
    (congrArg Switch.clash (State.setPort_sw t p _)).trans h.clash, fun hw => ?_, fun hq => ?_⟩
  · rw [control.trip]
    exact h.grows hw
  · obtain ⟨same, stays⟩ := h.quiet hq
    exact ⟨same.trans control, station.trans stays⟩

/-! ## Forwarded as its class says -/

/-- Whether a tap table entry, or its absence, forwards (R29). -/
def TapForwards (entry : Option TapEntry) : Prop := entry = none ∨ ∃ x, entry = some x ∧ x.action = .passCopy

/-- Whether class handling forwards a frame that is delivered to nothing (R23, R25 to R29). -/
def ClassForwards (own : Nat) (tap : List (Option TapEntry)) (f : Frame) : Prop :=
  match f.hdr.cls with
  | .k | .m => f.hdr.dest ≠ own
  | .s => ¬ (isRepaint f.body = true ∧ f.hdr.dest = own) ∧ TapForwards (tapFind tap f.hdr.cls f.hdr.stream)
  | _ => TapForwards (tapFind tap f.hdr.cls f.hdr.stream)

/-- A frame settled as forwarded where `P`, as dropped where not. -/
def SettledAs (P : Prop) (q : PortId) (f : Frame) (s t : State) : Prop :=
  (P → t = settleForward s q f) ∧ (¬ P → t = settleDrop s q)

section Undelivered
variable (q : PortId) (f : Frame) (s : State)

theorem tapFrame_settles :
    SettledAs (TapForwards (tapFind s.sw.tap f.hdr.cls f.hdr.stream)) q f s (tapFrame false q f s) := by
  unfold tapFrame SettledAs TapForwards
  cases tapFind s.sw.tap f.hdr.cls f.hdr.stream with
  | none => simp
  | some x => cases hx : x.action <;> simp [hx, settleFrame]

theorem corrFrame_settles : SettledAs (f.hdr.dest ≠ s.station.address) q f s (corrFrame false q f s) := by
  unfold corrFrame SettledAs settleFrame
  by_cases hd : f.hdr.dest = s.station.address <;> simp [hd]

theorem mgmtFrame_settles (h : ¬ (f.hdr.dest = 0 ∧ (mgmtOf f.body).kind = .command)) :
    SettledAs (f.hdr.dest ≠ s.station.address) q f s (mgmtFrame false q f s) := by
  unfold mgmtFrame SettledAs
  by_cases hd : f.hdr.dest = s.station.address
  · simp [hd]
  · simp [hd, h]

/-- Class handling settles a frame that is no sweep and is delivered to nothing. -/
theorem classFrame_settles (h : ¬ (f.hdr.cls = .m ∧ f.hdr.dest = 0 ∧ (mgmtOf f.body).kind = .command)) :
    SettledAs (ClassForwards s.station.address s.sw.tap f) q f s (classFrame false q f s) := by
  have tap := tapFrame_settles q f s
  unfold ClassForwards classFrame
  cases hc : f.hdr.cls with
  | k => exact corrFrame_settles q f s
  | m => exact mgmtFrame_settles q f s fun hs => h ⟨hc, hs⟩
  | s =>
    rw [hc] at tap
    by_cases hr : isRepaint f.body = true ∧ f.hdr.dest = s.station.address
    · exact ⟨fun hp => absurd hr hp.1, fun _ => by simp [hr]⟩
    · refine ⟨fun hp => ?_, fun hp => ?_⟩
      · exact (if_neg hr).trans (tap.1 hp.2)
      · exact (if_neg hr).trans (tap.2 fun ht => hp ⟨hr, ht⟩)
  | t | c | i | bad n =>
    rw [hc] at tap
    exact tap

end Undelivered

theorem SettledAs.settled {P : Prop} {q : PortId} {f : Frame} {s t : State} (h : SettledAs P q f s t) :
    Settled s t := by
  by_cases hp : P
  · rw [h.1 hp]; exact settled_settleForward s q f
  · rw [h.2 hp]; exact settled_settleDrop s q

/-! ## A sweep acted on in place -/

/-- The address a station that had one has after an ENUMERATE (R60, R61). -/
def enumerateAddress (own : Nat) (force : Bool) (next : Nat) : Nat :=
  if force = true ∧ 1 ≤ next ∧ next ≤ 62 then next else if force = true ∧ next = 63 then 0 else own

/-- The address a station that had one has after a sweep. -/
def sweepAddress (own : Nat) (b : MgmtBody) : Nat :=
  match b.cmd with
  | .enumerate _ next => enumerateAddress own b.force next
  | _ => own

theorem enumerateInPlace_state {s : State} (ha : s.station.address ≠ 0) (next : Nat) (w : Sweep) :
    (enumerateInPlace next w s).1 = s.readdressed (enumerateAddress s.station.address w.force next) := by
  have same : s.readdressed s.station.address = s := if_pos rfl
  have takes : takesAddress s w.force = w.force := by simp [takesAddress, ha]
  unfold enumerateAddress
  by_cases hf : w.force = true
  · rw [hf] at takes
    by_cases hl : 1 ≤ next ∧ next ≤ 62
    · rw [if_pos ⟨hf, hl⟩, enumerateInPlace_takes (by rw [hf]; exact takes) hl.1 hl.2]
    · rw [if_neg fun h => hl h.2]
      by_cases h63 : next = 63
      · rw [if_pos ⟨hf, h63⟩, h63, enumerateInPlace_leaves (by rw [hf]; exact takes)]
      · rw [if_neg fun h => h63 h.2, same, enumerateInPlace_passes (.inr (by omega))]
  · rw [if_neg fun h => hf h.1, if_neg fun h => hf h.1, same,
      enumerateInPlace_passes (.inl (by rw [takes]; simpa using hf))]

/-- A sweep has acted on the station and was placed, or passed on. -/
structure SweepActed (own : Nat) (s t : State) : Prop where
  readdressed : Readdressed own s t
  clashes : t.clashes = s.clashes
  grows : TreeWhole s.trip → Grows s.trip t.trip
  notDelivered : own = s.station.address → NotDelivered s t

theorem RingOnly.sweepActed {s t : State} (h : RingOnly s t) (hc : t.clashes = s.clashes) :
    SweepActed s.station.address s t where
  readdressed := by
    have same := readdressed_spec s s.station.address
    rw [show s.readdressed s.station.address = s from if_pos rfl] at same
    exact same.level h.level
  clashes := hc
  grows := (h.settled hc).grows
  notDelivered _ := h.notDelivered

/-- The sweep placed in the transit FIFO once the station has its address. -/
theorem sweepActed_placed {s v : State} (h : RingOnly s v) (hc : v.clashes = s.clashes) (own : Nat) (f : Frame) :
    SweepActed own s (placeTransit (v.readdressed own) f) where
  readdressed := by
    have given := (readdressed_spec v own).level (placeTransit_ring _ f).level
    have here := h.sweepActed hc |>.readdressed
    have address := congrArg StationCtl.address h.station
    refine ⟨here.moment.trans given.moment, here.sideA.trans given.sideA, here.sideB.trans given.sideB,
      given.role.trans here.role, given.tap.trans here.tap, ?_, given.ctx.trans here.ctx,
      given.counters.trans here.counters, given.drive.trans here.drive, given.image.trans here.image, ?_⟩
    · rw [given.clash, address, h.ring.clash]
    · rw [given.station, h.station]
  clashes := by rw [clashes_placeTransit, clashes_readdressed, hc]
  grows hw := by
    have first := (h.settled hc).grows hw
    have then_ := first.trans (readdressed_grows first.whole own)
    exact then_.trans (((placeTransit_ring _ f).settled (clashes_placeTransit _ f)).grows then_.whole)
  notDelivered ho := by
    rw [show v.readdressed own = v from if_pos (by rw [ho, h.station])]
    exact (h.trans (placeTransit_ring v f)).notDelivered

theorem sweepFrame_acted {q : PortId} {f : Frame} {b : MgmtBody} {s : State} (hm : f.hdr.cls = .m)
    (ha : s.station.address ≠ 0) : SweepActed (sweepAddress s.station.address b) s (sweepFrame q f b s) := by
  have dropped := settleDrop_ring s q
  have counted := clashes_settleDrop s q
  have address := congrArg StationCtl.address dropped.station
  unfold sweepFrame sweepAddress
  cases b.cmd with
  | enumerate first next =>
    have acted := enumerateInPlace_state (s := settleDrop s q) (by rwa [address]) next (sweepOf f.wire b)
    simp only [enumeratePass, acted]
    rw [address]
    exact sweepActed_placed dropped counted _ _
  | collect =>
    simp only [if_neg ha, collectPass]
    exact (dropped.trans (placeTransit_ring _ _)).sweepActed ((clashes_placeTransit _ _).trans counted)
  | _ => exact (settleForward_ring (by rw [hm]; rfl)).sweepActed (settled_settleForward s q f).clashes

/-! ## The state at which the clash is reported -/

section Clash
variable {s : State} (m : Moment) (p : PortId) (tag : BitVec 16)

/-- The state with the clash counted and recorded, before its report (R57). -/
def State.recorded (s : State) (m : Moment) (p : PortId) (tag : BitVec 16) : State :=
  (s.arrived m p).setSw (s.sw.clashed tag)

theorem clash_recorded : clash tag (s.arrived m p) = report .addressClash (s.recorded m p tag) := by
  rw [clash_eq, arrived_sw]
  rfl

theorem recorded_control : SameControl (s.tick m) (s.recorded m p tag) ∧
    (s.recorded m p tag).station = s.station := by
  cases p <;> exact ⟨⟨rfl, rfl, rfl, rfl, rfl, rfl, rfl⟩, rfl⟩

/-- The clash reported: what of the station is as before its frame, and what the report does (R57). -/
structure Clashed (s w : State) (tag : BitVec 16) : Prop where
  station : w.station = { s.station with seq := w.station.seq }
  clash : w.sw.clash = some tag
  tap : w.sw.tap = s.sw.tap
  clashes : w.clashes = bump s.sw.ctr.clashSeen
  whole : TreeWhole w.trip
  latched : w.trip.isLatched .addressClash = true
  ctx : w.ctx = s.ctx
  counters : w.axes.ctr = s.axes.ctr
  drive : w.drive = s.drive
  image : w.image = s.image

theorem clash_clashed (hw : TripWhole s) : Clashed s (clash tag (s.arrived m p)) tag ∧
    NotDelivered (s.tick m) (clash tag (s.arrived m p)) := by
  obtain ⟨control, station⟩ := recorded_control (s := s) m p tag
  have tree : TreeWhole (s.recorded m p tag).trip := by rw [control.trip]; exact hw.tree_whole
  have level := report_level .addressClash (s.recorded m p tag)
  rw [clash_recorded]
  refine ⟨⟨?_, level.ring.clash, level.ring.tap, clashes_report _ _, (report_grows tree _).whole,
    report_isLatched tree _, level.ctx.trans control.ctx, level.counters.trans (by rw [control.axes]; rfl),
    level.drive.trans control.drive, level.image.trans control.image⟩, ?_⟩
  · rw [level.station, station]
  · exact (notDelivered_of_control control (by rw [station]; rfl)).trans (notDelivered_report _ _)

/-- A clash reported before is not reported again (R150). -/
theorem clash_again (h : s.trip.isLatched .addressClash = true) : clash tag (s.arrived m p) = s.recorded m p tag := by
  rw [clash_recorded]
  exact report_latched _ _ (by rw [(recorded_control m p tag).1.trip]; exact h)

end Clash

end Sys2Proof.Machine

open Sys2Proof Sys2Proof.Machine

/-- Settles O20: the frame is settled as its class says or is a sweep acted on, once the clash is reported. -/
theorem clashOfAddress : Obligations.ClashOfAddress := by
  intro m p s bytes reading whole hg hu g hh ha hs ht b sweep
  have arrives : exec (.frameArrival m p (.ended bytes reading)) s =
      .next ((classFrame false p (hoppedFrame bytes reading) (clash g.hdr.tag (s.arrived m p))).closed p) := by
    rw [exec_good reading hg, hu, inputOf, forwardInput_clash hh (by rwa [arrived_station])
      (by rw [arrived_station]; exact hs) (by rw [arrived_tag]; exact ht)]
    rfl
  obtain ⟨clashed, kept⟩ := clash_clashed m p g.hdr.tag whole
  have address := congrArg StationCtl.address clashed.station
  refine ⟨fun hn => ?_, fun hn hb => ?_, fun hw => ?_⟩
  · have settles := (classFrame_settles p (hoppedFrame bytes reading) (clash g.hdr.tag (s.arrived m p)) hn)
    have settled := settles.settled.closed p
    refine ⟨_, arrives, settled.clash.trans clashed.clash, settled.clashes.trans clashed.clashes,
      (settled.grows clashed.whole).latched _ clashed.latched, kept.trans settled.notDelivered, fun hl hq => ?_⟩
    obtain ⟨control, station⟩ := recorded_control (s := s) m p g.hdr.tag
    rw [clash_again m p g.hdr.tag hl] at settled ⊢
    obtain ⟨same, stays⟩ := settled.quiet (by rw [control.trip]; exact hq)
    exact ⟨control.trans same, stays.trans station⟩
  · intro f h c u w entry urgent forwards copied
    have reported : clash g.hdr.tag u = w := clash_recorded m p g.hdr.tag
    have recorded : OutputsBusy (s.recorded m p g.hdr.tag) :=
      (hb.arrived m p).setSw (by rw [arrived_sw]; rfl) (by rw [arrived_sw]; rfl)
    obtain ⟨portA, portB, busy⟩ : w.portA = u.portA ∧ w.portB = u.portB ∧ OutputsBusy w :=
      portsStay_report .addressClash _ recorded
    have port (o : PortId) : w.port o = u.port o := by cases o <;> assumption
    have tx (o : PortId) : (w.port o).tx = (s.port o).tx := by rw [port]; exact (arrived_tx s m p o).1
    have resv : w.resvOf p = s.resvOf p := by
      rw [← arrived_resvOf s m p p, State.resvOf, State.resvOf, port]
    have clock : w.clock = u.clock := (report_level .addressClash (s.recorded m p g.hdr.tag)).moment.clock
    have settles := classFrame_settles p f (clash g.hdr.tag u) hn
    rw [address, clashed.tap] at settles
    have agrees : forwards ↔ ClassForwards s.station.address s.sw.tap f := Iff.rfl
    rw [← agrees] at settles
    rw [reported] at settles arrives
    refine ⟨fun hf => ⟨fun hv hx => ?_, fun hv hu hl => ?_, fun hv o x hx => ?_⟩,
      fun hf => ⟨fun hx => ?_, fun o x hx => ?_⟩⟩
    · have none (hp : w.resvOf p = .picked) : NoCopy w p := fun o x h => hx (by rwa [← resv]) o x (by rwa [← tx])
      rw [arrives, settles.1 hf, settleForward_busy busy ?_ none, resv, clock]
      rw [resv]
      exact hv.imp_right (.imp not_or.mp .inl)
    · rw [arrives, settles.1 hf, settleForward_full (f := f) (by rw [resv, hv]) hu hl]
    · obtain ⟨hx, hc, -, hy⟩ := hx
      have body : checkOf { f with hdr := x.frame.hdr } = crc32 (headerBytes x.frame.hdr ++ bodyBytes bytes) := by
        rw [← sentBytes_readFrame bytes reading]; rfl
      rw [arrives, settles.1 hf, settleForward_copy (by rw [resv, hv]) ((tx o).trans hx) hc
        fun y h => hy y (by rwa [← tx]), withBody, body, port]
    · rw [arrives, settles.2 hf, settleDrop_noCopy busy fun o x h => hx o x (by rwa [← tx])]
    · obtain ⟨hx, hc, hn, hy⟩ := hx
      rw [arrives, settles.2 hf, settleDrop_copy busy ((tx o).trans hx) hc hn fun y h => hy y (by rwa [← tx]),
        sentAbort, State.setSw_port, port]
  · obtain ⟨hm, hd, hk⟩ := hw
    have swept : classFrame false p (hoppedFrame bytes reading) (clash g.hdr.tag (s.arrived m p)) =
        sweepFrame p (hoppedFrame bytes reading) b (clash g.hdr.tag (s.arrived m p)) :=
      (classFrame_m (f := hoppedFrame bytes reading) hm).trans
        (mgmtFrame_sweep (f := hoppedFrame bytes reading) (by rw [address]; exact ha) hd hk)
    have acted := sweepFrame_acted (q := p) (f := hoppedFrame bytes reading) (b := b)
      (s := clash g.hdr.tag (s.arrived m p)) hm (by rw [address]; exact ha)
    rw [← swept] at acted
    generalize classFrame false p (hoppedFrame bytes reading) (clash g.hdr.tag (s.arrived m p)) = v at arrives acted
    generalize clash g.hdr.tag (s.arrived m p) = w at clashed kept address acted
    rw [address] at acted
    have own := acted.readdressed
    obtain ⟨control, station⟩ := closeReception_control v p
    have sw : (v.closed p).sw = v.sw := State.setPort_sw _ _ _
    have now : (v.closed p).station.address = sweepAddress s.station.address b :=
      (congrArg StationCtl.address station).trans (congrArg StationCtl.address own.station)
    have trip : (v.closed p).trip = v.trip := control.trip
    have stationNow : (v.closed p).station = { s.station with
        address := sweepAddress s.station.address b, seq := (v.closed p).station.seq } := by
      rw [show (v.closed p).station = v.station from station, own.station, clashed.station]
    refine ⟨_, arrives, (clashes_setPort _ _ _).trans (acted.clashes.trans clashed.clashes), ?_,
      fun first next hc => ?_, fun hc => ?_, ?_, fun h => ?_, control.ctx.trans (own.ctx.trans clashed.ctx),
      control.drive.trans (own.drive.trans clashed.drive), control.image.trans (own.image.trans clashed.image),
      (congrArg AxisTable.ctr control.axes).trans (own.counters.trans clashed.counters),
      by rw [stationNow], by rw [stationNow], by rw [stationNow], by rw [stationNow]⟩
    · rw [trip]
      exact (acted.grows clashed.whole).latched _ clashed.latched
    · rw [now, sweepAddress, hc]
      rfl
    · rw [now, sweepAddress]
      split
      · next first next he => exact absurd he (hc first next)
      · rfl
    · rw [sw, now, own.clash, address, clashed.clash]
    · have stays := acted.notDelivered (now.symm.trans (h.trans address.symm))
      exact (kept.trans stays).trans (notDelivered_setPort v p _)
end

