-- ==== Sys2Proof/Proofs/SweepPlaces.lean ====
section
/-! ENUMERATE and COLLECT wherever the sweep stands: passing, come home, offered at the frame port, or sent to a
station or to all (R58 to R63, R190). -/

namespace Sys2Proof.Machine

/-! ## A station without an address sends nothing of its own (R63, R161, R178) -/

/-- At address 0 a change of the level sends no notice (R178). -/
theorem levelChange_unassigned {s : State} (h : s.station.address = 0) (old new : Level) :
    (levelChange old new s).sw = s.sw := by
  by_cases hn : new = .clear → old = .clear
  · exact (levelChange_quiet hn s).1
  · push Not at hn
    obtain ⟨rfl, ho⟩ := hn
    have silent (v : State) (hv : v.station.address = 0) : sendNotices v = v := if_pos hv
    rw [levelChange, if_neg ho, screenLevel, if_neg ho, if_neg ho, if_pos rfl, silent]
    · rfl
    · exact h

theorem originateTrip_unassigned {s : State} (h : s.station.address = 0) (r : Bool) :
    originateTrip r s = (s, false) := by
  have silent : s.publishStream = none := if_pos h
  rw [originateTrip, silent]

/-- At address 0 a recomputation touches no queue. -/
theorem recompute_unassigned {s : State} (h : s.station.address = 0) : (recompute s).sw = s.sw := by
  have here : (recomputed s).station.address = 0 := by
    rw [recomputed, (levelChange_level _ _ _).station]
    exact h
  have once : recomputeOnce s = (recomputed s, false) := by
    rw [recomputeOnce_eq, originateTrip_unassigned here, ite_self]
  rw [recompute, once]
  exact levelChange_unassigned (s := s.setTrip { s.trip with levels := s.trip.compute }) h _ _

/-- A station that gives up its address empties its local insert queues (R63). -/
theorem readdressed_zero_sw {s : State} (h : s.station.address ≠ 0) :
    (s.readdressed 0).sw = { s.sw with clash := none, localK := [], localM := [], localS := [], localI := [] } := by
  have known (r : Prop) [Decidable r] (x : TripUnit) :
      (if r then recompute ((s.atAddress 0).setTrip x) else s.atAddress 0).sw = (s.atAddress 0).sw := by
    split
    · exact recompute_unassigned (s := (s.atAddress 0).setTrip x) rfl
    · rfl
  unfold State.readdressed
  rw [if_neg h.symm]
  dsimp only
  rw [if_neg (by simp)]
  exact known _ _

/-! ## The sweep a command of the table carries -/

/-- The fields of a sweep that no frame gives. -/
def givenSweep (hostTag : BitVec 16) (count : Nat) (force overflow lengthOk : Bool) : Sweep :=
  { wire := none, hostTag := hostTag, status := .ok, force := force, overflow := overflow, count := count,
    lengthOk := lengthOk }

section Exec
variable (m : Moment) (h : Header) (s : State) (hostTag : BitVec 16) (first next count : Nat)
  (force overflow lengthOk : Bool) (ds : List Digest)

theorem exec_enumerate_passing : exec (.enumerate m (.passing h) hostTag first next force overflow lengthOk) s =
    .next (enumeratePass h first next (givenSweep hostTag 0 force overflow lengthOk) .none (s.tick m)) := rfl

theorem exec_collect_passing : exec (.collect m (.passing h) hostTag count overflow lengthOk ds) s =
    .next (collectPass h (givenSweep hostTag count false overflow lengthOk) ds (s.tick m)) := rfl

/-- An ENUMERATE come home is a response with FORCE clear, whose count is that of the addresses given (R62). -/
theorem exec_enumerate_returned : exec (.enumerate m (.returned h) hostTag first next force overflow lengthOk) s =
    .next ((s.tick m).received
      { hdr := h
        body := responseBody (.enumerate first next) hostTag
          ⟨.ok, 0, .enumerated next (next - first) (if next - first = 0 then none else some (next - 1))⟩
          overflow }) :=
  congrArg _ (answerSweep_received h _ (givenSweep hostTag 0 force overflow lengthOk) _ _)

/-- A COLLECT come home is a response with its digests (R190). -/
theorem exec_collect_returned : exec (.collect m (.returned h) hostTag count overflow lengthOk ds) s =
    .next ((s.tick m).received
      { hdr := h, body := responseBody .collect hostTag ⟨.ok, count, .digests ds⟩ overflow }) :=
  congrArg _ (answerSweep_received h _ (givenSweep hostTag count false overflow lengthOk) _ _)

theorem exec_enumerate_offered : exec (.enumerate m .offered hostTag first next force overflow lengthOk) s =
    .next (if s.sw.localM.length < 8 then enumerateMove 0 enumerateLen first next
      (givenSweep hostTag 0 force overflow lengthOk) (s.tick m) else s.tick m) := rfl

theorem exec_collect_offered : exec (.collect m .offered hostTag count overflow lengthOk ds) s =
    .next (if s.station.address = 0 then countPortRefused (s.tick m)
      else if s.sw.localM.length < 8 then
        collectMove 0 8 (givenSweep hostTag count false overflow lengthOk) ds (s.tick m) else s.tick m) := rfl

theorem exec_enumerate_addressed (via : Via) :
    exec (.enumerate m (.addressed via) hostTag first next force overflow lengthOk) s =
      .next (sweepAddressed via (.enumerate first next) hostTag lengthOk (s.tick m)) := rfl

theorem exec_collect_addressed (via : Via) :
    exec (.collect m (.addressed via) hostTag count overflow lengthOk ds) s =
      .next (sweepAddressed via .collect hostTag lengthOk (s.tick m)) := rfl

end Exec

/-! ## Passing -/

/-- An ENUMERATE that passes is placed with the next address and the fields it leaves with (R60). -/
theorem enumeratePass_of {s v : State} {h : Header} {first next n : Nat} {w x : Sweep} {d : RespData}
    (acted : enumerateInPlace next w s = (v, n, x)) :
    enumeratePass h first next w d s = placeTransit v (sweepFrameOf h (.enumerate first n) x d) := by
  simp only [enumeratePass, acted]

theorem Sweep.setOverflow_wireless {w : Sweep} (h : w.wire = none) : w.setOverflow = { w with overflow := true } := by
  rw [setOverflow, h, ite_self]

/-- A COLLECT passes a station with address 0 as it is (R190). -/
theorem collectPass_unassigned {s : State} (ha : s.station.address = 0) (h : Header) (w : Sweep) (ds : List Digest) :
    collectPass h w ds s = placeTransit s (sweepFrameOf h .collect w (.digests ds)) := by
  simp only [collectPass, if_pos ha]

/-- A COLLECT takes the digest of a station with an address, or OVERFLOW (R190). -/
theorem collectPass_assigned {s : State} (ha : s.station.address ≠ 0) (h : Header) (w : Sweep) (ds : List Digest) :
    collectPass h w ds s =
      let r := appendDigest s h.len w ds
      placeTransit s (sweepFrameOf { h with len := r.1 } .collect r.2.1 (.digests r.2.2)) := by
  simp only [collectPass, if_neg ha]

/-! ## Sent to a station or to all -/

section Addressed
variable {s : State} {cmd : MgmtCmd} {hostTag : BitVec 16} {lengthOk : Bool}

/-- No sweep is delivered at address 0 (R24, R192). -/
theorem sweepAddressed_unassigned (h : s.station.address = 0) (via : Via) :
    sweepAddressed via cmd hostTag lengthOk s = s := by
  unfold sweepAddressed
  dsimp only
  rw [stationCommand_unassigned h, if_pos h, ite_self]

/-- Sent to a station it is no command (R58). -/
theorem sweepAddressed_refused {via : Via} (hv : via ≠ .broadcast) (ha : s.station.address ≠ 0) :
    Refused ⟨via, hostTag, lengthOk⟩ cmd .badCommand s (sweepAddressed via cmd hostTag lengthOk s) := by
  have refused : sweepAddressed via cmd hostTag lengthOk s = refuse ⟨via, hostTag, lengthOk⟩ cmd .badCommand s :=
    (if_neg hv).trans (if_neg ha)
  rw [refused]
  exact refuse_refused _ _ _ _ rfl

/-- Sent to all it is executed by none: counted taken, or refused for its length alone (R184). -/
theorem sweepAddressed_broadcast (ha : s.station.address ≠ 0) :
    sweepAddressed .broadcast cmd hostTag lengthOk s = if lengthOk then restartTimers (countTaken s) else
      s.countStation fun c => { c with broadcastRefused := bump c.broadcastRefused } := by
  unfold sweepAddressed
  rw [if_pos rfl]
  cases hl : lengthOk with
  | false => exact stationCommand_badLength ha _ _ _ (.inl rfl)
  | true => exact if_neg ha

end Addressed

end Sys2Proof.Machine

open Sys2Proof Sys2Proof.Machine

/-- Settles O57: by where the sweep stands, and there by what it asks of the station. -/
theorem sweeps : Obligations.Sweeps := by
  intro m s h hostTag first next count force overflow lengthOk ds now sweep enum coll answer atPort takes digest
  have takesIff := takesAddress_iff now force
  have passes (h : ¬ takes) : takesAddress now force = false := by simpa using mt takesIff.mp h
  refine ⟨fun ha hf => ?_, fun ht h1 h62 => ?_, fun ht h63 => ?_, fun _ hn => ?_, ?_,
    exec_enumerate_returned .., exec_collect_returned .., fun hr => ⟨?_, fun ha => ?_⟩, fun ha => ?_,
    fun hr => ?_, fun ha c hc => ?_, fun ha via => ⟨?_, ?_⟩, fun via hv ha =>
      ⟨⟨_, exec_enumerate_addressed .., sweepAddressed_refused hv ha⟩,
        ⟨_, exec_collect_addressed .., sweepAddressed_refused hv ha⟩⟩⟩
  · have stays : ¬ takes := by simp [takes, ha, hf]
    rw [exec_enumerate_passing, enumeratePass_of (enumerateInPlace_passes (.inl (passes stays))), hf]
    rfl
  · have own := readdressed_spec now next
    rw [exec_enumerate_passing, enumeratePass_of (enumerateInPlace_takes (takesIff.mpr ht) h1 h62)]
    exact ⟨rfl, by rw [own.station], own.ctx, own.image, own.drive⟩
  · subst h63
    have own := readdressed_spec now 0
    rw [exec_enumerate_passing, enumeratePass_of (enumerateInPlace_leaves (takesIff.mpr ht)),
      Sweep.setOverflow_wireless rfl]
    refine ⟨rfl, by rw [own.station], own.ctx, own.image, own.drive, fun ha => if_pos ha.symm, fun ha => ?_⟩
    rw [readdressed_zero_sw (s := now) ha]
    exact ⟨rfl, rfl, rfl, rfl⟩
  · rw [exec_enumerate_passing, enumeratePass_of (enumerateInPlace_passes (.inr hn))]
    rfl
  · rw [exec_collect_passing]
    split
    · next ha => rw [collectPass_unassigned (s := now) ha]; rfl
    · next ha =>
      rw [collectPass_assigned (s := now) ha]
      split
      · next full => rw [appendDigest_full _ _ full, Sweep.setOverflow_wireless rfl]; rfl
      · next room => rw [appendDigest_room _ _ (Nat.not_lt.mp room)]; rfl
  · rw [exec_enumerate_offered, if_neg (Nat.not_lt.mpr hr)]
  · rw [exec_collect_offered, if_neg ha, if_neg (Nat.not_lt.mpr hr)]
  · rw [exec_collect_offered, if_pos ha]
    rfl
  · have enumerates := (exec_enumerate_offered m s hostTag first next force overflow lengthOk).trans
      (congrArg _ (if_pos hr))
    have collects (ha : s.station.address ≠ 0) :=
      (exec_collect_offered m s hostTag count overflow lengthOk ds).trans
        (congrArg _ ((if_neg ha).trans (if_pos hr)))
    refine ⟨fun hl => ?_, fun hl hv => ?_, fun hl hf h1 h62 => ⟨fun ht => ?_, fun ht => ?_⟩, fun ha hc => ?_,
      fun ha hc hl => ?_, fun ha hc hl => ?_⟩
    · rw [enumerates, enumerateMove_badLength hl, answerPort_received]
      rfl
    · rw [enumerates, enumerateMove_badValue hl hv, answerPort_received]
      rfl
    · rw [enumerates, enumerateMove_passed hl hf h1 h62 (passes ht)]
      rfl
    · have own := readdressed_spec (countTaken now) next
      rw [enumerates, enumerateMove_taken hl hf h1 h62 (takesIff.mpr ht)]
      exact ⟨rfl, by rw [own.station], own.ctx, own.image, own.drive, by rw [own.station]; rfl⟩
    · rw [collects ha, collectMove_badValue hc, answerPort_received]
      rfl
    · rw [collects ha, collectMove_badLength hc hl, answerPort_received]
      rfl
    · rw [collects ha, collectMove_room hc hl (by omega)]
      rfl
  · rcases hc with rfl | rfl
    · rw [exec_enumerate_addressed, sweepAddressed_broadcast (s := now) ha]
      rfl
    · rw [exec_collect_addressed, sweepAddressed_broadcast (s := now) ha]
      rfl
  · rw [exec_enumerate_addressed, sweepAddressed_unassigned (s := now) ha]
  · rw [exec_collect_addressed, sweepAddressed_unassigned (s := now) ha]
end

