-- ==== Sys2Proof/Proofs/MasterAxis.lean ====
section
/-! What the conditions on the generator, the cycle context and DRIVE_OFF read of a state, and the shared operations
that keep all three: recomputations and reports, corrections, the Drive Link, the Image Unit and the cycle (R71, R74,
R75, R97, R114). -/

namespace Sys2Proof.Machine

/-! ## What the conditions read -/

/-- The effective level, the generator, the cycle context, which axes are enabled, and the level and the ENABLE bit of
the exchange under way. -/
structure Motion where
  level : Level
  gen : Generator
  ctx : CycleCtx
  enabled : Four Bool
  exchange : Option (Level × Bool)
  deriving DecidableEq

/-- What of a state the three conditions read. -/
def State.motion (s : State) : Motion :=
  { level := s.trip.levels.eff, gen := s.gen, ctx := s.ctx,
    enabled := s.axes.recs.map fun r => axisEnabled r.state,
    exchange := s.drive.exchange.map fun x => (x.level, x.enable) }

/-- `DriveOffInv` of what it reads. -/
def Motion.DriveOff (x : Motion) : Prop :=
  (x.level = .driveOff → (∀ a, x.enabled.get a = false) ∧ x.gen.speed = 0) ∧
  (2 ≤ x.level.rank → x.gen.target = 0) ∧
  ∀ e ∈ x.exchange, e.1 = .driveOff → e.2 = false

theorem driveOffInv_iff (s : State) : DriveOffInv s ↔ s.motion.DriveOff := by
  simp [DriveOffInv, Motion.DriveOff, State.motion, State.axis]

theorem generatorInv_of_gen {s t : State} (h : t.gen = s.gen) (hi : GeneratorInv s) : GeneratorInv t := by
  unfold GeneratorInv
  rw [h]
  exact hi

theorem cycleInv_of_ctx {s t : State} (h : t.ctx = s.ctx) (hi : CycleInv s) : CycleInv t := by
  obtain ⟨local_, miss, delta, learnt, source, tracking, coasting, rem⟩ := hi
  constructor <;> rw [h] <;> assumption

theorem motion_of_control {s t : State} (h : SameControl s t) : t.motion = s.motion := by
  simp only [State.motion, h.gen, h.ctx, h.axes, h.drive, h.trip]

/-- Each of the three conditions that held before holds after. -/
structure MotionKept (s t : State) : Prop where
  driveOff : DriveOffInv s → DriveOffInv t
  generator : GeneratorInv s → GeneratorInv t
  cycle : CycleInv s → CycleInv t

theorem MotionKept.refl (s : State) : MotionKept s s := ⟨id, id, id⟩

theorem MotionKept.trans {s t u : State} (h : MotionKept s t) (k : MotionKept t u) : MotionKept s u :=
  ⟨k.driveOff ∘ h.driveOff, k.generator ∘ h.generator, k.cycle ∘ h.cycle⟩

theorem motionKept_of_same {s t : State} (h : t.motion = s.motion) : MotionKept s t := by
  refine ⟨fun hi => ?_, generatorInv_of_gen (congrArg Motion.gen h), cycleInv_of_ctx (congrArg Motion.ctx h)⟩
  rw [driveOffInv_iff, h, ← driveOffInv_iff]
  exact hi

theorem motionKept_of_control {s t : State} (h : SameControl s t) : MotionKept s t :=
  motionKept_of_same (motion_of_control h)

/-- A fold of operations each of which keeps the conditions keeps them. -/
theorem motionKept_foldl {α : Type} {f : State → α → State} (h : ∀ s x, MotionKept s (f s x)) (l : List α)
    (s : State) : MotionKept s (l.foldl f s) := by
  induction l generalizing s with
  | nil => exact .refl s
  | cons x l ih => exact (h s x).trans (ih _)

section After
variable {s u : State} (k : MotionKept s u)
include k

theorem MotionKept.same {t : State} (h : t.motion = u.motion) : MotionKept s t := k.trans (motionKept_of_same h)

theorem MotionKept.control {t : State} (h : SameControl u t) : MotionKept s t := k.trans (motionKept_of_control h)

theorem MotionKept.ring {t : State} (h : RingOnly u t) : MotionKept s t := k.control h.control

theorem MotionKept.queue {t : State} (h : QueueOnly u t) : MotionKept s t := k.control h.control

theorem MotionKept.foldl {α : Type} {f : State → α → State} (h : ∀ s x, MotionKept s (f s x)) (l : List α) :
    MotionKept s (l.foldl f u) := k.trans (motionKept_foldl h l u)

theorem MotionKept.setPort (p : PortId) (x : Port) : MotionKept s (u.setPort p x) :=
  k.control (blocksStay_setPort u p x).control

theorem MotionKept.setSw (x : Switch) : MotionKept s (u.setSw x) := k.same rfl

theorem MotionKept.setStation (x : StationCtl) : MotionKept s (u.setStation x) := k.same rfl

theorem MotionKept.setImage (x : ImageUnit) : MotionKept s (u.setImage x) := k.same rfl

theorem MotionKept.setScreen (x : ScreenUnit) : MotionKept s (u.setScreen x) := k.same rfl

theorem MotionKept.countMotion (f : MotionCounters → MotionCounters) : MotionKept s (u.countMotion f) := k.same rfl

theorem MotionKept.countDrive (f : DriveCounters → DriveCounters) : MotionKept s (u.countDrive f) := k.same rfl

theorem MotionKept.countSw (f : SwitchCounters → SwitchCounters) : MotionKept s (u.countSw f) := k.same rfl

theorem MotionKept.setDriveAxis (a : Fin 4) (d : DriveAxis) : MotionKept s (u.setDriveAxis a d) := k.same rfl

/-- A change of the Trip Unit that leaves its levels. -/
theorem MotionKept.setTrip (x : TripUnit) (h : x.levels = u.trip.levels := by rfl) : MotionKept s (u.setTrip x) :=
  k.same (by simp only [State.motion, State.setTrip_trip, h]; rfl)

/-- A change of the cycle context alone. -/
theorem MotionKept.setCtx (c : CycleCtx) (h : CycleInv s → CycleInv u → CycleInv (u.setCtx c)) :
    MotionKept s (u.setCtx c) :=
  ⟨k.driveOff, k.generator, fun hi => h hi (k.cycle hi)⟩

/-- A change of the generator alone that lifts neither speed nor target where the level holds them down. -/
theorem MotionKept.setGen (g : Generator) (hg : GeneratorInv u → GeneratorInv (u.setGen g))
    (hv : u.trip.levels.eff = .driveOff → u.gen.speed = 0 → u.gen.target = 0 → g.speed = 0)
    (ht : 2 ≤ u.trip.levels.eff.rank → u.gen.target = 0 → g.target = 0) : MotionKept s (u.setGen g) := by
  refine ⟨fun hi => ?_, hg ∘ k.generator, fun hi => cycleInv_of_ctx (s := u) rfl (k.cycle hi)⟩
  obtain ⟨off, ramp, enable⟩ := k.driveOff hi
  refine ⟨fun h => ⟨(off h).1, hv h (off h).2 (ramp ?_)⟩, fun h => ht h (ramp h), enable⟩
  rw [show u.trip.levels.eff = .driveOff from h]
  decide

/-- A change of the axis table that enables an axis only below DRIVE_OFF. -/
theorem MotionKept.setAxes (x : AxisTable) (h : ∀ a, axisEnabled (x.recs.get a).state = true →
    axisEnabled (u.axis a).state = true ∨ u.trip.levels.eff ≠ .driveOff) : MotionKept s (u.setAxes x) := by
  refine ⟨fun hi => ?_, k.generator, fun hi => cycleInv_of_ctx (s := u) rfl (k.cycle hi)⟩
  obtain ⟨off, ramp, enable⟩ := k.driveOff hi
  refine ⟨fun hl => ⟨fun a => ?_, (off hl).2⟩, ramp, enable⟩
  refine Bool.eq_false_iff.mpr fun hen => ?_
  rcases h a hen with hen | hlow
  · rw [(off hl).1 a] at hen
    cases hen
  · exact hlow hl

/-- A change of one axis record likewise. -/
theorem MotionKept.setAxis (a : Fin 4) (r : AxisRecord) (h : axisEnabled r.state = true →
    axisEnabled (u.axis a).state = true ∨ u.trip.levels.eff ≠ .driveOff) : MotionKept s (u.setAxis a r) := by
  refine k.setAxes _ fun b hb => ?_
  by_cases hab : b = a
  · subst hab
    rw [Four.get_set_same] at hb
    exact h hb
  · rw [Four.get_set_other _ _ _ _ hab] at hb
    exact .inl hb

end After

/-! ## Originated frames and the Screen Unit -/

theorem insertLocal_control (s : State) (cls : FrameClass) (stream dest len : Nat) (b : Body)
    (wire : Option (List Byte)) : SameControl s (insertLocal s cls stream dest len b wire) := by
  unfold insertLocal
  split
  · have queued : SameControl s (s.setSw (s.sw.setLocalQ cls
        (s.sw.localQ cls ++ [ownItem s cls stream dest len b wire]))).nextSeq :=
      ⟨rfl, rfl, rfl, rfl, rfl, rfl, rfl⟩
    exact queued.trans (arbitrate_ring _).control
  · exact ⟨rfl, rfl, rfl, rfl, rfl, rfl, rfl⟩

@[simp] theorem motion_insertLocal (s : State) (cls : FrameClass) (stream dest len : Nat) (b : Body)
    (wire : Option (List Byte)) : (insertLocal s cls stream dest len b wire).motion = s.motion :=
  motion_of_control (insertLocal_control s cls stream dest len b wire)

@[simp] theorem motion_arbitrate (s : State) : (arbitrate s).motion = s.motion :=
  motion_of_control (arbitrate_ring s).control

@[simp] theorem motion_sendNotices (s : State) : (sendNotices s).motion = s.motion := by
  have fold (l : List ScreenStream) (u : State) : (l.foldl sendNotice u).motion = u.motion := by
    induction l generalizing u with
    | nil => rfl
    | cons x l ih =>
      refine (ih _).trans ?_
      unfold sendNotice
      split
      · rfl
      · exact motion_insertLocal u _ _ _ _ _ _
  unfold sendNotices
  split
  · rfl
  · exact fold _ s

@[simp] theorem motion_screenLevel (old new : Level) (s : State) : (screenLevel old new s).motion = s.motion := by
  unfold screenLevel
  split
  · rfl
  · split
    · rfl
    · split
      · exact motion_sendNotices _
      · rfl

theorem motion_queueTrip (s : State) (stream : Nat) (b : TripBody) : (queueTrip s stream b).1.motion = s.motion := by
  unfold queueTrip
  split
  · exact motion_arbitrate _
  · rfl

@[simp] theorem motion_originateTrip (r : Bool) (s : State) : (originateTrip r s).1.motion = s.motion := by
  unfold originateTrip
  split
  · exact motion_queueTrip s _ _
  · rfl

@[simp] theorem motion_viewSegment (s : State) (stream : Nat) (g : Segment) :
    (viewSegment s stream g).motion = s.motion := by
  unfold viewSegment
  split <;> rfl

@[simp] theorem motion_takeSegments (stream : Nat) (tail : Bool) (gs : List Segment) (s : State) :
    (takeSegments stream tail gs s).motion = s.motion := by
  induction gs generalizing s with
  | nil => unfold takeSegments; split <;> rfl
  | cons g gs ih =>
    unfold takeSegments
    split
    · rw [ih, motion_viewSegment]
    · rfl

/-! ## A change of the effective level -/

theorem axisToOff_enabled (r : AxisRecord) : axisEnabled (axisToOff r).state = false := by
  unfold axisToOff
  split
  · rfl
  · next h => simpa using h

/-- A rise to DRIVE_OFF leaves no axis enabled; otherwise every axis stays as it is (R97). -/
theorem axes_level_enabled (old new : Level) (due : Nat) (t : AxisTable) :
    (t.level old new due).recs.map (fun r => axisEnabled r.state) =
      if old.rank < 3 ∧ new.rank = 3 then Four.all4 false else t.recs.map fun r => axisEnabled r.state := by
  have started : (if old.rank < 2 ∧ 2 ≤ new.rank then t.startStop due else t).recs = t.recs := by
    split
    · exact startStop_recs due t
    · rfl
  simp only [AxisTable.level]
  split
  · refine four_ext fun a => ?_
    rw [AxisTable.off, settleStop_recs, Four.get_map, Four.get_map, Four.get_all4]
    exact axisToOff_enabled _
  · rw [started]

/-- What the conditions read once the effective level is `new` (R74, R97). -/
def Motion.leveled (new : Level) (x : Motion) : Motion :=
  { x with
    level := new, gen := x.gen.level x.level new,
    enabled := if x.level.rank < 3 ∧ new.rank = 3 then Four.all4 false else x.enabled }

theorem generator_level_self (l : Level) (g : Generator) : g.level l l = g := if_pos (Nat.le_refl _)

theorem motion_levelChange (u : State) (l : Levels) :
    (levelChange u.trip.levels.eff l.eff (u.setTrip { u.trip with levels := l })).motion =
      u.motion.leveled l.eff := by
  unfold levelChange
  split
  · next h =>
    have still : ¬ (u.trip.levels.eff.rank < 3 ∧ l.eff.rank = 3) := by rw [h]; omega
    refine Motion.mk.injEq .. ▸ ⟨rfl, ?_, rfl, (if_neg still).symm, rfl⟩
    rw [← h]
    exact (generator_level_self _ _).symm
  · rw [motion_screenLevel]
    simp only [State.motion, Motion.leveled, setTripOut, motionLevel, State.setTrip_trip, State.setTrip_gen,
      State.setTrip_ctx, State.setTrip_axes, State.setTrip_drive, State.setAxes_trip, State.setAxes_gen,
      State.setAxes_ctx, State.setAxes_axes, State.setAxes_drive, State.setGen_trip, State.setGen_gen,
      State.setGen_ctx, State.setGen_axes, State.setGen_drive, axes_level_enabled]
    rfl

/-- A recomputation's change of the level leaves speed and target where the new level allows them (R74). -/
theorem generator_level_bounds (old new : Level) (g : Generator) :
    ((g.level old new).speed ≤ g.speed ∧ (g.level old new).target ≤ g.target) ∧
    (new.rank ≤ old.rank → g.level old new = g) ∧
    (old.rank < new.rank → new = .driveOff → (g.level old new).speed = 0) ∧
    (old.rank < new.rank → 2 ≤ new.rank → (g.level old new).target = 0) := by
  unfold Generator.level Generator.settle
  split
  · next h => exact ⟨⟨Nat.le_refl _, Nat.le_refl _⟩, fun _ => rfl, fun hlt => absurd h (by omega),
      fun hlt => absurd h (by omega)⟩
  · next h =>
    split
    · exact ⟨⟨Nat.zero_le _, Nat.zero_le _⟩, fun hle => absurd hle h, fun _ _ => rfl, fun _ _ => rfl⟩
    · next hne =>
      split
      · exact ⟨⟨Nat.le_refl _, Nat.zero_le _⟩, fun hle => absurd hle h, fun _ hd => absurd hd hne, fun _ _ => rfl⟩
      · next hnr =>
        refine ⟨⟨Nat.le_refl _, Nat.le_refl _⟩, fun _ => rfl, fun _ hd => absurd hd hne, fun _ h2 => ?_⟩
        cases new <;> first | exact absurd rfl hne | exact absurd rfl hnr | exact absurd h2 (by decide)

theorem generator_level_inv {u t : State} {old new : Level} (ht : t.gen = u.gen.level old new)
    (hi : GeneratorInv u) : GeneratorInv t := by
  obtain ⟨ranges, speed, target, rem, state, timer⟩ := hi
  have same := generator_level_same old new u.gen
  obtain ⟨⟨slower, lower⟩, -, -, -⟩ := generator_level_bounds old new u.gen
  have settled : (u.gen.level old new).state = masterState (u.gen.level old new).speed
      (u.gen.level old new).target (u.gen.level old new).limit := by
    unfold Generator.level
    repeat' split
    all_goals first | exact state | rfl
  have cfg : (u.gen.level old new).cfg = u.gen.cfg := by rw [same]
  have rest : (u.gen.level old new).rem = u.gen.rem := by rw [same]
  have running : (u.gen.level old new).timer = u.gen.timer := by rw [same]
  unfold GeneratorInv
  rw [ht, cfg, rest, running]
  exact ⟨ranges, slower.trans speed, lower.trans target, rem, settled, timer⟩

/-- A change of the effective level keeps the conditions (R74, R97). -/
theorem MotionKept.leveled {s u t : State} (k : MotionKept s u) (new : Level) (h : t.motion = u.motion.leveled new) :
    MotionKept s t := by
  refine ⟨fun hi => ?_, fun hi => generator_level_inv (congrArg Motion.gen h) (k.generator hi),
    fun hi => cycleInv_of_ctx (congrArg Motion.ctx h) (k.cycle hi)⟩
  obtain ⟨off, ramp, enable⟩ := (driveOffInv_iff u).mp (k.driveOff hi)
  obtain ⟨-, fall, stops, ends⟩ := generator_level_bounds u.motion.level new u.motion.gen
  rw [driveOffInv_iff, h]
  refine ⟨fun hd => ?_, fun h2 => ?_, enable⟩
  · change new = .driveOff at hd
    subst hd
    by_cases hold : u.motion.level.rank < 3
    · refine ⟨fun a => ?_, stops hold rfl⟩
      rw [show (u.motion.leveled .driveOff).enabled = Four.all4 false from if_pos ⟨hold, rfl⟩]
      exact Four.get_all4 false a
    · have same : u.motion.level = .driveOff := by
        cases hl : u.motion.level with
        | driveOff => rfl
        | clear | notice | rampStop => exact absurd (by rw [hl]; decide) hold
      have stays : (u.motion.leveled .driveOff).gen = u.motion.gen := fall (by rw [same])
      refine ⟨fun a => ?_, ?_⟩
      · simp only [Motion.leveled, hold, false_and, if_false]
        exact (off same).1 a
      · rw [stays]
        exact (off same).2
  · change 2 ≤ new.rank at h2
    by_cases hold : u.motion.level.rank < new.rank
    · exact ends hold h2
    · have stays : (u.motion.leveled new).gen = u.motion.gen := fall (by omega)
      rw [stays]
      exact ramp (by omega)

/-! ## Recomputations and reports -/

section After
variable {s u : State} (k : MotionKept s u)
include k

theorem MotionKept.recomputeOnce : MotionKept s (Machine.recomputeOnce u).1 := by
  rw [recomputeOnce_eq]
  split
  · exact k.leveled _ (motion_levelChange u u.trip.compute)
  · exact k.leveled _ ((motion_originateTrip false _).trans (motion_levelChange u u.trip.compute))

theorem MotionKept.reportCongestion : MotionKept s (Machine.reportCongestion u) := by
  unfold Machine.reportCongestion
  split
  · exact k
  · exact (k.setTrip (u.trip.latch .ringCongestion)).recomputeOnce

theorem MotionKept.recompute : MotionKept s (Machine.recompute u) := by
  unfold Machine.recompute afterQueue
  split
  · exact k.recomputeOnce.reportCongestion
  · exact k.recomputeOnce

theorem MotionKept.sendTrip (r : Bool) : MotionKept s (Machine.sendTrip r u) := by
  have sent : MotionKept s (originateTrip r u).1 := k.same (motion_originateTrip r u)
  unfold Machine.sendTrip afterQueue
  split
  · exact sent.reportCongestion
  · exact sent

theorem MotionKept.offOne (a : Fin 4) : MotionKept s (u.setAxes (u.axes.offOne a)) := by
  refine k.setAxes _ fun b hb => ?_
  rw [AxisTable.offOne, settleStop_recs] at hb
  by_cases hab : b = a
  · rw [hab, Four.get_set_same, axisToOff_enabled] at hb
    cases hb
  · rw [Four.get_set_other _ _ _ _ hab] at hb
    exact .inl hb

theorem MotionKept.axisFault (f : FaultId) : MotionKept s (Machine.axisFault f u) := by
  unfold Machine.axisFault
  split
  · exact k.offOne _
  · exact k.offOne _
  · split
    · exact k.offOne _
    · exact k
  · exact k

theorem MotionKept.report (f : FaultId) : MotionKept s (Machine.report f u) := by
  unfold Machine.report
  split
  · exact k
  · exact ((k.setTrip (u.trip.latch f)).axisFault f).recompute

theorem MotionKept.setCondition (f : FaultId) (b : Bool) : MotionKept s (Machine.setCondition f b u) := by
  have set : MotionKept s (u.setTrip (u.trip.setCond f b)) := k.setTrip _
  cases b with
  | false => exact set
  | true => exact set.report f

/-! ## The units a frame is delivered to -/

theorem MotionKept.takeTrip (src : Nat) (b : TripBody) : MotionKept s (Machine.takeTrip src b u) := by
  have set (r : List RemoteEntry) : MotionKept s (u.setTrip { u.trip with remote := r }) := k.setTrip _
  simp only [Machine.takeTrip]
  split
  · split
    · exact (set _).recompute
    · exact k
  · split
    · exact set _
    · exact (set _).recompute

theorem MotionKept.reportCorrLimit (a : Fin 4) : MotionKept s (Machine.reportCorrLimit a u) :=
  k.setCondition _ _

theorem MotionKept.takeCorrection (c : CorrRec) : MotionKept s (Machine.takeCorrection u c) := by
  have set (x : Int) : MotionKept s (u.setAxis c.axis { u.axis c.axis with corrTarget := x }) :=
    k.setAxis _ _ fun h => .inl h
  simp only [Machine.takeCorrection]
  split
  · split
    · exact (set _).reportCorrLimit _
    · exact ((set _).countMotion _).reportCorrLimit _
  · exact k.countMotion _

theorem MotionKept.takeCorrections (cs : List CorrRec) : MotionKept s (Machine.takeCorrections cs u) :=
  k.foldl (fun v c => (MotionKept.refl v).takeCorrection c) cs

/-! ## The Drive Link -/

theorem MotionKept.reportDriveLink (a : Fin 4) : MotionKept s (Machine.reportDriveLink a u) :=
  k.setCondition _ _

theorem MotionKept.badOutcome (a : Fin 4) (o : DriveOutcome) : MotionKept s (Machine.badOutcome a o u) :=
  ((k.setDriveAxis a _).countDrive (countOutcome o)).reportDriveLink a

/-- An exchange started at DRIVE_OFF is of an axis that is not enabled, so it has no ENABLE bit (R114). -/
theorem MotionKept.startExchange (a : Fin 4) (release : Bool) : MotionKept s (Machine.startExchange a release u) := by
  refine ⟨fun hi => ?_, k.generator, fun hi => cycleInv_of_ctx (s := u) rfl (k.cycle hi)⟩
  obtain ⟨off, ramp, -⟩ := k.driveOff hi
  refine ⟨off, ramp, fun x hx hl => ?_⟩
  obtain rfl := Option.some.inj hx
  have idle : axisEnabled (u.axis a).state = false := (off hl).1 a
  change (!release && (axisEnabled (u.axis a).state && _)) = false
  rw [idle, Bool.false_and, Bool.and_false]

theorem MotionKept.endRelease (a : Fin 4) : MotionKept s (Machine.endRelease a u) :=
  k.setAxis a _ fun h => .inl h

theorem MotionKept.noExchange : MotionKept s (u.setDrive { u.drive with exchange := none }) := by
  refine ⟨fun hi => ?_, k.generator, fun hi => cycleInv_of_ctx (s := u) rfl (k.cycle hi)⟩
  obtain ⟨off, ramp, -⟩ := k.driveOff hi
  exact ⟨off, ramp, fun x hx => by cases hx⟩

theorem MotionKept.endBatch : MotionKept s (Machine.endBatch u) := by
  unfold Machine.endBatch
  split
  · split
    · exact k.same rfl
    · exact k
  · exact k

end After

theorem MotionKept.driveArb {s u : State} (k : MotionKept s u) (n : Nat) : MotionKept s (Machine.driveArb n u) := by
  induction n generalizing u with
  | zero => exact k
  | succ n ih =>
    simp only [Machine.driveArb]
    split
    · exact k
    · have ended := k.endBatch
      generalize Machine.endBatch u = v at ended
      split
      · split
        · exact ended.startExchange _ _
        · exact ih (ended.endRelease _)
      · split
        · exact ended
        · next p _ =>
          have turn : MotionKept s (v.setDrive { v.drive with batch := some (p + 1) }) := ended.same rfl
          split
          · exact ih turn
          · split
            · exact turn.startExchange _ _
            · exact ih (turn.badOutcome _ _)

section After
variable {s u : State} (k : MotionKept s u)
include k

theorem MotionKept.driveArbitrate : MotionKept s (Machine.driveArbitrate u) := k.driveArb 9

theorem MotionKept.abandonBatch : MotionKept s (Machine.abandonBatch u) := by
  unfold Machine.abandonBatch
  split
  · exact k
  · refine k.foldl (fun v a => ?_) _
    split
    · exact .refl v
    · exact (MotionKept.refl v).badOutcome a _

theorem MotionKept.startBatch : MotionKept s (Machine.startBatch u) :=
  (k.abandonBatch.same (t := (Machine.abandonBatch u).setDrive
    { (Machine.abandonBatch u).drive with batch := some 0 }) rfl).driveArbitrate

theorem MotionKept.followCheck (a : Fin 4) (limit : Nat) (last : Option (BitVec 32)) (actual : BitVec 32) :
    MotionKept s (Machine.followCheck a limit last actual u) := by
  unfold Machine.followCheck
  split
  · split
    · exact (k.countDrive _).report _
    · exact k
  · exact k

theorem MotionKept.goodOutcome (x : Exchange) (st : DriveStatus) : MotionKept s (Machine.goodOutcome x st u) := by
  have conditions := MotionKept.setCondition (MotionKept.setCondition (k.setDriveAxis x.axis
    { u.driveAxis x.axis with
      outcome := .good, bad := 0, status := some st, lastSetpoint := some x.setpoint })
      (.driveLink x.axis) false) (.driveFault x.axis) st.fault
  simp only [Machine.goodOutcome]
  split
  · exact conditions.setAxis _ _ fun h => .inl h
  · split
    · exact conditions.setAxis _ _ fun h => .inl h
    · split
      · exact conditions.followCheck _ _ _ _
      · exact conditions

theorem MotionKept.batchOutcome (x : Exchange) (b : List Byte) : MotionKept s (Machine.batchOutcome x b u) := by
  unfold Machine.batchOutcome
  split
  · exact k
  · split
    · exact k.goodOutcome _ _
    · exact (k.setDriveAxis _ _).badOutcome _ _

theorem MotionKept.completeExchange (x : Exchange) (b : List Byte) :
    MotionKept s (Machine.completeExchange x b u) := by
  refine MotionKept.driveArbitrate ?_
  dsimp only
  split
  · split
    · exact k.noExchange.endRelease _
    · exact (k.noExchange.endRelease _).setDriveAxis _ _
  · split
    · exact k.noExchange
    · exact k.noExchange.batchOutcome _ _

theorem MotionKept.dropExchange (x : Exchange) : MotionKept s (Machine.dropExchange x u) := by
  refine MotionKept.driveArbitrate ?_
  dsimp only
  split
  · exact k.noExchange.endRelease _
  · split
    · exact k.noExchange
    · exact k.noExchange.badOutcome _ _

theorem MotionKept.driveDisabled (a : Fin 4) : MotionKept s (Machine.driveDisabled a u) :=
  ((k.setDriveAxis a _).setCondition _ false).setCondition _ false

omit k in
theorem motion_driveEnabled (a : Fin 4) (v : State) : (Machine.driveEnabled a v).motion = v.motion := by
  have seen (x : Exchange) : ((noCapture a x).level, (noCapture a x).enable) = (x.level, x.enable) := by
    unfold noCapture
    split <;> rfl
  simp [State.motion, Machine.driveEnabled, State.setDriveAxis, Function.comp_def, seen]

/-! ## The Image Unit -/

theorem MotionKept.abandonLine : MotionKept s (Machine.abandonLine u) :=
  (k.setImage _).setCondition _ _

theorem MotionKept.reportWeb : MotionKept s (Machine.reportWeb u) := k.setCondition _ _

theorem MotionKept.webCheck (pixels : List Byte) : MotionKept s (Machine.webCheck pixels u) :=
  (k.setImage _).reportWeb

theorem MotionKept.closeWindow (i : Nat) : MotionKept s (Machine.closeWindow u i) := by
  simp only [Machine.closeWindow]
  split
  · split
    · exact (k.setImage _).report _
    · exact k.setImage _
  · exact k.setImage _

theorem MotionKept.closeWindows (f : Window → Bool) : MotionKept s (Machine.closeWindows f u) :=
  k.foldl (fun v i => (MotionKept.refl v).closeWindow i) _

theorem MotionKept.sendCorrections (n : BitVec 16) (e : Nat × List CorrRec) :
    MotionKept s (Machine.sendCorrections n u e) := by
  unfold Machine.sendCorrections
  split
  · exact k.takeCorrections _
  · exact k.control (insertLocal_control u _ _ _ _ _ _)

theorem MotionKept.flushCorrections : MotionKept s (Machine.flushCorrections u) := by
  simp only [Machine.flushCorrections]
  split
  · exact k.setImage _
  · exact (k.setImage _).foldl (fun v e => (MotionKept.refl v).sendCorrections _ e) _

theorem MotionKept.repeatBoundary (l : CameraLine) : MotionKept s (Machine.repeatBoundary l u) :=
  k.flushCorrections.setImage _

end After

theorem motion_queueAssembly (u : State) : (queueAssembly u).motion = u.motion := by
  simp only [queueAssembly]
  split
  · rfl
  · split
    · rfl
    · exact motion_insertLocal _ _ _ _ _ _ _

theorem motion_placeSegment (u : State) (g : Segment) : (placeSegment u g).motion = u.motion := by
  have placed (x : ImageUnit) : (viewSegment (u.setImage x) u.image.cam.stream g).motion = u.motion :=
    motion_viewSegment _ _ _
  unfold placeSegment
  extract_lets c v w
  split
  · rw [motion_queueAssembly, placed]
  · exact placed _

theorem motion_streamLine (l : CameraLine) (fresh : Bool) (pixels : List Byte) (u : State) :
    (streamLine l fresh pixels u).motion = u.motion := by
  have fold (gs : List Segment) (v : State) : (gs.foldl placeSegment v).motion = v.motion := by
    induction gs generalizing v with
    | nil => rfl
    | cons g gs ih => exact (ih _).trans (motion_placeSegment v g)
  have place (line : List Byte) (v : State) : (placeLine l line v).motion = v.motion := by
    refine (fold _ _).trans ?_
    split
    · rfl
    · exact motion_queueAssembly v
  have assembled : (if fresh then queueAssembly u else u).motion = u.motion := by
    split
    · exact motion_queueAssembly u
    · rfl
  unfold streamLine
  extract_lets v c
  split
  · rw [place]
    exact assembled
  · exact assembled

theorem MotionKept.endLine {s u : State} (k : MotionKept s u) (l : CameraLine) (pixels : List Byte) :
    MotionKept s (Machine.endLine l pixels u) := by
  have checked : MotionKept s (Machine.webCheck pixels (reportCamera (u.setImage
      { u.image with line := none, abandoned := 0 }))) :=
    ((k.setImage _).setCondition _ _).webCheck pixels
  simp only [Machine.endLine]
  generalize Machine.webCheck pixels _ = v at checked
  have closed : MotionKept s (if v.image.newRepeat l then Machine.closeWindows (fun _ => true) v else v) := by
    split
    · exact checked.closeWindows _
    · exact checked
  generalize (if v.image.newRepeat l then Machine.closeWindows (fun _ => true) v else v) = w at closed
  have begun : MotionKept s (if v.image.newRepeat l then Machine.repeatBoundary l w
      else if w.image.prevIndex.isNone then w.setImage { w.image with repeatNo := l.repeatNo } else w) := by
    split
    · exact closed.repeatBoundary l
    · split
      · exact closed.setImage _
      · exact closed
  exact (((begun.setImage _).closeWindows _).same (motion_streamLine _ _ _ _)).setImage _

end Sys2Proof.Machine
end

