-- ==== Sys2Proof/Proofs/DriveWork.lean ====
section
/-! What the drive link's arbiter and a batch may change: beside the Drive Link itself, what the reports of the outcomes
may change (R112 to R122). -/

namespace Sys2Proof.Machine

/-- At most what a change of the levels may change, and the Drive Link. -/
structure DriveOnly (s t : State) : Prop where
  moment : SameMoment s t
  ring : SameRing s t
  gen : t.gen = { s.gen with speed := t.gen.speed, target := t.gen.target, limit := t.gen.limit,
                             state := t.gen.state }
  ctx : t.ctx = s.ctx
  counters : t.axes.ctr = s.axes.ctr
  image : t.image = s.image
  station : t.station = { s.station with seq := t.station.seq }

theorem LevelOnly.driveOnly {s t : State} (h : LevelOnly s t) : DriveOnly s t :=
  ⟨h.moment, h.ring, h.gen, h.ctx, h.counters, h.image, h.station⟩

theorem DriveOnly.refl (s : State) : DriveOnly s s := (LevelOnly.refl s).driveOnly

theorem DriveOnly.trans {s t u : State} (h : DriveOnly s t) (k : DriveOnly t u) : DriveOnly s u :=
  ⟨h.moment.trans k.moment, h.ring.trans k.ring, by rw [k.gen, h.gen], k.ctx.trans h.ctx,
    k.counters.trans h.counters, k.image.trans h.image, by rw [k.station, h.station]⟩

theorem DriveOnly.clock {s t : State} (h : DriveOnly s t) : t.clock = s.clock := h.moment.clock

theorem DriveOnly.cfg {s t : State} (h : DriveOnly s t) : t.station.cfg = s.station.cfg :=
  (congrArg StationCtl.cfg h.station).trans rfl

theorem driveOnly_setDrive (s : State) (d : DriveLink) : DriveOnly s (s.setDrive d) := by
  obtain ⟨moment, ring, gen, ctx, counters, image, station⟩ := DriveOnly.refl s
  exact ⟨⟨moment.pending, moment.clock, moment.ready, moment.serial, moment.strap⟩,
    ⟨ring.sideA, ring.sideB, ring.role, ring.tap, ring.clash⟩, gen, ctx, counters, image, station⟩

theorem driveOnly_badOutcome (a : Fin 4) (o : DriveOutcome) (s : State) : DriveOnly s (badOutcome a o s) :=
  (driveOnly_setDrive s _).trans (setCondition_level _ _ _).driveOnly

theorem driveOnly_endRelease (a : Fin 4) (s : State) : DriveOnly s (endRelease a s) :=
  (setAxes_level s { s.axes with recs := s.axes.recs.set a { s.axis a with release := false } } rfl).driveOnly

theorem driveOnly_startExchange (a : Fin 4) (release : Bool) (s : State) :
    DriveOnly s (startExchange a release s) := driveOnly_setDrive s _

theorem driveOnly_endBatch (s : State) : DriveOnly s (endBatch s) := by
  unfold endBatch
  split
  · split
    · exact driveOnly_setDrive s _
    · exact .refl s
  · exact .refl s

theorem driveOnly_driveArb (n : Nat) (s : State) : DriveOnly s (driveArb n s) := by
  induction n generalizing s with
  | zero => exact .refl s
  | succ n ih =>
    simp only [driveArb]
    split
    · exact .refl s
    · refine (driveOnly_endBatch s).trans ?_
      split
      · split
        · exact driveOnly_startExchange _ _ _
        · exact (driveOnly_endRelease _ _).trans (ih _)
      · split
        · exact .refl _
        · next p _ =>
          refine (driveOnly_setDrive _ { (endBatch s).drive with batch := some (p + 1) }).trans ?_
          split
          · exact ih _
          · split
            · exact driveOnly_startExchange _ _ _
            · exact (driveOnly_badOutcome _ _ _).trans (ih _)

theorem driveOnly_driveArbitrate (s : State) : DriveOnly s (driveArbitrate s) := driveOnly_driveArb 9 s

theorem driveOnly_abandonBatch (s : State) : DriveOnly s (abandonBatch s) := by
  have fold (l : List (Fin 4)) (u : State) : DriveOnly u (l.foldl
      (fun s a => if (s.axis a).state = .disabled then s else badOutcome a .skipped s) u) := by
    induction l generalizing u with
    | nil => exact .refl u
    | cons a l ih =>
      refine DriveOnly.trans ?_ (ih _)
      dsimp only
      split
      · exact .refl u
      · exact driveOnly_badOutcome a _ u
  unfold abandonBatch
  split
  · exact .refl s
  · exact fold _ s

theorem driveOnly_startBatch (s : State) : DriveOnly s (startBatch s) :=
  (driveOnly_abandonBatch s).trans ((driveOnly_setDrive _ _).trans (driveOnly_driveArbitrate _))

end Sys2Proof.Machine
end

