-- ==== Sys2Proof/Proofs/CycleApplies.lean ====
section
/-! What an apply makes of the cycle context, and an apply as the report of a jump, the axis steps, the batch and the
base handed on (R80 to R83). -/

namespace Sys2Proof.Machine

/-! ## The context after an apply -/

/-- The advance of one cycle at the speed in force, without the remainder (R82, step 2). -/
def CycleCtx.nominal (c : CycleCtx) : Int := ((c.speed * c.period / 1000 : Nat) : Int)

/-- The way of one cycle with the remainder, in 1/1000 of a count (R80). -/
def CycleCtx.way (c : CycleCtx) : Nat := c.speed * c.period + c.rem

/-- The context after an exact apply of `f`, its miss timer apart (R82). -/
def CycleCtx.exact (c : CycleCtx) (f : PendingCycle) : CycleCtx :=
  { c with
    state := .tracking, lastCycle := f.num, pos := f.pos, speed := f.speed, period := f.period,
    lastMaster := f.state, rem := 0, pending := none, delta := none, misses := 0,
    repeats := repeatsAfter c.repeats (exactDifference c f) c.pos f.pos }

/-- The advance of an extrapolated apply, without δ (R80). -/
def CycleCtx.coastNominal (c : CycleCtx) : Int := ((c.way / 1000 : Nat) : Int)

/-- The master difference of an extrapolated apply (R82, step 1). -/
def CycleCtx.coastDifference (c : CycleCtx) : Int := c.coastNominal + c.delta.getD 0

/-- The position an extrapolated apply reaches (R80). -/
def CycleCtx.coastPos (c : CycleCtx) : BitVec 28 := c.pos + BitVec.ofNat 28 (c.way / 1000)

/-- The context after an extrapolated apply below the miss limit, its miss timer apart (R80). -/
def CycleCtx.coasted (c : CycleCtx) : CycleCtx :=
  { c with
    state := .coasting, lastCycle := c.lastCycle + 1, pos := c.coastPos, rem := c.way % 1000, delta := none,
    misses := c.misses + 1, repeats := repeatsAfter c.repeats c.coastDifference c.pos c.coastPos }

/-- The context after a base take of `f`, its miss timer apart (R82). -/
def CycleCtx.based (c : CycleCtx) (f : PendingCycle) : CycleCtx :=
  { c with
    state := .tracking, lastCycle := f.num, pos := f.pos, speed := f.speed, period := f.period,
    lastMaster := f.state, rem := 0, pending := none, delta := none, misses := 0, localTimer := none }

/-- The context with its miss timer started at `now` (R80). -/
def CycleCtx.waiting (now : Nat) (c : CycleCtx) : CycleCtx :=
  { c with missTimer := some (now + (c.period + c.period / 4) * Config.usec) }

/-- The context that goes LOST at `now` (R81). -/
def CycleCtx.gone (now : Nat) (c : CycleCtx) : CycleCtx :=
  { c with
    state := .lost, pending := none, delta := none, missTimer := none,
    localTimer := some (now + c.period * Config.usec) }

/-- Whether an apply of difference `diff` finds a jump (R82, step 2). -/
def State.jumps (s : State) (diff nominal : Int) : Bool := jumped s.station.cfg.jumpLimit diff nominal

theorem startMiss_eq (s : State) : startMiss s = s.setCtx (s.ctx.waiting s.clock) := rfl

/-! ## What the parts of an apply leave -/

theorem reportJump_level (j : Bool) (s : State) : LevelOnly s (reportJump j s) := by
  unfold reportJump
  split
  · exact report_level _ s
  · exact .refl s

theorem confirmStop_rest (st : MasterState) (s : State) :
    confirmStop st s = s.setAxes (if st = .stopping ∨ st = .stopped then { s.axes with stopTimer := none }
      else s.axes) := by
  cases st <;> rfl

@[simp] theorem confirmStop_ctx (st : MasterState) (s : State) : (confirmStop st s).ctx = s.ctx := by
  cases st <;> rfl

@[simp] theorem confirmStop_clock (st : MasterState) (s : State) : (confirmStop st s).clock = s.clock := by
  cases st <;> rfl

/-- The axis steps of an apply leave the cycle context, the clock and the configuration. -/
theorem applySteps_ctx (take : Bool) (adv : Int) (s : State) : (applySteps take adv s).ctx = s.ctx :=
  (driveOnly_startBatch (stepAxes adv s)).ctx

theorem applySteps_clock (take : Bool) (adv : Int) (s : State) : (applySteps take adv s).clock = s.clock :=
  (driveOnly_startBatch (stepAxes adv s)).clock

theorem applySteps_cfg (take : Bool) (adv : Int) (s : State) :
    (applySteps take adv s).station.cfg = s.station.cfg := (driveOnly_startBatch (stepAxes adv s)).cfg

theorem applySteps_counters (take : Bool) (adv : Int) (s : State) :
    (applySteps take adv s).axes.ctr = s.axes.ctr := (driveOnly_startBatch (stepAxes adv s)).counters

/-! ## The applies -/

theorem applyExact_eq (f : PendingCycle) (s : State) :
    let jump := s.jumps (exactDifference s.ctx f) s.ctx.nominal
    applyExact f s = startMiss (confirmStop f.state (applySteps false
      (if jump then s.ctx.nominal else exactDifference s.ctx f)
      ((reportJump jump s).setCtx (s.ctx.exact f)))) := by
  have ctx := (reportJump_level (s.jumps (exactDifference s.ctx f) s.ctx.nominal) s).ctx
  simp only [State.jumps, CycleCtx.nominal] at ctx
  simp only [applyExact, State.jumps, CycleCtx.nominal, CycleCtx.exact, ctx]
  rfl

theorem applyExact_ctx (f : PendingCycle) (s : State) :
    (applyExact f s).ctx = (s.ctx.exact f).waiting s.clock := by
  rw [applyExact_eq, startMiss_eq]
  simp only [State.setCtx_ctx, confirmStop_ctx, confirmStop_clock, applySteps_ctx, applySteps_clock,
    State.setCtx_clock, (reportJump_level _ s).moment.clock]

/-- What an extrapolated apply does before the miss limit is looked at (R80, R82). -/
def coastApply (s : State) : State :=
  let jump := s.jumps s.ctx.coastDifference s.ctx.coastNominal
  startMiss (applySteps false (if jump then s.ctx.coastNominal else s.ctx.coastDifference)
    (((reportJump jump s).countMotion fun n => { n with missedCycle := bump n.missedCycle }).setCtx s.ctx.coasted))

theorem coastApply_ctx (s : State) : (coastApply s).ctx = s.ctx.coasted.waiting s.clock := by
  unfold coastApply
  rw [startMiss_eq]
  simp only [State.setCtx_ctx, applySteps_ctx, applySteps_clock, State.setCtx_clock, State.countMotion_clock,
    (reportJump_level _ s).moment.clock]

theorem coastApply_cfg (s : State) : (coastApply s).station.cfg = s.station.cfg := by
  unfold coastApply
  rw [startMiss_eq]
  simp only [State.setCtx_station, applySteps_cfg, State.countMotion_station]
  rw [(reportJump_level _ s).station]

theorem applyExtrapolated_eq (s : State) :
    applyExtrapolated s =
      if s.station.cfg.missLimit ≤ s.ctx.misses + 1 then enterLost (coastApply s) else coastApply s := by
  have ctx := (reportJump_level (s.jumps s.ctx.coastDifference s.ctx.coastNominal) s).ctx
  have shape : applyExtrapolated s =
      if (coastApply s).station.cfg.missLimit ≤ s.ctx.misses + 1 then enterLost (coastApply s)
      else coastApply s := by
    simp only [State.jumps, CycleCtx.coastNominal, CycleCtx.coastDifference, CycleCtx.way] at ctx
    simp only [applyExtrapolated, coastApply, State.jumps, CycleCtx.coastNominal, CycleCtx.coastDifference,
      CycleCtx.way, CycleCtx.coasted, CycleCtx.coastPos, State.countMotion_ctx, ctx]
    rfl
  rw [shape, coastApply_cfg]

theorem enterLost_eq (s : State) :
    enterLost s = (setCondition .cycleLoss true (s.setCtx (s.ctx.gone s.clock))).setAxes
      (setCondition .cycleLoss true (s.setCtx (s.ctx.gone s.clock))).axes.coast := rfl

theorem enterLost_ctx (s : State) : (enterLost s).ctx = s.ctx.gone s.clock :=
  (setCondition_level _ _ _).ctx

theorem baseTake_eq (f : PendingCycle) (s : State) :
    baseTake f s = startMiss (applySteps true 0 ((setCondition .cycleLoss false s).setCtx (s.ctx.based f))) := rfl

theorem baseTake_ctx (f : PendingCycle) (s : State) :
    (baseTake f s).ctx = (s.ctx.based f).waiting s.clock := by
  rw [baseTake_eq, startMiss_eq]
  simp only [State.setCtx_ctx, applySteps_ctx, applySteps_clock, State.setCtx_clock,
    (setCondition_level .cycleLoss false s).moment.clock]

end Sys2Proof.Machine
end

