-- ==== Sys2Proof/Proofs/MasterAxisCycle.lean ====
section
/-! The cycle context's operations keep the conditions on the master axis and the cycle: applies, the passage to LOST,
the delivery of a C frame and the issue of a cycle (R70, R76 to R83). -/

namespace Sys2Proof.Machine

/-! ## Apply events -/

theorem axisStep_enabled (adv : Int) (r : AxisRecord) : axisEnabled (axisStep adv r).state = axisEnabled r.state := by
  unfold axisStep
  split
  · rfl
  · next h =>
    unfold coastStep
    rw [h]
    dsimp only
    split <;> rfl
  all_goals rfl

theorem motion_stepAxes (adv : Int) (u : State) : (stepAxes adv u).motion = u.motion := by
  have same : (u.axes.recs.map (axisStep adv)).map (fun r => axisEnabled r.state) =
      u.axes.recs.map fun r => axisEnabled r.state := four_ext fun a => by
    simp only [Four.get_map, axisStep_enabled]
  simp only [State.motion, stepAxes, State.setAxes_axes, same]
  rfl

theorem axisToCoast_enabled (r : AxisRecord) : axisEnabled (axisToCoast r).state = axisEnabled r.state := by
  unfold axisToCoast
  split
  · next h =>
    rw [h]
    dsimp only
    split <;> rfl
  · rfl

/-- A context that tracks, with nothing pending and nothing missed, meets the conditions (R82). -/
theorem cycleInv_tracking {s : State} (hs : s.ctx.state = .tracking) (hp : s.ctx.pending = none)
    (hd : s.ctx.delta = none) (hm : s.ctx.misses = 0) (hl : s.ctx.localTimer = none)
    (hk : s.ctx.learnt.isSome = true) (hr : s.ctx.rem = 0) : CycleInv s where
  localTimer := by simp [hl, hs]
  missTimer _ := .inl hs
  delta h := by rw [hd] at h; cases h
  learnt _ := hk
  source h := by rw [hp] at h; cases h
  tracking _ := hm
  coasting h := by rw [hs] at h; cases h
  rem := by rw [hr]; decide

/-- While the next cycle is waited for a source is learnt and the local timer stands (R75). -/
theorem CycleInv.following {s : State} (hi : CycleInv s) (hs : s.ctx.state = .tracking ∨ s.ctx.state = .coasting) :
    s.ctx.localTimer = none ∧ s.ctx.learnt.isSome = true := by
  obtain ⟨local_, -, -, learnt, -, -, -, -⟩ := hi
  refine ⟨?_, learnt ?_⟩
  · by_contra h
    have lost := local_.mp (Option.isSome_iff_ne_none.mpr h)
    rw [lost] at hs
    exact absurd hs (by decide)
  · rcases hs with h | h <;> rw [h] <;> decide

theorem cycleInv_exact {s : State} (f : PendingCycle) (hi : CycleInv s)
    (hs : s.ctx.state = .tracking ∨ s.ctx.state = .coasting) {t : State} (ht : t.ctx = s.ctx.exact f) :
    CycleInv t := by
  obtain ⟨local_, learnt⟩ := hi.following hs
  refine cycleInv_tracking ?_ ?_ ?_ ?_ ?_ ?_ ?_ <;> rw [ht]
  case refine_5 => exact local_
  case refine_6 => exact learnt
  all_goals rfl

theorem cycleInv_based {s : State} (f : PendingCycle) (hi : CycleInv s) (hp : s.ctx.pending.isSome = true)
    {t : State} (ht : t.ctx = s.ctx.based f) : CycleInv t := by
  refine cycleInv_tracking ?_ ?_ ?_ ?_ ?_ ?_ ?_ <;> rw [ht]
  case refine_6 => exact hi.source hp
  all_goals rfl

theorem cycleInv_coasted {s : State} (hi : CycleInv s)
    (hs : s.ctx.state = .tracking ∨ s.ctx.state = .coasting) {t : State} (ht : t.ctx = s.ctx.coasted) :
    CycleInv t := by
  obtain ⟨local_, learnt⟩ := hi.following hs
  have still : s.ctx.coasted.localTimer = none := local_
  constructor <;> rw [ht]
  case localTimer => rw [still]; exact ⟨fun h => (by cases h), fun h => (by cases h)⟩
  case missTimer => exact fun _ => .inr rfl
  case delta => exact fun _ => rfl
  case learnt => exact fun _ => learnt
  case source => exact fun _ => learnt
  case tracking => exact fun h => by cases h
  case coasting => exact fun _ => Nat.succ_pos _
  case rem => exact Nat.mod_lt _ (by decide)

theorem cycleInv_gone {s : State} (now : Nat) (hi : CycleInv s) (hs : s.ctx.state = .coasting) {t : State}
    (ht : t.ctx = s.ctx.gone now) : CycleInv t := by
  obtain ⟨-, learnt⟩ := hi.following (.inr hs)
  constructor <;> rw [ht]
  case localTimer => exact ⟨fun _ => rfl, fun _ => rfl⟩
  case missTimer => exact fun h => by cases h
  case delta => exact fun h => by cases h
  case learnt => exact fun _ => learnt
  case source => exact fun h => by cases h
  case tracking => exact fun h => by cases h
  case coasting => exact fun h => by cases h
  case rem => exact hi.rem

section After
variable {s u : State} (k : MotionKept s u)
include k

theorem MotionKept.coast : MotionKept s (u.setAxes u.axes.coast) := by
  refine k.setAxes _ fun a ha => .inl ?_
  rw [AxisTable.coast, settleStop_recs, Four.get_map, axisToCoast_enabled] at ha
  exact ha

theorem MotionKept.reportJump (j : Bool) : MotionKept s (Machine.reportJump j u) := by
  unfold Machine.reportJump
  split
  · exact k.report _
  · exact k

theorem MotionKept.applySteps (take : Bool) (adv : Int) : MotionKept s (Machine.applySteps take adv u) :=
  (k.same (motion_stepAxes adv u)).startBatch.setImage _

theorem MotionKept.confirmStop (st : MasterState) : MotionKept s (Machine.confirmStop st u) := by
  unfold Machine.confirmStop
  split
  · exact k.same rfl
  · exact k.same rfl
  · exact k
  · exact k

/-- The miss timer starts where the next cycle is waited for (R80). -/
theorem MotionKept.startMiss (hs : u.ctx.state = .tracking ∨ u.ctx.state = .coasting) :
    MotionKept s (Machine.startMiss u) := by
  refine k.setCtx _ fun _ hi => ?_
  exact ⟨hi.localTimer, fun _ => hs, hi.delta, hi.learnt, hi.source, hi.tracking, hi.coasting, hi.rem⟩

end After

section After
variable {s u : State} (k : MotionKept s u)
include k

theorem MotionKept.applyExact (f : PendingCycle)
    (hs : CycleInv s → u.ctx.state = .tracking ∨ u.ctx.state = .coasting) :
    MotionKept s (Machine.applyExact f u) := by
  rw [applyExact_eq]
  have set := (k.reportJump (u.jumps (exactDifference u.ctx f) u.ctx.nominal)).setCtx (u.ctx.exact f)
    fun hi _ => cycleInv_exact f (k.cycle hi) (hs hi) rfl
  refine ((set.applySteps _ _).confirmStop _).startMiss (.inl ?_)
  rw [confirmStop_ctx, applySteps_ctx]
  rfl

/-- The passage to LOST of a context that coasts (R81). -/
theorem MotionKept.enterLost (hs : u.ctx.state = .coasting) : MotionKept s (Machine.enterLost u) := by
  rw [enterLost_eq]
  exact ((k.setCtx _ fun _ hu => cycleInv_gone u.clock hu hs rfl).setCondition _ _).coast

theorem MotionKept.coastApply
    (hs : CycleInv s → u.ctx.state = .tracking ∨ u.ctx.state = .coasting) :
    MotionKept s (Machine.coastApply u) := by
  have set := ((k.reportJump (u.jumps u.ctx.coastDifference u.ctx.coastNominal)).countMotion
    fun n => { n with missedCycle := bump n.missedCycle }).setCtx u.ctx.coasted
    fun hi _ => cycleInv_coasted (k.cycle hi) (hs hi) rfl
  refine (set.applySteps _ _).startMiss (.inr ?_)
  rw [applySteps_ctx]
  rfl

theorem MotionKept.applyExtrapolated
    (hs : CycleInv s → u.ctx.state = .tracking ∨ u.ctx.state = .coasting) :
    MotionKept s (Machine.applyExtrapolated u) := by
  rw [applyExtrapolated_eq]
  split
  · exact (k.coastApply hs).enterLost (by rw [coastApply_ctx]; rfl)
  · exact k.coastApply hs

/-- A base take of the frame that waits (R82). -/
theorem MotionKept.baseTake (f : PendingCycle) (hp : u.ctx.pending.isSome = true) :
    MotionKept s (Machine.baseTake f u) := by
  rw [baseTake_eq]
  have set := (k.setCondition .cycleLoss false).setCtx (u.ctx.based f)
    fun hi _ => cycleInv_based f (k.cycle hi) hp rfl
  refine (set.applySteps _ _).startMiss (.inl ?_)
  rw [applySteps_ctx]
  rfl

end After

theorem MotionKept.pendingDue {s u : State} (k : MotionKept s u) (n : Nat) : MotionKept s (Machine.pendingDue n u) := by
  induction n generalizing u with
  | zero => exact k
  | succ n ih =>
    simp only [Machine.pendingDue]
    split
    · next f hf =>
      have pending : u.ctx.pending.isSome = true := by rw [hf]; rfl
      have due (hs : u.ctx.state = .tracking ∨ u.ctx.state = .coasting) : MotionKept s
          (if f.num = u.ctx.lastCycle + 1 then Machine.applyExact f u
            else Machine.pendingDue n (Machine.applyExtrapolated u)) := by
        split
        · exact k.applyExact f fun _ => hs
        · exact ih (k.applyExtrapolated fun _ => hs)
      split
      · exact k
      · split
        · exact k.baseTake f pending
        · exact k.baseTake f pending
        · next h => exact due (.inl h)
        · next h => exact due (.inr h)
    · exact k

/-! ## Delivery of a C frame -/

section After
variable {s u : State} (k : MotionKept s u)
include k

theorem MotionKept.lateCycle (late : Bool) : MotionKept s (Machine.lateCycle late u) := by
  unfold Machine.lateCycle
  split
  · exact (k.countMotion _).report _
  · exact k

/-- A frame of a source that is learnt waits (R76, R78). -/
theorem MotionKept.pend (f : PendingCycle) (hl : u.ctx.learnt.isSome = true) :
    MotionKept s (u.setCtx { u.ctx with pending := some f }) := by
  refine k.setCtx _ fun _ hi => ?_
  exact ⟨hi.localTimer, hi.missTimer, hi.delta, hi.learnt, fun _ => hl, hi.tracking, hi.coasting, hi.rem⟩

theorem MotionKept.pendCycle (late : Bool) (f : PendingCycle) (hl : u.ctx.learnt.isSome = true) :
    MotionKept s (Machine.pendCycle late f u) := by
  unfold Machine.pendCycle
  split
  · exact (k.pend f hl).lateCycle late
  · split
    · exact ((k.pend f hl).countMotion _).lateCycle late
    · exact k.countMotion _

theorem MotionKept.resync (late : Bool) (f : PendingCycle) (hs : u.ctx.state = .coasting) :
    MotionKept s (Machine.resync late f u) := by
  refine MotionKept.lateCycle (k.setCtx _ fun _ hi => ?_) late
  exact ⟨hi.localTimer, hi.missTimer, fun _ => hs, hi.learnt, hi.source, hi.tracking, hi.coasting, Nat.succ_pos _⟩

theorem MotionKept.classifyCycle (age : Nat) (c : CycleBody) (hl : u.ctx.learnt.isSome = true) :
    MotionKept s (Machine.classifyCycle age c u) := by
  have following : MotionKept s (if c.num = u.ctx.lastCycle then
      if u.ctx.state = .coasting ∧ u.ctx.delta = none then
        Machine.resync (isLate age c) (pendingOf u.clock age c) u
      else countStale u
      else if aheadOf c.num u.ctx.lastCycle then
        Machine.pendCycle (isLate age c) (pendingOf u.clock age c) u
      else countStale u) := by
    split
    · split
      · next h => exact k.resync _ _ h.1
      · exact k.countMotion _
    · split
      · exact k.pendCycle _ _ hl
      · exact k.countMotion _
  simp only [Machine.classifyCycle]
  split
  · exact k.pendCycle _ _ hl
  · exact k.pendCycle _ _ hl
  · exact following
  · exact following

theorem MotionKept.takeCycle (src : Nat) (tag : BitVec 16) (age : Nat) (c : CycleBody) :
    MotionKept s (Machine.takeCycle src tag age c u) := by
  unfold Machine.takeCycle
  split
  · refine MotionKept.classifyCycle (k.setCtx _ fun _ hi => ?_) age c rfl
    exact ⟨hi.localTimer, hi.missTimer, hi.delta, fun _ => rfl, fun _ => rfl, hi.tracking, hi.coasting, hi.rem⟩
  · split
    · next h => exact k.classifyCycle age c (by rw [h]; rfl)
    · exact (k.countMotion _).report _

/-! ## The generator's cycle -/

/-- An expiry of the cycle timer moves the speed toward the target and restarts the timer (R69, R70). -/
theorem MotionKept.advance (x : CycleTimer) (now : Nat) (ht : u.gen.timer = some x) :
    MotionKept s (u.setGen (u.gen.advance x now)) := by
  have ramped (h : u.gen.speed ≤ u.gen.cfg.vMax) (h' : u.gen.target ≤ u.gen.cfg.vMax) :
      u.gen.ramped ≤ u.gen.cfg.vMax := by
    unfold Generator.ramped
    split
    · exact (min_le_right _ _).trans h'
    · split
      · exact max_le ((Nat.sub_le _ _).trans h) h'
      · exact h
  refine k.setGen _ (fun hi => ?_) (fun _ hv h0 => ?_) (fun _ h0 => h0)
  · obtain ⟨ranges, speed, target, -, -, timer⟩ := hi
    exact ⟨ranges, ramped speed target, target, Nat.mod_lt _ (by decide), rfl,
      ⟨fun _ => timer.mp (by rw [ht]; rfl), fun _ => rfl⟩⟩
  · change u.gen.ramped = 0
    simp [Generator.ramped, hv, h0]

theorem MotionKept.issueCycle : MotionKept s (Machine.issueCycle u) := by
  have queued : MotionKept s (afterQueue (queueCycle u u.gen.cfg.stream (u.gen.body u.trip.levels.eff))) := by
    have sent : MotionKept s (queueCycle u u.gen.cfg.stream (u.gen.body u.trip.levels.eff)).1 := by
      simp only [queueCycle]
      split
      · exact k.same (motion_arbitrate _)
      · split
        · exact k.same (motion_arbitrate _)
        · exact k.same rfl
    unfold afterQueue
    split
    · exact sent.reportCongestion
    · exact sent
  simp only [Machine.issueCycle]
  split
  · exact k.takeCycle _ _ _ _
  · exact queued.takeCycle _ _ _ _

end After

end Sys2Proof.Machine
end

