-- ==== Sys2Proof/Proofs/MasterAxisCommands.lean ====
section
/-! The management commands keep the conditions on the master axis, the cycle context and DRIVE_OFF: an axis is enabled
only below DRIVE_OFF (R90), SET SPEED sets a target only below RAMP_STOP (R72), and a MASTER record that is taken holds
the speed within v_max (R67). -/

namespace Sys2Proof.Machine

theorem MotionKept.ite {s u v : State} (c : Prop) [Decidable c] (hu : MotionKept s u) (hv : MotionKept s v) :
    MotionKept s (if c then u else v) := by
  split
  · exact hu
  · exact hv

section After
variable {s u : State} (k : MotionKept s u)
include k

/-! ## The course of a command -/

theorem MotionKept.restartTimers : MotionKept s (Machine.restartTimers u) := by
  rw [restartTimers_eq]
  exact (k.setStation _).setTrip _

theorem MotionKept.insertLocal (cls : FrameClass) (stream dest len : Nat) (b : Body) (wire : Option (List Byte)) :
    MotionKept s (Machine.insertLocal u cls stream dest len b wire) :=
  k.control (insertLocal_control u cls stream dest len b wire)

theorem MotionKept.refuse (e : Envelope) (cmd : MgmtCmd) (r : Resp) : MotionKept s (Machine.refuse e cmd r u) :=
  k.queue (refuse_queue e cmd r u)

/-- A command whose own effects keep the conditions keeps them in its whole course (R184). -/
theorem MotionKept.stationCommand (e : Envelope) (cmd : MgmtCmd) (wf fb : Bool) {run : State → State × Answer}
    (h : ∀ {v}, MotionKept s v → MotionKept s (run v).1) :
    MotionKept s (Machine.stationCommand e cmd wf fb run u) := by
  have taken := k.queue (countTaken_queue u)
  simp only [Machine.stationCommand]
  split
  · exact k
  · split
    · exact k.refuse _ _ _
    · split
      · exact taken.restartTimers
      · exact ((h taken).queue (countRefused_queue _ _ _)).restartTimers.queue (respond_queue _ _ _ _)

theorem MotionKept.onAxis (axis : Nat) {run : Fin 4 → State → State × Answer}
    (h : ∀ a, MotionKept s (run a u).1) : MotionKept s (Machine.onAxis axis run u).1 := by
  unfold Machine.onAxis
  split
  · exact h _
  · exact k

theorem MotionKept.runWrite {α : Type} (check : State → α → Option Resp) (es : List α)
    {act : State → State × Answer} (h : MotionKept s (act u).1) :
    MotionKept s (Machine.runWrite check es act u).1 := by
  unfold Machine.runWrite
  split
  · exact k
  · exact h

/-! ## Publishing and the address -/

theorem MotionKept.settlePublish (before : Option Nat) : MotionKept s (Machine.settlePublish before u) := by
  unfold Machine.settlePublish
  split
  · exact k.sendTrip _
  · split
    · exact k
    · exact k.sendTrip _
  · exact k

theorem MotionKept.changeAddress (new : Nat) : MotionKept s (Machine.changeAddress new u) := by
  have own {v : State} (kv : MotionKept s v) : MotionKept s (dropOwnRemote v) := by
    unfold dropOwnRemote
    split
    · exact (kv.setTrip _).recompute
    · exact kv
  simp only [Machine.changeAddress]
  split
  · exact k
  · exact own ((k.setStation _).setSw _)

theorem MotionKept.setAddress (new : Nat) : MotionKept s (Machine.setAddress new u) :=
  (k.changeAddress new).settlePublish _

/-! ## Axis commands -/

theorem MotionKept.settleStop : MotionKept s (u.setAxes u.axes.settleStop) :=
  k.setAxes _ fun a ha => .inl (by rwa [settleStop_recs] at ha)

/-- An axis is enabled only below DRIVE_OFF (R90). -/
theorem MotionKept.runEnable (a : Fin 4) : MotionKept s (Machine.runEnable a u).1 := by
  simp only [Machine.runEnable]
  split
  · exact k
  · split
    · exact k
    · next low =>
      split
      · exact k
      · exact (k.setAxis a _ fun _ => .inr low).same (motion_driveEnabled a _)

/-- An axis is coupled only from STANDBY or HELD, in which it is enabled (R92). -/
theorem MotionKept.runCouple (a : Fin 4) : MotionKept s (Machine.runCouple a u).1 := by
  unfold Machine.runCouple checked
  split
  · exact k
  · next hc =>
    refine (k.setAxis a _ fun _ => .inl ?_).reportCorrLimit a
    unfold checkCouple at hc
    dsimp only at hc
    split at hc
    · cases hc
    · cases hc
    · cases hc
    · cases hc
    · next h => rw [h]; rfl
    · next h => rw [h]; rfl

theorem MotionKept.runDecouple (a : Fin 4) : MotionKept s (Machine.runDecouple a u).1 := by
  simp only [Machine.runDecouple]
  split
  · exact k
  · next h =>
    split
    · exact k
    · refine (k.setAxis a _ fun _ => .inl ?_).settleStop
      rw [not_not.mp h]
      rfl

theorem MotionKept.runDisable (a : Fin 4) : MotionKept s (Machine.runDisable a u).1 := by
  unfold Machine.runDisable
  split
  · exact k
  · exact ((k.setAxis a { u.axis a with state := .disabled, release := true, capture := false }
      fun h => by cases h).settleStop.driveDisabled a).driveArbitrate

theorem MotionKept.runSetPhase (target : Int) (a : Fin 4) : MotionKept s (Machine.runSetPhase target a u).1 := by
  simp only [Machine.runSetPhase]
  split
  · exact k.setAxis a _ fun h => .inl h
  · exact k

theorem MotionKept.runResetCorrection (a : Fin 4) : MotionKept s (Machine.runResetCorrection a u).1 :=
  (k.setAxis a { u.axis a with corrTarget := 0 } fun h => .inl h).reportCorrLimit a

/-! ## Master commands -/

omit k in
/-- A generator whose target alone is set anew, its state settled, is in range if the target is within v_max. -/
theorem generatorInv_settle (v : State) {target : Nat} {limit : RampLimit} (ht : target ≤ v.gen.cfg.vMax)
    (hi : GeneratorInv v) :
    GeneratorInv (v.setGen ({ v.gen with target := target, limit := limit } : Generator).settle) := by
  obtain ⟨ranges, speed, -, rem, -, timer⟩ := hi
  exact ⟨ranges, speed, ht, rem, rfl, timer⟩

/-- SET SPEED sets a target only below RAMP_STOP (R72). -/
theorem MotionKept.runSetSpeed (target : Nat) : MotionKept s (Machine.runSetSpeed target u).1 := by
  simp only [Machine.runSetSpeed]
  split
  · exact k
  · split
    · exact k
    · split
      · exact k
      · split
        · exact k
        · next low =>
          exact k.setGen _ (generatorInv_settle u (min_le_right _ _)) (fun _ hv _ => hv) fun h _ => absurd h low

theorem MotionKept.runMasterStop : MotionKept s (Machine.runMasterStop u).1 := by
  simp only [Machine.runMasterStop]
  split
  · exact k
  · split
    · exact k
    · exact k.setGen _ (generatorInv_settle u (Nat.zero_le _)) (fun _ hv _ => hv) fun _ _ => rfl

/-! ## Fault commands -/

theorem MotionKept.runClearFaults (groups : List Nat) : MotionKept s (Machine.runClearFaults groups u).1 := by
  simp only [Machine.runClearFaults]
  split
  · exact k
  · exact (k.setTrip (clearTree groups u.trip)).recompute

theorem MotionKept.runTrip (level : Nat) : MotionKept s (Machine.runTrip level u).1 := by
  have latched (l : Level) : (hostTrip l u.trip).1.levels = u.trip.levels := by
    simp only [hostTrip]
    generalize (if u.trip.isLatched .hostTrip then u.trip.hostLevel.getD .clear else .clear) = old
    split <;> rfl
  unfold Machine.runTrip
  split
  · exact k
  · exact k
  · dsimp only
    split
    · exact (k.setTrip _ (latched _)).recompute
    · exact k

theorem MotionKept.runClearRemote : MotionKept s (Machine.runClearRemote u).1 :=
  (k.setTrip { u.trip with remote := u.trip.remote.filter fun e => !e.stale }).recompute

/-! ## Tables -/

theorem MotionKept.reportLinks : MotionKept s (Machine.reportLinks u) :=
  k.foldl (fun v a => (MotionKept.refl v).reportDriveLink a) _

theorem MotionKept.stopZeroTimeouts : MotionKept s (Machine.stopZeroTimeouts u) := by
  have short : MotionKept s (if u.station.cfg.shortTimeout = 0 then
      Machine.setCondition .mgmtSilent false (u.setStation { u.station with shortTimer := none }) else u) := by
    split
    · exact (k.setStation _).setCondition _ _
    · exact k
  simp only [Machine.stopZeroTimeouts]
  split
  · exact (short.setStation _).setCondition _ _
  · exact short

theorem MotionKept.runWriteStation (via : Via) (es : List (Nat × StationEntry)) :
    MotionKept s (Machine.runWriteStation via es u).1 := by
  refine k.runWrite _ _ (act := okAfter (writeStation es)) ?_
  refine MotionKept.settlePublish (MotionKept.stopZeroTimeouts ?_) _
  have addressed := (k.setStation { u.station with
    cfg := es.foldl (fun _ e => e.2.fields) u.station.cfg }).changeAddress (writtenAddress u.station.address es)
  generalize Machine.changeAddress (writtenAddress u.station.address es) (u.setStation { u.station with
    cfg := es.foldl (fun _ e => e.2.fields) u.station.cfg }) = v at addressed
  have linked : MotionKept s (if (es.foldl (fun _ e => e.2.fields) u.station.cfg).driveLimit =
      u.station.cfg.driveLimit then v else Machine.reportLinks v) := by
    split
    · exact addressed
    · exact addressed.reportLinks
  split
  · exact linked.setTrip _
  · exact linked

omit k in
/-- Where an entry passes its checks, none of them fails (R187). -/
theorem failIf_passed {l : List (Option Resp)} {b : Bool} (r : Resp) (h : firstFail l = none)
    (hm : failIf b r ∈ l) : b = false := by
  have pass := List.findSome?_eq_none_iff.mp h _ hm
  cases b with
  | false => rfl
  | true => cases pass

omit k in
/-- Of a MASTER write that is taken, the record as it then stands is in its ranges, and the speed is within its v_max;
a write of no entry leaves the record (R67). -/
theorem master_taken {es : List (Nat × MasterRecord)} {v : State}
    (h : firstFailure (checkMaster (lastRecord v.gen.cfg es) v) 0 es = none) :
    lastRecord v.gen.cfg es = v.gen.cfg ∨
    masterRanges (lastRecord v.gen.cfg es) (lastRecord v.gen.cfg es) = true ∧
      v.gen.speed ≤ (lastRecord v.gen.cfg es).vMax := by
  have passes {check : Nat × MasterRecord → Option Resp} (es : List (Nat × MasterRecord)) (n : Nat)
      (h : firstFailure check n es = none) : ∀ x ∈ es, check x = none := by
    induction es generalizing n with
    | nil => intro x hx; cases hx
    | cons x es ih =>
      rw [firstFailure] at h
      split at h
      · cases h
      · next hx => exact List.forall_mem_cons.mpr ⟨hx, ih _ h⟩
  rcases List.eq_nil_or_concat' es with rfl | ⟨l, x, rfl⟩
  · exact .inl rfl
  · have last : lastRecord v.gen.cfg (l ++ [x]) = x.2 := by simp [lastRecord]
    have hx := passes _ 0 h x (by simp)
    rw [last] at hx ⊢
    have ranges : (!masterRanges x.2 x.2) = false := failIf_passed .badValue hx
      (by simp only [List.mem_cons, true_or, or_true])
    have use : ((x.2.stream != v.gen.cfg.stream && v.gen.cfg.cycleRun == 1 && x.2.cycleRun == 1) ||
        decide (x.2.vMax < v.gen.speed)) = false := failIf_passed .inUse hx
      (by simp only [List.mem_cons, true_or, or_true])
    rw [Bool.or_eq_false_iff, decide_eq_false_iff_not] at use
    exact .inr ⟨by simpa using ranges, Nat.not_lt.mp use.2⟩

theorem MotionKept.runWriteMaster (es : List (Nat × MasterRecord)) :
    MotionKept s (Machine.runWriteMaster es u).1 := by
  unfold Machine.runWriteMaster Machine.runWrite
  dsimp only
  split
  · exact k
  · next h =>
    have taken := master_taken h
    generalize lastRecord u.gen.cfg es = new at taken
    rw [generator_write_eq]
    refine k.setGen _ (fun hi => ?_) (fun _ hv _ => hv) fun _ h0 => ?_
    · obtain ⟨ranges, speed, target, rem, state, timer⟩ := hi
      have inRange : masterRanges new new = true ∧ u.gen.speed ≤ new.vMax := by
        rcases taken with rfl | h
        · exact ⟨ranges, speed⟩
        · exact h
      refine ⟨inRange.1, inRange.2, min_le_right _ _, rem, ?_, ?_⟩
      · dsimp only [State.setGen_gen]
        split
        · next lower => rw [Nat.min_eq_right (Nat.le_of_lt lower)]
        · next higher => rw [Nat.min_eq_left (Nat.not_lt.mp higher), state]
      · dsimp only [State.setGen_gen, timerAfter]
        split
        · next same => rw [← same]; exact timer
        · split
          · next on => exact ⟨fun _ => on, fun _ => rfl⟩
          · next off => exact ⟨fun h => (by cases h), fun h => absurd h off⟩
    · change min u.gen.target new.vMax = 0
      rw [h0, Nat.zero_min]

theorem MotionKept.runWriteCamera (es : List (Nat × CameraRecord)) :
    MotionKept s (Machine.runWriteCamera es u).1 := by
  refine k.runWrite _ _ (act := okAfter (writeCamera _)) ?_
  generalize lastRecord u.image.cam es = new
  have queued : MotionKept s (if streamChanged u.image.cam new then queueAssembly u else u) := by
    split
    · exact k.same (motion_queueAssembly u)
    · exact k
  simp only [okAfter, writeCamera]
  generalize (if streamChanged u.image.cam new then queueAssembly u else u) = v at queued
  refine MotionKept.reportWeb ?_
  exact MotionKept.ite _ (queued.setImage _).abandonLine (queued.setImage _)

theorem MotionKept.runWriteAxis (es : List (Nat × AxisConfig)) : MotionKept s (Machine.runWriteAxis es u).1 := by
  refine k.runWrite _ _ (act := okAfter fun v => reportWrittenLimits es (writeAxes es v)) ?_
  refine MotionKept.foldl (k.setAxes _ fun a ha => .inl ?_) (fun v e => (MotionKept.refl v).reportCorrLimit _) es
  fin_cases a <;> exact ha

theorem MotionKept.runWriteFaultConfig (es : List (Nat × FaultSetting)) :
    MotionKept s (Machine.runWriteFaultConfig es u).1 :=
  k.runWrite _ _ (act := okAfter fun v => Machine.recompute (v.setTrip { v.trip with
    tree := es.foldl writeFaultEntry v.trip.tree })) (k.setTrip _).recompute

theorem MotionKept.runWriteMasks (es : List (Nat × List Bool)) : MotionKept s (Machine.runWriteMasks es u).1 :=
  k.runWrite _ _ (act := okAfter fun v => Machine.recompute (v.setTrip { v.trip with
    masks := lastRecord v.trip.masks es })) (k.setTrip _).recompute

theorem MotionKept.runWritePanel (es : List (Nat × PanelRecord)) :
    MotionKept s (Machine.runWritePanel es u).1 := by
  unfold Machine.runWritePanel
  exact k.runWrite _ _ (k.setScreen _)

theorem MotionKept.runWriteTap (es : List (Nat × Option TapFields)) :
    MotionKept s (Machine.runWriteTap es u).1 := by
  unfold Machine.runWriteTap
  exact k.runWrite _ _ (k.setSw _)

theorem MotionKept.runWriteWindow (es : List (Nat × WindowConfig)) :
    MotionKept s (Machine.runWriteWindow es u).1 := by
  unfold Machine.runWriteWindow
  exact k.runWrite _ _ (k.setImage _)

theorem MotionKept.runWriteTileMap (es : List (Nat × TileFields)) :
    MotionKept s (Machine.runWriteTileMap es u).1 := by
  unfold Machine.runWriteTileMap
  exact k.runWrite _ _ (k.setScreen _)

theorem MotionKept.runWriteBanner (es : List (Nat × List Byte)) :
    MotionKept s (Machine.runWriteBanner es u).1 := by
  unfold Machine.runWriteBanner
  exact k.runWrite _ _ (k.setScreen _)

theorem MotionKept.clearCounters (i : Nat) : MotionKept s (Machine.clearCounters i u) := by
  unfold Machine.clearCounters
  split
  · exact k.setPort _ _
  · exact k.setPort _ _
  all_goals exact k.same rfl

theorem MotionKept.runRead (t : TableId) (first count : Nat) (clear : Bool) :
    MotionKept s (Machine.runRead t first count clear u).1 := by
  unfold Machine.runRead checked
  split
  · exact k
  · dsimp only
    split
    · exact k.foldl (fun v (e : Nat × EntryData) => (MotionKept.refl v).clearCounters e.1) _
    · exact k

/-! ## RESET STATION -/

theorem MotionKept.resetSwitch : MotionKept s (Machine.resetSwitch u) :=
  ((k.setPort .a _).setPort .b _).setSw _

/-- The generator and the cycle context are those of the reset, and no axis is enabled (R66, R75, R88). -/
theorem MotionKept.resetMotion : MotionKept s (Machine.resetMotion u) := by
  have generator := k.setGen Generator.reset (fun _ => generatorInv_of_gen (s := State.reset) rfl reset_generatorInv)
    (fun _ _ _ => rfl) fun _ _ => rfl
  have context := generator.setCtx CycleCtx.reset fun _ _ => cycleInv_of_ctx (s := State.reset) rfl reset_cycleInv
  refine context.setAxes _ fun a ha => ?_
  rw [Four.get_map] at ha
  cases ha

theorem MotionKept.resetDrive : MotionKept s (Machine.resetDrive u) :=
  k.same (by simp [State.motion, Machine.resetDrive, Function.comp_def])

theorem MotionKept.resetScreen : MotionKept s (Machine.resetScreen u) := k.setScreen _

theorem MotionKept.resetControl : MotionKept s (Machine.resetControl u) := k.setStation _

theorem MotionKept.resetTrip : MotionKept s (Machine.resetTrip u) := k.setTrip _

theorem MotionKept.resetStation : MotionKept s (Machine.resetStation u) :=
  (k.resetSwitch.resetControl.resetMotion.resetDrive.setImage
    ImageUnit.reset).resetScreen.resetTrip.recompute.driveArbitrate

/-! ## Every management command -/

theorem MotionKept.sweepAddressed (via : Via) (cmd : MgmtCmd) (tag : BitVec 16) (ok : Bool) :
    MotionKept s (Machine.sweepAddressed via cmd tag ok u) := by
  simp only [Machine.sweepAddressed]
  split
  · exact k.stationCommand _ _ _ _ fun k => k
  · split
    · exact k
    · exact k.refuse _ _ _

theorem MotionKept.commandWrite (e : Envelope) (w : WriteSet) : MotionKept s (Machine.commandWrite e w u) := by
  cases w with
  | station es => exact k.stationCommand _ _ _ _ fun k => k.runWriteStation _ es
  | master es => exact k.stationCommand _ _ _ _ fun k => k.runWriteMaster es
  | camera es => exact k.stationCommand _ _ _ _ fun k => k.runWriteCamera es
  | axis es => exact k.stationCommand _ _ _ _ fun k => k.runWriteAxis es
  | faultConfig es => exact k.stationCommand _ _ _ _ fun k => k.runWriteFaultConfig es
  | masks es => exact k.stationCommand _ _ _ _ fun k => k.runWriteMasks es
  | panel es => exact k.stationCommand _ _ _ _ fun k => k.runWritePanel es
  | tap es => exact k.stationCommand _ _ _ _ fun k => k.runWriteTap es
  | window es => exact k.stationCommand _ _ _ _ fun k => k.runWriteWindow es
  | tileMap es => exact k.stationCommand _ _ _ _ fun k => k.runWriteTileMap es
  | banner es => exact k.stationCommand _ _ _ _ fun k => k.runWriteBanner es
  | other table count => exact k.stationCommand e _ _ true (run := fun v => (v, _)) fun k => k

theorem MotionKept.commandCode (e : Envelope) (cmd : MgmtCmd) : MotionKept s (Machine.commandCode e cmd u) := by
  cases cmd with
  | read t first count clear => exact k.stationCommand _ _ _ _ fun k => k.runRead t first count clear
  | write w => exact k.commandWrite e w
  | status => exact k.stationCommand _ _ _ _ fun k => k
  | clearFaults groups => exact k.stationCommand _ _ _ _ fun k => k.runClearFaults groups
  | clearRemote => exact k.stationCommand _ _ _ _ fun k => k.runClearRemote
  | trip level => exact k.stationCommand _ _ _ _ fun k => k.runTrip level
  | enableAxis axis => exact k.stationCommand _ _ _ _ fun k => k.onAxis axis k.runEnable
  | couple axis => exact k.stationCommand _ _ _ _ fun k => k.onAxis axis k.runCouple
  | decouple axis => exact k.stationCommand _ _ _ _ fun k => k.onAxis axis k.runDecouple
  | disableAxis axis => exact k.stationCommand _ _ _ _ fun k => k.onAxis axis k.runDisable
  | setPhase axis target => exact k.stationCommand _ _ _ _ fun k => k.onAxis axis (k.runSetPhase target)
  | resetCorrection axis => exact k.stationCommand _ _ _ _ fun k => k.onAxis axis k.runResetCorrection
  | setSpeed target => exact k.stationCommand _ _ _ _ fun k => k.runSetSpeed target
  | masterStop => exact k.stationCommand _ _ _ _ fun k => k.runMasterStop
  | enumerate first next => exact k.sweepAddressed _ _ _ _
  | collect => exact k.sweepAddressed _ _ _ _
  | resetStation => exact k.stationCommand _ _ _ _ fun k => k.resetStation
  | unknown code => exact k.refuse _ _ _

theorem MotionKept.takeCommand (via : Via) (b : MgmtBody) : MotionKept s (Machine.takeCommand via b u) := by
  unfold Machine.takeCommand
  split
  · exact k.commandCode _ _
  · exact k.refuse _ _ _
  · exact k.refuse _ _ _

end After

end Sys2Proof.Machine
end

