-- ==== Sys2Proof/Proofs/MasterAxisSteps.lean ====
section
/-! Every command keeps the conditions on the master axis, the cycle context and DRIVE_OFF: the events of the fibre, the
frames delivered, the sweeps, the frame port and the timers. -/

namespace Sys2Proof.Machine

section After
variable {s u : State} (k : MotionKept s u)
include k

/-! ## The receive sides -/

theorem MotionKept.blocks {t : State} (h : BlocksStay u t) : MotionKept s t := k.control h.control

theorem MotionKept.truncate (p : PortId) : MotionKept s (Machine.truncate u p) :=
  ((((k.setPort p _).setPort p _).setSw _).ring (abortCopyOn_ring _ p .a)).ring (abortCopyOn_ring _ p .b)

theorem MotionKept.arbitrate : MotionKept s (Machine.arbitrate u) := k.ring (arbitrate_ring u)

theorem MotionKept.reportRing (p : PortId) : MotionKept s (Machine.reportRing p u) :=
  (k.setCondition _ _).setCondition _ _

theorem MotionKept.updateRole : MotionKept s (Machine.updateRole u) := k.blocks (blocksStay_updateRole u)

theorem MotionKept.changeRx (p : PortId) (rx : RxState) (short : Bool) :
    MotionKept s (Machine.changeRx u p rx short) := by
  by_cases h : (u.port p).rx = .sync <;> by_cases hrx : rx = .sync
  · rw [hrx, changeRx_same short h]
    exact k
  · rw [changeRx_leave short h hrx, leaveSync_eq]
    have failed : MotionKept s (failSide u p rx) := k.setPort p _
    have cut : MotionKept s (cutFrame (failSide u p rx) p short) := by
      unfold cutFrame
      exact .ite _ (failed.truncate p) failed
    exact (cut.ring (abortTx_ring _ p)).updateRole.reportRing p
  · rw [hrx, changeRx_enter short h, enterSync_eq]
    exact ((k.setPort p _).updateRole (u := healSide u p)).reportRing p
  · rw [changeRx_outside short h hrx]
    exact k.setPort p _

theorem MotionKept.badSymbol (p : PortId) (pos : Nat) : MotionKept s (Machine.badSymbol u p pos) := by
  have counted : MotionKept s (symbolCounted u p pos) := k.setPort p _
  rw [badSymbol_eq]
  exact .ite _ (.ite _ (counted.changeRx p _ _) counted) k

theorem MotionKept.cutOpenFrame (p : PortId) : MotionKept s (Machine.cutOpenFrame u p) :=
  .ite _ (k.truncate p).arbitrate k

theorem MotionKept.cutSymbol (p : PortId) (by_ : CutBy) : MotionKept s (Machine.cutSymbol u p by_) := by
  cases by_ with
  | invalid pos => exact k.badSymbol p pos
  | brk => exact k.setPort p _
  | overlong => exact k.setPort p _
  | startDelimiter | idle | breakHeard => exact k

theorem MotionKept.beginFrame (p : PortId) (stamp : Nat) (h : Header) (b : Bool) :
    MotionKept s (Machine.beginFrame u p stamp h b) := by
  have reserved {v : State} (kv : MotionKept s v) : MotionKept s (reserve v p stamp h b).1 := by
    have queued {c : Prop} [Decidable c] (w : Switch) :
        MotionKept s (if c then (v.setSw w, true) else (v, false)).1 := by
      split
      · exact kv.setSw w
      · exact kv
    simp only [reserve]
    split
    · split
      · split
        · exact queued _
        · exact queued _
      · exact kv
    · exact queued _
    · exact kv
  simp only [Machine.beginFrame]
  exact (reserved (.ite _ (k.truncate p).arbitrate k)).setPort p _

theorem MotionKept.reach32 (p : PortId) : MotionKept s (Machine.reach32 u p) := by
  unfold Machine.reach32
  split
  · exact ((k.setPort p _).setSw _).arbitrate
  · exact k

/-! ## Delivery -/

theorem MotionKept.deliverPort (f : Frame) : MotionKept s (Machine.deliverPort u f) := k.queue (deliverPort_queue u f)

theorem MotionKept.answerPort (cmd : MgmtCmd) (tag : BitVec 16) (a : Answer) :
    MotionKept s (Machine.answerPort cmd tag a u) := k.queue (answerPort_queue cmd tag a u)

theorem MotionKept.settleDrop (q : PortId) : MotionKept s (Machine.settleDrop u q) := k.ring (settleDrop_ring u q)

theorem MotionKept.placeTransit (f : Frame) : MotionKept s (Machine.placeTransit u f) := k.ring (placeTransit_ring u f)

theorem MotionKept.settleForward (q : PortId) (f : Frame) : MotionKept s (Machine.settleForward u q f) := by
  unfold Machine.settleForward
  split
  · exact (k.setSw _).arbitrate
  · exact k.ring ((completeCopyOn_ring u q .a f).trans (completeCopyOn_ring _ q .b f))
  · exact .ite _ (.ite _ (k.setSw _).arbitrate (k.countSw _).reportCongestion) (k.placeTransit f)

theorem MotionKept.settleFrame (forward : Bool) (q : PortId) (f : Frame) :
    MotionKept s (Machine.settleFrame forward u q f) := .ite _ (k.settleForward q f) (k.settleDrop q)

theorem MotionKept.deliverCorrections (f : Frame) : MotionKept s (Machine.deliverCorrections u f) := by
  unfold Machine.deliverCorrections
  split
  · split
    · exact k.takeCorrections _
    · exact k
  · exact k

theorem MotionKept.deliverTrip (f : Frame) : MotionKept s (Machine.deliverTrip u f) := by
  unfold Machine.deliverTrip
  split
  · split
    · exact k.takeTrip _ _
    · exact k
  · exact k

theorem MotionKept.deliverCycle (f : Frame) : MotionKept s (Machine.deliverCycle u f) := by
  unfold Machine.deliverCycle
  split
  · split
    · exact k.takeCycle _ _ _ _
    · exact k
  · exact k

theorem MotionKept.deliverImage (f : Frame) : MotionKept s (Machine.deliverImage u f) := by
  unfold Machine.deliverImage
  split
  · exact k.same (motion_takeSegments _ _ _ u)
  · exact k.setScreen _

theorem MotionKept.deliverScreen (f : Frame) : MotionKept s (Machine.deliverScreen u f) := by
  unfold Machine.deliverScreen
  split
  · exact .ite _ (k.setScreen _) (k.setScreen _)
  · exact .ite _ k (k.setScreen _)

theorem MotionKept.deliverUnit (f : Frame) : MotionKept s (Machine.deliverUnit u f) := by
  unfold Machine.deliverUnit
  split
  · exact k.deliverTrip f
  · exact k.deliverCycle f
  · exact k.deliverImage f
  · exact k.deliverScreen f
  all_goals exact k

theorem MotionKept.tapFrame (deliver : Bool) (q : PortId) (f : Frame) :
    MotionKept s (Machine.tapFrame deliver q f u) := by
  unfold Machine.tapFrame
  split
  · exact k.settleForward q f
  · next t _ =>
    have delivered : MotionKept s (if deliver then
        (match t.target with | .unit => Machine.deliverUnit u f | .port => Machine.deliverPort u f) else u) := by
      refine .ite _ ?_ k
      split
      · exact k.deliverUnit f
      · exact k.deliverPort f
    split
    · exact k.settleDrop q
    · exact delivered.settleFrame _ q f

/-! ## Sweeps -/

theorem MotionKept.enumerateMove (stream len first next : Nat) (w : Sweep) :
    MotionKept s (Machine.enumerateMove stream len first next w u) := by
  have counted := k.queue (countTaken_queue u)
  simp only [Machine.enumerateMove]
  exact .ite _ (k.answerPort _ _ _) (.ite _ (counted.answerPort _ _ _)
    ((MotionKept.ite _ (counted.setAddress next) counted).insertLocal _ _ _ _ _ _))

theorem MotionKept.collectMove (stream len : Nat) (w : Sweep) (ds : List Digest) :
    MotionKept s (Machine.collectMove stream len w ds u) := by
  have counted := k.queue (countTaken_queue u)
  exact .ite _ (counted.answerPort _ _ _) (.ite _ (k.answerPort _ _ _) (counted.insertLocal _ _ _ _ _ _))

theorem MotionKept.enumeratePass (h : Header) (first next : Nat) (w : Sweep) (d : RespData) :
    MotionKept s (Machine.enumeratePass h first next w d u) := by
  have inPlace : MotionKept s (enumerateInPlace next w u).1 := by
    unfold enumerateInPlace
    split
    · split
      · exact k.setAddress _
      · split
        · exact k.setAddress _
        · exact k
    · exact k
  exact inPlace.placeTransit _

theorem MotionKept.collectPass (h : Header) (w : Sweep) (ds : List Digest) :
    MotionKept s (Machine.collectPass h w ds u) := k.placeTransit _

theorem MotionKept.sweepFrame (q : PortId) (f : Frame) (b : MgmtBody) :
    MotionKept s (Machine.sweepFrame q f b u) := by
  unfold Machine.sweepFrame
  split
  · exact (k.settleDrop q).enumeratePass _ _ _ _ _
  · exact .ite _ (k.settleForward q f) ((k.settleDrop q).collectPass _ _ _)
  · exact k.settleForward q f

theorem MotionKept.returnedSweep (f : Frame) : MotionKept s (Machine.returnedSweep f u) := by
  simp only [Machine.returnedSweep]
  refine .ite _ ?_ k
  split
  · exact k.deliverPort _
  · exact k.deliverPort _
  · exact k

/-! ## A frame at its arrival -/

theorem MotionKept.mgmtFrame (deliver : Bool) (q : PortId) (f : Frame) :
    MotionKept s (Machine.mgmtFrame deliver q f u) := by
  have delivered (via : Via) : MotionKept s (if deliver then deliverMgmt via f (mgmtOf f.body) u else u) := by
    refine .ite _ ?_ k
    unfold deliverMgmt
    split
    · exact k.deliverPort f
    · exact k.takeCommand _ _
    · exact k.takeCommand _ _
  exact .ite _ ((delivered _).settleDrop q) (.ite _ ((delivered _).settleForward q f)
    (.ite _ (k.sweepFrame q f _) (k.settleForward q f)))

theorem MotionKept.classFrame (deliver : Bool) (q : PortId) (f : Frame) :
    MotionKept s (Machine.classFrame deliver q f u) := by
  unfold Machine.classFrame
  split
  · exact (MotionKept.ite _ (k.deliverCorrections f) k).settleFrame _ q f
  · exact k.mgmtFrame deliver q f
  · exact .ite _ ((MotionKept.ite _ (k.deliverPort f) k).settleDrop q) (k.tapFrame deliver q f)
  all_goals exact k.tapFrame deliver q f

theorem MotionKept.clash (tag : BitVec 16) : MotionKept s (Machine.clash tag u) :=
  ((k.countSw _).setSw _).report .addressClash

theorem MotionKept.forwardInput (q : PortId) (f : Frame) : MotionKept s (Machine.forwardInput q f u) :=
  .ite _ ((k.countSw _).settleDrop q) (.ite _ (.ite _ (k.sweepFrame q _ _) (k.settleForward q _))
    (.ite _ (.ite _ (((k.countSw _).settleDrop q).returnedSweep _) ((k.clash _).classFrame false q _))
      (k.classFrame true q _)))

theorem MotionKept.closeReception (q : PortId) : MotionKept s (Machine.closeReception q u) := k.setPort q _

theorem MotionKept.goodArrival (q : PortId) (f : Frame) : MotionKept s (Machine.goodArrival q f u) := by
  have counted : MotionKept s (u.countPort q fun c => { c with framesIn := bump c.framesIn }) := k.setPort q _
  simp only [Machine.goodArrival]
  split
  · exact counted.forwardInput q f
  · exact .ite _ ((counted.countSw _).settleDrop q) (counted.ring (settleCounter_ring _ q _))
  · exact (counted.countSw _).settleDrop q

theorem MotionKept.endedArrival (q : PortId) (bytes : List Byte) (reading : Body) :
    MotionKept s (Machine.endedArrival q bytes reading u) := by
  refine MotionKept.closeReception ?_ q
  split
  · exact k.goodArrival q _
  · exact (k.setPort q _).settleDrop q
  · exact (k.setPort q _).settleDrop q

theorem MotionKept.abortedArrival (q : PortId) : MotionKept s (Machine.abortedArrival q u) :=
  ((k.setPort q _).settleDrop q).closeReception q

theorem MotionKept.truncatedArrival (q : PortId) (by_ : CutBy) :
    MotionKept s (Machine.truncatedArrival q by_ u) :=
  ((k.setPort q _).truncate q).arbitrate.cutSymbol q by_

/-! ## The frame port and the trip inputs -/

theorem MotionKept.moveHead : MotionKept s (Machine.moveHead u) := by
  have move (f : Frame) {v : State} (kv : MotionKept s v) : MotionKept s (moveFrame f v) := by
    simp only [moveFrame]
    refine .ite _ ((kv.takeCommand _ _).insertLocal _ _ _ _ _ _) (.ite _ ?_ (kv.insertLocal _ _ _ _ _ _))
    split
    · exact kv.enumerateMove _ _ _ _ _
    · exact kv.collectMove _ _ _ _
    · exact kv.answerPort _ _ _
  unfold Machine.moveHead
  split
  · exact .ite _ ((k.setStation _).setStation _) (.ite _ (move _ (k.setStation _)) k)
  · exact k

theorem MotionKept.sendFrame (f : Offered) : MotionKept s (Machine.sendFrame f u) := by
  have used : MotionKept s (setSendStatus (sendStatusOf u f) (setInUse u)) := (k.setStation _).setStation _
  exact .ite _ (.ite _ (used.takeCommand _ _) (used.setStation _)) (used.setStation _)

theorem MotionKept.takeFrame (begun : Nat) : MotionKept s (Machine.takeFrame begun u) := by
  unfold Machine.takeFrame
  split
  · exact .ite _ (k.setStation _) (k.setStation _)
  · exact k.setStation _

theorem MotionKept.followInput (n : Fin 8) : MotionKept s (Machine.followInput n u) :=
  (k.setTrip _).setCondition _ _

theorem MotionKept.changeInput (n : Fin 8) (active : Bool) : MotionKept s (Machine.changeInput n active u) := by
  have started (i : TripInput) : MotionKept s (u.setTripInput n i) := k.setTrip _
  exact .ite _ k (.ite _ (started _) (.ite _ ((started _).followInput n) (started _)))

end After

/-! ## Every command -/

theorem motionKept_of_next {s t u : State}
    (h : (Host.Outcome.next u : Host.Outcome State Fault Refusal) = .next t) (k : MotionKept s u) :
    MotionKept s t := Host.Outcome.next.inj h ▸ k

/-- An event of the fibre, and power-on, keep the conditions. -/
theorem exec_motion_fibre {c : Instr} {s t : State} (hc : movesLine c = true) (h : exec c s = .next t) :
    MotionKept s t := by
  have ticked (m : Moment) : MotionKept s (s.tick m) := motionKept_of_same rfl
  have powered (m : Moment) : MotionKept s (powerUp (s.tick m)) :=
    ⟨fun _ => reset_driveOffInv, fun _ => generatorInv_of_gen (s := State.reset) rfl reset_generatorInv,
      fun _ => cycleInv_of_ctx (s := State.reset) rfl reset_cycleInv⟩
  cases hl : lineEvent c with
  | some p =>
    obtain ⟨y, -, ⟨-, he⟩ | he⟩ := exec_lineEvent hl s <;> rw [he] at h <;> cases h
    · exact (ticked _).setPort p y
    · exact ((ticked _).setPort p y).changeRx p _ _
  | none =>
    cases c <;> first | (cases hc; done) | (cases hl; done) | skip
    case powerOn m => cases h; exact powered m
    case resetPin m => cases h; exact powered m
    case healHoldExpiry m p =>
      obtain he | ⟨-, -, he⟩ := exec_healHoldExpiry m p s <;> rw [he] at h <;> cases h
      · exact ticked m
      · exact (((ticked m).setPort p _).updateRole).reportRing p
    case frameStart m p stamp hdr b =>
      change execFrameStart m p stamp hdr b s = .next t at h
      unfold execFrameStart at h
      split at h
      · cases h
        exact .ite _ ((ticked m).beginFrame p stamp _ b) (ticked m)
      · cases h
    case reservationEligible m p => cases h; exact (ticked m).reach32 p
    case frameArrival m p closing =>
      rcases frameArrival_next h with rfl | ⟨-, ⟨bytes, reading, -, rfl⟩ | ⟨-, rfl⟩ | ⟨by_, -, rfl⟩⟩
      · exact ticked m
      · exact (ticked m).endedArrival p bytes reading
      · exact (ticked m).abortedArrival p
      · exact (ticked m).truncatedArrival p by_
    case invalidSymbol m p sym pos =>
      cases h
      split
      · exact ticked m
      · exact (ticked m).setPort p _
      · exact (ticked m).setPort p _
      · exact ((ticked m).cutOpenFrame p).badSymbol p pos
      · exact (ticked m).badSymbol p pos

/-- Every command keeps the conditions on the master axis, the cycle context and DRIVE_OFF. -/
theorem exec_motion {c : Instr} {s t : State} (h : exec c s = .next t) : MotionKept s t := by
  have ticked (m : Moment) : MotionKept s (s.tick m) := motionKept_of_same rfl
  cases hc : movesLine c with
  | true => exact exec_motion_fibre hc h
  | false =>
  cases hcmd : commandOf c with
  | some x =>
    rw [exec_commandOf hcmd] at h
    cases h
    exact (ticked _).commandCode _ _
  | none =>
    cases c <;> first | (cases hc; done) | (cases hcmd; done) | skip
    case exchangeCompletion m b =>
      change execExchangeCompletion m b s = .next t at h
      unfold execExchangeCompletion at h
      split at h
      · refine motionKept_of_next h ?_
        split
        · exact (ticked m).completeExchange _ b
        · exact ticked m
      · cases h
    all_goals refine motionKept_of_next h ?_
    case transmitCompletion m p =>
      split
      · have ended := (ticked m).setPort p { (s.tick m).port p with tx := none }
        exact .ite _ (ticked m) (MotionKept.ite _ ended (ended.setPort p _)).arbitrate
      · exact ticked m
    case sendQueueMove m => exact (ticked m).moveHead
    case cycleTimerExpiry m =>
      split
      · next x hx => exact .ite _ ((ticked m).advance x _ hx).issueCycle (ticked m)
      · exact ticked m
    case pendingFrameDue m => exact (ticked m).pendingDue _
    case missTimerExpiry m =>
      split
      · next due hd =>
        have stopped := (ticked m).setCtx { s.ctx with missTimer := none } fun _ hi =>
          ⟨hi.localTimer, fun h => (by cases h), hi.delta, hi.learnt, hi.source, hi.tracking, hi.coasting, hi.rem⟩
        refine .ite _ (.ite _ stopped (stopped.applyExtrapolated fun hi => ?_)) (ticked m)
        exact hi.missTimer (by rw [show s.ctx.missTimer = some due from hd]; rfl)
      · exact ticked m
    case localTimerExpiry m =>
      split
      · next due hd =>
        refine .ite _ (MotionKept.same ?_ (motion_stepAxes 0 _)).startBatch (ticked m)
        refine (ticked m).setCtx _ fun _ hi => ?_
        have lost := hi.localTimer.mp (by rw [hd]; rfl)
        exact ⟨⟨fun _ => lost, fun _ => rfl⟩, hi.missTimer, hi.delta, hi.learnt, hi.source, hi.tracking,
          hi.coasting, hi.rem⟩
      · exact ticked m
    case stopConfirmExpiry m =>
      split
      · exact .ite _ (MotionKept.report (u := (s.tick m).setAxes { s.axes.coast with stopTimer := none })
        ((ticked m).coast.same rfl) .stopUnconfirmed) (ticked m)
      · exact ticked m
    case readyDrop m a =>
      have dropped : MotionKept s { s.tick m with ready := m.ready.set a false } := motionKept_of_same rfl
      split
      · exact .ite _ (dropped.dropExchange _) dropped
      · exact dropped
    case triggerExpiry m =>
      split
      · exact .ite _ (.ite _ (((ticked m).setImage _).report .lineOverrun) ((ticked m).setImage _)) (ticked m)
      · exact ticked m
    case lineEnd m pixels =>
      split
      · exact .ite _ ((ticked m).endLine _ pixels) (ticked m)
      · exact ticked m
    case cameraTimeout m => exact .ite _ (ticked m).abandonLine (ticked m)
    case tripInputChange m n active => exact (ticked m).changeInput n active
    case filterTimerExpiry m n =>
      split
      · exact .ite _ ((ticked m).followInput n) (ticked m)
      · exact ticked m
    case refreshTimerExpiry m => exact .ite _ (((ticked m).setTrip _).sendTrip true) (ticked m)
    case remoteEntryStale m source =>
      split
      · exact .ite _ ((ticked m).setTrip _) (ticked m)
      · exact ticked m
    case tileWriteCompletion m => exact .ite _ ((ticked m).setScreen _) (ticked m)
    case repaintTimerExpiry m =>
      exact .ite _ (MotionKept.same ((ticked m).setScreen _) (motion_sendNotices _)) (ticked m)
    case shortTimerExpiry m =>
      split
      · exact .ite _ (((ticked m).setStation _).setCondition _ _) (ticked m)
      · exact ticked m
    case longTimerExpiry m =>
      split
      · exact .ite _ (((ticked m).setStation _).setCondition _ _) (ticked m)
      · exact ticked m
    case enumerate m at_ tag first next force overflow ok =>
      split
      · exact .ite _ ((ticked m).enumerateMove _ _ _ _ _) (ticked m)
      · exact (ticked m).enumeratePass _ _ _ _ _
      · exact (ticked m).deliverPort _
      · exact (ticked m).sweepAddressed _ _ _ _
    case collect m at_ tag count overflow ok ds =>
      split
      · exact .ite _ ((ticked m).setStation _) (.ite _ ((ticked m).collectMove _ _ _ _) (ticked m))
      · exact (ticked m).collectPass _ _ _
      · exact (ticked m).deliverPort _
      · exact (ticked m).sweepAddressed _ _ _ _
    case sendTransaction m begun f =>
      exact .ite _ (((ticked m).setStation _).setStation _) ((ticked m).sendFrame f)
    case takeTransaction m begun =>
      exact .ite _ ((ticked m).setStation _) (((ticked m).setStation _).takeFrame begun)

/-- A step is the front command with the queue's rest, which the conditions do not read. -/
theorem step_motion {s t : State} (h : step s = .next t) : MotionKept s t := by
  unfold step at h
  split at h
  · cases h
    exact .refl s
  · next c q _ =>
    have front : MotionKept s { s with pending := q } := motionKept_of_same rfl
    exact front.trans (exec_motion h)

/-! ## The table of R71 -/

/-- The master state of a speed, a target and a limit in force, state by state (R71). -/
theorem masterState_iff (v target : Nat) (limit : RampLimit) :
    (masterState v target limit = .stopped ↔ v = 0 ∧ target = 0) ∧
    (masterState v target limit = .stopping ↔ ¬ (v = 0 ∧ target = 0) ∧ limit = .trip) ∧
    (masterState v target limit = .running ↔ ¬ (v = 0 ∧ target = 0) ∧ limit ≠ .trip ∧ v = target) ∧
    (masterState v target limit = .ramping ↔ ¬ (v = 0 ∧ target = 0) ∧ limit ≠ .trip ∧ v ≠ target) := by
  unfold masterState
  by_cases rest : v = 0 ∧ target = 0
  · simp [rest]
  · by_cases trip : limit = .trip
    · simp [rest, trip]
    · rw [if_neg rest, if_neg trip]
      by_cases same : v = target
      · rw [if_pos same]
        exact ⟨⟨nofun, fun h => absurd h rest⟩, ⟨nofun, fun h => absurd h.2 trip⟩,
          ⟨fun _ => ⟨rest, trip, same⟩, fun _ => rfl⟩, ⟨nofun, fun h => absurd same h.2.2⟩⟩
      · rw [if_neg same]
        exact ⟨⟨nofun, fun h => absurd h rest⟩, ⟨nofun, fun h => absurd h.2 trip⟩,
          ⟨nofun, fun h => absurd h.2.2 same⟩, ⟨fun _ => ⟨rest, trip, same⟩, fun _ => rfl⟩⟩

end Sys2Proof.Machine

open Sys2Proof Sys2Proof.Machine

/-- Settles O5: every command keeps it, by `exec_motion`. -/
theorem stepKeepsDriveOffInv : Obligations.StepKeepsDriveOffInv :=
  fun _ _ hi h => (step_motion h).driveOff hi

/-- Settles O7: every command keeps it, by `exec_motion`, and the table is that of `masterState`. -/
theorem stepKeepsGeneratorInv : Obligations.StepKeepsGeneratorInv := by
  refine ⟨fun s t hi h => ?_, masterState_iff⟩
  have kept := (step_motion h).generator hi
  obtain ⟨-, -, -, -, state, -⟩ := id kept
  refine ⟨kept, ?_⟩
  rw [state]
  exact masterState_iff _ _ _

/-- Settles O8: every command keeps it, by `exec_motion`. -/
theorem stepKeepsCycleInv : Obligations.StepKeepsCycleInv :=
  fun _ _ hi h => (step_motion h).cycle hi
end

