-- ==== Sys2Proof/Proofs/MasterCommands.lean ====
section
/-! SET SPEED and MASTER STOP: the checks in their order, and the generator once a command is taken (R72, R73). -/

namespace Sys2Proof.Machine

/-- The course of a command of known outcome that is taken (R184). -/
theorem answered_of_run {e : Envelope} {cmd : MgmtCmd} {run : State → State × Answer} {s v : State} {ans : Answer}
    (ha : s.station.address ≠ 0) (hl : e.lengthOk = true) (h : run (countTaken s) = (v, ans)) :
    Answered e cmd ans v (stationCommand e cmd true true run s) := by
  have taken := taken_answered e cmd run s ha hl
  rwa [h] at taken

/-! ## The checks and the effects -/

section Checks
variable {u : State}

theorem runSetSpeed_notMaster (target : Nat) (h : u.strap = false) :
    runSetSpeed target u = (u, Answer.plain .notMaster) := if_pos h

theorem runSetSpeed_badValue {target : Nat} (hm : u.strap ≠ false) (h : 8388607 < target) :
    runSetSpeed target u = (u, Answer.plain .badValue) := (if_neg hm).trans (if_pos h)

theorem runSetSpeed_notReady {target : Nat} (hm : u.strap ≠ false) (hv : ¬ 8388607 < target)
    (h : u.gen.cfg.cycleRun = 0) : runSetSpeed target u = (u, Answer.plain .notReady) :=
  ((if_neg hm).trans (if_neg hv)).trans (if_pos h)

theorem runSetSpeed_tripped {target : Nat} (hm : u.strap ≠ false) (hv : ¬ 8388607 < target)
    (hr : u.gen.cfg.cycleRun ≠ 0) (h : 2 ≤ u.trip.levels.eff.rank) :
    runSetSpeed target u = (u, Answer.plain .tripped) :=
  (((if_neg hm).trans (if_neg hv)).trans (if_neg hr)).trans (if_pos h)

theorem runSetSpeed_taken {target : Nat} (hm : u.strap ≠ false) (hv : ¬ 8388607 < target)
    (hr : u.gen.cfg.cycleRun ≠ 0) (h : ¬ 2 ≤ u.trip.levels.eff.rank) :
    runSetSpeed target u = (u.setGen { u.gen with
      target := min target u.gen.cfg.vMax, limit := .accel,
      state := masterState u.gen.speed (min target u.gen.cfg.vMax) .accel },
      Answer.plain (if target ≤ u.gen.cfg.vMax then .ok else .clamped)) :=
  (((if_neg hm).trans (if_neg hv)).trans (if_neg hr)).trans (if_neg h)

theorem runMasterStop_notMaster (h : u.strap = false) : runMasterStop u = (u, Answer.plain .notMaster) := if_pos h

theorem runMasterStop_stopping (hm : u.strap ≠ false) (h : u.gen.state = .stopping) :
    runMasterStop u = (u, Answer.plain .ok) := (if_neg hm).trans (if_pos h)

theorem runMasterStop_taken (hm : u.strap ≠ false) (h : u.gen.state ≠ .stopping) :
    runMasterStop u = (u.setGen { u.gen with
      target := 0, limit := .stop, state := masterState u.gen.speed 0 .stop }, Answer.plain .ok) :=
  (if_neg hm).trans (if_neg h)

end Checks
end Sys2Proof.Machine

open Sys2Proof Sys2Proof.Machine

/-- Settles O27: the course of a command that was taken, with its effects check by check. -/
theorem masterCommands : Obligations.MasterCommands := by
  intro m e s ha hl
  refine ⟨fun target => ⟨_, rfl, ?_⟩, _, rfl, ?_⟩
  · dsimp only
    split
    · next strap => exact answered_of_run ha hl (runSetSpeed_notMaster target strap)
    · next strap =>
      split
      · next large => exact answered_of_run ha hl (runSetSpeed_badValue strap large)
      · next large =>
        split
        · next off => exact answered_of_run ha hl (runSetSpeed_notReady strap large off)
        · next off =>
          split
          · next level => exact answered_of_run ha hl (runSetSpeed_tripped strap large off level)
          · next level => exact answered_of_run ha hl (runSetSpeed_taken strap large off level)
  · dsimp only
    split
    · next strap => exact answered_of_run ha hl (runMasterStop_notMaster strap)
    · next strap =>
      split
      · next stopping => exact answered_of_run ha hl (runMasterStop_stopping strap stopping)
      · next moves => exact answered_of_run ha hl (runMasterStop_taken strap moves)
end

