-- ==== Sys2Proof/Proofs/LocalApplies.lean ====
section
/-! Local applies in LOST and the expiry of the stop-confirm timer (R81, R110); and two facts about batches and reports
that every apply needs: a batch of ready drives touches the Drive Link alone, and a report leaves each axis as it is or
takes it OFF. -/

namespace Sys2Proof.Machine

/-! ## A batch of ready drives -/

theorem driveArb_ready (n : Nat) {s : State} (h : ∀ a, s.ready.get a = true) :
    driveArb n s = s.setDrive (driveArb n s).drive := by
  have ended (u : State) : endBatch u = u.setDrive (endBatch u).drive := by
    unfold endBatch
    split
    · split <;> rfl
    · rfl
  induction n generalizing s with
  | zero => rfl
  | succ n ih =>
    simp only [driveArb]
    split
    · rfl
    · rw [ended s]
      generalize (endBatch s).drive = d
      split
      · next a _ =>
        rw [if_pos (show (s.setDrive d).ready.get a = true from h a)]
        rfl
      · split
        · rfl
        · next p _ =>
          split
          · exact ih (s := (s.setDrive d).setDrive { (s.setDrive d).drive with batch := some (p + 1) }) h
          · split
            · rfl
            · next low => exact absurd (h _) low

/-- With no batch left and every drive ready a new batch changes the Drive Link alone (R112, R113). -/
theorem startBatch_ready {s : State} (hb : s.drive.batch = none) (h : ∀ a, s.ready.get a = true) :
    startBatch s = s.setDrive (startBatch s).drive := by
  have nothing : abandonBatch s = s := by
    unfold abandonBatch
    rw [hb]
  unfold startBatch
  rw [nothing]
  exact driveArb_ready 9 (s := s.setDrive { s.drive with batch := some 0 }) h

/-! ## The axes at a report -/

/-- Every axis is as it was or has been taken OFF. -/
def AxesFall (s t : State) : Prop := ∀ a, t.axis a = s.axis a ∨ t.axis a = axisToOff (s.axis a)

theorem AxesFall.of_recs {s t : State} (h : t.axes.recs = s.axes.recs) : AxesFall s t :=
  fun a => .inl (congrArg (·.get a) h)

theorem axisToOff_twice (r : AxisRecord) : axisToOff (axisToOff r) = axisToOff r := by
  have off := axisToOff_enabled r
  generalize axisToOff r = x at off
  simp [axisToOff, off]

theorem AxesFall.trans {s t u : State} (h : AxesFall s t) (k : AxesFall t u) : AxesFall s u := by
  intro a
  rcases k a with hk | hk <;> rcases h a with ht | ht
  · exact .inl (hk.trans ht)
  · exact .inr (hk.trans ht)
  · exact .inr (hk.trans (by rw [ht]))
  · exact .inr (hk.trans (by rw [ht, axisToOff_twice]))

theorem sendNotices_control (s : State) : SameControl s (sendNotices s) := by
  have fold (l : List ScreenStream) (u : State) : SameControl u (l.foldl sendNotice u) := by
    induction l generalizing u with
    | nil => exact .refl u
    | cons x l ih =>
      refine SameControl.trans ?_ (ih _)
      unfold sendNotice
      split
      · exact .refl u
      · exact insertLocal_control u _ _ _ _ _ _
  unfold sendNotices
  split
  · exact .refl s
  · exact fold _ s

theorem screenLevel_axes (old new : Level) (s : State) : (screenLevel old new s).axes = s.axes := by
  unfold screenLevel
  split
  · rfl
  · split
    · rfl
    · split
      · exact (sendNotices_control _).axes
      · rfl

theorem axesFall_levelChange (old new : Level) (s : State) : AxesFall s (levelChange old new s) := by
  unfold levelChange
  split
  · exact .of_recs rfl
  · intro a
    rw [State.axis, screenLevel_axes]
    change (s.axes.level old new _).recs.get a = _ ∨ (s.axes.level old new _).recs.get a = _
    simp only [AxisTable.level]
    split
    · rw [AxisTable.off, settleStop_recs, Four.get_map]
      split
      · rw [startStop_recs]
        exact .inr rfl
      · exact .inr rfl
    · split
      · rw [startStop_recs]
        exact .inl rfl
      · exact .inl rfl

theorem axesFall_originateTrip (r : Bool) (s : State) : AxesFall s (originateTrip r s).1 := by
  unfold originateTrip queueTrip
  split
  · split
    · exact .of_recs (congrArg AxisTable.recs (arbitrate_ring _).control.axes)
    · exact .of_recs rfl
  · exact .of_recs rfl

theorem axesFall_recomputeOnce (s : State) : AxesFall s (recomputeOnce s).1 := by
  have level : AxesFall s (recomputed s) := axesFall_levelChange _ _ _
  rw [recomputeOnce_eq]
  split
  · exact level
  · exact level.trans (axesFall_originateTrip false _)

theorem axesFall_recompute (s : State) : AxesFall s (recompute s) := by
  have congestion (u : State) : AxesFall u (reportCongestion u) := by
    unfold reportCongestion
    split
    · exact .of_recs rfl
    · exact axesFall_recomputeOnce (u.setTrip (u.trip.latch .ringCongestion))
  unfold recompute afterQueue
  split
  · exact (axesFall_recomputeOnce s).trans (congestion _)
  · exact axesFall_recomputeOnce s

/-- A fault report leaves each axis as it is or takes it OFF (R97). -/
theorem axesFall_report (f : FaultId) (s : State) : AxesFall s (report f s) := by
  have off (a : Fin 4) (u : State) : AxesFall u (u.setAxes (u.axes.offOne a)) := by
    intro b
    rw [State.axis, State.setAxes_axes, AxisTable.offOne, settleStop_recs]
    by_cases hab : b = a
    · rw [hab, Four.get_set_same]
      exact .inr rfl
    · rw [Four.get_set_other _ _ _ _ hab]
      exact .inl rfl
  have fault (u : State) : AxesFall u (axisFault f u) := by
    unfold axisFault
    split
    · exact off _ u
    · exact off _ u
    · split
      · exact off _ u
      · exact .of_recs rfl
    · exact .of_recs rfl
  unfold report
  split
  · exact .of_recs rfl
  · exact (fault (s.setTrip (s.trip.latch f))).trans (axesFall_recompute _)

theorem AxesFall.not_coupled {s t : State} (h : AxesFall s t) {a : Fin 4} (ha : (s.axis a).state ≠ .coupled) :
    (t.axis a).state ≠ .coupled := by
  rcases h a with ht | ht
  · rwa [ht]
  · intro coupled
    have off := axisToOff_enabled (s.axis a)
    rw [← ht, coupled] at off
    cases off

theorem axisToCoast_not_coupled (r : AxisRecord) : (axisToCoast r).state ≠ .coupled := by
  unfold axisToCoast
  split
  · dsimp only
    split <;> decide
  · assumption

theorem coast_not_coupled (t : AxisTable) (a : Fin 4) : (t.coast.recs.get a).state ≠ .coupled := by
  rw [AxisTable.coast, settleStop_recs, Four.get_map]
  exact axisToCoast_not_coupled _

/-! ## The timers -/

/-- A local apply (R81). -/
def localApply (s : State) : State :=
  startBatch ((s.setCtx { s.ctx with localTimer := some (s.clock + s.ctx.period * 100) }).setAxes
    { s.axes with recs := s.axes.recs.map (axisStep 0) })

theorem exec_localTimer {m : Moment} {s : State} {due : Nat} (h : s.ctx.localTimer = some due) :
    exec (.localTimerExpiry m) s =
      .next (if due ≤ max s.clock m.time then localApply (s.tick m) else s.tick m) := by
  simp only [exec, execLocalTimerExpiry, State.tick_ctx, h]
  rfl

/-- What the expiry of the stop-confirm timer does before it is reported (R110). -/
def stopExpired (s : State) : State := s.setAxes { s.axes.coast with stopTimer := none }

theorem exec_stopConfirm {m : Moment} {s : State} {due : Nat} (h : s.axes.stopTimer = some due) :
    exec (.stopConfirmExpiry m) s = .next (if due ≤ max s.clock m.time then
      report .stopUnconfirmed (stopExpired (s.tick m)) else s.tick m) := by
  simp only [exec, execStopConfirmExpiry, State.tick_axes, h]
  rfl

theorem stopExpired_eq (s : State) : stopExpired s = s.setAxes { s.axes with
    recs := s.axes.recs.map fun r =>
      if r.state = .coupled then { r with state := if r.step = 0 then .held else .coastdown } else r,
    stopTimer := none } := by
  unfold stopExpired AxisTable.coast AxisTable.settleStop
  split <;> rfl

end Sys2Proof.Machine

open Sys2Proof Sys2Proof.Machine

/-- Settles O30: the two expiries, by their equations. -/
theorem localAndStopTimers : Obligations.LocalAndStopTimers := by
  refine ⟨fun m s due h => ⟨fun hn => ?_, fun hd => ?_⟩, fun m s due h => ⟨fun hn => ?_, fun hd whole => ?_⟩⟩
  · rw [exec_localTimer h, if_neg (Nat.not_le.mpr hn)]
  · refine ⟨localApply (s.tick m), by rw [exec_localTimer h, if_pos hd], rfl, (driveOnly_startBatch _).ctx,
      (driveOnly_startBatch _).image, fun ⟨batch, ready⟩ => ?_⟩
    have alone : localApply (s.tick m) = _ := startBatch_ready batch ready
    rw [alone]
    exact ⟨fun a => Four.get_map _ _ _, rfl, rfl, rfl⟩
  · rw [exec_stopConfirm h, if_neg (Nat.not_le.mpr hn)]
  · have level := report_level .stopUnconfirmed (stopExpired (s.tick m))
    refine ⟨_, by rw [exec_stopConfirm h, if_pos hd],
      report_isLatched (s := stopExpired (s.tick m)) whole.tree_whole _, fun a => (axesFall_report _ _).not_coupled (coast_not_coupled s.axes a),
      level.ctx, level.drive, level.image, fun latched => ?_⟩
    rw [report_latched _ (stopExpired (s.tick m)) latched, stopExpired_eq]
    rfl
end

