-- ==== Sys2Proof/Proofs/CycleSources.lean ====
section
/-! A C frame at the cycle context: by its source and its number it is foreign, stale, a resync or the frame that waits
next, and a late one is reported (R76 to R78). -/

namespace Sys2Proof.Machine

/-! ## A frame that is taken -/

/-- The context `v` and the counters `ctr` with the report of a late frame, whose own counter goes up (R77). -/
structure TakesCycle (late : Bool) (s : State) (v : CycleCtx) (ctr : MotionCounters) (t : State) : Prop where
  prompt : late = false → t = s.setMotion (v, ctr)
  ctx : late = true → t.ctx = v
  counters : late = true → t.axes.ctr = { ctr with lateCycle := bump ctr.lateCycle }
  latched : late = true → TreeWhole s.trip → t.trip.isLatched .cycleLate = true
  rest : late = true → t.drive = s.drive ∧ t.image = s.image ∧ t.trip.remote = s.trip.remote

theorem takesCycle_lateCycle (late : Bool) (s : State) (v : CycleCtx) (ctr : MotionCounters) :
    TakesCycle late s v ctr (lateCycle late (s.setMotion (v, ctr))) := by
  cases late with
  | false => exact ⟨fun _ => rfl, nofun, nofun, nofun, nofun⟩
  | true =>
    have quiet := notDelivered_report .cycleLate ((s.setMotion (v, ctr)).countMotion
      fun n => { n with lateCycle := bump n.lateCycle })
    exact ⟨nofun, fun _ => quiet.ctx, fun _ => quiet.motion,
      fun _ whole => report_isLatched (s := (s.setMotion (v, ctr)).countMotion _) whole _,
      fun _ => ⟨quiet.drive, quiet.image, quiet.remote⟩⟩

/-- The Motion Unit's counters with one stale frame more. -/
def MotionCounters.stale (n : MotionCounters) : MotionCounters := { n with staleCycle := bump n.staleCycle }

/-- The context in which `f` waits. -/
def CycleCtx.awaits (c : CycleCtx) (f : PendingCycle) : CycleCtx := { c with pending := some f }

/-- The context after a resync by `f` (R78). -/
def CycleCtx.resynced (c : CycleCtx) (f : PendingCycle) : CycleCtx :=
  { c with
    delta := some (f.pos - c.pos).toInt, pos := f.pos, speed := f.speed, period := f.period,
    lastMaster := f.state, rem := 0 }

theorem aheadOf_iff (x y : BitVec 16) : aheadOf x y = true ↔ 0 < (x - y).toInt := decide_eq_true_iff

theorem isLate_iff (age : Nat) (c : CycleBody) : isLate age c = true ↔ 100 * c.offset < 100 * (age / 100) :=
  decide_eq_true_iff

section Frame
variable (late : Bool) (f : PendingCycle) {s : State}

theorem pendCycle_first (h : s.ctx.pending = none) :
    TakesCycle late s (s.ctx.awaits f) s.axes.ctr (pendCycle late f s) := by
  rw [show pendCycle late f s = lateCycle late (s.setMotion (s.ctx.awaits f, s.axes.ctr)) by
    unfold pendCycle; rw [h]; rfl]
  exact takesCycle_lateCycle late s _ _

theorem pendCycle_ahead {p : PendingCycle} (h : s.ctx.pending = some p) (ha : 0 < (f.num - p.num).toInt) :
    TakesCycle late s (s.ctx.awaits f) s.axes.ctr.stale (pendCycle late f s) := by
  rw [show pendCycle late f s = lateCycle late (s.setMotion (s.ctx.awaits f, s.axes.ctr.stale)) by
    unfold pendCycle; rw [h]; exact if_pos ((aheadOf_iff _ _).mpr ha)]
  exact takesCycle_lateCycle late s _ _

theorem pendCycle_behind {p : PendingCycle} (h : s.ctx.pending = some p) (ha : ¬ 0 < (f.num - p.num).toInt) :
    pendCycle late f s = countStale s := by
  unfold pendCycle
  rw [h]
  exact if_neg (mt (aheadOf_iff _ _).mp ha)

theorem resync_takes : TakesCycle late s (s.ctx.resynced f) s.axes.ctr (resync late f s) :=
  takesCycle_lateCycle late s _ _

end Frame

/-! ## The classification -/

section Classes
variable (age : Nat) (c : CycleBody) {s : State}

theorem classifyCycle_base (h : s.ctx.state = .idle ∨ s.ctx.state = .lost) :
    classifyCycle age c s = pendCycle (isLate age c) (pendingOf s.clock age c) s := by
  unfold classifyCycle
  rcases h with h | h <;> rw [h]

/-- In TRACKING and COASTING the number decides (R78). -/
theorem classifyCycle_number (h : s.ctx.state = .tracking ∨ s.ctx.state = .coasting) :
    classifyCycle age c s =
      if c.num = s.ctx.lastCycle then
        if s.ctx.state = .coasting ∧ s.ctx.delta = none then resync (isLate age c) (pendingOf s.clock age c) s
        else countStale s
      else if aheadOf c.num s.ctx.lastCycle then pendCycle (isLate age c) (pendingOf s.clock age c) s
      else countStale s := by
  unfold classifyCycle
  rcases h with h | h <;> rw [h]

theorem not_ahead_self (x : BitVec 16) : ¬ 0 < (x - x).toInt := by simp

theorem classifyCycle_ahead (h : s.ctx.state = .tracking ∨ s.ctx.state = .coasting)
    (ha : 0 < (c.num - s.ctx.lastCycle).toInt) :
    classifyCycle age c s = pendCycle (isLate age c) (pendingOf s.clock age c) s := by
  have other : c.num ≠ s.ctx.lastCycle := fun same => not_ahead_self _ (same ▸ ha)
  rw [classifyCycle_number age c h, if_neg other, if_pos ((aheadOf_iff _ _).mpr ha)]

theorem classifyCycle_stale (h : s.ctx.state = .tracking ∨ s.ctx.state = .coasting)
    (ha : ¬ 0 < (c.num - s.ctx.lastCycle).toInt)
    (hr : ¬ (c.num = s.ctx.lastCycle ∧ s.ctx.state = .coasting ∧ s.ctx.delta = none)) :
    classifyCycle age c s = countStale s := by
  rw [classifyCycle_number age c h]
  by_cases same : c.num = s.ctx.lastCycle
  · rw [if_pos same, if_neg fun x => hr ⟨same, x⟩]
  · rw [if_neg same, if_neg (mt (aheadOf_iff _ _).mp ha)]

theorem classifyCycle_resync (hc : c.num = s.ctx.lastCycle) (hs : s.ctx.state = .coasting)
    (hd : s.ctx.delta = none) :
    classifyCycle age c s = resync (isLate age c) (pendingOf s.clock age c) s := by
  rw [classifyCycle_number age c (.inr hs), if_pos hc, if_pos ⟨hs, hd⟩]

end Classes

end Sys2Proof.Machine

open Sys2Proof Sys2Proof.Machine

/-- Settles O31: by the source, the state of the context and the number. -/
theorem cycleSources : Obligations.CycleSources := by
  intro src age tag c s x t late f counted takes stale ahead pends
  have hlate : late ↔ isLate age c = true := (isLate_iff age c).symm
  have hf : f = pendingOf s.clock age c := by
    simp only [f, pendingOf, isLate, decide_eq_true_eq]
    rfl
  have taken {u : State} {v : CycleCtx} {ctr : MotionCounters} (hu : u.setMotion (v, ctr) = s.setMotion (v, ctr))
      (hd : u.drive = s.drive ∧ u.image = s.image ∧ u.trip = s.trip)
      (h : TakesCycle (isLate age c) u v ctr t) : takes v ctr := by
    refine ⟨fun hn => ?_, fun hl whole => ?_⟩
    · rw [h.prompt (by simpa [hlate] using hn), hu]
      rfl
    · have hl := hlate.mp hl
      obtain ⟨drive, image, trip⟩ := hd
      obtain ⟨hdrive, himage, hremote⟩ := h.rest hl
      exact ⟨h.ctx hl, h.counters hl, h.latched hl (by rw [trip]; exact whole.tree_whole),
        hdrive.trans drive, himage.trans image, hremote.trans (by rw [trip])⟩
  have own {v : CycleCtx} {ctr : MotionCounters} (h : TakesCycle (isLate age c) s v ctr t) : takes v ctr :=
    taken rfl ⟨rfl, rfl, rfl⟩ h
  have classified (hn : x.learns = false) (hk : x.learnt = some (src, tag)) : t = classifyCycle age c s := by
    change takeCycle src tag age c s = _
    rw [takeCycle, if_neg (by rw [hn]; decide), if_pos hk]
  have waits (ht : t = pendCycle (isLate age c) (pendingOf s.clock age c) s) : pends := by
    refine ⟨fun h => ?_, fun p h => ⟨fun ha => ?_, fun ha => ?_⟩⟩
    · rw [hf]
      exact own (ht ▸ pendCycle_first _ _ h)
    · rw [hf]
      exact own (ht ▸ pendCycle_ahead _ _ h ha)
    · exact ht.trans (pendCycle_behind _ _ h ha)
  refine ⟨fun whole hn hk => ?_, learns_iff x, fun hl => ?_, fun hn hk => ⟨fun hs => ?_, fun hs => ⟨fun ha => ?_,
    fun ha hr => ?_, fun hc hs hd => ?_⟩⟩⟩
  · have foreign : t = report .cycleConflict
        (s.countMotion fun n => { n with foreignCycle := bump n.foreignCycle }) := takeCycle_foreign age c hn hk
    have quiet := notDelivered_report .cycleConflict
      (s.countMotion fun n => { n with foreignCycle := bump n.foreignCycle })
    rw [foreign]
    exact ⟨quiet.ctx, quiet.motion, report_isLatched (s := s.countMotion _) whole.tree_whole _, quiet.drive,
      quiet.image⟩
  · obtain ⟨state, pending⟩ := (learns_iff x).mp hl
    have learnt : t = pendCycle (isLate age c) (pendingOf s.clock age c)
        (s.setCtx { x with learnt := some (src, tag) }) := by
      change takeCycle src tag age c s = _
      rw [takeCycle, if_pos hl]
      exact classifyCycle_base age c (s := s.setCtx { x with learnt := some (src, tag) }) state
    rw [hf]
    exact taken (u := s.setCtx { x with learnt := some (src, tag) }) rfl ⟨rfl, rfl, rfl⟩
      (learnt ▸ pendCycle_first _ _ pending)
  · exact waits ((classified hn hk).trans (classifyCycle_base age c hs))
  · exact waits ((classified hn hk).trans (classifyCycle_ahead age c hs ha))
  · exact (classified hn hk).trans (classifyCycle_stale age c hs ha hr)
  · exact own ((classified hn hk).trans (classifyCycle_resync age c hc hs hd) ▸
      resync_takes (isLate age c) (pendingOf s.clock age c))
end

