-- ==== Sys2Proof/Proofs/MissedCycles.lean ====
section
/-! An apply as the axis steps, the batch, the base and the miss timer; what the batch's reports leave of the fault tree;
and the extrapolated apply a miss makes (R80 to R83). -/

namespace Sys2Proof.Machine

/-! ## The fault tree over a batch -/

/-- In a whole tree what was latched stays latched, and every condition but the Drive Link's stays as it was. -/
structure LatchesKept (x y : TripUnit) : Prop where
  whole : TreeWhole x → TreeWhole y
  latched : TreeWhole x → ∀ f, x.isLatched f = true → y.isLatched f = true
  present : TreeWhole x → ∀ f, (∀ a, f ≠ .driveLink a) → y.isPresent f = x.isPresent f

theorem LatchesKept.refl (x : TripUnit) : LatchesKept x x := ⟨id, fun _ _ => id, fun _ _ _ => rfl⟩

theorem LatchesKept.trans {x y z : TripUnit} (h : LatchesKept x y) (k : LatchesKept y z) : LatchesKept x z :=
  ⟨k.whole ∘ h.whole, fun w f hf => k.latched (h.whole w) f (h.latched w f hf),
    fun w f hf => (k.present (h.whole w) f hf).trans (h.present w f hf)⟩

theorem latchesKept_driveLink (a : Fin 4) (b : Bool) (s : State) :
    LatchesKept s.trip (setCondition (.driveLink a) b s).trip := by
  refine ⟨fun w => ?_, fun w => ?_, fun w f hf => ?_⟩ <;>
    obtain ⟨whole, -, -, others, kept⟩ := setCondition_set w (.driveLink a) b
  · exact whole
  · exact kept
  · exact others f (hf a)

theorem latchesKept_badOutcome (a : Fin 4) (o : DriveOutcome) (s : State) :
    LatchesKept s.trip (badOutcome a o s).trip :=
  latchesKept_driveLink a _ ((s.setDriveAxis a { s.driveAxis a with
    outcome := o, bad := min ((s.driveAxis a).bad + 1) 15 }).countDrive (countOutcome o))

theorem latchesKept_driveArb (n : Nat) (s : State) : LatchesKept s.trip (driveArb n s).trip := by
  have ended (u : State) : (endBatch u).trip = u.trip := by
    unfold endBatch
    split
    · split <;> rfl
    · rfl
  induction n generalizing s with
  | zero => exact .refl _
  | succ n ih =>
    simp only [driveArb]
    split
    · exact .refl _
    · rw [← ended s]
      generalize endBatch s = u
      split
      · split
        · exact .refl _
        · exact ih (endRelease _ u)
      · split
        · exact .refl _
        · next p _ =>
          have turn := ih (u.setDrive { u.drive with batch := some (p + 1) })
          split
          · exact turn
          · split
            · exact .refl _
            · exact (latchesKept_badOutcome _ _ (u.setDrive { u.drive with batch := some (p + 1) })).trans (ih _)

/-- A new batch unlatches nothing and moves no condition but the Drive Link's (R112, R119). -/
theorem latchesKept_startBatch (s : State) : LatchesKept s.trip (startBatch s).trip := by
  have fold (l : List (Fin 4)) (u : State) : LatchesKept u.trip (l.foldl
      (fun s a => if (s.axis a).state = .disabled then s else badOutcome a .skipped s) u).trip := by
    induction l generalizing u with
    | nil => exact .refl _
    | cons a l ih =>
      refine LatchesKept.trans ?_ (ih _)
      dsimp only
      split
      · exact .refl _
      · exact latchesKept_badOutcome a _ u
  have abandoned : LatchesKept s.trip (abandonBatch s).trip := by
    unfold abandonBatch
    split
    · exact .refl _
    · exact fold _ s
  exact abandoned.trans (latchesKept_driveArb 9 ((abandonBatch s).setDrive
    { (abandonBatch s).drive with batch := some 0 }))

/-! ## The steps of an apply -/

/-- The steps of an apply: the axis steps and the batch, then the base for the Image Unit (R82). -/
theorem applySteps_eq (take : Bool) (adv : Int) (s : State) :
    applySteps take adv s =
      (startBatch (stepAxes adv s)).setImage (s.image.takeBase take s.imageBase) := by
  have batch := driveOnly_startBatch (stepAxes adv s)
  have base : (startBatch (stepAxes adv s)).imageBase = s.imageBase := by
    unfold State.imageBase
    rw [batch.ctx, batch.clock]
    rfl
  rw [applySteps, handBase, base, batch.image]
  rfl

/-- The steps of an apply, and the miss timer started after them (R80, R82). -/
theorem startMiss_applySteps (take : Bool) (adv : Int) (s : State) :
    startMiss (applySteps take adv s) =
      ((startBatch (stepAxes adv s)).setImage (s.image.takeBase take s.imageBase)).setCtx
        (s.ctx.waiting s.clock) := by
  rw [startMiss_eq, applySteps_ctx, applySteps_clock, applySteps_eq]

/-- With no batch left and every drive ready, an apply steps every axis and changes no record beside. -/
theorem stepAxes_ready {adv : Int} {s : State} (hb : s.drive.batch = none) (h : ∀ a, s.ready.get a = true)
    (a : Fin 4) : (startBatch (stepAxes adv s)).axis a = axisStep adv (s.axis a) := by
  have alone := startBatch_ready (s := stepAxes adv s) hb h
  rw [alone]
  exact Four.get_map _ _ _

theorem jumps_iff (s : State) (diff nominal : Int) : s.jumps diff nominal = true ↔
    s.station.cfg.jumpLimit ≠ 0 ∧ s.station.cfg.jumpLimit * 256 < (diff - nominal).natAbs := by
  simp [State.jumps, jumped]

theorem reportJump_true (s : State) : reportJump true s = report .masterJump s := rfl

theorem reportJump_false (s : State) : reportJump false s = s := rfl

/-- What the report of a jump finds and leaves: the drives, the ready lines and the configuration. -/
theorem reportJump_drives (j : Bool) (s : State) :
    (reportJump j s).drive = s.drive ∧ (reportJump j s).ready = s.ready ∧ (reportJump j s).image = s.image ∧
    (reportJump j s).clock = s.clock ∧ (reportJump j s).axes.ctr = s.axes.ctr := by
  have level := reportJump_level j s
  exact ⟨level.drive, level.moment.ready, level.image, level.moment.clock, level.counters⟩

theorem setCtx_setCtx (s : State) (c d : CycleCtx) : (s.setCtx c).setCtx d = s.setCtx d := rfl

/-! ## The extrapolated apply -/

/-- The state an extrapolated apply begins its batch with, `r` being the state the report of a jump leaves. -/
def coastSteps (adv : Int) (c : CycleCtx) (r : State) : State :=
  startBatch ((r.setCtx c).setAxes { r.axes with
    recs := r.axes.recs.map (axisStep adv),
    ctr := { r.axes.ctr with missedCycle := bump r.axes.ctr.missedCycle } })

theorem coastSteps_trip (adv : Int) (c : CycleCtx) (r : State) :
    LatchesKept r.trip (coastSteps adv c r).trip := by
  unfold coastSteps
  generalize hu : (r.setCtx c).setAxes _ = u
  have same : u.trip = r.trip := by
    rw [← hu]
    rfl
  rw [← same]
  exact latchesKept_startBatch u

theorem coastSteps_ready (adv : Int) (c : CycleCtx) {r : State} (hb : r.drive.batch = none)
    (h : ∀ a, r.ready.get a = true) (a : Fin 4) : (coastSteps adv c r).axis a = axisStep adv (r.axis a) := by
  have alone : coastSteps adv c r = _ := startBatch_ready hb h
  rw [alone]
  exact Four.get_map _ _ _

/-- The base an extrapolated apply hands on. -/
def coastImage (s : State) : ImageUnit :=
  s.image.takeBase false
    { pos := s.ctx.coastPos, speed := s.ctx.speed, period := s.ctx.period, at_ := s.clock,
      repeats := s.ctx.coasted.repeats }

theorem coastApply_eq (s : State) :
    let jump := s.jumps s.ctx.coastDifference s.ctx.coastNominal
    coastApply s = ((coastSteps (if jump then s.ctx.coastNominal else s.ctx.coastDifference) s.ctx.coasted
      (reportJump jump s)).setImage (coastImage s)).setCtx (s.ctx.coasted.waiting s.clock) := by
  intro jump
  obtain ⟨-, -, image, clock, -⟩ := reportJump_drives jump s
  have apply := startMiss_applySteps false (if jump then s.ctx.coastNominal else s.ctx.coastDifference)
    (((reportJump jump s).countMotion fun n => { n with missedCycle := bump n.missedCycle }).setCtx s.ctx.coasted)
  refine apply.trans ?_
  simp only [State.imageBase, State.setCtx_ctx, State.setCtx_clock, State.countMotion_clock, State.setCtx_image,
    State.countMotion_image, image, clock]
  rfl

theorem coastApply_counters (s : State) :
    (coastApply s).axes.ctr = { s.axes.ctr with missedCycle := bump s.axes.ctr.missedCycle } := by
  obtain ⟨-, -, -, -, counters⟩ := reportJump_drives (s.jumps s.ctx.coastDifference s.ctx.coastNominal) s
  rw [coastApply_eq]
  refine (driveOnly_startBatch _).counters.trans ?_
  rw [← counters]
  rfl

theorem coastApply_clock (s : State) : (coastApply s).clock = s.clock := by
  rw [coastApply_eq]
  exact (driveOnly_startBatch _).clock.trans (reportJump_level _ s).moment.clock

theorem enterLost_counters (s : State) : (enterLost s).axes.ctr = s.axes.ctr := by
  rw [enterLost_eq]
  refine (settleStop_ctr _).trans ?_
  exact (setCondition_level .cycleLoss true (s.setCtx (s.ctx.gone s.clock))).counters

theorem enterLost_not_coupled (s : State) (a : Fin 4) : ((enterLost s).axis a).state ≠ .coupled := by
  rw [enterLost_eq]
  exact coast_not_coupled _ a

/-- A passage to LOST makes CYCLE_LOSS present and latched, and unlatches nothing (R81). -/
theorem enterLost_trip {s : State} (h : TreeWhole s.trip) :
    ConditionSet s.trip (enterLost s).trip .cycleLoss true := by
  rw [enterLost_eq]
  exact setCondition_set (s := s.setCtx (s.ctx.gone s.clock)) h .cycleLoss true

/-- What the report of a jump latches stays latched over the batch. -/
theorem coastApply_trip {s : State} (h : TreeWhole s.trip) : TreeWhole (coastApply s).trip ∧
    (s.jumps s.ctx.coastDifference s.ctx.coastNominal = true →
      (coastApply s).trip.isLatched .masterJump = true) := by
  have reported (j : Bool) : TreeWhole (reportJump j s).trip := by
    cases j with
    | false => exact h
    | true => exact (report_grows h .masterJump).whole
  rw [coastApply_eq]
  dsimp only [State.setCtx_trip, State.setImage_trip]
  generalize s.jumps s.ctx.coastDifference s.ctx.coastNominal = j
  have steps := coastSteps_trip (if j then s.ctx.coastNominal else s.ctx.coastDifference) s.ctx.coasted
    (reportJump j s)
  refine ⟨steps.whole (reported j), fun hj => steps.latched (reported j) _ ?_⟩
  rw [hj]
  exact report_isLatched h .masterJump

theorem exec_missTimer {m : Moment} {s : State} {due : Nat} (h : s.ctx.missTimer = some due) :
    exec (.missTimerExpiry m) s =
      .next (if due ≤ max s.clock m.time then
        let u := (s.tick m).setCtx { s.ctx with missTimer := none }
        if s.ctx.pending.any fun f => f.num == s.ctx.lastCycle + 1 then u else applyExtrapolated u
      else s.tick m) := by
  simp only [exec, execMissTimerExpiry, State.tick_ctx, h]
  rfl

end Sys2Proof.Machine

open Sys2Proof Sys2Proof.Machine

/-- Settles O29: the extrapolated apply by its equation, then its fields one by one. -/
theorem missedCycle : Obligations.MissedCycle := by
  intro m s due h now c
  refine ⟨fun hn => ?_, fun hd hf => ?_, fun hd hf => ?_⟩
  · rw [exec_missTimer h, if_neg (Nat.not_le.mpr hn)]
  · obtain ⟨f, pending, number⟩ := hf
    rw [exec_missTimer h, if_pos hd]
    dsimp only
    rw [if_pos]
    rw [show s.ctx.pending = some f from pending]
    simpa using number
  · intro way pos diff after lost image nominal jump s0
    have waits : (s.ctx.pending.any fun f => f.num == s.ctx.lastCycle + 1) = false := by
      cases pending : s.ctx.pending with
      | none => rfl
      | some f => simpa using hf f pending
    have run : exec (.missTimerExpiry m) s = .next (applyExtrapolated s0) := by
      rw [exec_missTimer h, if_pos hd]
      dsimp only
      rw [if_neg (by rw [waits]; decide)]
    have reached := applyExtrapolated_eq s0
    have goesLost (hl : s.station.cfg.missLimit ≤ c.misses + 1) :
        applyExtrapolated s0 = enterLost (coastApply s0) := reached.trans (if_pos hl)
    have coasts (hl : ¬ s.station.cfg.missLimit ≤ c.misses + 1) : applyExtrapolated s0 = coastApply s0 :=
      reached.trans (if_neg hl)
    have jumps : s0.jumps s0.ctx.coastDifference s0.ctx.coastNominal = true ↔ jump := jumps_iff s0 _ _
    have steps (r : State) (adv : Int)
        (hr : (¬ jump ∧ r = s0 ∧ adv = diff) ∨ (jump ∧ r = report .masterJump s0 ∧ adv = nominal)) :
        coastApply s0 = ((coastSteps adv s0.ctx.coasted r).setImage image).setCtx after := by
      have apply := coastApply_eq s0
      dsimp only at apply
      rcases hr with ⟨hn, hr, ha⟩ | ⟨hj, hr, ha⟩
      · rw [Bool.eq_false_iff.mpr (mt jumps.mp hn)] at apply
        rw [hr, ha]
        exact apply
      · rw [jumps.mpr hj] at apply
        rw [hr, ha]
        exact apply
    have ready (hr : DrivesReady s m) (r : State) (hd : r.drive = s.drive) (hm : r.ready = m.ready) (adv : Int)
        (a : Fin 4) : (coastSteps adv s0.ctx.coasted r).axis a = axisStep adv (r.axis a) :=
      coastSteps_ready adv _ (by rw [hd]; exact hr.1) (by rw [hm]; exact hr.2) a
    refine ⟨_, run, ?_, ?_, ?_, fun whole hj => ?_, fun r adv hr => ?_,
      fun drives hl => ⟨fun hn a => ?_, fun hj a => ?_⟩, fun hl => ⟨fun a => ?_, fun whole => ?_⟩⟩
    · have counted : (coastApply s0).axes.ctr.missedCycle = bump s.axes.ctr.missedCycle := by
        rw [coastApply_counters]
        rfl
      by_cases hl : s.station.cfg.missLimit ≤ c.misses + 1
      · rw [goesLost hl, enterLost_counters, counted]
      · rw [coasts hl, counted]
    · by_cases hl : s.station.cfg.missLimit ≤ c.misses + 1
      · rw [goesLost hl, if_pos hl, enterLost_ctx, coastApply_ctx, coastApply_clock]
        rfl
      · rw [coasts hl, if_neg hl, coastApply_ctx]
        rfl
    · have handed : (coastApply s0).image = image := by
        rw [coastApply_eq]
        rfl
      by_cases hl : s.station.cfg.missLimit ≤ c.misses + 1
      · rw [goesLost hl]
        exact (setCondition_level .cycleLoss true _).image.trans handed
      · rw [coasts hl, handed]
    · obtain ⟨tree, latched⟩ := coastApply_trip (s := s0) whole.tree_whole
      by_cases hl : s.station.cfg.missLimit ≤ c.misses + 1
      · rw [goesLost hl]
        exact (enterLost_trip tree).kept _ (latched (jumps.mpr hj))
      · rw [coasts hl]
        exact latched (jumps.mpr hj)
    · have apply := steps r adv hr
      intro x y
      by_cases hl : s.station.cfg.missLimit ≤ c.misses + 1
      · have gone : (s0.ctx.coasted.waiting s0.clock).gone s0.clock = lost := rfl
        rw [goesLost hl, if_pos hl, enterLost_eq, coastApply_ctx, coastApply_clock, apply, gone, setCtx_setCtx]
        rfl
      · rw [coasts hl, if_neg hl, apply]
        rfl
    · rw [coasts (Nat.not_le.mpr hl), steps s0 diff (.inl ⟨hn, rfl, rfl⟩)]
      exact ready drives s0 rfl rfl diff a
    · have level := report_level .masterJump s0
      rw [coasts (Nat.not_le.mpr hl), steps _ nominal (.inr ⟨hj, rfl, rfl⟩)]
      exact ready drives _ level.drive level.moment.ready nominal a
    · rw [goesLost hl]
      exact enterLost_not_coupled _ a
    · obtain ⟨tree, -⟩ := coastApply_trip (s := s0) whole.tree_whole
      have lostNow := enterLost_trip tree
      rw [goesLost hl]
      exact ⟨lostNow.present, lostNow.latched rfl⟩
end

