-- ==== Sys2Proof/Proofs/PendingFrames.lean ====
section
/-! The frame that waits at its apply time: an exact apply, extrapolated applies for the cycles before it, or the base
(R79 to R83). -/

namespace Sys2Proof.Machine

/-! ## The exact apply -/

/-- The batch of an exact apply or of a base take in the context `c`, `r` being the state it begins from. -/
def applyBatch (adv : Int) (c : CycleCtx) (r : State) : State :=
  startBatch ((r.setCtx c).setAxes { r.axes with recs := r.axes.recs.map (axisStep adv) })

/-- The base an apply that leaves the context `c` hands on at `now`. -/
def CycleCtx.base (now : Nat) (c : CycleCtx) : ImageBase :=
  { pos := c.pos, speed := c.speed, period := c.period, at_ := now, repeats := c.repeats }

theorem applyBatch_ready (adv : Int) (c : CycleCtx) {r : State} (hb : r.drive.batch = none)
    (h : ∀ a, r.ready.get a = true) (a : Fin 4) : (applyBatch adv c r).axis a = axisStep adv (r.axis a) := by
  have alone : applyBatch adv c r = _ := startBatch_ready hb h
  rw [alone]
  exact Four.get_map _ _ _

theorem applyBatch_trip (adv : Int) (c : CycleCtx) (r : State) : LatchesKept r.trip (applyBatch adv c r).trip := by
  unfold applyBatch
  generalize hu : (r.setCtx c).setAxes _ = u
  have same : u.trip = r.trip := by
    rw [← hu]
    rfl
  rw [← same]
  exact latchesKept_startBatch u

theorem applyBatch_counters (adv : Int) (c : CycleCtx) (r : State) :
    (applyBatch adv c r).axes.ctr = r.axes.ctr :=
  (driveOnly_startBatch ((r.setCtx c).setAxes { r.axes with recs := r.axes.recs.map (axisStep adv) })).counters

theorem applyExact_steps (f : PendingCycle) (s : State) :
    let jump := s.jumps (exactDifference s.ctx f) s.ctx.nominal
    applyExact f s = (confirmStop f.state ((applyBatch (if jump then s.ctx.nominal else exactDifference s.ctx f)
      (s.ctx.exact f) (reportJump jump s)).setImage
        (s.image.takeBase false ((s.ctx.exact f).base s.clock)))).setCtx ((s.ctx.exact f).waiting s.clock) := by
  intro jump
  obtain ⟨-, -, image, clock, -⟩ := reportJump_drives jump s
  rw [applyExact_eq, startMiss_eq, confirmStop_ctx, confirmStop_clock, applySteps_ctx, applySteps_clock, applySteps_eq]
  simp only [State.imageBase, State.setCtx_ctx, State.setCtx_clock, State.setCtx_image]
  rw [image, clock]
  rfl

theorem applyExact_counters (f : PendingCycle) (s : State) : (applyExact f s).axes.ctr = s.axes.ctr := by
  obtain ⟨-, -, -, -, counters⟩ := reportJump_drives (s.jumps (exactDifference s.ctx f) s.ctx.nominal) s
  have kept (x : State) : (confirmStop f.state x).axes.ctr = x.axes.ctr := by
    rw [confirmStop_rest]
    split <;> rfl
  rw [applyExact_steps, State.setCtx_axes, kept, State.setImage_axes, applyBatch_counters]
  exact counters

/-- What an exact apply leaves of its batch: all but the stop-confirm timer, the base and the context. -/
theorem confirmStop_batch (st : MasterState) (x : State) (i : ImageUnit) (c : CycleCtx) :
    let t := (confirmStop st (x.setImage i)).setCtx c
    t.drive = x.drive ∧ t.axes.recs = x.axes.recs ∧ t.axes.ctr = x.axes.ctr ∧ t.gen = x.gen ∧ t.trip = x.trip ∧
    t.screen = x.screen ∧ t.sw = x.sw ∧ t.station = x.station := by
  cases st <;> exact ⟨rfl, rfl, rfl, rfl, rfl, rfl, rfl, rfl⟩

theorem confirmStop_trip (st : MasterState) (s : State) : (confirmStop st s).trip = s.trip := by
  cases st <;> rfl

theorem applyExact_image (f : PendingCycle) (s : State) :
    (applyExact f s).image = s.image.takeBase false ((s.ctx.exact f).base s.clock) := by
  have kept (x : State) : (confirmStop f.state x).image = x.image := by
    rw [confirmStop_rest]
    rfl
  rw [applyExact_steps, State.setCtx_image, kept, State.setImage_image]

theorem applyExact_stopTimer {f : PendingCycle} (h : f.state = .stopping ∨ f.state = .stopped) (s : State) :
    (applyExact f s).axes.stopTimer = none := by
  rw [applyExact_steps, State.setCtx_axes, confirmStop_rest, if_pos h]
  rfl

/-! ## The base -/

theorem baseTake_steps (f : PendingCycle) (s : State) :
    baseTake f s = ((applyBatch 0 (s.ctx.based f) (setCondition .cycleLoss false s)).setImage
      (s.image.takeBase true ((s.ctx.based f).base s.clock))).setCtx ((s.ctx.based f).waiting s.clock) := by
  rw [baseTake_eq]
  exact startMiss_applySteps true 0 _

/-! ## Cycles before the frame -/

theorem pendingDue_early {n : Nat} {s : State} {f : PendingCycle} (hf : s.ctx.pending = some f)
    (h : s.clock < f.due) : pendingDue (n + 1) s = s := by
  rw [pendingDue, hf]
  exact if_pos h

theorem pendingDue_base {n : Nat} {s : State} {f : PendingCycle} (hf : s.ctx.pending = some f)
    (h : f.due ≤ s.clock) (hs : s.ctx.state = .idle ∨ s.ctx.state = .lost) :
    pendingDue (n + 1) s = baseTake f s := by
  rw [pendingDue, hf]
  dsimp only
  rw [if_neg (Nat.not_lt.mpr h)]
  rcases hs with hs | hs <;> rw [hs]

theorem pendingDue_following {n : Nat} {s : State} {f : PendingCycle} (hf : s.ctx.pending = some f)
    (h : f.due ≤ s.clock) (hs : s.ctx.state = .tracking ∨ s.ctx.state = .coasting) :
    pendingDue (n + 1) s =
      if f.num = s.ctx.lastCycle + 1 then applyExact f s else pendingDue n (applyExtrapolated s) := by
  rw [pendingDue, hf]
  dsimp only
  rw [if_neg (Nat.not_lt.mpr h)]
  rcases hs with hs | hs <;> rw [hs]

theorem pendingDue_none {s : State} (h : s.ctx.pending = none) (n : Nat) : pendingDue n s = s := by
  cases n with
  | zero => rfl
  | succ n => rw [pendingDue, h]

/-- The frame that waits, its apply time come, `n` cycles ahead of the last cycle applied. -/
structure Ahead (f : PendingCycle) (n : Nat) (s : State) : Prop where
  waits : s.ctx.pending = some f
  due : f.due ≤ s.clock
  state : s.ctx.state = .tracking ∨ s.ctx.state = .coasting
  distance : (f.num - s.ctx.lastCycle).toNat = n

theorem Ahead.next_iff {f : PendingCycle} {n : Nat} {s : State} (h : Ahead f n s) :
    f.num = s.ctx.lastCycle + 1 ↔ n = 1 := by
  rw [← h.distance]
  constructor
  · intro he
    rw [he]
    simp
  · intro he
    bv_omega

/-- An extrapolated apply below the miss limit brings the frame one cycle nearer. -/
theorem Ahead.coast {f : PendingCycle} {n : Nat} {s : State} (h : Ahead f n s) (hn : 2 ≤ n) :
    Ahead f (n - 1) (coastApply s) := by
  obtain ⟨waits, due, -, distance⟩ := h
  have ctx := coastApply_ctx s
  refine ⟨by rw [ctx]; exact waits, by rw [coastApply_clock]; exact due, .inr (by rw [ctx]; rfl), ?_⟩
  rw [ctx]
  change (f.num - (s.ctx.lastCycle + 1)).toNat = n - 1
  bv_omega

theorem applyExtrapolated_below {s : State} (h : s.ctx.misses + 1 < s.station.cfg.missLimit) :
    applyExtrapolated s = coastApply s := by
  rw [applyExtrapolated_eq, if_neg (Nat.not_le.mpr h)]

theorem applyExtrapolated_limit {s : State} (h : s.station.cfg.missLimit ≤ s.ctx.misses + 1) :
    applyExtrapolated s = enterLost (coastApply s) := by
  rw [applyExtrapolated_eq, if_pos h]

theorem coastApply_misses (s : State) : (coastApply s).ctx.misses = s.ctx.misses + 1 := by
  rw [coastApply_ctx]
  rfl

theorem bumpBy_bump (n k : Nat) : bumpBy (bump n) k = bumpBy n (k + 1) := by
  unfold bumpBy bump
  generalize Config.counterMax = c
  omega

theorem bumpBy_zero_bump (n : Nat) : bumpBy (bump n) 0 = bump n := bumpBy_bump n 0

/-- Within the miss limit the extrapolated applies of the cycles before it, each counted, lead to the exact apply of the
frame (R79). -/
theorem pendingDue_reaches (k : Nat) {f : PendingCycle} {n : Nat} {s : State} (h : Ahead f n s) (hn : 1 ≤ n)
    (hm : s.ctx.misses + n ≤ s.station.cfg.missLimit) (hk : n ≤ k) :
    ∃ u : State, pendingDue k s = applyExact f u ∧ u.axes.ctr.missedCycle =
      if n = 1 then s.axes.ctr.missedCycle else bumpBy s.axes.ctr.missedCycle (n - 1) := by
  induction k generalizing n s with
  | zero => omega
  | succ k ih =>
    rw [pendingDue_following h.waits h.due h.state]
    by_cases one : n = 1
    · exact ⟨s, by rw [if_pos (h.next_iff.mpr one)], by rw [if_pos one]⟩
    · rw [if_neg (mt h.next_iff.mp one), applyExtrapolated_below (by omega), if_neg one]
      obtain ⟨u, reach, missed⟩ := ih (h.coast (by omega)) (by omega)
        (by rw [coastApply_misses, coastApply_cfg]; omega) (by omega)
      refine ⟨u, reach, missed.trans ?_⟩
      rw [coastApply_counters]
      obtain ⟨k, rfl⟩ : ∃ k, n = k + 2 := ⟨n - 2, by omega⟩
      rw [show k + 2 - 1 = k + 1 from rfl, ← bumpBy_bump]
      split
      · next last =>
        obtain rfl : k = 0 := by omega
        exact (bumpBy_zero_bump _).symm
      · rfl

/-- Beyond the miss limit they lead to LOST (R79, R81). -/
theorem pendingDue_lost (k : Nat) {f : PendingCycle} {n : Nat} {s : State} (h : Ahead f n s) (hn : 2 ≤ n)
    (hm : s.station.cfg.missLimit < s.ctx.misses + n) (hk : s.station.cfg.missLimit + 1 ≤ k + s.ctx.misses)
    (h1 : 1 ≤ k) : ∃ u : State, pendingDue k s = enterLost u := by
  induction k generalizing n s with
  | zero => omega
  | succ k ih =>
    rw [pendingDue_following h.waits h.due h.state, if_neg (mt h.next_iff.mp (by omega))]
    by_cases limit : s.station.cfg.missLimit ≤ s.ctx.misses + 1
    · rw [applyExtrapolated_limit limit, pendingDue_none (by rw [enterLost_ctx]; rfl)]
      exact ⟨_, rfl⟩
    · rw [applyExtrapolated_below (by omega)]
      exact ih (h.coast hn) (by omega) (by rw [coastApply_misses, coastApply_cfg]; omega)
        (by rw [coastApply_misses, coastApply_cfg]; omega) (by omega)

end Sys2Proof.Machine

open Sys2Proof Sys2Proof.Machine

/-- Settles O28: by the time, the state of the context and the distance of the frame. -/
theorem pendingFrameApplied : Obligations.PendingFrameApplied := by
  intro m s f pending now c
  have run : exec (.pendingFrameDue m) s = .next (pendingDue (s.station.cfg.missLimit + 1) (s.tick m)) := rfl
  refine ⟨fun hd => ?_, fun hd hs hn => ?_, fun hd hs hn => ?_, fun hd hs => ?_⟩
  · rw [run, pendingDue_early (s := s.tick m) pending hd]
  · intro diff nominal jump
    have jumps : (s.tick m).jumps (exactDifference c f) c.nominal = true ↔ jump := jumps_iff (s.tick m) _ _
    have apply := applyExact_steps f (s.tick m)
    have steps (r : State) (adv : Int) (hr : (¬ jump ∧ r = s.tick m ∧ adv = diff) ∨
        (jump ∧ r = report .masterJump (s.tick m) ∧ adv = nominal)) :
        applyExact f (s.tick m) = (confirmStop f.state ((applyBatch adv (c.exact f) r).setImage
          (s.image.takeBase false ((c.exact f).base now)))).setCtx ((c.exact f).waiting now) := by
      refine apply.trans ?_
      rcases hr with ⟨hj, rfl, rfl⟩ | ⟨hj, rfl, rfl⟩
      · rw [show (s.tick m).jumps (exactDifference (s.tick m).ctx f) (s.tick m).ctx.nominal = false from
          Bool.eq_false_iff.mpr (mt jumps.mp hj)]
        rfl
      · rw [show (s.tick m).jumps (exactDifference (s.tick m).ctx f) (s.tick m).ctx.nominal = true from
          jumps.mpr hj]
        rfl
    have ctx := applyExact_ctx f (s.tick m)
    have before : { (applyExact f (s.tick m)).ctx with missTimer := c.missTimer } = c.exact f := by
      rw [ctx]
      rfl
    refine ⟨applyExact f (s.tick m), ?_, ctx, ?_, fun hst => ?_, fun whole hj => ?_, fun r adv hr => ?_,
      fun drives => ⟨fun hj a => ?_, fun hj a => ?_⟩⟩
    · rw [run, pendingDue_following (s := s.tick m) pending hd hs]
      exact congrArg _ (if_pos hn)
    · rw [applyExact_image, ctx]
      rfl
    · exact applyExact_stopTimer hst _
    · rw [steps _ _ (.inr ⟨hj, rfl, rfl⟩)]
      have batch := applyBatch_trip nominal (c.exact f) (report .masterJump (s.tick m))
      have latched := report_isLatched (s := s.tick m) whole.tree_whole .masterJump
      have kept := batch.latched (report_grows (s := s.tick m) whole.tree_whole .masterJump).whole _ latched
      rw [State.setCtx_trip, confirmStop_trip, State.setImage_trip]
      exact kept
    · intro x
      have batch : x = applyBatch adv (c.exact f) r := by
        rw [← before]
        rfl
      rw [steps r adv hr, batch]
      exact confirmStop_batch _ _ _ _
    · have recs := (confirmStop_batch f.state (applyBatch diff (c.exact f) (s.tick m))
        (s.image.takeBase false ((c.exact f).base now)) ((c.exact f).waiting now)).2.1
      rw [← steps (s.tick m) diff (.inl ⟨hj, rfl, rfl⟩)] at recs
      rw [State.axis, recs]
      exact applyBatch_ready diff (c.exact f) (r := s.tick m) drives.1 drives.2 a
    · have level := report_level .masterJump (s.tick m)
      have recs := (confirmStop_batch f.state (applyBatch nominal (c.exact f) (report .masterJump (s.tick m)))
        (s.image.takeBase false ((c.exact f).base now)) ((c.exact f).waiting now)).2.1
      rw [← steps _ nominal (.inr ⟨hj, rfl, rfl⟩)] at recs
      rw [State.axis, recs]
      exact applyBatch_ready nominal (c.exact f) (by rw [level.drive]; exact drives.1)
        (by rw [level.moment.ready]; exact drives.2) a
  · intro n
    have ahead : Ahead f n (s.tick m) := ⟨pending, hd, hs, rfl⟩
    rw [run]
    by_cases hm : c.misses + n ≤ s.station.cfg.missLimit
    · obtain ⟨u, reach, missed⟩ := pendingDue_reaches (s.station.cfg.missLimit + 1) ahead (by omega) hm (by omega)
      have ctx := applyExact_ctx f u
      rw [reach]
      refine ⟨_, rfl, by rw [ctx]; rfl, fun _ => ?_, fun hl => absurd hm (Nat.not_le.mpr hl)⟩
      rw [ctx, applyExact_counters, missed, if_neg (by omega)]
      exact ⟨rfl, rfl, rfl, rfl, rfl, rfl, rfl⟩
    · obtain ⟨u, lost⟩ := pendingDue_lost (s.station.cfg.missLimit + 1) ahead hn (Nat.not_le.mp hm)
        (Nat.le_add_right _ _) (Nat.succ_pos _)
      rw [lost]
      refine ⟨_, rfl, by rw [enterLost_ctx]; rfl, fun hl => absurd hl hm, fun _ => ?_⟩
      rw [enterLost_ctx]
      exact ⟨rfl, nofun, rfl⟩
  · intro after image found x
    have apply : baseTake f (s.tick m) = (x.setImage image).setCtx after := baseTake_steps f (s.tick m)
    have batch := applyBatch_trip 0 (c.based f) found
    refine ⟨baseTake f (s.tick m), ?_, apply, baseTake_ctx f (s.tick m), ?_, fun whole => ?_, fun drives a => ?_⟩
    · rw [run, pendingDue_base (s := s.tick m) pending hd hs]
    · rw [apply]
      rfl
    · have set := setCondition_set (s := s.tick m) whole.tree_whole .cycleLoss false
      rw [apply, State.setCtx_trip, State.setImage_trip]
      exact (batch.present set.whole .cycleLoss nofun).trans set.present
    · rw [State.axis, apply, State.setCtx_axes, State.setImage_axes]
      exact applyBatch_ready 0 (c.based f) (r := found) drives.1 drives.2 a
end

