-- ==== Sys2Proof/Proofs/LevelChanges.lean ====
section
/-! A recomputation of the levels written out: what a change of the effective level makes of the generator, of the axis
table and of the Screen Unit, and the CHANGE frame of a change of the published level (R74, R97, R108, R157, R161,
R177). -/

namespace Sys2Proof.Machine

/-! ## The Motion Unit -/

theorem rank_eq_three {l : Level} : l.rank = 3 ↔ l = .driveOff := by cases l <;> decide

/-- The generator after a change of the level (R74). -/
theorem generator_level_eq (old new : Level) (g : Generator) : g.level old new =
    if new.rank ≤ old.rank ∨ new.rank < 2 then g
    else if new = .driveOff then { g with speed := 0, target := 0, state := masterState 0 0 g.limit }
    else { g with
      target := 0, limit := if 0 < g.speed then .trip else g.limit,
      state := masterState g.speed 0 (if 0 < g.speed then .trip else g.limit) } := by
  unfold Generator.level
  by_cases fall : new.rank ≤ old.rank
  · rw [if_pos fall, if_pos (.inl fall)]
  · rw [if_neg fall]
    cases new with
    | clear | notice => exact (if_pos (.inr (by decide))).symm
    | rampStop | driveOff => exact (if_neg (not_or.mpr ⟨fall, by decide⟩)).symm

theorem settleStop_of_none {t : AxisTable} (h : t.anyCoupled = false) : t.settleStop = { t with stopTimer := none } := by
  unfold AxisTable.settleStop
  rw [h]
  rfl

theorem axisToOff_not_coupled (r : AxisRecord) : (axisToOff r).state ≠ .coupled := by
  intro coupled
  have off := axisToOff_enabled r
  rw [coupled] at off
  cases off

/-- All axes OFF: no axis is COUPLED, so the stop-confirm timer stands (R97, R109). -/
theorem off_eq (t : AxisTable) : t.off = { t with recs := t.recs.map axisToOff, stopTimer := none } := by
  refine settleStop_of_none ?_
  simp [AxisTable.anyCoupled, Four.toList, Four.map, axisToOff_not_coupled]

/-- The axis table after a change of the level (R97, R108). -/
theorem axes_level_eq (old new : Level) (due : Nat) (t : AxisTable) : t.level old new due =
    if old.rank < 3 ∧ new = .driveOff then { t with recs := t.recs.map axisToOff, stopTimer := none }
    else if old.rank < 2 ∧ 2 ≤ new.rank ∧ t.anyCoupled = true ∧ t.stopTimer = none then
      { t with stopTimer := some due }
    else t := by
  simp only [AxisTable.level, rank_eq_three]
  by_cases rises : old.rank < 2 ∧ 2 ≤ new.rank
  · rw [if_pos rises]
    simp only [rises.1, rises.2, true_and, AxisTable.startStop]
    split
    · rw [off_eq]
      split <;> rfl
    · rfl
  · have still : ¬ (old.rank < 2 ∧ 2 ≤ new.rank ∧ t.anyCoupled = true ∧ t.stopTimer = none) :=
      fun h => rises ⟨h.1, h.2.1⟩
    rw [if_neg rises, if_neg still, off_eq]

/-! ## The Screen Unit -/

theorem markRemoved_cons (w : TileWrite) (l : List TileWrite) (u : ScreenUnit) : u.markRemoved (w :: l) =
    (if w.stream.isSome then u.updateTile (w.row * u.panel.width + w.col) fun e => { e with stale := true }
      else u).markRemoved l := by
  unfold ScreenUnit.markRemoved
  rw [List.foldl_cons]
  split <;> rfl

/-- The tiles of the stream writes removed are stale, the others as they were (R177). -/
theorem markRemoved_eq (l : List TileWrite) (u : ScreenUnit) : u.markRemoved l = { u with
    tiles := u.tiles.mapIdx fun i x =>
      if l.any fun w => w.stream.isSome && w.row * u.panel.width + w.col == i then { x with stale := true } else x } := by
  induction l generalizing u with
  | nil =>
    have same : u.tiles.mapIdx (fun _ x => x) = u.tiles := List.ext_getElem? fun i => by simp
    simp only [List.any_nil, Bool.false_eq_true, if_false, same]
    rfl
  | cons w l ih =>
    rw [markRemoved_cons, ih]
    split
    · next stream =>
      refine congrArg (fun ts : List TileEntry => ({ u with tiles := ts } : ScreenUnit)) (List.ext_getElem? fun i => ?_)
      simp only [ScreenUnit.updateTile, List.getElem?_mapIdx, List.getElem?_modify, List.any_cons, stream, Bool.true_and]
      cases u.tiles[i]? with
      | none => rfl
      | some x =>
        by_cases here : w.row * u.panel.width + w.col = i
        · simp [here]
        · simp [here]
    · next own => simp only [List.any_cons, own, Bool.false_and, Bool.false_or]

/-- The job of a Screen Unit where a pass over the banner rows is to start: a CLEAR pass runs on, and a pass without
tiles ends as it starts (R176, R177). -/
def ScreenUnit.bannerPass (u : ScreenUnit) (j : BannerJob) : BannerJob :=
  match u.job with
  | .clear n => .clear n
  | _ => if u.panel.bannerHeight * u.panel.width = 0 then .idle else j

theorem startUnlessClear_eq (u : ScreenUnit) {j : BannerJob}
    (h : passTiles u.panel j = u.panel.bannerHeight * u.panel.width) :
    u.startUnlessClear j = { u with job := u.bannerPass j } := by
  unfold ScreenUnit.startUnlessClear ScreenUnit.startPass ScreenUnit.bannerPass
  rw [h]
  cases hj : u.job with
  | clear n =>
    have same : ({ u with job := .clear n } : ScreenUnit) = u := by rw [← hj]
    exact same.symm
  | idle | draw l n | restore n => rfl

theorem bannerHas_eq (p : PanelRecord) (row : Nat) :
    bannerHas p row = decide (p.bannerRow ≤ row ∧ row < p.bannerRow + p.bannerHeight) := (Bool.decide_and _ _).symm

/-- The banner becomes active (R177). -/
theorem raiseBanner_eq (u : ScreenUnit) (new : Level) : u.raiseBanner new =
    ({ u with
      queue := u.queue.filter fun w => !bannerHas u.panel w.row,
      tiles := u.tiles.mapIdx fun i x =>
        if u.queue.any fun w => bannerHas u.panel w.row && w.stream.isSome && w.row * u.panel.width + w.col == i then
          { x with stale := true } else x,
      job := u.bannerPass (.draw new 0) } : ScreenUnit).arbitrate := by
  simp only [ScreenUnit.raiseBanner, markRemoved_eq, List.any_filter, Bool.and_assoc]
  exact congrArg ScreenUnit.arbitrate (startUnlessClear_eq _ rfl)

/-- The banner is withdrawn (R177). -/
theorem withdrawBanner_eq (u : ScreenUnit) : u.withdrawBanner =
    ({ u with
      tiles := u.tiles.mapIdx fun i x =>
        if bannerHas u.panel (i / u.panel.width) && x.source != .none then { x with stale := true } else x,
      job := u.bannerPass (.restore 0) } : ScreenUnit).arbitrate := by
  have tiles (i : Nat) (x : TileEntry) :
      (if bannerHas u.panel (i / u.panel.width) then markStreamStale x else x) =
        if bannerHas u.panel (i / u.panel.width) && x.source != .none then { x with stale := true } else x := by
    unfold markStreamStale
    cases bannerHas u.panel (i / u.panel.width) with
    | false => rfl
    | true => cases x.source <;> rfl
  simp only [ScreenUnit.withdrawBanner, ScreenUnit.mapTiles, tiles]
  exact congrArg ScreenUnit.arbitrate (startUnlessClear_eq _ rfl)

/-- The Screen Unit's own part in a change of the effective level (R177). -/
def ScreenUnit.leveled (old new : Level) (u : ScreenUnit) : ScreenUnit :=
  if old = new then u
  else if old = .clear then u.raiseBanner new
  else if new = .clear then u.withdrawBanner
  else (u.startUnlessClear (.draw new 0)).arbitrate

/-! ## The whole recomputation -/

/-- The state after a recomputation's change of the effective level, the REPAINT notices not yet sent. -/
def leveled (s : State) : State :=
  let old := s.trip.levels.eff
  let new := s.trip.compute.eff
  (((s.setTrip { s.trip with
      levels := s.trip.compute, tripOut := if old = new then s.trip.tripOut else new == .driveOff }).setGen
    (s.gen.level old new)).setAxes
    (s.axes.level old new (s.clock + s.station.cfg.stopConfirm * Config.msec))).setScreen
    (s.screen.leveled old new)

theorem axes_level_self (l : Level) (due : Nat) (t : AxisTable) : t.level l l due = t := by
  have first : ¬ (l.rank < 3 ∧ l = .driveOff) := by rintro ⟨h, rfl⟩; exact absurd h (by decide)
  rw [axes_level_eq, if_neg first, if_neg (by omega)]

/-- The REPAINT notices follow the change where the banner is withdrawn (R178). -/
theorem recomputed_eq (s : State) : recomputed s =
    if s.trip.levels.eff ≠ s.trip.compute.eff ∧ s.trip.compute.eff = .clear then sendNotices (leveled s)
    else leveled s := by
  unfold recomputed levelChange leveled ScreenUnit.leveled
  generalize s.trip.compute = new
  generalize hold : s.trip.levels.eff = old
  by_cases same : old = new.eff
  · subst same
    simp only [ne_eq, not_true_eq_false, false_and, if_true, if_false, generator_level_self, axes_level_self]
    rfl
  · unfold screenLevel
    simp only [same, ne_eq, not_false_eq_true, true_and, if_false]
    by_cases raised : old = .clear
    · have risen : new.eff ≠ .clear := fun h => same (raised.trans h.symm)
      simp only [raised, risen, if_true, if_false]
      rfl
    · by_cases withdrawn : new.eff = .clear
      · simp only [raised, withdrawn, if_true, if_false]
        rfl
      · simp only [raised, withdrawn, if_false]
        rfl

/-! ## The urgent queue gains no room -/

theorem pick_urgent {w v : Switch} {i : QItem} (h : w.pick = some (i, v)) : v.urgent.length ≤ w.urgent.length := by
  rcases pick_forms h with ⟨hq, -⟩ | ⟨-, hv⟩ | ⟨-, hv⟩ | ⟨-, hv⟩ | ⟨-, hv⟩ | ⟨-, hv⟩
  · rw [hq]
    exact Nat.le_succ _
  all_goals rw [hv]

theorem drainIsolated_urgent (n : Nat) (s : State) : (drainIsolated n s).sw.urgent.length ≤ s.sw.urgent.length := by
  induction n generalizing s with
  | zero => exact Nat.le_refl _
  | succ n ih =>
    unfold drainIsolated
    split
    · next i w h =>
      refine (ih _).trans ?_
      rw [State.countSw_sw, markPicked_sw]
      exact pick_urgent (v := w) h
    · exact Nat.le_refl _

/-- The outputs' choices take frames out of the urgent queue and put none into it (R42). -/
theorem arbitrate_urgent (s : State) : (arbitrate s).sw.urgent.length ≤ s.sw.urgent.length := by
  have forward : (arbitrateForward s).sw.urgent.length ≤ s.sw.urgent.length := by
    unfold arbitrateForward
    split
    · exact drainIsolated_urgent _ s
    · split
      · split
        · next i w h =>
          rw [startTx_sw]
          exact pick_urgent h
        · exact Nat.le_refl _
      · exact Nat.le_refl _
  refine Nat.le_trans ?_ forward
  unfold arbitrate arbitrateCounter
  split
  · split
    · split
      · rw [startTx_sw]
        exact Nat.le_refl _
      · exact Nat.le_refl _
    · exact Nat.le_refl _
  · exact Nat.le_refl _

theorem sendNotice_urgent (s : State) (e : ScreenStream) :
    (sendNotice s e).sw.urgent.length ≤ s.sw.urgent.length := by
  unfold sendNotice insertLocal
  dsimp only
  split
  · exact Nat.le_refl _
  · split
    · exact arbitrate_urgent _
    · exact Nat.le_refl _

theorem sendNotices_urgent (s : State) : (sendNotices s).sw.urgent.length ≤ s.sw.urgent.length := by
  have fold (l : List ScreenStream) (u : State) : (l.foldl sendNotice u).sw.urgent.length ≤ u.sw.urgent.length := by
    induction l generalizing u with
    | nil => exact Nat.le_refl _
    | cons x l ih => exact (ih _).trans (sendNotice_urgent u x)
  unfold sendNotices
  split
  · exact Nat.le_refl _
  · exact fold _ s

theorem recomputed_urgent (s : State) : (recomputed s).sw.urgent.length ≤ s.sw.urgent.length := by
  rw [recomputed_eq]
  split
  · exact sendNotices_urgent (leveled s)
  · exact Nat.le_refl _

/-! ## The CHANGE frame -/

theorem recomputed_level (s : State) : LevelOnly s (recomputed s) :=
  (setTrip_level s _ rfl).trans (levelChange_level _ _ _)

theorem recomputed_publishStream (s : State) : (recomputed s).publishStream = s.publishStream :=
  publishStream_of_station (recomputed_level s).station

/-- Whether a recomputation originates a CHANGE frame (R161). -/
def ChangeSent (s : State) : Prop :=
  s.trip.levels.pub ≠ s.trip.compute.pub ∧ s.station.address ≠ 0 ∧ s.station.cfg.tripStream ≠ none

/-- Without a change of the published level, or at a station that does not publish, the recomputation ends with the
change of the effective level. -/
theorem recompute_quiet {s : State} (h : ¬ ChangeSent s) : recompute s = recomputed s := by
  unfold recompute
  rw [recomputeOnce_eq]
  split
  · rfl
  · next changed =>
    have silent : s.publishStream = none := by
      unfold State.publishStream
      split
      · rfl
      · next address => exact not_not.mp fun stream => h ⟨changed, address, stream⟩
    unfold originateTrip
    rw [recomputed_publishStream, silent]
    rfl

section Sent
variable {s : State} (h : ChangeSent s) {stream : Nat} (hs : s.station.cfg.tripStream = some stream)
include h hs

theorem originateTrip_recomputed : originateTrip false (recomputed s) =
    queueTrip (recomputed s) stream ((recomputed s).tripBody false) := by
  obtain ⟨-, address, -⟩ := h
  have publishes : (recomputed s).publishStream = some stream := by
    rw [recomputed_publishStream, publishStream_some address, hs]
  unfold originateTrip
  rw [publishes]

/-- With room in the urgent queue the CHANGE frame joins its tail (R37, R161). -/
theorem recompute_room (room : s.sw.urgent.length < 8) :
    recompute s = arbitrate (tripQueued (recomputed s) stream ((recomputed s).tripBody false)) := by
  have after : (recomputed s).sw.urgent.length < 8 := (recomputed_urgent s).trans_lt room
  unfold recompute
  rw [recomputeOnce_eq, if_neg h.1, originateTrip_recomputed h hs, queueTrip_room after]
  rfl

/-- With the urgent queue full the CHANGE frame is dropped and RING_CONGESTION reported (R37). -/
theorem recompute_full (held : ForwardHeld s) (full : 8 ≤ s.sw.urgent.length) :
    recompute s = reportCongestion (countUrgentDrop (recomputed s)) := by
  have set : ForwardHeld (s.setTrip { s.trip with levels := s.trip.compute }) := by
    obtain ⟨o, hf, hx⟩ := held
    exact ⟨o, hf, by cases o <;> exact hx⟩
  have same : SameButNotices s.sw (recomputed s).sw := levelChange_held set _ _
  have after : 8 ≤ (recomputed s).sw.urgent.length := by
    rw [same]
    exact full
  unfold recompute
  rw [recomputeOnce_eq, if_neg h.1, originateTrip_recomputed h hs, queueTrip_full after]
  rfl

end Sent

/-! ## What a CHANGE frame sent leaves -/

theorem recomputed_control (s : State) : SameControl (leveled s) (recomputed s) := by
  rw [recomputed_eq]
  split
  · exact sendNotices_control _
  · exact .refl _

/-- The CHANGE frame as it waits in the urgent queue: it carries the new levels and the sequence number the notices have
left (R161; assumption log 48). -/
theorem recomputed_item (s : State) (stream : Nat) :
    ownItem (recomputed s) .t stream 63 4 (.bytes (tripBytes ((recomputed s).tripBody false))) =
      { frame :=
          { hdr := { cls := .t, stream := stream, dest := 63, src := s.station.address, tag := s.tag,
                     seq := (recomputed s).station.seq, hop := 0, age := 0, len := 4 },
            body := .bytes (tripBytes { level := s.trip.compute.pub, code := s.trip.compute.pubCode,
                                        count := s.trip.compute.pubCount, refresh := false }) },
        since := s.clock, origin := .own, ready := true } := by
  have level := recomputed_level s
  have levels : (recomputed s).trip.levels = s.trip.compute := congrArg TripUnit.levels (recomputed_control s).trip
  have address : (recomputed s).station.address = s.station.address := by rw [level.station]
  have tag : (recomputed s).tag = s.tag := congrArg (BitVec.setWidth 16) level.moment.serial
  unfold ownItem State.ownHeader State.tripBody
  rw [levels, address, tag, level.moment.clock]

section Sent
variable {s : State} (h : ChangeSent s) (room : s.sw.urgent.length < 8)
include h room

theorem recompute_sent : (recompute s).gen = (leveled s).gen ∧ (recompute s).axes = (leveled s).axes ∧
    (recompute s).screen = (leveled s).screen ∧
    (recompute s).trip = { (leveled s).trip with ctr := { s.trip.ctr with sent := bump s.trip.ctr.sent } } ∧
    (recompute s).station = { (recomputed s).station with seq := (recomputed s).station.seq + 1 } := by
  obtain ⟨stream, hs⟩ := Option.ne_none_iff_exists'.mp h.2.2
  have control := recomputed_control s
  rw [recompute_room h hs room]
  generalize hb : (recomputed s).tripBody false = b
  obtain ⟨-, -, chosen, station⟩ := arbitrate_ring (tripQueued (recomputed s) stream b)
  have trip : (tripQueued (recomputed s) stream b).trip =
      { (leveled s).trip with ctr := { s.trip.ctr with sent := bump s.trip.ctr.sent } } := by
    unfold tripQueued
    rw [State.setTrip_trip, control.trip]
    rfl
  exact ⟨chosen.gen.trans control.gen, chosen.axes.trans control.axes, chosen.screen.trans control.screen,
    chosen.trip.trans trip, station⟩

theorem recompute_sent_sw (busy : OutputsBusy s) {stream : Nat} (hs : s.station.cfg.tripStream = some stream) :
    (recompute s).sw = { (recomputed s).sw with urgent := (recomputed s).sw.urgent ++
      [ownItem (recomputed s) .t stream 63 4 (.bytes (tripBytes ((recomputed s).tripBody false)))] } := by
  have stay : PortsStay s (recomputed s) := (portsStay_setTrip s _).trans (portsStay_levelChange _ _ _)
  obtain ⟨-, -, still⟩ := stay busy
  rw [recompute_room h hs room, arbitrate_busy (OutputsBusy.tripQueued still stream _)]
  rfl

end Sent

/-- With the urgent queue full, RING_CONGESTION is latched after a change of the published level (R37). -/
theorem recompute_congested {s : State} (h : ChangeSent s) (held : ForwardHeld s) (full : 8 ≤ s.sw.urgent.length)
    (whole : TreeWhole s.trip) : (recompute s).trip.isLatched .ringCongestion = true := by
  obtain ⟨stream, hs⟩ := Option.ne_none_iff_exists'.mp h.2.2
  rw [recompute_full h hs held full]
  refine (reportCongestion_grows (s := countUrgentDrop (recomputed s)) ?_).2
  change TreeWhole (recomputed s).trip
  rw [(recomputed_control s).trip]
  exact whole

end Sys2Proof.Machine
end

