-- ==== Sys2Proof/Proofs/FaultCommands.lean ====
section
/-! TRIP, CLEAR FAULTS and CLEAR REMOTE, and the report of a fault, each as a change of the Trip Unit's tables and of one
axis that a recomputation follows (R97, R150, R159, R160, R165). -/

namespace Sys2Proof.Machine

/-! ## TRIP -/

theorem runTrip_bad {level : Nat} (h : level = 0 ∨ 3 < level) (u : State) :
    runTrip level u = (u, Answer.plain .badValue) := by
  match level, h with
  | 0, _ => rfl
  | 1, h | 2, h | 3, h => omega
  | _ + 4, _ => rfl

/-- The level at which HOST_TRIP stands, CLEAR while it is not latched (R160). -/
def hostLevelOf (t : TripUnit) : Level := if t.isLatched .hostTrip then t.hostLevel.getD .clear else .clear

theorem hostTrip_eq (l : Level) (t : TripUnit) : hostTrip l t =
    if (hostLevelOf t).rank < l.rank then ({ t.latch .hostTrip with hostLevel := some l }, true) else (t, false) := rfl

theorem runTrip_eq {level : Nat} {l : Level} (hl : Level.ofNat? level = some l) (hc : l ≠ .clear) (u : State) :
    runTrip level u = (if (hostLevelOf u.trip).rank < l.rank then
      recompute (u.setTrip { u.trip.latch .hostTrip with hostLevel := some l }) else u, Answer.plain .ok) := by
  have run : runTrip level u = (if (hostTrip l u.trip).2 then recompute (u.setTrip (hostTrip l u.trip).1) else u,
      Answer.plain .ok) := by
    unfold runTrip
    rw [hl]
    cases l with
    | clear => exact absurd rfl hc
    | notice | rampStop | driveOff => rfl
  rw [run, hostTrip_eq]
  by_cases raised : (hostLevelOf u.trip).rank < l.rank
  · rw [if_pos raised, if_pos raised]
    rfl
  · rw [if_neg raised, if_neg raised]
    rfl

/-- HOST_TRIP is latched after a TRIP of a good level, which raises its level or changes nothing (R160). -/
theorem hostTrip_latched {u : State} (whole : TreeWhole u.trip) {l : Level} (hc : l ≠ .clear) :
    (if (hostLevelOf u.trip).rank < l.rank then
      recompute (u.setTrip { u.trip.latch .hostTrip with hostLevel := some l }) else u).trip.isLatched .hostTrip =
      true := by
  split
  · exact (recompute_grows (s := u.setTrip { u.trip.latch .hostTrip with hostLevel := some l })
      (whole.latch .hostTrip)).latched .hostTrip (whole.isLatched_latch .hostTrip)
  · next kept =>
    refine Bool.eq_true_of_not_eq_false fun free => kept ?_
    unfold hostLevelOf
    rw [free]
    exact Nat.pos_of_ne_zero fun h => hc (rank_inj h)

/-! ## CLEAR FAULTS -/

theorem runClearFaults_bad {groups : List Nat} (h : groups = [] ∨ ∃ g ∈ groups, g = 0 ∨ 7 < g) (u : State) :
    runClearFaults groups u = (u, Answer.plain .badValue) := by
  refine if_pos ?_
  rcases h with rfl | ⟨g, hg, hv⟩
  · rfl
  · rw [Bool.or_eq_true, List.any_eq_true]
    exact .inr ⟨g, hg, by simpa using hv⟩

theorem clearEntry_eq (groups : List Nat) (x : FaultEntry) : clearEntry groups x =
    if decide (faultGroup x.id ∈ groups) && !(faultPersistent x.id && x.cond) then { x with latched := false } else x := by
  rw [clearEntry, List.contains_eq_mem]

theorem clearEntry_id (groups : List Nat) (x : FaultEntry) : (clearEntry groups x).id = x.id := by
  unfold clearEntry
  split <;> rfl

theorem clearEntry_latched (groups : List Nat) (x : FaultEntry) : (clearEntry groups x).latched =
    (x.latched && !(decide (faultGroup x.id ∈ groups) && !(faultPersistent x.id && x.cond))) := by
  rw [clearEntry_eq]
  split
  · next h => simp only [h, Bool.not_true, Bool.and_false]
  · next h => simp only [h, Bool.not_false, Bool.and_true]

/-- The faults retained are the latched ones of the named groups whose condition is present (R159). -/
theorem retained_clearTree (groups : List Nat) (tree : List FaultEntry) :
    retained groups (tree.map (clearEntry groups)) = tree.countP fun x =>
      decide (faultGroup x.id ∈ groups) && x.latched && faultPersistent x.id && x.cond := by
  rw [retained, List.countP_map]
  refine List.countP_congr fun x _ => ?_
  simp only [Function.comp_apply, clearEntry_id, clearEntry_latched, List.contains_eq_mem]
  cases decide (faultGroup x.id ∈ groups) <;> cases x.latched <;> simp

theorem clearTree_eq (groups : List Nat) (t : TripUnit) : clearTree groups t = { t with
    tree := t.tree.map fun x =>
      if decide (faultGroup x.id ∈ groups) && !(faultPersistent x.id && x.cond) then { x with latched := false } else x,
    hostLevel := if 6 ∈ groups then none else t.hostLevel } := by
  rw [clearTree, funext (clearEntry_eq groups)]
  simp only [List.contains_eq_mem, decide_eq_true_eq]

theorem runClearFaults_eq {groups : List Nat} (hn : groups ≠ []) (hg : ∀ g ∈ groups, 1 ≤ g ∧ g ≤ 7) (u : State) :
    runClearFaults groups u = (recompute (u.setTrip (clearTree groups u.trip)),
      ⟨.ok, 0, .retained (u.trip.tree.countP fun x =>
        decide (faultGroup x.id ∈ groups) && x.latched && faultPersistent x.id && x.cond)⟩) := by
  rw [← retained_clearTree]
  refine if_neg fun bad => ?_
  rw [Bool.or_eq_true, List.isEmpty_iff, List.any_eq_true] at bad
  rcases bad with empty | ⟨g, mem, hv⟩
  · exact hn empty
  · have range := hg g mem
    simp only [Bool.or_eq_true, beq_iff_eq, decide_eq_true_eq] at hv
    omega

/-- What a CLEAR FAULTS leaves latched in the tree (R159). -/
theorem isLatched_clearTree (groups : List Nat) (t : TripUnit) (f : FaultId) : (clearTree groups t).isLatched f =
    (t.isLatched f && !(decide (faultGroup f ∈ groups) && !(faultPersistent f && t.isPresent f))) := by
  change (treeGet (t.tree.map (clearEntry groups)) f).latched = ((treeGet t.tree f).latched &&
    !(decide (faultGroup f ∈ groups) && !(faultPersistent f && (treeGet t.tree f).cond)))
  induction t.tree with
  | nil => rfl
  | cons x xs ih =>
    rw [List.map_cons, treeGet_cons, treeGet_cons, clearEntry_id]
    split
    · next here =>
      rw [clearEntry_latched, here]
    · exact ih

/-- A recomputation latches RING_CONGESTION at most. -/
theorem isLatched_recompute (s : State) {f : FaultId} (h : f ≠ .ringCongestion) :
    (recompute s).trip.isLatched f = s.trip.isLatched f := by
  rcases recompute_tree s with ht | ht
  · unfold TripUnit.isLatched
    rw [ht]
  · refine Eq.trans ?_ (isLatched_latch_other (t := s.trip) h)
    unfold TripUnit.isLatched
    rw [ht]

/-- A recomputation after a change of the tree changes what a recomputation alone may (R156). -/
theorem recompute_setTrip_level (u : State) (x t : TripUnit)
    (h : t = { x with tree := t.tree, levels := t.levels, tripOut := t.tripOut, ctr := t.ctr }) :
    LevelOnly (u.setTrip x) (recompute (u.setTrip t)) :=
  (setTrip_level (u.setTrip x) t h).trans (recompute_level _)

/-! ## A fault that latches -/

/-- One axis OFF: the stop-confirm timer stands where no axis stays COUPLED (R97, R109). -/
theorem offOne_eq (a : Fin 4) (t : AxisTable) : t.offOne a = { t with
    recs := t.recs.set a (axisToOff (t.recs.get a)),
    stopTimer := if (t.recs.set a (axisToOff (t.recs.get a))).toList.any (fun r => r.state == .coupled) then t.stopTimer
      else none } := by
  unfold AxisTable.offOne AxisTable.settleStop AxisTable.anyCoupled
  dsimp only
  split <;> rfl

theorem report_fresh {f : FaultId} {s : State} (h : s.trip.isLatched f = false) :
    report f s = recompute (axisFault f (s.setTrip (s.trip.latch f))) := by
  unfold report
  rw [h]
  rfl

/-- The level a fault is given in a whole tree. -/
theorem level_driveOff_iff {t : TripUnit} (whole : TreeWhole t) (f : FaultId) :
    (t.tree.find? fun x => x.id == f).any (fun x => x.level == .driveOff) = true ↔
      (treeGet (t.latch f).tree f).level = .driveOff := by
  have there : (t.tree.find? fun x => x.id == f).isSome := by
    obtain ⟨x, hx, hid⟩ := List.mem_map.mp (whole.mem f)
    exact List.find?_isSome.mpr ⟨x, hx, by simpa using hid⟩
  obtain ⟨x, hx⟩ := Option.isSome_iff_exists.mp there
  rw [whole.latch_get, treeGet, hx]
  exact beq_iff_eq

theorem axisFault_other {f : FaultId} (h : ∀ a, f ≠ .driveFault a ∧ f ≠ .driveLink a ∧ f ≠ .followError a)
    (s : State) : axisFault f s = s := by
  unfold axisFault
  split
  · next a => exact absurd rfl (h a).1
  · next a => exact absurd rfl (h a).2.1
  · next a => exact absurd rfl (h a).2.2
  · rfl

end Sys2Proof.Machine

open Sys2Proof Sys2Proof.Machine

/-- Settles O45: each command by its equation, then a recomputation; each report by what it does to its own axis, then a
recomputation; and a recomputation by the change of the effective level and the CHANGE frame after it. -/
theorem faultCommands : Obligations.FaultCommands := by
  refine ⟨fun m e s ha hl => ⟨fun level => ?_, fun groups => ?_, ?_⟩, fun f s => ⟨report_latched f s, fun free => ?_⟩,
    fun s => ?_⟩
  · have taken := taken_answered e (.trip level) (runTrip level) (s.tick m) ha hl
    refine ⟨(runTrip level (countTaken (s.tick m))).1, _, rfl, fun bad => ?_, fun l named raised whole => ?_⟩
    · rw [runTrip_bad bad] at taken ⊢
      exact ⟨rfl, taken⟩
    · have run := runTrip_eq named raised (countTaken (s.tick m))
      have latched := hostTrip_latched (u := countTaken (s.tick m)) whole.tree raised
      rw [run] at taken ⊢
      refine ⟨taken, latched, ?_⟩
      change if (hostLevelOf (countTaken (s.tick m)).trip).rank < l.rank then _ else _
      by_cases rises : (hostLevelOf (countTaken (s.tick m)).trip).rank < l.rank
      · rw [if_pos rises, if_pos rises]
        exact ⟨recompute_setTrip_level _ _ _ rfl, recompute_levels _, rfl⟩
      · rw [if_neg rises, if_neg rises]
  · have taken := taken_answered e (.clearFaults groups) (runClearFaults groups) (s.tick m) ha hl
    refine ⟨(runClearFaults groups (countTaken (s.tick m))).1, _, rfl, fun bad => ?_, fun nonempty named => ?_⟩
    · rw [runClearFaults_bad bad] at taken ⊢
      exact ⟨rfl, taken⟩
    · have run := runClearFaults_eq nonempty named (countTaken (s.tick m))
      rw [run] at taken ⊢
      refine ⟨taken, recompute_levels _, ?_, recompute_setTrip_level (countTaken (s.tick m)) _ _ ?_, fun f hf => ?_⟩
      · rw [clearTree_eq]
        rfl
      · rw [clearTree_eq]
        rfl
      · exact (isLatched_recompute _ hf).trans (isLatched_clearTree groups s.trip f)
  · have taken := taken_answered e .clearRemote runClearRemote (s.tick m) ha hl
    exact ⟨(runClearRemote (countTaken (s.tick m))).1, _, rfl, taken, recompute_levels _, recompute_level _, rfl⟩
  · rw [report_fresh free]
    have off (a : Fin 4) := congrArg (s.setTrip (s.trip.latch f)).setAxes (offOne_eq a s.axes)
    refine ⟨fun a drive => ?_, fun a follow whole => ?_, fun other => ?_⟩
    · refine congrArg recompute ?_
      rcases drive with rfl | rfl <;> exact off a
    · subst follow
      have level := level_driveOff_iff (t := s.trip) whole.tree (.followError a)
      refine congrArg recompute ?_
      by_cases high : (treeGet (s.trip.latch (.followError a)).tree (.followError a)).level = .driveOff
      · rw [if_pos (level.mpr high)]
        exact (if_pos high).trans (off a)
      · rw [if_neg (mt level.mp high)]
        exact if_neg high
    · rw [axisFault_other other]
  · intro old new t changes g gen coupled axes u onBanner pass screen y z
    have generator : s.gen.level s.trip.levels.eff s.trip.compute.eff = gen := generator_level_eq _ _ g
    have table : s.axes.level s.trip.levels.eff s.trip.compute.eff
        (s.clock + s.station.cfg.stopConfirm * Config.msec) = axes := axes_level_eq _ _ _ _
    have unit : s.screen.leveled s.trip.levels.eff s.trip.compute.eff = screen := by
      unfold ScreenUnit.leveled
      rw [raiseBanner_eq, withdrawBanner_eq, startUnlessClear_eq _ rfl]
      simp only [bannerHas_eq]
      rfl
    have changed : leveled s = y := by
      unfold leveled
      dsimp only
      rw [generator, table, unit]
    have after : recomputed s = z := by
      rw [recomputed_eq, changed]
    refine ⟨fun quiet => (recompute_quiet quiet).trans after, fun sent room => ?_, fun sent busy full whole =>
      ⟨recompute_congested sent busy.held full whole.tree, recompute_levels s⟩⟩
    obtain ⟨gen', axes', screen', trip', station'⟩ := recompute_sent sent room
    rw [changed] at gen' axes' screen' trip'
    rw [after] at station'
    refine ⟨gen', axes', screen', trip', station', fun busy stream hs => ?_⟩
    have queued := recompute_sent_sw sent room busy hs
    rw [recomputed_item, after] at queued
    exact queued
end

