-- ==== Sys2Proof/Proofs/AxisMoves.lean ====
section
/-! What can happen to an axis record and to the axis table: every change of an axis record is one of fifteen moves, and
each move keeps the record in range (R86 to R109). -/

namespace Sys2Proof.Machine

/-! ## One record -/

/-- What can happen to an axis record, rule by rule. -/
inductive RecordMove (r : AxisRecord) : AxisRecord → Prop
  /-- Nothing. -/
  | stay : RecordMove r r
  /-- An axis step (R99). -/
  | step (adv : Int) : RecordMove r (axisStep adv r)
  /-- A rise to DRIVE_OFF or a fault of the axis (R97). -/
  | off : RecordMove r (axisToOff r)
  /-- The passage to LOST or the stop-confirm expiry (R105, R110). -/
  | coast : RecordMove r (axisToCoast r)
  /-- A correction, or RESET CORRECTION (R96, R103). -/
  | correct (x : Int) (h : x.natAbs ≤ r.cfg.corrMax) : RecordMove r { r with corrTarget := x }
  /-- SET PHASE (R95). -/
  | phase (x : Int) (h : x.natAbs ≤ 2 ^ 30) : RecordMove r { r with phaseTarget := x }
  /-- ENABLE AXIS (R90). -/
  | enable (h : axisEnabled r.state = false) :
    RecordMove r { r with state := .standby, capture := true, release := false }
  /-- COUPLE (R92). -/
  | couple (actual : BitVec 32) (h : r.state = .standby ∨ r.state = .held) (hc : r.capture = false) :
    RecordMove r (coupledRecord actual r)
  /-- DECOUPLE (R93). -/
  | decouple (h : r.state = .coupled) : RecordMove r { r with state := .standby }
  /-- DISABLE AXIS (R94). -/
  | disable : RecordMove r { r with state := .disabled, release := true, capture := false }
  /-- The end of a pending capture (R117). -/
  | capture (actual : BitVec 32) : RecordMove r { r with setpoint := actual, capture := false }
  /-- An axis OFF follows its drive (R117). -/
  | follow (actual : BitVec 32) : RecordMove r { r with setpoint := actual }
  /-- The end of a pending release (R122). -/
  | release : RecordMove r { r with release := false }
  /-- A WRITE of the AXIS table (R87). -/
  | write (new : AxisConfig) (hr : axisRanges new = true) (ht : r.corrTarget.natAbs ≤ new.corrMax)
    (hc : r.corr.natAbs ≤ new.corrMax) : RecordMove r (writeAxisRecord new r)
  /-- RESET STATION (R88). -/
  | reset : RecordMove r (resetAxis r)

/-- The seven configuration fields in range give at least 1 for D (R86). -/
theorem den_pos_of_ranges {c : AxisConfig} (h : axisRanges c = true) : 0 < c.den := by
  simp only [axisRanges, within, Bool.and_eq_true, decide_eq_true_eq] at h
  omega

/-- A slew ends no further from 0 than both its ends (R101, R102). -/
theorem natAbs_slew_le {x target : Int} {n : Nat} (by_ : Nat) (hx : x.natAbs ≤ n) (ht : target.natAbs ≤ n) :
    (slew x target by_).natAbs ≤ n := by
  unfold slew
  split
  · omega
  · split <;> omega

theorem gearRest_lt {r : AxisRecord} (adv : Int) (h : 0 < r.cfg.den) : gearRest r adv < 256 * r.cfg.den := by
  unfold gearRest
  have pos : (0 : Int) < ((256 * r.cfg.den : Nat) : Int) := by omega
  have low := Int.emod_nonneg ((r.acc : Int) + r.cfg.num * adv) pos.ne'
  have high := Int.emod_lt_of_pos ((r.acc : Int) + r.cfg.num * adv) pos
  omega

theorem natAbs_clamp_le (n : Nat) (x : Int) : (clampInt (-(n : Int)) n x).natAbs ≤ n := by
  unfold clampInt
  split
  · omega
  · split <;> omega

theorem axisOk_default : AxisOk defaultAxis := by
  constructor <;> decide

section Record
variable {r : AxisRecord} (ok : AxisOk r)
include ok

theorem AxisOk.gearStep (adv : Int) : AxisOk (gearStep adv r) :=
  { ok with
    acc := gearRest_lt adv (den_pos_of_ranges ok.ranges)
    corr := natAbs_slew_le _ ok.corr ok.corrTarget
    phase := natAbs_slew_le _ ok.phase ok.phaseTarget
    capture := fun h => ok.capture h
    release := fun h => ok.release h }

/-- Between two states that are neither STANDBY nor DISABLED no capture and no release is pending. -/
theorem AxisOk.idle (hs : r.state ≠ .standby) (hd : r.state ≠ .disabled) : ¬ r.capture = true ∧ ¬ r.release = true :=
  ⟨fun h => hs (ok.capture h), fun h => hd (ok.release h)⟩

end Record

/-- Every move of an axis record keeps it in range (R86, R90, R94, R95, R100, R103). -/
theorem RecordMove.ok {r r' : AxisRecord} (h : RecordMove r r') (ok : AxisOk r) : AxisOk r' := by
  cases h with
  | stay => exact ok
  | step adv =>
    unfold axisStep
    split
    · exact ok.gearStep adv
    · next hs =>
      obtain ⟨captured, released⟩ := ok.idle (by rw [hs]; decide) (by rw [hs]; decide)
      exact { ok with capture := fun h => absurd h captured, release := fun h => absurd h released }
    all_goals exact ok
  | off =>
    unfold axisToOff
    split
    · next hen => exact { ok with capture := nofun, release := fun h => by rw [ok.release h] at hen; cases hen }
    · exact ok
  | coast =>
    unfold axisToCoast
    split
    · next hs =>
      obtain ⟨captured, released⟩ := ok.idle (by rw [hs]; decide) (by rw [hs]; decide)
      exact { ok with capture := fun h => absurd h captured, release := fun h => absurd h released }
    · exact ok
  | correct x hx => exact { ok with corrTarget := hx }
  | phase x hx => exact { ok with phaseTarget := hx }
  | enable => exact { ok with capture := fun _ => rfl, release := nofun }
  | couple actual hs hc =>
    have released : ¬ r.release = true := fun h => by rw [ok.release h] at hs; rcases hs with hs | hs <;> cases hs
    exact { ok with
      acc := Nat.mul_pos (by decide) (den_pos_of_ranges ok.ranges)
      corrTarget := Nat.zero_le _
      corr := Nat.zero_le _
      phase := ok.phaseTarget
      capture := fun h => by rw [show r.capture = true from h] at hc; cases hc
      release := fun h => absurd h released }
  | decouple hs =>
    obtain ⟨captured, released⟩ := ok.idle (by rw [hs]; decide) (by rw [hs]; decide)
    exact { ok with capture := fun h => absurd h captured, release := fun h => absurd h released }
  | disable => exact { ok with capture := nofun, release := fun _ => rfl }
  | capture => exact { ok with capture := nofun }
  | follow => exact { ok with }
  | release => exact { ok with release := nofun }
  | write new hr ht hc =>
    refine { ok with ranges := hr, acc := ?_, corrTarget := ht, corr := hc }
    unfold writeAxisRecord
    dsimp only
    split
    · exact Nat.mul_pos (by decide) (den_pos_of_ranges hr)
    · next same =>
      simp only [gearChanged, Bool.or_eq_true, bne_iff_ne, ne_eq, not_or, not_not] at same
      rw [← same.2]
      exact ok.acc
  | reset => exact { axisOk_default with release := fun _ => rfl }

/-! ## The axis table -/

/-- One move of the axis table: every record makes a move, and a stop-confirm timer that runs afterwards runs while an
axis is COUPLED, or ran before and every axis that was COUPLED still is (R108, R109). -/
structure AxisMove (t u : AxisTable) : Prop where
  record : ∀ a, RecordMove (t.recs.get a) (u.recs.get a)
  timer : u.stopTimer.isSome = true → u.anyCoupled = true ∨
    t.stopTimer.isSome = true ∧ ∀ a, (t.recs.get a).state = .coupled → (u.recs.get a).state = .coupled

/-- The axis table of `t` comes of that of `s` by moves. -/
def AxisMoves (s t : State) : Prop := Relation.ReflTransGen AxisMove s.axes t.axes

theorem anyCoupled_iff (t : AxisTable) : t.anyCoupled = true ↔ ∃ a, (t.recs.get a).state = .coupled := by
  rw [Fin.exists_fin_succ, Fin.exists_fin_succ, Fin.exists_fin_succ, Fin.exists_fin_one]
  simp [AxisTable.anyCoupled, Four.toList, Four.get]

/-- The condition on the axes, of the axis table. -/
def AxisTable.Ok (t : AxisTable) : Prop :=
  (∀ a, AxisOk (t.recs.get a)) ∧ (t.stopTimer.isSome = true → t.anyCoupled = true)

theorem axisInv_iff (s : State) : AxisInv s ↔ s.axes.Ok := Iff.rfl

theorem AxisMove.ok {t u : AxisTable} (m : AxisMove t u) (ok : t.Ok) : u.Ok := by
  refine ⟨fun a => (m.record a).ok (ok.1 a), fun runs => ?_⟩
  rcases m.timer runs with coupled | ⟨ran, stays⟩
  · exact coupled
  · obtain ⟨a, ha⟩ := (anyCoupled_iff t).mp (ok.2 ran)
    exact (anyCoupled_iff u).mpr ⟨a, stays a ha⟩

/-- Moves keep every record in range, and the stop-confirm timer with a COUPLED axis (R109). -/
theorem AxisMoves.inv {s t : State} (k : AxisMoves s t) (hi : AxisInv s) : AxisInv t := by
  have chain {u : AxisTable} (k : Relation.ReflTransGen AxisMove s.axes u) : u.Ok := by
    induction k with
    | refl => exact (axisInv_iff s).mp hi
    | tail _ m ih => exact m.ok ih
  exact (axisInv_iff t).mpr (chain k)

/-- Records that move while every COUPLED axis stays COUPLED. -/
theorem AxisMove.recs {t : AxisTable} {f : Four AxisRecord} (h : ∀ a, RecordMove (t.recs.get a) (f.get a))
    (hc : ∀ a, (t.recs.get a).state = .coupled → (f.get a).state = .coupled) : AxisMove t { t with recs := f } :=
  ⟨h, fun runs => .inr ⟨runs, hc⟩⟩

/-- Records that move, the timer then cancelled where no axis is COUPLED (R109). -/
theorem AxisMove.settled {t : AxisTable} {f : Four AxisRecord} (h : ∀ a, RecordMove (t.recs.get a) (f.get a)) :
    AxisMove t ({ t with recs := f } : AxisTable).settleStop := by
  refine ⟨fun a => by rw [settleStop_recs]; exact h a, fun runs => .inl ?_⟩
  unfold AxisTable.settleStop at runs ⊢
  split
  · assumption
  · next hn =>
    rw [if_neg hn] at runs
    cases runs

/-- Records that move while the timer stands. -/
theorem AxisMove.stopped {t u : AxisTable} (h : ∀ a, RecordMove (t.recs.get a) (u.recs.get a))
    (ht : u.stopTimer = none) : AxisMove t u :=
  ⟨h, fun runs => by rw [ht] at runs; cases runs⟩

theorem recordMove_set {f : Four AxisRecord} {a : Fin 4} {r : AxisRecord} (h : RecordMove (f.get a) r) (b : Fin 4) :
    RecordMove (f.get b) ((f.set a r).get b) := by
  by_cases hab : b = a
  · rw [hab, Four.get_set_same]
    exact h
  · rw [Four.get_set_other _ _ _ _ hab]
    exact .stay

theorem AxisMoves.refl (s : State) : AxisMoves s s := Relation.ReflTransGen.refl

theorem AxisMoves.trans {s t u : State} (h : AxisMoves s t) (k : AxisMoves t u) : AxisMoves s u :=
  Relation.ReflTransGen.trans h k

theorem AxisMoves.ite {s u v : State} (c : Prop) [Decidable c] (hu : AxisMoves s u) (hv : AxisMoves s v) :
    AxisMoves s (if c then u else v) := by
  split
  · exact hu
  · exact hv

theorem axisMoves_foldl {α : Type} {f : State → α → State} (h : ∀ s x, AxisMoves s (f s x)) (l : List α)
    (s : State) : AxisMoves s (l.foldl f s) := by
  induction l generalizing s with
  | nil => exact .refl s
  | cons x l ih => exact (h s x).trans (ih _)

/-! ## Updates of the state -/

section After
variable {s u : State} (k : AxisMoves s u)
include k

theorem AxisMoves.same {t : State} (h : t.axes = u.axes) : AxisMoves s t := by
  unfold AxisMoves
  rw [h]
  exact k

theorem AxisMoves.control {t : State} (h : SameControl u t) : AxisMoves s t := k.same h.axes

theorem AxisMoves.ring {t : State} (h : RingOnly u t) : AxisMoves s t := k.control h.control

theorem AxisMoves.queue {t : State} (h : QueueOnly u t) : AxisMoves s t := k.control h.control

theorem AxisMoves.foldl {α : Type} {f : State → α → State} (h : ∀ s x, AxisMoves s (f s x)) (l : List α) :
    AxisMoves s (l.foldl f u) := k.trans (axisMoves_foldl h l u)

theorem AxisMoves.setAxes {t : AxisTable} (m : AxisMove u.axes t) : AxisMoves s (u.setAxes t) :=
  Relation.ReflTransGen.tail k m

theorem AxisMoves.setPort (p : PortId) (x : Port) : AxisMoves s (u.setPort p x) :=
  k.control (blocksStay_setPort u p x).control

theorem AxisMoves.setSw (x : Switch) : AxisMoves s (u.setSw x) := k.same rfl

theorem AxisMoves.countSw (f : SwitchCounters → SwitchCounters) : AxisMoves s (u.countSw f) := k.same rfl

theorem AxisMoves.setGen (x : Generator) : AxisMoves s (u.setGen x) := k.same rfl

theorem AxisMoves.setCtx (x : CycleCtx) : AxisMoves s (u.setCtx x) := k.same rfl

theorem AxisMoves.setDrive (x : DriveLink) : AxisMoves s (u.setDrive x) := k.same rfl

theorem AxisMoves.setDriveAxis (a : Fin 4) (d : DriveAxis) : AxisMoves s (u.setDriveAxis a d) := k.same rfl

theorem AxisMoves.setImage (x : ImageUnit) : AxisMoves s (u.setImage x) := k.same rfl

theorem AxisMoves.setTrip (x : TripUnit) : AxisMoves s (u.setTrip x) := k.same rfl

theorem AxisMoves.setScreen (x : ScreenUnit) : AxisMoves s (u.setScreen x) := k.same rfl

theorem AxisMoves.setStation (x : StationCtl) : AxisMoves s (u.setStation x) := k.same rfl

theorem AxisMoves.countMotion (f : MotionCounters → MotionCounters) : AxisMoves s (u.countMotion f) :=
  k.setAxes ⟨fun _ => .stay, fun runs => .inr ⟨runs, fun _ h => h⟩⟩

/-- One record moves while an axis that is COUPLED stays COUPLED. -/
theorem AxisMoves.setAxis {a : Fin 4} {r : AxisRecord} (m : RecordMove (u.axis a) r)
    (hc : (u.axis a).state = .coupled → r.state = .coupled) : AxisMoves s (u.setAxis a r) := by
  refine k.setAxes (.recs (recordMove_set m) fun b hb => ?_)
  by_cases hab : b = a
  · subst hab
    rw [Four.get_set_same]
    exact hc hb
  · rw [Four.get_set_other _ _ _ _ hab]
    exact hb

/-- One record moves, and the timer is cancelled where no axis is left COUPLED. -/
theorem AxisMoves.settleAxis {a : Fin 4} {r : AxisRecord} (m : RecordMove (u.axis a) r) :
    AxisMoves s ((u.setAxis a r).setAxes (u.setAxis a r).axes.settleStop) :=
  Relation.ReflTransGen.tail k (AxisMove.settled (recordMove_set m))

end After

end Sys2Proof.Machine
end

