-- ==== Sys2Proof/Proofs/AxisMovesUnits.lean ====
section
/-! The shared operations move the axis table: recomputations and reports, corrections, the Drive Link, the Image Unit and
the cycle (R97 to R123). -/

namespace Sys2Proof.Machine

/-! ## A change of the effective level -/

theorem axisMove_level (old new : Level) (due : Nat) (t : AxisTable) : AxisMove t (t.level old new due) := by
  rw [axes_level_eq]
  split
  · refine .stopped (fun a => ?_) rfl
    dsimp only
    rw [Four.get_map]
    exact .off
  · split
    · next starts => exact ⟨fun _ => .stay, fun _ => .inl starts.2.2.1⟩
    · exact ⟨fun _ => .stay, fun runs => .inr ⟨runs, fun _ h => h⟩⟩

section After
variable {s u : State} (k : AxisMoves s u)
include k

theorem AxisMoves.levelChange (old new : Level) : AxisMoves s (Machine.levelChange old new u) := by
  unfold Machine.levelChange
  refine .ite _ k ?_
  refine AxisMoves.same (u := setTripOut new (motionLevel old new u)) ?_ (screenLevel_axes _ _ _)
  exact k.setAxes (axisMove_level old new _ _)

theorem AxisMoves.originateTrip (r : Bool) : AxisMoves s (Machine.originateTrip r u).1 := by
  unfold Machine.originateTrip queueTrip
  split
  · split
    · refine AxisMoves.ring ?_ (arbitrate_ring _)
      exact k.same rfl
    · exact k.same rfl
  · exact k

theorem AxisMoves.recomputeOnce : AxisMoves s (Machine.recomputeOnce u).1 := by
  have level : AxisMoves s (recomputed u) := (k.setTrip _).levelChange _ _
  rw [recomputeOnce_eq]
  split
  · exact level
  · exact level.originateTrip false

theorem AxisMoves.reportCongestion : AxisMoves s (Machine.reportCongestion u) :=
  .ite _ k (k.setTrip (u.trip.latch .ringCongestion)).recomputeOnce

theorem AxisMoves.recompute : AxisMoves s (Machine.recompute u) :=
  .ite _ k.recomputeOnce.reportCongestion k.recomputeOnce

theorem AxisMoves.sendTrip (r : Bool) : AxisMoves s (Machine.sendTrip r u) :=
  .ite _ (k.originateTrip r).reportCongestion (k.originateTrip r)

theorem AxisMoves.offOne (a : Fin 4) : AxisMoves s (u.setAxes (u.axes.offOne a)) :=
  k.setAxes (.settled (recordMove_set .off))

theorem AxisMoves.axisFault (f : FaultId) : AxisMoves s (Machine.axisFault f u) := by
  unfold Machine.axisFault
  split
  · exact k.offOne _
  · exact k.offOne _
  · exact .ite _ (k.offOne _) k
  · exact k

theorem AxisMoves.report (f : FaultId) : AxisMoves s (Machine.report f u) :=
  .ite _ k ((k.setTrip (u.trip.latch f)).axisFault f).recompute

theorem AxisMoves.setCondition (f : FaultId) (b : Bool) : AxisMoves s (Machine.setCondition f b u) :=
  .ite _ ((k.setTrip _).report f) (k.setTrip _)

/-! ## Trips and corrections -/

theorem AxisMoves.takeTrip (src : Nat) (b : TripBody) : AxisMoves s (Machine.takeTrip src b u) := by
  have set (r : List RemoteEntry) : AxisMoves s (u.setTrip { u.trip with remote := r }) := k.setTrip _
  simp only [Machine.takeTrip]
  split
  · split
    · exact (set _).recompute
    · exact k
  · exact .ite _ (set _) (set _).recompute

theorem AxisMoves.takeCorrection (c : CorrRec) : AxisMoves s (Machine.takeCorrection u c) := by
  have set : AxisMoves s (u.setAxis c.axis { u.axis c.axis with
      corrTarget := clampInt (-((u.axis c.axis).cfg.corrMax : Int)) (u.axis c.axis).cfg.corrMax
        ((u.axis c.axis).corrTarget + c.amount) }) :=
    k.setAxis (.correct _ (natAbs_clamp_le _ _)) id
  exact .ite _ ((AxisMoves.ite _ set (set.countMotion _)).setCondition _ _) (k.countMotion _)

theorem AxisMoves.takeCorrections (cs : List CorrRec) : AxisMoves s (Machine.takeCorrections cs u) :=
  k.foldl (fun v c => (AxisMoves.refl v).takeCorrection c) cs

/-! ## The Drive Link -/

theorem AxisMoves.badOutcome (a : Fin 4) (o : DriveOutcome) : AxisMoves s (Machine.badOutcome a o u) :=
  AxisMoves.setCondition (u := (u.setDriveAxis a _).countDrive (countOutcome o)) (k.same rfl) _ _

theorem AxisMoves.endRelease (a : Fin 4) : AxisMoves s (Machine.endRelease a u) := k.setAxis .release id

theorem AxisMoves.endBatch : AxisMoves s (Machine.endBatch u) := by
  unfold Machine.endBatch
  split
  · exact .ite _ (k.same rfl) k
  · exact k

theorem AxisMoves.driveArb (n : Nat) : AxisMoves s (Machine.driveArb n u) := by
  induction n generalizing u with
  | zero => exact k
  | succ n ih =>
    refine .ite _ k ?_
    have ended := k.endBatch
    generalize Machine.endBatch u = v at ended
    dsimp only
    split
    · exact .ite _ (ended.same rfl) (ih (ended.endRelease _))
    · split
      · exact ended
      · refine .ite _ (ih (ended.same rfl)) (.ite _ (ended.same rfl) (ih (AxisMoves.badOutcome ?_ _ _)))
        exact ended.same rfl

theorem AxisMoves.driveArbitrate : AxisMoves s (Machine.driveArbitrate u) := k.driveArb 9

theorem AxisMoves.startBatch : AxisMoves s (Machine.startBatch u) := by
  have abandoned : AxisMoves s (abandonBatch u) := by
    unfold abandonBatch
    split
    · exact k
    · exact k.foldl (fun v a => .ite _ (.refl v) ((AxisMoves.refl v).badOutcome a _)) _
  exact (abandoned.setDrive _).driveArbitrate

/-- A GOOD exchange: a pending capture ends, an axis OFF follows, and the following error is checked (R117, R118). -/
theorem AxisMoves.goodOutcome (x : Exchange) (st : DriveStatus) : AxisMoves s (Machine.goodOutcome x st u) := by
  have followed {v : State} (kv : AxisMoves s v) (last : Option (BitVec 32)) :
      AxisMoves s (followCheck x.axis x.limit last st.actual v) := by
    unfold followCheck
    split
    · exact .ite _ (AxisMoves.report (u := v.countDrive _) (kv.same rfl) _) kv
    · exact kv
  have conditions := ((k.setDriveAxis x.axis { u.driveAxis x.axis with
    outcome := .good, bad := 0, status := some st, lastSetpoint := some x.setpoint }).setCondition
      (.driveLink x.axis) false).setCondition (.driveFault x.axis) st.fault
  exact .ite _ (conditions.setAxis (.capture _) id) (.ite _ (conditions.setAxis (.follow _) id)
    (.ite _ (followed conditions _) conditions))

theorem AxisMoves.batchOutcome (x : Exchange) (b : List Byte) : AxisMoves s (Machine.batchOutcome x b u) := by
  refine .ite _ k ?_
  split
  · exact k.goodOutcome _ _
  · exact (k.setDriveAxis _ _).badOutcome _ _

theorem AxisMoves.completeExchange (x : Exchange) (b : List Byte) :
    AxisMoves s (Machine.completeExchange x b u) := by
  have free := k.setDrive { u.drive with exchange := none }
  exact AxisMoves.driveArbitrate (.ite _ (.ite _ (free.endRelease _) ((free.endRelease _).same rfl))
    (.ite _ free (free.batchOutcome x b)))

theorem AxisMoves.dropExchange (x : Exchange) : AxisMoves s (Machine.dropExchange x u) := by
  have free := k.setDrive { u.drive with exchange := none }
  exact AxisMoves.driveArbitrate (.ite _ (free.endRelease _) (.ite _ free (free.badOutcome _ _)))

/-! ## The Image Unit -/

theorem AxisMoves.abandonLine : AxisMoves s (Machine.abandonLine u) := (k.setImage _).setCondition _ _

theorem AxisMoves.closeWindows (f : Window → Bool) : AxisMoves s (Machine.closeWindows f u) := by
  refine k.foldl (fun v i => ?_) _
  have kept := AxisMoves.refl v
  simp only [closeWindow]
  split
  · exact .ite _ ((kept.setImage _).report _) (kept.same rfl)
  · exact kept.same rfl

theorem AxisMoves.insertLocal (cls : FrameClass) (stream dest len : Nat) (b : Body) (wire : Option (List Byte)) :
    AxisMoves s (Machine.insertLocal u cls stream dest len b wire) :=
  k.control (insertLocal_control u cls stream dest len b wire)

theorem AxisMoves.repeatBoundary (l : CameraLine) : AxisMoves s (Machine.repeatBoundary l u) := by
  have flushed : AxisMoves s (flushCorrections u) := .ite _ (k.same rfl) ((k.setImage _).foldl (fun v e =>
    .ite _ ((AxisMoves.refl v).takeCorrections _) ((AxisMoves.refl v).insertLocal _ _ _ _ _ _)) _)
  exact flushed.setImage _

theorem AxisMoves.queueAssembly : AxisMoves s (Machine.queueAssembly u) :=
  .ite _ k (.ite _ (k.same rfl) ((k.setImage _).insertLocal _ _ _ _ _ _))

theorem AxisMoves.viewSegment (stream : Nat) (g : Segment) : AxisMoves s (Machine.viewSegment u stream g) := by
  unfold Machine.viewSegment
  split
  · exact k.same rfl
  all_goals exact k.same rfl

theorem AxisMoves.streamLine (l : CameraLine) (fresh : Bool) (pixels : List Byte) :
    AxisMoves s (Machine.streamLine l fresh pixels u) := by
  have place (v : State) (g : Segment) : AxisMoves v (placeSegment v g) := by
    have viewed := ((AxisMoves.refl v).setImage { v.image with
      asm := v.image.asm ++ [g],
      asmStream := if v.image.asm.isEmpty then v.image.cam.stream else v.image.asmStream }).viewSegment
        v.image.cam.stream g
    exact .ite _ viewed.queueAssembly viewed
  have assembled : AxisMoves s (if fresh then Machine.queueAssembly u else u) := .ite _ k.queueAssembly k
  refine .ite _ ?_ assembled
  exact AxisMoves.foldl (.ite _ assembled assembled.queueAssembly) place _

theorem AxisMoves.endLine (l : CameraLine) (pixels : List Byte) : AxisMoves s (Machine.endLine l pixels u) := by
  have checked : AxisMoves s (webCheck pixels (reportCamera (u.setImage
      { u.image with line := none, abandoned := 0 }))) :=
    (((k.setImage _).setCondition _ _).setImage _).setCondition _ _
  simp only [Machine.endLine]
  generalize webCheck pixels _ = v at checked
  have closed : AxisMoves s (if v.image.newRepeat l then Machine.closeWindows (fun _ => true) v else v) :=
    .ite _ (checked.closeWindows _) checked
  generalize (if v.image.newRepeat l then Machine.closeWindows (fun _ => true) v else v) = w at closed
  have begun : AxisMoves s (if v.image.newRepeat l then Machine.repeatBoundary l w
      else if w.image.prevIndex.isNone then w.setImage { w.image with repeatNo := l.repeatNo } else w) :=
    .ite _ (closed.repeatBoundary l) (.ite _ (closed.setImage _) closed)
  exact (((begun.setImage _).closeWindows _).streamLine _ _ _).setImage _

/-! ## The cycle -/

theorem AxisMoves.stepAxes (adv : Int) : AxisMoves s (Machine.stepAxes adv u) := by
  refine k.setAxes (.recs (fun a => ?_) fun a coupled => ?_)
  · rw [Four.get_map]
    exact .step adv
  · rw [Four.get_map, axisStep, coupled]
    exact coupled

theorem AxisMoves.coast : AxisMoves s (u.setAxes u.axes.coast) := by
  refine k.setAxes (.settled fun a => ?_)
  rw [Four.get_map]
  exact .coast

theorem AxisMoves.stopTimer : AxisMoves s (u.setAxes { u.axes with stopTimer := none }) :=
  k.setAxes (.stopped (fun _ => .stay) rfl)

theorem AxisMoves.applySteps (take : Bool) (adv : Int) : AxisMoves s (Machine.applySteps take adv u) :=
  (k.stepAxes adv).startBatch.setImage _

theorem AxisMoves.reportJump (j : Bool) : AxisMoves s (Machine.reportJump j u) := .ite _ (k.report _) k

theorem AxisMoves.applyExact (f : PendingCycle) : AxisMoves s (Machine.applyExact f u) := by
  have confirmed {v : State} (kv : AxisMoves s v) (st : MasterState) : AxisMoves s (confirmStop st v) := by
    cases st with
    | stopping | stopped => exact kv.stopTimer
    | ramping | running => exact kv
  exact (confirmed (((k.reportJump _).setCtx _).applySteps _ _) _).setCtx _

theorem AxisMoves.applyExtrapolated : AxisMoves s (Machine.applyExtrapolated u) := by
  have coasted : AxisMoves s (coastApply u) :=
    ((((k.reportJump _).countMotion _).setCtx _).applySteps _ _).setCtx _
  rw [applyExtrapolated_eq]
  exact .ite _ ((coasted.setCtx _).setCondition .cycleLoss true).coast coasted

theorem AxisMoves.pendingDue (n : Nat) : AxisMoves s (Machine.pendingDue n u) := by
  induction n generalizing u with
  | zero => exact k
  | succ n ih =>
    simp only [Machine.pendingDue]
    split
    · next f _ =>
      have based : AxisMoves s (baseTake f u) := (((k.setCondition _ _).setCtx _).applySteps true 0).setCtx _
      have due : AxisMoves s (if f.num = u.ctx.lastCycle + 1 then Machine.applyExact f u
          else Machine.pendingDue n (Machine.applyExtrapolated u)) :=
        .ite _ (k.applyExact f) (ih k.applyExtrapolated)
      refine .ite _ k ?_
      split
      · exact based
      · exact based
      · exact due
      · exact due
    · exact k

theorem AxisMoves.lateCycle (late : Bool) : AxisMoves s (Machine.lateCycle late u) :=
  .ite _ ((k.countMotion _).report _) k

theorem AxisMoves.pendCycle (late : Bool) (f : PendingCycle) : AxisMoves s (Machine.pendCycle late f u) := by
  unfold Machine.pendCycle
  split
  · exact (k.setCtx _).lateCycle late
  · exact .ite _ (((k.setCtx _).countMotion _).lateCycle late) (k.countMotion _)

theorem AxisMoves.resync (late : Bool) (f : PendingCycle) : AxisMoves s (Machine.resync late f u) :=
  (k.setCtx _).lateCycle late

theorem AxisMoves.classifyCycle (age : Nat) (c : CycleBody) : AxisMoves s (Machine.classifyCycle age c u) := by
  have pend := k.pendCycle (isLate age c) (pendingOf u.clock age c)
  have stale : AxisMoves s (countStale u) := k.countMotion _
  have following := AxisMoves.ite (c.num = u.ctx.lastCycle)
    (.ite (u.ctx.state = .coasting ∧ u.ctx.delta = none) (k.resync (isLate age c) (pendingOf u.clock age c)) stale)
    (.ite (aheadOf c.num u.ctx.lastCycle = true) pend stale)
  simp only [Machine.classifyCycle]
  split
  · exact pend
  · exact pend
  · exact following
  · exact following

theorem AxisMoves.takeCycle (src : Nat) (tag : BitVec 16) (age : Nat) (c : CycleBody) :
    AxisMoves s (Machine.takeCycle src tag age c u) :=
  .ite _ ((k.setCtx _).classifyCycle age c) (.ite _ (k.classifyCycle age c) ((k.countMotion _).report _))

theorem AxisMoves.issueCycle : AxisMoves s (Machine.issueCycle u) := by
  have queued : AxisMoves s (queueCycle u u.gen.cfg.stream (u.gen.body u.trip.levels.eff)).1 := by
    simp only [queueCycle]
    split
    · refine AxisMoves.ring ?_ (arbitrate_ring _)
      exact k.same rfl
    · split
      · refine AxisMoves.ring ?_ (arbitrate_ring _)
        exact k.same rfl
      · exact k.same rfl
  exact AxisMoves.takeCycle (.ite _ k (.ite _ queued.reportCongestion queued)) _ _ _ _

end After

end Sys2Proof.Machine
end

