-- ==== Sys2Proof/Proofs/AxisMovesCommands.lean ====
section
/-! The management commands move the axis table: the axis commands, a WRITE of the AXIS table that passes its checks, and
the resets (R87 to R96, R194). -/

namespace Sys2Proof.Machine

/-! ## A WRITE of the AXIS table -/

/-- A WRITE is taken only where every entry passes its checks (R187). -/
theorem passed_of_firstFailure {α : Type} {check : α → Option Resp} {es : List α} {n : Nat}
    (h : firstFailure check n es = none) : ∀ x ∈ es, check x = none := by
  induction es generalizing n with
  | nil => intro x hx; cases hx
  | cons x es ih =>
    rw [firstFailure] at h
    split at h
    · cases h
    · next hx => exact List.forall_mem_cons.mpr ⟨hx, ih h⟩

/-- An axis keeps its configuration where no entry names it, and has that of one of its entries where one does (R187). -/
theorem writtenAxis_cases (es : List (Nat × AxisConfig)) (a : Fin 4) (old : AxisConfig) :
    (∀ x ∈ es, x.1 ≠ a.val) ∧ writtenAxis es a old = old ∨
    ∃ x ∈ es, x.1 = a.val ∧ writtenAxis es a old = x.2 := by
  induction es generalizing old with
  | nil => exact .inl ⟨nofun, rfl⟩
  | cons x es ih =>
    rw [writtenAxis, List.foldl_cons]
    rcases ih (if x.1 = a.val then x.2 else old) with ⟨none, same⟩ | ⟨y, hy, named, last⟩
    · rw [writtenAxis] at same
      rw [same]
      by_cases hx : x.1 = a.val
      · rw [if_pos hx]
        exact .inr ⟨x, List.mem_cons_self, hx, rfl⟩
      · rw [if_neg hx]
        exact .inl ⟨List.forall_mem_cons.mpr ⟨hx, none⟩, rfl⟩
    · exact .inr ⟨y, List.mem_cons_of_mem x hy, named, last⟩

theorem gearChanged_self (c : AxisConfig) : gearChanged c c = false := by
  simp only [gearChanged, bne_self_eq_false, Bool.or_self]

/-- What a WRITE of the AXIS table that passes its checks does to a record (R87). -/
theorem recordMove_written {es : List (Nat × AxisConfig)} {s : State} (h : ∀ x ∈ es, checkAxis es s x = none)
    (a : Fin 4) : RecordMove (s.axis a) (writeAxisRecord (writtenAxis es a (s.axis a).cfg) (s.axis a)) := by
  rcases writtenAxis_cases es a (s.axis a).cfg with ⟨-, same⟩ | ⟨x, hx, named, last⟩
  · have kept : writeAxisRecord (s.axis a).cfg (s.axis a) = s.axis a := by
      simp only [writeAxisRecord, gearChanged_self, Bool.false_eq_true, if_false]
    rw [same, kept]
    exact .stay
  · have passed := h x hx
    have index : Fin.ofNat 4 x.1 = a := by rw [named]; exact Fin.ofNat_val_eq_self a
    rw [checkAxis, index, last] at passed
    have ranges := failIf_passed .badValue passed (List.mem_cons_of_mem _ List.mem_cons_self)
    have bounds := failIf_passed .inUse passed
      (List.mem_cons_of_mem _ (List.mem_cons_of_mem _ (List.mem_cons_of_mem _ List.mem_cons_self)))
    rw [Bool.or_eq_false_iff, decide_eq_false_iff_not, decide_eq_false_iff_not, Nat.not_lt, Nat.not_lt] at bounds
    rw [last]
    exact .write x.2 (by simpa using ranges) bounds.1 bounds.2

theorem writeAxes_get (es : List (Nat × AxisConfig)) (s : State) (a : Fin 4) :
    (writeAxes es s).axis a = writeAxisRecord (writtenAxis es a (s.axis a).cfg) (s.axis a) := by
  fin_cases a <;> rfl

/-! ## COUPLE -/

/-- The last checks of COUPLE, made in STANDBY and HELD (R92). -/
theorem checkCouple_atRest {a : Fin 4} {s : State} (h : (s.axis a).state = .standby ∨ (s.axis a).state = .held) :
    checkCouple a s =
      if 1 < s.trip.levels.eff.rank then some .tripped
      else if s.ctx.state ≠ .tracking then some .notReady
      else if s.ctx.speed ≠ 0 then some .notAtRest
      else match (s.driveAxis a).status with
        | some st => if (s.axis a).capture || !st.ready || !st.enabled then some .notReady else none
        | none => some .notReady := by
  unfold checkCouple
  rcases h with h | h <;> simp only [h] <;> rfl

/-- An axis is coupled only from STANDBY or HELD, with no capture pending (R92). -/
theorem checkCouple_passed {a : Fin 4} {s : State} (h : checkCouple a s = none) :
    ((s.axis a).state = .standby ∨ (s.axis a).state = .held) ∧ (s.axis a).capture = false := by
  have rest : (s.axis a).state = .standby ∨ (s.axis a).state = .held := by
    unfold checkCouple at h
    cases hs : (s.axis a).state with
    | standby => exact .inl rfl
    | held => exact .inr rfl
    | coupled | coastdown | disabled | off =>
      simp only [hs] at h
      cases h
  refine ⟨rest, Bool.eq_false_iff.mpr fun captured => ?_⟩
  rw [checkCouple_atRest rest, captured] at h
  cases hd : (s.driveAxis a).status with
  | none =>
    rw [hd] at h
    split_ifs at h
  | some st =>
    rw [hd] at h
    split_ifs at h
    cases h

section After
variable {s u : State} (k : AxisMoves s u)
include k

/-! ## The course of a command -/

/-- A command whose own effects are moves is moves in its whole course (R184). -/
theorem AxisMoves.stationCommand (e : Envelope) (cmd : MgmtCmd) (wf fb : Bool) {run : State → State × Answer}
    (h : ∀ {v}, AxisMoves s v → AxisMoves s (run v).1) :
    AxisMoves s (Machine.stationCommand e cmd wf fb run u) := by
  have taken := k.queue (countTaken_queue u)
  refine .ite _ k (.ite _ (k.queue (refuse_queue _ _ _ _)) (.ite _ (taken.same rfl) ?_))
  exact (((h taken).queue (countRefused_queue _ _ _)).same (t := restartTimers _) rfl).queue (respond_queue _ _ _ _)

theorem AxisMoves.onAxis (axis : Nat) {run : Fin 4 → State → State × Answer}
    (h : ∀ a, AxisMoves s (run a u).1) : AxisMoves s (Machine.onAxis axis run u).1 := by
  unfold Machine.onAxis
  split
  · exact h _
  · exact k

theorem AxisMoves.runWrite {α : Type} {check : State → α → Option Resp} {es : List α}
    {act : State → State × Answer} (h : (∀ x ∈ es, check u x = none) → AxisMoves s (act u).1) :
    AxisMoves s (Machine.runWrite check es act u).1 := by
  unfold Machine.runWrite
  split
  · exact k
  · next passed => exact h (passed_of_firstFailure passed)

theorem AxisMoves.settlePublish (before : Option Nat) : AxisMoves s (Machine.settlePublish before u) := by
  unfold Machine.settlePublish
  split
  · exact k.sendTrip _
  · exact .ite _ k (k.sendTrip _)
  · exact k

theorem AxisMoves.changeAddress (new : Nat) : AxisMoves s (Machine.changeAddress new u) := by
  have own {v : State} (kv : AxisMoves s v) : AxisMoves s (dropOwnRemote v) := by
    unfold dropOwnRemote
    split
    · exact (kv.setTrip _).recompute
    · exact kv
  exact .ite _ k (own ((k.setStation _).setSw _))

theorem AxisMoves.setAddress (new : Nat) : AxisMoves s (Machine.setAddress new u) :=
  (k.changeAddress new).settlePublish _

/-! ## Axis commands -/

theorem AxisMoves.runEnable (a : Fin 4) : AxisMoves s (Machine.runEnable a u).1 := by
  simp only [Machine.runEnable]
  split
  · exact k
  · next off =>
    have idle : axisEnabled (u.axis a).state = false := by simpa using off
    split
    · exact k
    · split
      · exact k
      · exact (k.setAxis (.enable idle) fun coupled => by rw [coupled] at idle; cases idle).same rfl

theorem AxisMoves.runCouple (a : Fin 4) : AxisMoves s (Machine.runCouple a u).1 := by
  unfold Machine.runCouple checked
  split
  · exact k
  · next passed =>
    obtain ⟨rest, free⟩ := checkCouple_passed passed
    exact (k.setAxis (.couple (u.lastActual a) rest free) fun _ => rfl).setCondition _ _

theorem AxisMoves.runDecouple (a : Fin 4) : AxisMoves s (Machine.runDecouple a u).1 := by
  simp only [Machine.runDecouple]
  split
  · exact k
  · next coupled =>
    split
    · exact k
    · exact k.settleAxis (.decouple (not_not.mp coupled))

theorem AxisMoves.runDisable (a : Fin 4) : AxisMoves s (Machine.runDisable a u).1 := by
  unfold Machine.runDisable
  split
  · exact k
  · exact ((((k.settleAxis .disable).setDriveAxis a _).setCondition (.driveFault a) false).setCondition
      (.driveLink a) false).driveArbitrate

theorem AxisMoves.runSetPhase (target : Int) (a : Fin 4) : AxisMoves s (Machine.runSetPhase target a u).1 := by
  simp only [Machine.runSetPhase]
  split
  · exact k.setAxis (.phase _ (natAbs_clamp_le (2 ^ 30) target)) id
  · exact k

theorem AxisMoves.runResetCorrection (a : Fin 4) : AxisMoves s (Machine.runResetCorrection a u).1 :=
  (k.setAxis (r := { u.axis a with corrTarget := 0 }) (.correct 0 (Nat.zero_le _)) id).setCondition _ _

/-! ## Master and fault commands -/

theorem AxisMoves.runSetSpeed (target : Nat) : AxisMoves s (Machine.runSetSpeed target u).1 := by
  simp only [Machine.runSetSpeed]
  repeat' split
  all_goals exact k.same rfl

theorem AxisMoves.runMasterStop : AxisMoves s (Machine.runMasterStop u).1 := by
  simp only [Machine.runMasterStop]
  repeat' split
  all_goals exact k.same rfl

theorem AxisMoves.runClearFaults (groups : List Nat) : AxisMoves s (Machine.runClearFaults groups u).1 := by
  simp only [Machine.runClearFaults]
  split
  · exact k
  · exact (k.setTrip (clearTree groups u.trip)).recompute

theorem AxisMoves.runTrip (level : Nat) : AxisMoves s (Machine.runTrip level u).1 := by
  unfold Machine.runTrip
  split
  · exact k
  · exact k
  · exact .ite _ (k.setTrip _).recompute k

/-! ## Tables -/

theorem AxisMoves.runWriteStation (via : Via) (es : List (Nat × StationEntry)) :
    AxisMoves s (Machine.runWriteStation via es u).1 := by
  refine k.runWrite (act := okAfter (writeStation es)) fun _ => ?_
  have stopped {v : State} (kv : AxisMoves s v) : AxisMoves s (stopZeroTimeouts v) := by
    have short : AxisMoves s (if v.station.cfg.shortTimeout = 0 then
        Machine.setCondition .mgmtSilent false (v.setStation { v.station with shortTimer := none }) else v) :=
      .ite _ (kv.same rfl) kv
    exact .ite _ (short.same (t := Machine.setCondition .mgmtLost false _) rfl) short
  have linked {v : State} (kv : AxisMoves s v) : AxisMoves s (reportLinks v) :=
    kv.foldl (fun v a => (AxisMoves.refl v).setCondition _ _) _
  refine AxisMoves.settlePublish (stopped ?_) _
  have addressed := (k.setStation { u.station with
    cfg := es.foldl (fun _ e => e.2.fields) u.station.cfg }).changeAddress (writtenAddress u.station.address es)
  have after := AxisMoves.ite ((es.foldl (fun _ e => e.2.fields) u.station.cfg).driveLimit = u.station.cfg.driveLimit)
    addressed (linked addressed)
  exact .ite _ (after.same rfl) after

theorem AxisMoves.runWriteMaster (es : List (Nat × MasterRecord)) : AxisMoves s (Machine.runWriteMaster es u).1 := by
  unfold Machine.runWriteMaster
  exact k.runWrite fun _ => k.same rfl

theorem AxisMoves.runWriteCamera (es : List (Nat × CameraRecord)) : AxisMoves s (Machine.runWriteCamera es u).1 := by
  refine k.runWrite (act := okAfter (writeCamera _)) fun _ => ?_
  generalize lastRecord u.image.cam es = new
  have queued : AxisMoves s (if streamChanged u.image.cam new then Machine.queueAssembly u else u) :=
    .ite _ k.queueAssembly k
  exact (AxisMoves.ite _ (queued.setImage _).abandonLine (queued.setImage _)).setCondition _ _

theorem AxisMoves.runWriteAxis (es : List (Nat × AxisConfig)) : AxisMoves s (Machine.runWriteAxis es u).1 := by
  refine k.runWrite (act := okAfter fun v => reportWrittenLimits es (writeAxes es v)) fun passed => ?_
  refine AxisMoves.foldl (k.setAxes (.recs (fun a => ?_) fun a coupled => ?_))
    (fun v e => (AxisMoves.refl v).setCondition _ _) es
  · change RecordMove _ ((writeAxes es u).axis a)
    rw [writeAxes_get]
    exact recordMove_written passed a
  · exact (congrArg AxisRecord.state (writeAxes_get es u a)).trans coupled

theorem AxisMoves.runWriteFaultConfig (es : List (Nat × FaultSetting)) :
    AxisMoves s (Machine.runWriteFaultConfig es u).1 := by
  unfold Machine.runWriteFaultConfig
  exact k.runWrite fun _ => (k.setTrip _).recompute

theorem AxisMoves.runWriteMasks (es : List (Nat × List Bool)) : AxisMoves s (Machine.runWriteMasks es u).1 := by
  unfold Machine.runWriteMasks
  exact k.runWrite fun _ => (k.setTrip _).recompute

theorem AxisMoves.runWriteTap (es : List (Nat × Option TapFields)) : AxisMoves s (Machine.runWriteTap es u).1 := by
  unfold Machine.runWriteTap
  exact k.runWrite fun _ => k.same rfl

theorem AxisMoves.runWritePanel (es : List (Nat × PanelRecord)) : AxisMoves s (Machine.runWritePanel es u).1 := by
  unfold Machine.runWritePanel
  exact k.runWrite fun _ => k.same rfl

theorem AxisMoves.runWriteWindow (es : List (Nat × WindowConfig)) : AxisMoves s (Machine.runWriteWindow es u).1 := by
  unfold Machine.runWriteWindow
  exact k.runWrite fun _ => k.same rfl

theorem AxisMoves.runWriteTileMap (es : List (Nat × TileFields)) : AxisMoves s (Machine.runWriteTileMap es u).1 := by
  unfold Machine.runWriteTileMap
  exact k.runWrite fun _ => k.same rfl

theorem AxisMoves.runWriteBanner (es : List (Nat × List Byte)) : AxisMoves s (Machine.runWriteBanner es u).1 := by
  unfold Machine.runWriteBanner
  exact k.runWrite fun _ => k.same rfl

theorem AxisMoves.commandWrite (e : Envelope) (w : WriteSet) : AxisMoves s (Machine.commandWrite e w u) := by
  cases w with
  | station es => exact k.stationCommand _ _ _ _ fun k => k.runWriteStation _ es
  | master es => exact k.stationCommand _ _ _ _ fun k => k.runWriteMaster es
  | camera es => exact k.stationCommand _ _ _ _ fun k => k.runWriteCamera es
  | axis es => exact k.stationCommand _ _ _ _ fun k => k.runWriteAxis es
  | faultConfig es => exact k.stationCommand _ _ _ _ fun k => k.runWriteFaultConfig es
  | masks es => exact k.stationCommand _ _ _ _ fun k => k.runWriteMasks es
  | panel es => exact k.stationCommand _ _ _ _ fun k => k.runWritePanel es
  | tap es => exact k.stationCommand _ _ _ _ fun k => k.runWriteTap es
  | window es => exact k.stationCommand _ _ _ _ fun k => k.runWriteWindow es
  | tileMap es => exact k.stationCommand _ _ _ _ fun k => k.runWriteTileMap es
  | banner es => exact k.stationCommand _ _ _ _ fun k => k.runWriteBanner es
  | other table count => exact k.stationCommand e _ _ true (run := fun v => (v, _)) fun k => k

theorem AxisMoves.runRead (t : TableId) (first count : Nat) (clear : Bool) :
    AxisMoves s (Machine.runRead t first count clear u).1 := by
  have cleared (v : State) (e : Nat × EntryData) : AxisMoves v (clearCounters e.1 v) := by
    have kept := AxisMoves.refl v
    unfold clearCounters
    split
    · exact kept.setPort _ _
    · exact kept.setPort _ _
    · exact kept.same rfl
    · exact kept.same rfl
    · exact kept.countMotion _
    all_goals exact kept.same rfl
  unfold Machine.runRead checked
  split
  · exact k
  · exact .ite _ (k.foldl cleared _) k

/-! ## RESET STATION -/

theorem AxisMoves.resetStation : AxisMoves s (Machine.resetStation u) := by
  have switched : AxisMoves s (resetSwitch u) := ((k.setPort .a _).setPort .b _).setSw _
  have control : AxisMoves s (resetControl (resetSwitch u)) := switched.setStation _
  have motion : AxisMoves s (resetMotion (resetControl (resetSwitch u))) := by
    refine control.setAxes (.stopped (fun a => ?_) rfl)
    dsimp only
    rw [Four.get_map]
    exact .reset
  exact AxisMoves.driveArbitrate (AxisMoves.recompute (motion.same rfl))

/-! ## Every management command -/

theorem AxisMoves.sweepAddressed (via : Via) (cmd : MgmtCmd) (tag : BitVec 16) (ok : Bool) :
    AxisMoves s (Machine.sweepAddressed via cmd tag ok u) :=
  .ite _ (k.stationCommand _ _ _ _ fun k => k) (.ite _ k (k.queue (refuse_queue _ _ _ _)))

theorem AxisMoves.commandCode (e : Envelope) (cmd : MgmtCmd) : AxisMoves s (Machine.commandCode e cmd u) := by
  cases cmd with
  | read t first count clear => exact k.stationCommand _ _ _ _ fun k => k.runRead t first count clear
  | write w => exact k.commandWrite e w
  | status => exact k.stationCommand _ _ _ _ fun k => k
  | clearFaults groups => exact k.stationCommand _ _ _ _ fun k => k.runClearFaults groups
  | clearRemote => exact k.stationCommand _ _ _ _ fun k => (k.setTrip _).recompute
  | trip level => exact k.stationCommand _ _ _ _ fun k => k.runTrip level
  | enableAxis axis => exact k.stationCommand _ _ _ _ fun k => k.onAxis axis k.runEnable
  | couple axis => exact k.stationCommand _ _ _ _ fun k => k.onAxis axis k.runCouple
  | decouple axis => exact k.stationCommand _ _ _ _ fun k => k.onAxis axis k.runDecouple
  | disableAxis axis => exact k.stationCommand _ _ _ _ fun k => k.onAxis axis k.runDisable
  | setPhase axis target => exact k.stationCommand _ _ _ _ fun k => k.onAxis axis (k.runSetPhase target)
  | resetCorrection axis => exact k.stationCommand _ _ _ _ fun k => k.onAxis axis k.runResetCorrection
  | setSpeed target => exact k.stationCommand _ _ _ _ fun k => k.runSetSpeed target
  | masterStop => exact k.stationCommand _ _ _ _ fun k => k.runMasterStop
  | enumerate first next => exact k.sweepAddressed _ _ _ _
  | collect => exact k.sweepAddressed _ _ _ _
  | resetStation => exact k.stationCommand _ _ _ _ fun k => k.resetStation
  | unknown code => exact k.queue (refuse_queue _ _ _ _)

theorem AxisMoves.takeCommand (via : Via) (b : MgmtBody) : AxisMoves s (Machine.takeCommand via b u) := by
  unfold Machine.takeCommand
  split
  · exact k.commandCode _ _
  · exact k.queue (refuse_queue _ _ _ _)
  · exact k.queue (refuse_queue _ _ _ _)

end After

end Sys2Proof.Machine
end

