-- ==== Sys2Proof/Proofs/AxisMovesSteps.lean ====
section
/-! Every command moves the axis table: the events of the fibre, the frames delivered, the sweeps, the frame port and the
timers; so every step keeps the axis records in range, and the stop-confirm timer with a COUPLED axis. -/

namespace Sys2Proof.Machine

section After
variable {s u : State} (k : AxisMoves s u)
include k

/-! ## The receive sides -/

theorem AxisMoves.truncate (p : PortId) : AxisMoves s (Machine.truncate u p) :=
  ((((k.setPort p _).setPort p _).setSw _).ring (abortCopyOn_ring _ p .a)).ring (abortCopyOn_ring _ p .b)

theorem AxisMoves.arbitrate : AxisMoves s (Machine.arbitrate u) := k.ring (arbitrate_ring u)

theorem AxisMoves.reportRing (p : PortId) : AxisMoves s (Machine.reportRing p u) :=
  (k.setCondition _ _).setCondition _ _

theorem AxisMoves.updateRole : AxisMoves s (Machine.updateRole u) := k.control (blocksStay_updateRole u).control

theorem AxisMoves.changeRx (p : PortId) (rx : RxState) (short : Bool) :
    AxisMoves s (Machine.changeRx u p rx short) := by
  by_cases h : (u.port p).rx = .sync <;> by_cases hrx : rx = .sync
  · rw [hrx, changeRx_same short h]
    exact k
  · rw [changeRx_leave short h hrx, leaveSync_eq]
    have failed : AxisMoves s (failSide u p rx) := k.setPort p _
    have cut : AxisMoves s (cutFrame (failSide u p rx) p short) := .ite _ (failed.truncate p) failed
    exact (cut.ring (abortTx_ring _ p)).updateRole.reportRing p
  · rw [hrx, changeRx_enter short h, enterSync_eq]
    exact ((k.setPort p _).updateRole (u := healSide u p)).reportRing p
  · rw [changeRx_outside short h hrx]
    exact k.setPort p _

theorem AxisMoves.badSymbol (p : PortId) (pos : Nat) : AxisMoves s (Machine.badSymbol u p pos) := by
  have counted : AxisMoves s (symbolCounted u p pos) := k.setPort p _
  rw [badSymbol_eq]
  exact .ite _ (.ite _ (counted.changeRx p _ _) counted) k

theorem AxisMoves.cutSymbol (p : PortId) (by_ : CutBy) : AxisMoves s (Machine.cutSymbol u p by_) := by
  cases by_ with
  | invalid pos => exact k.badSymbol p pos
  | brk => exact k.setPort p _
  | overlong => exact k.setPort p _
  | startDelimiter | idle | breakHeard => exact k

theorem AxisMoves.reserve (p : PortId) (stamp : Nat) (h : Header) (b : Bool) :
    AxisMoves s (Machine.reserve u p stamp h b).1 := by
  simp only [Machine.reserve]
  repeat' split
  all_goals exact k.same rfl

theorem AxisMoves.beginFrame (p : PortId) (stamp : Nat) (h : Header) (b : Bool) :
    AxisMoves s (Machine.beginFrame u p stamp h b) :=
  ((AxisMoves.ite _ (k.truncate p).arbitrate k).reserve p stamp h b).setPort p _

theorem AxisMoves.reach32 (p : PortId) : AxisMoves s (Machine.reach32 u p) := by
  unfold Machine.reach32
  split
  · exact ((k.setPort p _).setSw _).arbitrate
  · exact k

/-! ## Delivery -/

theorem AxisMoves.deliverPort (f : Frame) : AxisMoves s (Machine.deliverPort u f) := k.queue (deliverPort_queue u f)

theorem AxisMoves.answerPort (cmd : MgmtCmd) (tag : BitVec 16) (a : Answer) :
    AxisMoves s (Machine.answerPort cmd tag a u) := k.queue (answerPort_queue cmd tag a u)

theorem AxisMoves.settleDrop (q : PortId) : AxisMoves s (Machine.settleDrop u q) := k.ring (settleDrop_ring u q)

theorem AxisMoves.placeTransit (f : Frame) : AxisMoves s (Machine.placeTransit u f) := k.ring (placeTransit_ring u f)

theorem AxisMoves.settleForward (q : PortId) (f : Frame) : AxisMoves s (Machine.settleForward u q f) := by
  unfold Machine.settleForward
  split
  · exact (k.setSw _).arbitrate
  · exact k.ring ((completeCopyOn_ring u q .a f).trans (completeCopyOn_ring _ q .b f))
  · exact .ite _ (.ite _ (k.setSw _).arbitrate (k.setSw _).reportCongestion) (k.placeTransit f)

theorem AxisMoves.settleFrame (forward : Bool) (q : PortId) (f : Frame) :
    AxisMoves s (Machine.settleFrame forward u q f) := .ite _ (k.settleForward q f) (k.settleDrop q)

theorem AxisMoves.deliverCorrections (f : Frame) : AxisMoves s (Machine.deliverCorrections u f) := by
  unfold Machine.deliverCorrections
  split
  · split
    · exact k.takeCorrections _
    · exact k
  · exact k

theorem AxisMoves.deliverTrip (f : Frame) : AxisMoves s (Machine.deliverTrip u f) := by
  unfold Machine.deliverTrip
  split
  · split
    · exact k.takeTrip _ _
    · exact k
  · exact k

theorem AxisMoves.deliverCycle (f : Frame) : AxisMoves s (Machine.deliverCycle u f) := by
  unfold Machine.deliverCycle
  split
  · split
    · exact k.takeCycle _ _ _ _
    · exact k
  · exact k

theorem AxisMoves.takeSegments (stream : Nat) (tail : Bool) (gs : List Segment) :
    AxisMoves s (Machine.takeSegments stream tail gs u) := by
  induction gs generalizing u with
  | nil => exact .ite _ (k.same rfl) k
  | cons g gs ih => exact .ite _ (ih (k.viewSegment stream g)) (k.same rfl)

theorem AxisMoves.deliverUnit (f : Frame) : AxisMoves s (Machine.deliverUnit u f) := by
  unfold Machine.deliverUnit
  split
  · exact k.deliverTrip f
  · exact k.deliverCycle f
  · unfold deliverImage
    split
    · exact k.takeSegments _ _ _
    · exact k.same rfl
  · unfold deliverScreen
    split
    · exact .ite _ (k.same rfl) (k.same rfl)
    · exact .ite _ k (k.same rfl)
  all_goals exact k

theorem AxisMoves.tapFrame (deliver : Bool) (q : PortId) (f : Frame) :
    AxisMoves s (Machine.tapFrame deliver q f u) := by
  unfold Machine.tapFrame
  split
  · exact k.settleForward q f
  · next t _ =>
    have delivered : AxisMoves s (if deliver then
        (match t.target with | .unit => Machine.deliverUnit u f | .port => Machine.deliverPort u f) else u) := by
      refine .ite _ ?_ k
      split
      · exact k.deliverUnit f
      · exact k.deliverPort f
    split
    · exact k.settleDrop q
    · exact delivered.settleFrame _ q f

/-! ## Sweeps -/

theorem AxisMoves.countTaken : AxisMoves s (Machine.countTaken u) := k.same rfl

theorem AxisMoves.enumerateMove (stream len first next : Nat) (w : Sweep) :
    AxisMoves s (Machine.enumerateMove stream len first next w u) :=
  .ite _ (k.answerPort _ _ _) (.ite _ (k.countTaken.answerPort _ _ _)
    ((AxisMoves.ite _ (k.countTaken.setAddress next) k.countTaken).insertLocal _ _ _ _ _ _))

theorem AxisMoves.collectMove (stream len : Nat) (w : Sweep) (ds : List Digest) :
    AxisMoves s (Machine.collectMove stream len w ds u) :=
  .ite _ (k.countTaken.answerPort _ _ _) (.ite _ (k.answerPort _ _ _) (k.countTaken.insertLocal _ _ _ _ _ _))

theorem AxisMoves.enumeratePass (h : Header) (first next : Nat) (w : Sweep) (d : RespData) :
    AxisMoves s (Machine.enumeratePass h first next w d u) := by
  have inPlace : AxisMoves s (enumerateInPlace next w u).1 := by
    unfold enumerateInPlace
    split
    · split
      · exact k.setAddress _
      · split
        · exact k.setAddress _
        · exact k
    · exact k
  exact inPlace.placeTransit _

theorem AxisMoves.sweepFrame (q : PortId) (f : Frame) (b : MgmtBody) :
    AxisMoves s (Machine.sweepFrame q f b u) := by
  unfold Machine.sweepFrame
  split
  · exact (k.settleDrop q).enumeratePass _ _ _ _ _
  · exact .ite _ (k.settleForward q f) ((k.settleDrop q).placeTransit _)
  · exact k.settleForward q f

theorem AxisMoves.returnedSweep (f : Frame) : AxisMoves s (Machine.returnedSweep f u) := by
  refine .ite _ ?_ k
  split
  · exact k.deliverPort _
  · exact k.deliverPort _
  · exact k

/-! ## A frame at its arrival -/

theorem AxisMoves.mgmtFrame (deliver : Bool) (q : PortId) (f : Frame) :
    AxisMoves s (Machine.mgmtFrame deliver q f u) := by
  have delivered (via : Via) : AxisMoves s (if deliver then deliverMgmt via f (mgmtOf f.body) u else u) := by
    refine .ite _ ?_ k
    unfold deliverMgmt
    split
    · exact k.deliverPort f
    · exact k.takeCommand _ _
    · exact k.takeCommand _ _
  exact .ite _ ((delivered _).settleDrop q) (.ite _ ((delivered _).settleForward q f)
    (.ite _ (k.sweepFrame q f _) (k.settleForward q f)))

theorem AxisMoves.classFrame (deliver : Bool) (q : PortId) (f : Frame) :
    AxisMoves s (Machine.classFrame deliver q f u) := by
  unfold Machine.classFrame
  split
  · exact (AxisMoves.ite _ (k.deliverCorrections f) k).settleFrame _ q f
  · exact k.mgmtFrame deliver q f
  · exact .ite _ ((AxisMoves.ite _ (k.deliverPort f) k).settleDrop q) (k.tapFrame deliver q f)
  all_goals exact k.tapFrame deliver q f

theorem AxisMoves.forwardInput (q : PortId) (f : Frame) : AxisMoves s (Machine.forwardInput q f u) := by
  have clashed (tag : BitVec 16) : AxisMoves s (clash tag u) := by
    refine AxisMoves.report ?_ .addressClash
    exact k.same rfl
  exact .ite _ ((k.countSw _).settleDrop q) (.ite _ (.ite _ (k.sweepFrame q _ _) (k.settleForward q _))
    (.ite _ (.ite _ ((k.setSw _).settleDrop q |>.returnedSweep _) ((clashed _).classFrame false q _))
      (k.classFrame true q _)))

theorem AxisMoves.endedArrival (q : PortId) (bytes : List Byte) (reading : Body) :
    AxisMoves s (Machine.endedArrival q bytes reading u) := by
  have good (f : Frame) : AxisMoves s (goodArrival q f u) := by
    have counted : AxisMoves s (u.countPort q fun c => { c with framesIn := bump c.framesIn }) := k.setPort q _
    simp only [goodArrival]
    split
    · exact counted.forwardInput q f
    · exact .ite _ ((counted.setSw _).settleDrop q) (counted.ring (settleCounter_ring _ q _))
    · exact (counted.setSw _).settleDrop q
  refine AxisMoves.setPort ?_ q _
  split
  · exact good _
  · exact (k.setPort q _).settleDrop q
  · exact (k.setPort q _).settleDrop q

/-! ## The frame port and the trip inputs -/

theorem AxisMoves.moveHead : AxisMoves s (Machine.moveHead u) := by
  have move (f : Frame) {v : State} (kv : AxisMoves s v) : AxisMoves s (moveFrame f v) := by
    refine .ite _ ((kv.takeCommand _ _).insertLocal _ _ _ _ _ _) (.ite _ ?_ (kv.insertLocal _ _ _ _ _ _))
    split
    · exact kv.enumerateMove _ _ _ _ _
    · exact kv.collectMove _ _ _ _
    · exact kv.answerPort _ _ _
  unfold Machine.moveHead
  split
  · exact .ite _ (k.same rfl) (.ite _ (move _ (k.setStation _)) k)
  · exact k

theorem AxisMoves.sendFrame (f : Offered) : AxisMoves s (Machine.sendFrame f u) := by
  have used : AxisMoves s (setSendStatus (sendStatusOf u f) (setInUse u)) := k.same rfl
  exact .ite _ (.ite _ (used.takeCommand _ _) (used.same rfl)) (used.same rfl)

theorem AxisMoves.takeFrame (begun : Nat) : AxisMoves s (Machine.takeFrame begun u) := by
  unfold Machine.takeFrame
  split
  · exact .ite _ (k.same rfl) (k.same rfl)
  · exact k.same rfl

theorem AxisMoves.followInput (n : Fin 8) : AxisMoves s (Machine.followInput n u) := (k.setTrip _).setCondition _ _

theorem AxisMoves.changeInput (n : Fin 8) (active : Bool) : AxisMoves s (Machine.changeInput n active u) := by
  have started (i : TripInput) : AxisMoves s (u.setTripInput n i) := k.same rfl
  exact .ite _ k (.ite _ (started _) (.ite _ ((started _).followInput n) (started _)))

end After

/-! ## Every command -/

theorem axisMoves_of_next {s t u : State}
    (h : (Host.Outcome.next u : Host.Outcome State Fault Refusal) = .next t) (k : AxisMoves s u) :
    AxisMoves s t := Host.Outcome.next.inj h ▸ k

theorem axisMoves_tick (m : Moment) (s : State) : AxisMoves s (s.tick m) := (AxisMoves.refl s).same rfl

/-- Power-on and the RESET pin put the axis table in its reset state, whatever it was (R88, R195). -/
theorem powerUp_axisInv (s : State) : AxisInv (powerUp s) := reset_axisInv

/-- An event of the fibre other than power-on and the RESET pin moves the axis table. -/
theorem exec_axisMoves_fibre {c : Instr} {s t : State} (hc : movesLine c = true)
    (hp : ∀ m, c ≠ .powerOn m ∧ c ≠ .resetPin m) (h : exec c s = .next t) : AxisMoves s t := by
  have ticked (m : Moment) := axisMoves_tick m s
  cases hl : lineEvent c with
  | some p =>
    obtain ⟨y, -, ⟨-, he⟩ | he⟩ := exec_lineEvent hl s <;> rw [he] at h <;> cases h
    · exact (ticked _).setPort p y
    · exact ((ticked _).setPort p y).changeRx p _ _
  | none =>
    cases c <;> first | (cases hc; done) | (cases hl; done) | skip
    case powerOn m => exact absurd rfl (hp m).1
    case resetPin m => exact absurd rfl (hp m).2
    case healHoldExpiry m p =>
      obtain he | ⟨-, -, he⟩ := exec_healHoldExpiry m p s <;> rw [he] at h <;> cases h
      · exact ticked m
      · exact (((ticked m).setPort p _).updateRole).reportRing p
    case frameStart m p stamp hdr b =>
      change execFrameStart m p stamp hdr b s = .next t at h
      unfold execFrameStart at h
      split at h
      · cases h
        exact .ite _ ((ticked m).beginFrame p stamp _ b) (ticked m)
      · cases h
    case reservationEligible m p => cases h; exact (ticked m).reach32 p
    case frameArrival m p closing =>
      rcases frameArrival_next h with rfl | ⟨-, ⟨bytes, reading, -, rfl⟩ | ⟨-, rfl⟩ | ⟨by_, -, rfl⟩⟩
      · exact ticked m
      · exact (ticked m).endedArrival p bytes reading
      · exact (((ticked m).setPort p _).settleDrop p).setPort p _
      · exact (((ticked m).setPort p _).truncate p).arbitrate.cutSymbol p by_
    case invalidSymbol m p sym pos =>
      cases h
      split
      · exact ticked m
      · exact (ticked m).setPort p _
      · exact (ticked m).setPort p _
      · exact (AxisMoves.ite _ ((ticked m).truncate p).arbitrate (ticked m)).badSymbol p pos
      · exact (ticked m).badSymbol p pos

/-- Every command but power-on and the RESET pin moves the axis table. -/
theorem exec_axisMoves {c : Instr} {s t : State} (hp : ∀ m, c ≠ .powerOn m ∧ c ≠ .resetPin m)
    (h : exec c s = .next t) : AxisMoves s t := by
  have ticked (m : Moment) := axisMoves_tick m s
  cases hc : movesLine c with
  | true => exact exec_axisMoves_fibre hc hp h
  | false =>
  cases hcmd : commandOf c with
  | some x =>
    rw [exec_commandOf hcmd] at h
    cases h
    exact (ticked _).commandCode _ _
  | none =>
    cases c <;> first | (cases hc; done) | (cases hcmd; done) | skip
    case exchangeCompletion m b =>
      change execExchangeCompletion m b s = .next t at h
      unfold execExchangeCompletion at h
      split at h
      · refine axisMoves_of_next h ?_
        split
        · exact (ticked m).completeExchange _ b
        · exact ticked m
      · cases h
    all_goals refine axisMoves_of_next h ?_
    case transmitCompletion m p =>
      split
      · have ended := (ticked m).setPort p { (s.tick m).port p with tx := none }
        exact .ite _ (ticked m) (AxisMoves.ite _ ended (ended.setPort p _)).arbitrate
      · exact ticked m
    case sendQueueMove m => exact (ticked m).moveHead
    case cycleTimerExpiry m =>
      split
      · exact .ite _ ((ticked m).setGen _).issueCycle (ticked m)
      · exact ticked m
    case pendingFrameDue m => exact (ticked m).pendingDue _
    case missTimerExpiry m =>
      split
      · have stopped := (ticked m).setCtx { s.ctx with missTimer := none }
        exact .ite _ (.ite _ stopped stopped.applyExtrapolated) (ticked m)
      · exact ticked m
    case localTimerExpiry m =>
      split
      · exact .ite _ (((ticked m).setCtx _).stepAxes 0).startBatch (ticked m)
      · exact ticked m
    case stopConfirmExpiry m =>
      split
      · exact .ite _ ((ticked m).coast.stopTimer.report .stopUnconfirmed) (ticked m)
      · exact ticked m
    case readyDrop m a =>
      have dropped : AxisMoves s { s.tick m with ready := m.ready.set a false } := (ticked m).same rfl
      split
      · exact .ite _ (dropped.dropExchange _) dropped
      · exact dropped
    case triggerExpiry m =>
      split
      · exact .ite _ (.ite _ (((ticked m).setImage _).report .lineOverrun) ((ticked m).setImage _)) (ticked m)
      · exact ticked m
    case lineEnd m pixels =>
      split
      · exact .ite _ ((ticked m).endLine _ pixels) (ticked m)
      · exact ticked m
    case cameraTimeout m => exact .ite _ (ticked m).abandonLine (ticked m)
    case tripInputChange m n active => exact (ticked m).changeInput n active
    case filterTimerExpiry m n =>
      split
      · exact .ite _ ((ticked m).followInput n) (ticked m)
      · exact ticked m
    case refreshTimerExpiry m => exact .ite _ (((ticked m).setTrip _).sendTrip true) (ticked m)
    case remoteEntryStale m source =>
      split
      · exact .ite _ ((ticked m).same rfl) (ticked m)
      · exact ticked m
    case tileWriteCompletion m => exact .ite _ ((ticked m).same rfl) (ticked m)
    case repaintTimerExpiry m =>
      exact .ite _ (((ticked m).setScreen _).control (sendNotices_control _)) (ticked m)
    case shortTimerExpiry m =>
      split
      · exact .ite _ (((ticked m).setStation _).setCondition _ _) (ticked m)
      · exact ticked m
    case longTimerExpiry m =>
      split
      · exact .ite _ (((ticked m).setStation _).setCondition _ _) (ticked m)
      · exact ticked m
    case enumerate m at_ tag first next force overflow ok =>
      split
      · exact .ite _ ((ticked m).enumerateMove _ _ _ _ _) (ticked m)
      · exact (ticked m).enumeratePass _ _ _ _ _
      · exact (ticked m).deliverPort _
      · exact (ticked m).sweepAddressed _ _ _ _
    case collect m at_ tag count overflow ok ds =>
      split
      · exact .ite _ ((ticked m).same rfl) (.ite _ ((ticked m).collectMove _ _ _ _) (ticked m))
      · exact (ticked m).placeTransit _
      · exact (ticked m).deliverPort _
      · exact (ticked m).sweepAddressed _ _ _ _
    case sendTransaction m begun f => exact .ite _ ((ticked m).same rfl) ((ticked m).sendFrame f)
    case takeTransaction m begun => exact .ite _ ((ticked m).same rfl) (((ticked m).setStation _).takeFrame begun)

theorem exec_axisInv {c : Instr} {s t : State} (hi : AxisInv s) (h : exec c s = .next t) : AxisInv t := by
  by_cases reset : ∃ m, c = .powerOn m ∨ c = .resetPin m
  · obtain ⟨m, rfl | rfl⟩ := reset <;> cases h <;> exact powerUp_axisInv _
  · exact (exec_axisMoves (fun m => ⟨fun hc => reset ⟨m, .inl hc⟩, fun hc => reset ⟨m, .inr hc⟩⟩) h).inv hi

end Sys2Proof.Machine

open Sys2Proof Sys2Proof.Machine

/-- Settles O6: every command moves the axis table (`exec_axisMoves`) or resets it, and moves keep the condition. -/
theorem stepKeepsAxisInv : Obligations.StepKeepsAxisInv := by
  intro s t hi h
  unfold step at h
  split at h
  · cases h
    exact hi
  · next c q _ => exact exec_axisInv (s := { s with pending := q }) hi h
end

