-- ==== Sys2Proof/Proofs/AxisGear.lean ====
section
/-! One axis step and the gear over many cycles (R99 to R102, R106). -/

namespace Sys2Proof.Machine

/-! ## The gear -/

/-- The numerator owed for an advance is the counts stepped and the remainder kept (R100). -/
theorem gearCounts_gearRest (r : AxisRecord) (adv : Int) (h : 1 ≤ r.cfg.den) :
    (r.acc : Int) + r.cfg.num * adv =
      (gearRest r adv : Int) + gearCounts r adv * ((256 * r.cfg.den : Nat) : Int) := by
  have pos : ((256 * r.cfg.den : Nat) : Int) ≠ 0 := by omega
  rw [gearRest, Int.toNat_of_nonneg (Int.emod_nonneg _ pos), gearCounts, Int.emod_add_ediv_mul]

/-- Over any list of advances the counts stepped and the remainder are quotient and remainder of the sum (R100). -/
theorem gearRun_eq (advs : List Int) (r : AxisRecord) (hd : 1 ≤ r.cfg.den) (ha : r.acc < 256 * r.cfg.den) :
    (gearRun r advs).2 = ((r.acc : Int) + r.cfg.num * advs.sum) / ((256 * r.cfg.den : Nat) : Int) ∧
    (gearRun r advs).1.gear = r.gear + BitVec.ofInt 32 (gearRun r advs).2 ∧
    ((gearRun r advs).1.acc : Int) = ((r.acc : Int) + r.cfg.num * advs.sum) % ((256 * r.cfg.den : Nat) : Int) ∧
    (gearRun r advs).1.acc < 256 * r.cfg.den := by
  induction advs generalizing r with
  | nil =>
    simp only [gearRun, List.sum_nil, mul_zero, add_zero]
    refine ⟨(Int.ediv_eq_zero_of_lt ?_ ?_).symm, by simp, (Int.emod_eq_of_lt ?_ ?_).symm, ha⟩ <;> omega
  | cons adv advs ih =>
    obtain ⟨counts, gear, rest, low⟩ := ih (gearStep adv r) hd (gearRest_lt adv hd)
    have pos : ((256 * r.cfg.den : Nat) : Int) ≠ 0 := by omega
    have owed : (r.acc : Int) + r.cfg.num * (adv :: advs).sum =
        ((gearRest r adv : Int) + r.cfg.num * advs.sum) + gearCounts r adv * ((256 * r.cfg.den : Nat) : Int) := by
      rw [List.sum_cons, mul_add, ← add_assoc, gearCounts_gearRest r adv hd, add_right_comm]
    refine ⟨?_, ?_, ?_, low⟩
    · rw [owed, Int.add_mul_ediv_right _ _ pos, add_comm]
      exact congrArg (gearCounts r adv + ·) counts
    · rw [show (gearRun r (adv :: advs)).2 = gearCounts r adv + (gearRun (gearStep adv r) advs).2 from rfl,
        BitVec.ofInt_add, ← BitVec.add_assoc]
      exact gear
    · rw [owed, Int.add_mul_emod_self_right]
      exact rest

/-! ## Slews -/

/-- A slew takes its amount off the distance to the target, and stops there (R101, R102, R106). -/
theorem natAbs_slew_sub_target (x target : Int) (n : Nat) :
    (slew x target n - target).natAbs = (x - target).natAbs - n := by
  unfold slew
  split
  · omega
  · split <;> omega

theorem natAbs_slew_sub_self (x target : Int) (n : Nat) : (slew x target n - x).natAbs ≤ n := by
  unfold slew
  split
  · omega
  · split <;> omega

theorem slew_zero_nonneg {x : Int} (n : Nat) (h : 0 ≤ x) : 0 ≤ slew x 0 n := by
  unfold slew
  split
  · omega
  · split <;> omega

theorem slew_zero_nonpos {x : Int} (n : Nat) (h : x ≤ 0) : slew x 0 n ≤ 0 := by
  unfold slew
  split
  · omega
  · split <;> omega

/-! ## The step of one axis -/

theorem axisStep_coupled {r : AxisRecord} (h : r.state = .coupled) (adv : Int) : axisStep adv r = gearStep adv r := by
  simp [axisStep, h]

theorem axisStep_coastdown {r : AxisRecord} (h : r.state = .coastdown) (adv : Int) :
    axisStep adv r = coastStep r := by
  simp [axisStep, h]

theorem axisStep_other {r : AxisRecord} (hc : r.state ≠ .coupled) (hd : r.state ≠ .coastdown) (adv : Int) :
    axisStep adv r = r := by
  unfold axisStep
  split
  · exact absurd ‹_› hc
  · exact absurd ‹_› hd
  all_goals rfl

/-- Configuration, targets and pending exchanges stay over an axis step. -/
theorem axisStep_kept (adv : Int) (r : AxisRecord) :
    (axisStep adv r).cfg = r.cfg ∧ (axisStep adv r).phaseTarget = r.phaseTarget ∧
    (axisStep adv r).corrTarget = r.corrTarget ∧ (axisStep adv r).capture = r.capture ∧
    (axisStep adv r).release = r.release := by
  unfold axisStep
  split <;> exact ⟨rfl, rfl, rfl, rfl, rfl⟩

end Sys2Proof.Machine

open Sys2Proof Sys2Proof.Machine

/-- Settles O32: by induction over the advances, each step keeping the remainder of what is owed. -/
theorem gearNeverDrifts : Obligations.GearNeverDrifts := fun r advs hd ha => gearRun_eq advs r hd ha

/-- Settles O33, by the state of the axis. -/
theorem axisStepRules : Obligations.AxisStepRules := by
  intro r adv
  obtain ⟨cfg, phaseTarget, corrTarget, capture, release⟩ := axisStep_kept adv r
  refine ⟨cfg, phaseTarget, corrTarget, capture, release, fun coupled => ?_, fun coasts => ?_,
    fun hc hd => axisStep_other hc hd adv⟩
  · rw [axisStep_coupled coupled]
    refine ⟨coupled, rfl, rfl, fun hd => ⟨?_, gearRest_lt adv hd⟩, natAbs_slew_sub_target _ _ _,
      natAbs_slew_sub_self _ _ _, natAbs_slew_sub_target _ _ _, natAbs_slew_sub_self _ _ _, rfl⟩
    rw [gearCounts_gearRest r adv hd]
    exact (add_sub_cancel_right _ _).symm
  · rw [axisStep_coastdown coasts]
    refine ⟨?_, slew_zero_nonneg _, slew_zero_nonpos _, rfl, rfl, rfl, rfl, rfl, rfl⟩
    have nearer := natAbs_slew_sub_target r.step 0 r.cfg.decel
    rwa [sub_zero, sub_zero] at nearer

end

