-- ==== Sys2Proof/Proofs/AxisCommandsExact.lean ====
section
/-! COUPLE, DECOUPLE, SET PHASE and RESET CORRECTION: their checks in order and their effects (R92, R93, R95, R96). -/

namespace Sys2Proof.Machine

/-! ## A command that names an axis -/

section OnAxis
variable (e : Envelope) (cmd : MgmtCmd) (run : Fin 4 → State → State × Answer) (s : State)
  (ha : s.station.address ≠ 0) (hl : e.lengthOk = true)
include ha hl

theorem axisCommand_above {axis : Nat} (h : 3 < axis) :
    Answered e cmd (.plain .badIndex) (countTaken s) (stationCommand e cmd true true (onAxis axis run) s) := by
  have taken := taken_answered e cmd (onAxis axis run) s ha hl
  rwa [onAxis_above h] at taken

theorem axisCommand_answered (a : Fin 4) {v : State} {r : Answer} (h : run a (countTaken s) = (v, r)) :
    Answered e cmd r v (stationCommand e cmd true true (onAxis a.val run) s) := by
  have taken := taken_answered e cmd (onAxis a.val run) s ha hl
  rwa [onAxis_axis, h] at taken

end OnAxis

/-! ## The checks of COUPLE -/

section Checks
variable {a : Fin 4} {s : State}

theorem runCouple_refused {r : Resp} (h : checkCouple a s = some r) : runCouple a s = (s, .plain r) := by
  simp [runCouple, checked, h]

/-- A correction target of 0 is at no limit (R104). -/
theorem atCorrLimit_zero {r : AxisRecord} (h : r.corrTarget = 0) : atCorrLimit r = false := by
  unfold atCorrLimit
  rw [h, Bool.and_eq_false_iff]
  by_cases hm : 0 < r.cfg.corrMax
  · exact .inr (beq_false_of_ne (by rw [Int.natAbs_zero]; exact hm.ne))
  · exact .inl (decide_eq_false hm)

/-- An axis whose correction target becomes 0 has its CORRECTION_LIMIT condition ended (R104). -/
theorem reportCorrLimit_zero (s : State) {r : AxisRecord} (h : r.corrTarget = 0) :
    reportCorrLimit a (s.setAxis a r) = (s.setAxis a r).setTrip (s.trip.setCond (.correctionLimit a) false) := by
  unfold reportCorrLimit
  rw [State.setAxis_axis_same, atCorrLimit_zero h, setCondition_false]
  rfl

theorem lastActual_of_status {d : DriveStatus} (h : (s.driveAxis a).status = some d) : s.lastActual a = d.actual := by
  simp [State.lastActual, h]

/-- A COUPLE that is taken (R92). -/
theorem runCouple_passed (h : checkCouple a s = none) :
    runCouple a s =
      ((s.setAxis a (coupledRecord (s.lastActual a) (s.axis a))).setTrip (s.trip.setCond (.correctionLimit a) false),
        .plain .ok) := by
  unfold runCouple checked okAfter
  rw [h]
  exact congrArg (·, Answer.plain .ok) (reportCorrLimit_zero s rfl)

section Still
variable (rest : (s.axis a).state = .standby ∨ (s.axis a).state = .held) (level : ¬ 1 < s.trip.levels.eff.rank)
  (tracks : ¬ s.ctx.state ≠ .tracking) (still : ¬ s.ctx.speed ≠ 0)
include rest level tracks still

theorem checkCouple_noStatus (hd : (s.driveAxis a).status = none) : checkCouple a s = some .notReady := by
  rw [checkCouple_atRest rest, hd, if_neg level, if_neg tracks, if_neg still]

/-- The status of the drive decides the last two checks of COUPLE (R92). -/
theorem checkCouple_status {d : DriveStatus} (hd : (s.driveAxis a).status = some d) :
    checkCouple a s =
      if (s.axis a).capture = true ∨ d.ready = false ∨ d.enabled = false then some .notReady else none := by
  rw [checkCouple_atRest rest, hd, if_neg level, if_neg tracks, if_neg still]
  simp only [Bool.or_eq_true, Bool.not_eq_true', or_assoc]

end Still

end Checks

/-! ## DECOUPLE, SET PHASE and RESET CORRECTION -/

/-- The stop-confirm timer of a table runs on only while an axis is COUPLED (R109). -/
theorem settleStop_eq (t : AxisTable) :
    t.settleStop =
      { t with stopTimer := if t.recs.toList.any (fun r => r.state == .coupled) then t.stopTimer else none } := by
  unfold AxisTable.settleStop AxisTable.anyCoupled
  split <;> rfl

theorem runDecouple_idle {a : Fin 4} {s : State} (h : (s.axis a).state ≠ .coupled) :
    runDecouple a s = (s, .plain .notReady) := if_pos h

theorem runDecouple_moving {a : Fin 4} {s : State} (h : (s.axis a).state = .coupled) (hs : s.ctx.speed ≠ 0) :
    runDecouple a s = (s, .plain .notAtRest) := by
  unfold runDecouple
  exact (if_neg (not_not_intro h)).trans (if_pos hs)

theorem runDecouple_taken {a : Fin 4} {s : State} (h : (s.axis a).state = .coupled) (hs : s.ctx.speed = 0) :
    runDecouple a s =
      ((s.setAxis a { s.axis a with state := .standby }).setAxes
        (s.setAxis a { s.axis a with state := .standby }).axes.settleStop, .plain .ok) := by
  unfold runDecouple
  exact (if_neg (not_not_intro h)).trans (if_neg (not_not_intro hs))

theorem runSetPhase_idle {a : Fin 4} {s : State} (target : Int) (h : axisEnabled (s.axis a).state = false) :
    runSetPhase target a s = (s, .plain .notReady) := by
  simp [runSetPhase, h]

/-- SET PHASE takes the target limited to ±2^30 (R95). -/
theorem runSetPhase_taken {a : Fin 4} {s : State} (target : Int) (h : axisEnabled (s.axis a).state = true) :
    runSetPhase target a s =
      if 2 ^ 30 < target then (s.setAxis a { s.axis a with phaseTarget := 2 ^ 30 }, .plain .clamped)
      else if target < -(2 ^ 30) then (s.setAxis a { s.axis a with phaseTarget := -(2 ^ 30) }, .plain .clamped)
      else (s.setAxis a { s.axis a with phaseTarget := target }, .plain .ok) := by
  unfold runSetPhase clampInt
  rw [if_pos h]
  by_cases above : (2 : Int) ^ 30 < target
  · have notBelow : ¬ target < -(2 ^ 30) := by omega
    simp only [if_pos above, if_neg notBelow, if_neg above.ne]
  · by_cases below : target < -(2 ^ 30)
    · simp only [if_neg above, if_pos below, if_neg below.ne']
    · simp only [if_neg above, if_neg below, if_true]

end Sys2Proof.Machine

open Sys2Proof Sys2Proof.Machine

/-- Settles O35: the checks of R92 in order, each with its answer. -/
theorem couple : Obligations.Couple := by
  intro m e axis s ha hl
  refine ⟨_, rfl, axisCommand_above e _ _ (s.tick m) ha hl, ?_⟩
  rintro a rfl
  have refused {r : Resp} (h : checkCouple a (countTaken (s.tick m)) = some r) :=
    axisCommand_answered e (.couple a.val) runCouple (s.tick m) ha hl a (runCouple_refused h)
  refine ⟨fun h => refused ?_, fun h => refused ?_, fun h => refused ?_, fun rest => ?_⟩
  · have state : ((countTaken (s.tick m)).axis a).state = .coupled := h
    simp only [checkCouple, state]
  · have state : ((countTaken (s.tick m)).axis a).state = .coastdown := h
    simp only [checkCouple, state]
  · rcases h with h | h
    · have state : ((countTaken (s.tick m)).axis a).state = .disabled := h
      simp only [checkCouple, state]
    · have state : ((countTaken (s.tick m)).axis a).state = .off := h
      simp only [checkCouple, state]
  have checks := checkCouple_atRest (s := countTaken (s.tick m)) rest
  split
  · next level => exact refused (checks.trans (if_pos level))
  · next level =>
    split
    · next idle => exact refused (checks.trans ((if_neg level).trans (if_pos idle)))
    · next tracks =>
      split
      · next moving =>
        exact refused (checks.trans ((if_neg level).trans ((if_neg tracks).trans (if_pos moving))))
      · next still =>
        refine ⟨fun none => refused (checkCouple_noStatus (s := countTaken (s.tick m)) rest level tracks still none),
          fun d hd => ?_⟩
        · have status := checkCouple_status (s := countTaken (s.tick m)) rest level tracks still hd
          split
          · next bad => exact refused (status.trans (if_pos bad))
          · next fine =>
            have passed := runCouple_passed (status.trans (if_neg fine))
            rw [lastActual_of_status (s := countTaken (s.tick m)) hd] at passed
            exact axisCommand_answered e _ _ (s.tick m) ha hl a passed

/-- Settles O36: each command by its checks in order. -/
theorem axisCommands : Obligations.AxisCommands := by
  intro m e axis target s ha hl
  have above (cmd : MgmtCmd) (run : Fin 4 → State → State × Answer) (h : 3 < axis) :=
    axisCommand_above e cmd run (s.tick m) ha hl h
  have answered {cmd : MgmtCmd} {run : Fin 4 → State → State × Answer} (a : Fin 4) {v : State} {r : Answer}
      (h : run a (countTaken (s.tick m)) = (v, r)) :=
    axisCommand_answered e cmd run (s.tick m) ha hl a h
  refine ⟨⟨_, rfl, above _ _, ?_⟩, ⟨_, rfl, above _ _, ?_⟩, ⟨_, rfl, above _ _, ?_⟩⟩
  · rintro a rfl
    dsimp only
    split
    · next idle => exact answered a (runDecouple_idle idle)
    · next coupled =>
      split
      · next moving => exact answered a (runDecouple_moving (not_not.mp coupled) moving)
      · next still =>
        have taken := runDecouple_taken (s := countTaken (s.tick m)) (not_not.mp coupled) (not_not.mp still)
        rw [settleStop_eq] at taken
        exact answered a taken
  · rintro a rfl
    dsimp only
    split
    · next idle => exact answered a (runSetPhase_idle target idle)
    · next enabled =>
      have taken := runSetPhase_taken (s := countTaken (s.tick m)) target (Bool.not_eq_false _ ▸ enabled)
      split
      · next high => exact answered a (taken.trans (if_pos high))
      · next high =>
        split
        · next low => exact answered a (taken.trans ((if_neg high).trans (if_pos low)))
        · next low => exact answered a (taken.trans ((if_neg high).trans (if_neg low)))
  · rintro a rfl
    exact answered a (congrArg (·, Answer.plain .ok) (reportCorrLimit_zero (countTaken (s.tick m)) rfl))

end

