-- ==== Sys2Proof/Proofs/DriveChoices.lean ====
section
/-! The choices of the drive link's arbiter (R112, R113, R115): what each choice keeps the arbiter keeps, and the three
cases in which it leaves the outcome of an axis alone. -/

namespace Sys2Proof.Machine

/-! ## Keeping a property over the arbiter's choices -/

/-- A property of the state that each choice of the arbiter keeps. -/
structure ChoicesKeep (P : State → Prop) : Prop where
  ended : ∀ u, P u → P (u.setDrive { u.drive with batch := none })
  started : ∀ u a release, P u → P (startExchange a release u)
  released : ∀ u a, P u → P (endRelease a u)
  passed : ∀ u p, u.drive.batch = some p → P u → P (u.setDrive { u.drive with batch := some (p + 1) })
  notReady : ∀ u p, u.drive.batch = some p → p < 4 → P u → (u.axis (Fin.ofNat 4 p)).state ≠ .disabled →
    u.ready.get (Fin.ofNat 4 p) = false →
    P (badOutcome (Fin.ofNat 4 p) .noReady (u.setDrive { u.drive with batch := some (p + 1) }))

/-- A batch past axis 3 has ended (R112). -/
theorem endBatch_lt {s : State} {p : Nat} (h : (endBatch s).drive.batch = some p) : p < 4 := by
  unfold endBatch at h
  split at h
  · next q hq =>
    split at h
    · cases h
    · next low =>
      rw [hq] at h
      cases h
      omega
  · next none =>
    rw [none] at h
    cases h

section Keeps
variable {P : State → Prop} (k : ChoicesKeep P)
include k

theorem ChoicesKeep.endBatch {s : State} (h : P s) : P (Machine.endBatch s) := by
  unfold Machine.endBatch
  split
  · split
    · exact k.ended s h
    · exact h
  · exact h

theorem ChoicesKeep.driveArb (n : Nat) {s : State} (h : P s) : P (Machine.driveArb n s) := by
  induction n generalizing s with
  | zero => exact h
  | succ n ih =>
    simp only [Machine.driveArb]
    split
    · exact h
    · have ended := k.endBatch h
      split
      · split
        · exact k.started _ _ _ ended
        · exact ih (k.released _ _ ended)
      · split
        · exact ended
        · next p batch =>
          split
          · exact ih (k.passed _ p batch ended)
          · next enabled =>
            split
            · exact k.started _ _ _ (k.passed _ p batch ended)
            · next low =>
              exact ih (k.notReady _ p batch (endBatch_lt batch) ended enabled (Bool.eq_false_iff.mpr low))

theorem ChoicesKeep.driveArbitrate {s : State} (h : P s) : P (Machine.driveArbitrate s) := k.driveArb 9 h

end Keeps

/-! ## The outcome of an axis -/

/-- The outcome of an axis, its count, status record and last setpoint stay: its sequence number may advance. -/
structure OutcomeStays (a : Fin 4) (s t : State) : Prop where
  outcome : (t.driveAxis a).outcome = (s.driveAxis a).outcome
  bad : (t.driveAxis a).bad = (s.driveAxis a).bad
  status : (t.driveAxis a).status = (s.driveAxis a).status
  lastSetpoint : (t.driveAxis a).lastSetpoint = (s.driveAxis a).lastSetpoint

theorem OutcomeStays.of_same {a : Fin 4} {s t : State} (h : t.driveAxis a = s.driveAxis a) : OutcomeStays a s t :=
  ⟨congrArg _ h, congrArg _ h, congrArg _ h, congrArg _ h⟩

theorem OutcomeStays.same {a : Fin 4} {s t u : State} (k : OutcomeStays a s t) (h : u.driveAxis a = t.driveAxis a) :
    OutcomeStays a s u :=
  ⟨(congrArg _ h).trans k.outcome, (congrArg _ h).trans k.bad, (congrArg _ h).trans k.status,
    (congrArg _ h).trans k.lastSetpoint⟩

theorem OutcomeStays.trans {a : Fin 4} {s t u : State} (h : OutcomeStays a s t) (k : OutcomeStays a t u) :
    OutcomeStays a s u :=
  ⟨k.outcome.trans h.outcome, k.bad.trans h.bad, k.status.trans h.status, k.lastSetpoint.trans h.lastSetpoint⟩

/-- The start of an exchange takes the next sequence number, of its own axis alone (R114). -/
theorem outcomeStays_startExchange (a b : Fin 4) (release : Bool) (s : State) :
    OutcomeStays a s (startExchange b release s) := by
  by_cases h : a = b
  · subst h
    have started : (startExchange a release s).driveAxis a =
        { s.driveAxis a with sequence := (s.driveAxis a).sequence + 1 } := Four.get_set_same _ _ _
    constructor <;> rw [started]
  · exact .of_same (Four.get_set_other _ _ _ _ h)

/-! ## A bad outcome -/

theorem setCondition_drive (f : FaultId) (b : Bool) (s : State) : (setCondition f b s).drive = s.drive :=
  (setCondition_level f b s).drive

theorem axesFall_setCondition (f : FaultId) (b : Bool) (s : State) : AxesFall s (setCondition f b s) := by
  cases b
  · exact .of_recs rfl
  · exact axesFall_report f (s.setTrip (s.trip.setCond f true))

/-- What a bad outcome makes of the Drive Link (R119). -/
theorem badOutcome_drive (a : Fin 4) (o : DriveOutcome) (s : State) :
    (badOutcome a o s).drive =
      { s.drive with
        axes := s.drive.axes.set a { s.driveAxis a with outcome := o, bad := min ((s.driveAxis a).bad + 1) 15 }
        ctr := countOutcome o s.drive.ctr } :=
  setCondition_drive _ _ _

theorem badOutcome_same (a : Fin 4) (o : DriveOutcome) (s : State) :
    (badOutcome a o s).driveAxis a =
      { s.driveAxis a with outcome := o, bad := min ((s.driveAxis a).bad + 1) 15 } := by
  rw [State.driveAxis, badOutcome_drive]
  exact Four.get_set_same _ _ _

theorem badOutcome_other {a b : Fin 4} (h : a ≠ b) (o : DriveOutcome) (s : State) :
    (badOutcome b o s).driveAxis a = s.driveAxis a := by
  rw [State.driveAxis, badOutcome_drive]
  exact Four.get_set_other _ _ _ _ h

theorem axesFall_badOutcome (a : Fin 4) (o : DriveOutcome) (s : State) : AxesFall s (badOutcome a o s) :=
  axesFall_setCondition _ _ ((s.setDriveAxis a _).countDrive (countOutcome o))

/-- A DISABLED axis stays as it is when axes fall (R97). -/
theorem AxesFall.disabled {s t : State} (h : AxesFall s t) {a : Fin 4} (ha : (s.axis a).state = .disabled) :
    t.axis a = s.axis a := by
  rcases h a with same | off
  · exact same
  · rw [off, axisToOff, ha]
    rfl

/-- When axes fall, an axis's setpoint stays (R97). -/
theorem AxesFall.setpoint {s t : State} (h : AxesFall s t) (a : Fin 4) : (t.axis a).setpoint = (s.axis a).setpoint := by
  rcases h a with same | off
  · rw [same]
  · rw [off, axisToOff]
    split <;> rfl

/-! ## Where the arbiter leaves an outcome alone -/

theorem endRelease_axis (a b : Fin 4) (s : State) :
    ((endRelease b s).axis a).state = (s.axis a).state ∧ ((endRelease b s).axis a).capture = (s.axis a).capture := by
  by_cases h : a = b
  · subst h
    have ended : (endRelease a s).axis a = { s.axis a with release := false } := Four.get_set_same _ _ _
    rw [ended]
    exact ⟨rfl, rfl⟩
  · have same : (endRelease b s).axis a = s.axis a := Four.get_set_other _ _ _ _ h
    rw [same]
    exact ⟨rfl, rfl⟩

/-- An axis is still DISABLED, its capture and its outcome as they were. -/
def PassedOver (a : Fin 4) (s u : State) : Prop :=
  (u.axis a).state = .disabled ∧ (u.axis a).capture = (s.axis a).capture ∧ OutcomeStays a s u

/-- The ready lines are still as they were, and so are every outcome and counter. -/
def NoOutcome (s u : State) : Prop := u.ready = s.ready ∧ (∀ a, OutcomeStays a s u) ∧ u.drive.ctr = s.drive.ctr

/-- No turn of an axis is to come, its outcome and the count of drops are as they were. -/
def TurnPast (a : Fin 4) (s u : State) : Prop :=
  (∀ n, u.drive.batch = some n → a.val < n) ∧ OutcomeStays a s u ∧ u.drive.ctr.readyDrop = s.drive.ctr.readyDrop

theorem choicesKeep_passedOver (a : Fin 4) (s : State) : ChoicesKeep (PassedOver a s) where
  ended := fun _ ⟨state, capture, stays⟩ => ⟨state, capture, stays.same rfl⟩
  started := fun u b release ⟨state, capture, stays⟩ =>
    ⟨state, capture, stays.trans (outcomeStays_startExchange a b release u)⟩
  released := fun u b ⟨state, capture, stays⟩ =>
    ⟨(endRelease_axis a b u).1.trans state, (endRelease_axis a b u).2.trans capture, stays.same rfl⟩
  passed := fun _ _ _ ⟨state, capture, stays⟩ => ⟨state, capture, stays.same rfl⟩
  notReady := fun u p _ _ ⟨state, capture, stays⟩ enabled _ => by
    have other : a ≠ Fin.ofNat 4 p := fun h => enabled (h ▸ state)
    have axis := (axesFall_badOutcome (Fin.ofNat 4 p) .noReady
      (u.setDrive { u.drive with batch := some (p + 1) })).disabled state
    exact ⟨by rw [axis]; exact state, by rw [axis]; exact capture, stays.same (badOutcome_other other _ _)⟩

theorem choicesKeep_noOutcome {s : State} (h : ∀ a, s.ready.get a = true) : ChoicesKeep (NoOutcome s) where
  ended := fun _ ⟨ready, stays, ctr⟩ => ⟨ready, fun a => (stays a).same rfl, ctr⟩
  started := fun u b release ⟨ready, stays, ctr⟩ =>
    ⟨ready, fun a => (stays a).trans (outcomeStays_startExchange a b release u), ctr⟩
  released := fun _ _ ⟨ready, stays, ctr⟩ => ⟨ready, fun a => (stays a).same rfl, ctr⟩
  passed := fun _ _ _ ⟨ready, stays, ctr⟩ => ⟨ready, fun a => (stays a).same rfl, ctr⟩
  notReady := fun _ _ _ _ ⟨ready, _, _⟩ _ low => by
    rw [ready, h] at low
    cases low

theorem choicesKeep_turnPast (a : Fin 4) (s : State) : ChoicesKeep (TurnPast a s) := by
  have later {u : State} {p : Nat} (batch : u.drive.batch = some p) (past : ∀ n, u.drive.batch = some n → a.val < n)
      (n : Nat) (hn : some (p + 1) = some n) : a.val < n := by
    have := past p batch
    cases hn
    omega
  exact
    { ended := fun _ ⟨_, stays, ctr⟩ => ⟨nofun, stays.same rfl, ctr⟩
      started := fun u b release ⟨past, stays, ctr⟩ =>
        ⟨past, stays.trans (outcomeStays_startExchange a b release u), ctr⟩
      released := fun _ _ ⟨past, stays, ctr⟩ => ⟨past, stays.same rfl, ctr⟩
      passed := fun _ _ batch ⟨past, stays, ctr⟩ => ⟨later batch past, stays.same rfl, ctr⟩
      notReady := fun u p batch low ⟨past, stays, ctr⟩ _ _ => by
        have other : a ≠ Fin.ofNat 4 p := by
          intro h
          have turn := past p batch
          rw [h, Fin.val_ofNat, Nat.mod_eq_of_lt low] at turn
          exact turn.false
        refine ⟨?_, stays.same (badOutcome_other other _ _), ?_⟩
        · rw [badOutcome_drive]
          exact later batch past
        · rw [badOutcome_drive]
          exact ctr }

/-- The arbiter passes a DISABLED axis over (R112). -/
theorem driveArbitrate_disabled {a : Fin 4} {s : State} (h : (s.axis a).state = .disabled) :
    PassedOver a s (driveArbitrate s) :=
  (choicesKeep_passedOver a s).driveArbitrate ⟨h, rfl, .of_same rfl⟩

/-- With every ready line high the arbiter gives no axis an outcome (R115). -/
theorem driveArbitrate_noOutcome {s : State} (h : ∀ a, s.ready.get a = true) : NoOutcome s (driveArbitrate s) :=
  (choicesKeep_noOutcome h).driveArbitrate ⟨rfl, fun _ => .of_same rfl, rfl⟩

/-- An axis whose turn is past gets no outcome of the arbiter (R112, R115). -/
theorem driveArbitrate_turnPast {a : Fin 4} {s : State} (h : ∀ n, s.drive.batch = some n → a.val < n) :
    TurnPast a s (driveArbitrate s) :=
  (choicesKeep_turnPast a s).driveArbitrate ⟨h, .of_same rfl, rfl⟩

end Sys2Proof.Machine
end

