-- ==== Sys2Proof/Proofs/AxisUse.lean ====
section
/-! ENABLE AXIS and DISABLE AXIS: their checks in order and their effects (R90, R94, R123). -/

namespace Sys2Proof.Machine

section Enable
variable {a : Fin 4} {s : State}

theorem runEnable_enabled (h : axisEnabled (s.axis a).state = true) : runEnable a s = (s, .plain .ok) := if_pos h

theorem runEnable_tripped (h : ¬ axisEnabled (s.axis a).state = true) (level : s.trip.levels.eff = .driveOff) :
    runEnable a s = (s, .plain .tripped) := (if_neg h).trans (if_pos level)

/-- A latched fault of the axis keeps it from being enabled (R90, check 4). -/
theorem axisFaulted_iff : axisFaulted a s = true ↔ s.trip.isLatched (.driveFault a) = true ∨
    s.trip.isLatched (.driveLink a) = true ∨ s.trip.isLatched (.followError a) = true := by
  simp only [axisFaulted, Bool.or_eq_true, or_assoc]

theorem runEnable_faulted (h : ¬ axisEnabled (s.axis a).state = true) (level : ¬ s.trip.levels.eff = .driveOff)
    (fault : axisFaulted a s = true) : runEnable a s = (s, .plain .notReady) :=
  ((if_neg h).trans (if_neg level)).trans (if_pos fault)

theorem runEnable_taken (h : ¬ axisEnabled (s.axis a).state = true) (level : ¬ s.trip.levels.eff = .driveOff)
    (fault : ¬ axisFaulted a s = true) : runEnable a s = (enableAxis a s, .plain .ok) :=
  ((if_neg h).trans (if_neg level)).trans (if_neg fault)

end Enable

/-! ## DISABLE AXIS -/

/-- A station whose axis has just passed to DISABLED, before the arbiter chooses (R94, R109, R123). -/
def disabledAxis (a : Fin 4) (s : State) : State :=
  let recs := s.axes.recs.set a { s.axis a with state := .disabled, release := true, capture := false }
  ((s.setAxes { s.axes with
      recs := recs
      stopTimer := if recs.toList.any (fun r => r.state == .coupled) then s.axes.stopTimer else none }).setDriveAxis a
        { s.driveAxis a with outcome := .none, bad := 0 }).setTrip
    ((s.trip.setCond (.driveFault a) false).setCond (.driveLink a) false)

theorem disableAxis_eq (a : Fin 4) (s : State) : disableAxis a s = driveArbitrate (disabledAxis a s) := by
  let u := s.setAxis a { s.axis a with state := .disabled, release := true, capture := false }
  exact congrArg (fun t => driveArbitrate (driveDisabled a (u.setAxes t))) (settleStop_eq u.axes)

theorem disabledAxis_axis (a : Fin 4) (s : State) :
    (disabledAxis a s).axis a = { s.axis a with state := .disabled, release := true, capture := false } :=
  Four.get_set_same _ _ _

theorem disabledAxis_driveAxis (a : Fin 4) (s : State) :
    (disabledAxis a s).driveAxis a = { s.driveAxis a with outcome := .none, bad := 0 } :=
  Four.get_set_same _ _ _

theorem runDisable_idle {a : Fin 4} {s : State} (h : (s.axis a).state = .disabled) :
    runDisable a s = (s, .plain .ok) := if_pos h

theorem runDisable_taken {a : Fin 4} {s : State} (h : (s.axis a).state ≠ .disabled) :
    runDisable a s = (driveArbitrate (disabledAxis a s), .plain .ok) := by
  rw [← disableAxis_eq]
  exact if_neg h

end Sys2Proof.Machine

open Sys2Proof Sys2Proof.Machine

/-- Settles O34: the checks of R90 in order; and DISABLE AXIS, whose axis the arbiter then passes over. -/
theorem enableAndDisableAxis : Obligations.EnableAndDisableAxis := by
  refine ⟨fun m e axis s ha hl => ⟨_, rfl, axisCommand_above e _ _ (s.tick m) ha hl, ?_⟩, fun m e axis s ha hl =>
    ⟨fun high => ⟨_, rfl, axisCommand_above e _ _ (s.tick m) ha hl high⟩, ?_⟩⟩
  · rintro a rfl
    have answered {v : State} {r : Answer} (h : runEnable a (countTaken (s.tick m)) = (v, r)) :=
      axisCommand_answered e (.enableAxis a.val) runEnable (s.tick m) ha hl a h
    split
    · next enabled => exact answered (runEnable_enabled enabled)
    · next idle =>
      split
      · next level => exact answered (runEnable_tripped idle level)
      · next level =>
        split
        · next fault => exact answered (runEnable_faulted idle level (axisFaulted_iff.mpr fault))
        · next fine => exact answered (runEnable_taken idle level fun fault => fine (axisFaulted_iff.mp fault))
  · rintro a rfl
    have answered {v : State} {r : Answer} (h : runDisable a (countTaken (s.tick m)) = (v, r)) :=
      axisCommand_answered e (.disableAxis a.val) runDisable (s.tick m) ha hl a h
    refine ⟨fun idle => ⟨_, rfl, answered (runDisable_idle idle)⟩, fun used => ⟨_, rfl, ?_⟩⟩
    have taken := answered (runDisable_taken used)
    have only := driveOnly_driveArbitrate (disabledAxis a (countTaken (s.tick m)))
    obtain ⟨state, capture, stays⟩ := driveArbitrate_disabled
      (congrArg AxisRecord.state (disabledAxis_axis a (countTaken (s.tick m))))
    refine ⟨?_, ?_, ?_, ?_, taken.ctx.trans only.ctx, taken.image.trans only.image, taken, fun underway => ?_⟩
    · exact (congrArg (fun t => (t.recs.get a).state) taken.axes).trans state
    · exact ((congrArg (fun t => (t.recs.get a).capture) taken.axes).trans capture).trans
        (congrArg AxisRecord.capture (disabledAxis_axis a _))
    · exact ((congrArg (fun d => (d.axes.get a).outcome) taken.drive).trans stays.outcome).trans
        (congrArg DriveAxis.outcome (disabledAxis_driveAxis a _))
    · exact ((congrArg (fun d => (d.axes.get a).bad) taken.drive).trans stays.bad).trans
        (congrArg DriveAxis.bad (disabledAxis_driveAxis a _))
    · rw [driveArbitrate_underway (u := disabledAxis a (countTaken (s.tick m))) underway] at taken
      exact taken

end

