-- ==== Sys2Proof/Proofs/ExchangeEnd.lean ====
section
/-! How an exchange of the drive link ends: judged, counted and taken (R115 to R122). -/

namespace Sys2Proof.Machine

/-! ## The end of an exchange -/

/-- The drive link is free again. -/
def freedLink (s : State) : State := s.setDrive { s.drive with exchange := none }

/-- The drive link is free again and remembers the setpoint sent (R116). -/
def sentLink (x : Exchange) (s : State) : State :=
  s.setDrive { s.drive with
    exchange := none
    axes := s.drive.axes.set x.axis { s.driveAxis x.axis with lastSetpoint := some x.setpoint } }

theorem sentLink_driveAxis (x : Exchange) (s : State) :
    (sentLink x s).driveAxis x.axis = { s.driveAxis x.axis with lastSetpoint := some x.setpoint } :=
  Four.get_set_same _ _ _

theorem exec_exchange {m : Moment} {b : List Byte} {s : State} {x : Exchange} (hb : b.length = 12)
    (hx : s.drive.exchange = some x) : exec (.exchangeCompletion m b) s = .next (completeExchange x b (s.tick m)) := by
  simp only [exec, execExchangeCompletion, if_pos hb, State.tick_drive, hx]

section Complete
variable {x : Exchange} {b : List Byte} {s : State}

theorem completeExchange_eq :
    completeExchange x b s = driveArbitrate
      (if x.release then
        if x.void then endRelease x.axis (freedLink s)
        else (endRelease x.axis (freedLink s)).setDriveAxis x.axis
          { s.driveAxis x.axis with lastSetpoint := some x.setpoint }
      else if x.void then freedLink s else batchOutcome x b (freedLink s)) := rfl

/-- A release exchange ends the pending release (R122). -/
theorem completeExchange_release (h : x.release = true) :
    completeExchange x b s = driveArbitrate
      ((if x.void then freedLink s else sentLink x s).setAxis x.axis { s.axis x.axis with release := false }) := by
  rw [completeExchange_eq, if_pos h]
  cases x.void <;> rfl

/-- A batch exchange of an axis since DISABLED, or one a reset found under way, takes nothing (R121, R125). -/
theorem completeExchange_nothing (h : x.release = false) (hv : x.void = true ∨ (s.axis x.axis).state = .disabled) :
    completeExchange x b s = driveArbitrate (freedLink s) := by
  rw [completeExchange_eq, h, if_neg Bool.false_ne_true]
  split
  · rfl
  · next runs => exact congrArg driveArbitrate (if_pos (hv.resolve_left runs))

section Judged
variable (h : x.release = false) (hv : x.void = false) (hs : (s.axis x.axis).state ≠ .disabled)
include h hv hs

theorem completeExchange_batch : completeExchange x b s = driveArbitrate
    (match judgeStatus x.sequence b with
      | .good => goodOutcome x (readStatus b) (freedLink s)
      | o => badOutcome x.axis o (sentLink x s)) := by
  rw [completeExchange_eq, h, hv, if_neg Bool.false_ne_true, if_neg Bool.false_ne_true]
  exact congrArg driveArbitrate (if_neg hs)

theorem completeExchange_good (hj : judgeStatus x.sequence b = .good) :
    completeExchange x b s = driveArbitrate (goodOutcome x (readStatus b) (freedLink s)) := by
  rw [completeExchange_batch h hv hs, hj]

theorem completeExchange_bad (hj : judgeStatus x.sequence b ≠ .good) :
    completeExchange x b s = driveArbitrate (badOutcome x.axis (judgeStatus x.sequence b) (sentLink x s)) := by
  rw [completeExchange_batch h hv hs]
  split
  · next good => exact absurd good hj
  · rfl

end Judged
end Complete

/-! ## The judgement of a status record -/

section Judge
variable {seq : BitVec 4} {b : List Byte}

theorem judgeStatus_crcBad (h : (crc8 (b.take 11)).toNat ≠ byteAt b 11) : judgeStatus seq b = .crcBad := if_pos h

theorem judgeStatus_seqBad (h : (crc8 (b.take 11)).toNat = byteAt b 11) (hq : byteAt b 5 % 16 ≠ seq.toNat) :
    judgeStatus seq b = .seqBad := (if_neg (not_not_intro h)).trans (if_pos hq)

theorem judgeStatus_good (h : (crc8 (b.take 11)).toNat = byteAt b 11) (hq : byteAt b 5 % 16 = seq.toNat) :
    judgeStatus seq b = .good := (if_neg (not_not_intro h)).trans (if_neg (not_not_intro hq))

/-- A record that is not GOOD has the outcome of the first check it fails (R116). -/
theorem judgeStatus_bad (h : ¬ ((crc8 (b.take 11)).toNat = byteAt b 11 ∧ byteAt b 5 % 16 = seq.toNat)) :
    judgeStatus seq b = (if (crc8 (b.take 11)).toNat = byteAt b 11 then .seqBad else .crcBad) := by
  split
  · next check => exact judgeStatus_seqBad check fun hq => h ⟨check, hq⟩
  · next check => exact judgeStatus_crcBad check

end Judge

/-! ## A GOOD outcome -/

/-- The station with the record of a GOOD exchange and the conditions it gives, before the axis takes it (R117). -/
def goodJudged (x : Exchange) (st : DriveStatus) (s : State) : State :=
  setCondition (.driveFault x.axis) st.fault (setCondition (.driveLink x.axis) false (s.setDriveAxis x.axis
    { s.driveAxis x.axis with outcome := .good, bad := 0, status := some st, lastSetpoint := some x.setpoint }))

section Good
variable (x : Exchange) (st : DriveStatus) (s : State)

theorem goodJudged_drive :
    (goodJudged x st s).drive = (s.setDriveAxis x.axis
      { s.driveAxis x.axis with outcome := .good, bad := 0, status := some st,
                                lastSetpoint := some x.setpoint }).drive :=
  (setCondition_drive _ _ _).trans (setCondition_drive _ _ _)

theorem goodJudged_driveAxis :
    (goodJudged x st s).driveAxis x.axis =
      { s.driveAxis x.axis with outcome := .good, bad := 0, status := some st, lastSetpoint := some x.setpoint } := by
  rw [State.driveAxis, goodJudged_drive]
  exact Four.get_set_same _ _ _

theorem goodJudged_only : DriveOnly s (goodJudged x st s) :=
  (driveOnly_setDrive s _).trans
    ((setCondition_level _ false _).driveOnly.trans (setCondition_level _ st.fault _).driveOnly)

/-- The conditions after a GOOD exchange (R117, R120). -/
theorem goodJudged_conditions (h : TreeWhole s.trip) :
    TreeWhole (goodJudged x st s).trip ∧ (goodJudged x st s).trip.isPresent (.driveLink x.axis) = false ∧
    (goodJudged x st s).trip.isPresent (.driveFault x.axis) = st.fault ∧
    (st.fault = true → (goodJudged x st s).trip.isLatched (.driveFault x.axis) = true) := by
  let u := s.setDriveAxis x.axis
    { s.driveAxis x.axis with outcome := .good, bad := 0, status := some st, lastSetpoint := some x.setpoint }
  have link := setCondition_set (s := u) h (.driveLink x.axis) false
  have fault := setCondition_set link.whole (.driveFault x.axis) st.fault
  exact ⟨fault.whole, (fault.others (.driveLink x.axis) (by simp)).trans link.present, fault.present, fault.latched⟩

/-- The axis takes a GOOD exchange by its state (R117). -/
theorem goodOutcome_eq :
    goodOutcome x st s =
      let u := goodJudged x st s
      if (s.axis x.axis).state = .standby ∧ (s.axis x.axis).capture = true ∧ (!x.noCapture) = true then
        u.setAxis x.axis { u.axis x.axis with setpoint := st.actual, capture := false }
      else if (s.axis x.axis).state = .off then u.setAxis x.axis { u.axis x.axis with setpoint := st.actual }
      else if (s.axis x.axis).state = .coupled then
        followCheck x.axis x.limit (s.driveAxis x.axis).lastSetpoint st.actual u
      else u := rfl

/-- Whether an actual position exceeds a following error limit (R118). -/
def FollowExceeds (limit : Nat) (last : Option (BitVec 32)) (actual : BitVec 32) : Prop :=
  limit ≠ 0 ∧ ∃ sp, last = some sp ∧ limit < (actual - sp).toInt.natAbs

variable {limit : Nat} {last : Option (BitVec 32)} {actual : BitVec 32} {a : Fin 4} {u : State}

theorem followCheck_exceeds (h : FollowExceeds limit last actual) :
    followCheck a limit last actual u =
      report (.followError a) (u.countDrive fun c => { c with followExcess := bump c.followExcess }) := by
  obtain ⟨nonzero, sp, rfl, far⟩ := h
  exact if_pos ⟨nonzero, far⟩

theorem followCheck_within (h : ¬ FollowExceeds limit last actual) : followCheck a limit last actual u = u := by
  cases last with
  | none => rfl
  | some sp => exact if_neg fun far => h ⟨far.1, sp, rfl, far.2⟩

/-- What the axis does with a GOOD exchange, for the Drive Link and the Trip Unit. -/
structure GoodTaken (u v : State) : Prop where
  only : DriveOnly u v
  axes : v.drive.axes = u.drive.axes
  grows : TreeWhole u.trip → Grows u.trip v.trip

theorem GoodTaken.refl (u : State) : GoodTaken u u := ⟨.refl u, rfl, fun h => .of_tree h rfl⟩

theorem goodTaken_setAxis (u : State) (a : Fin 4) (r : AxisRecord) : GoodTaken u (u.setAxis a r) :=
  ⟨(setAxes_level u { u.axes with recs := u.axes.recs.set a r } rfl).driveOnly, rfl, fun h => .of_tree h rfl⟩

theorem goodTaken_followCheck (a : Fin 4) (limit : Nat) (last : Option (BitVec 32)) (actual : BitVec 32) (u : State) :
    GoodTaken u (followCheck a limit last actual u) := by
  by_cases h : FollowExceeds limit last actual
  · rw [followCheck_exceeds h]
    have level := report_level (.followError a)
      (u.countDrive fun c => { c with followExcess := bump c.followExcess })
    exact ⟨(driveOnly_setDrive u _).trans level.driveOnly, (congrArg DriveLink.axes level.drive :),
      fun h => report_grows (s := u.countDrive _) h _⟩
  · rw [followCheck_within h]
    exact .refl u

theorem goodOutcome_taken : GoodTaken (goodJudged x st s) (goodOutcome x st s) := by
  rw [goodOutcome_eq]
  dsimp only
  split
  · exact goodTaken_setAxis _ _ _
  · split
    · exact goodTaken_setAxis _ _ _
    · split
      · exact goodTaken_followCheck _ _ _ _ _
      · exact .refl _

end Good
end Sys2Proof.Machine
end

