-- ==== Sys2Proof/Proofs/ExchangeEnds.lean ====
section
/-! The next state at EXCHANGE_COMPLETION and READY_DROP: the end of the exchange and the arbiter's choice after it
(R115 to R122). -/

namespace Sys2Proof.Machine

/-! ## The arbiter after an exchange, with every ready line high -/

section Ready
variable {v : State} (ready : ∀ a, v.ready.get a = true)
include ready

theorem driveArbitrate_trip : (driveArbitrate v).trip = v.trip := by
  rw [driveArbitrate, driveArb_ready 9 ready]
  rfl

theorem driveArbitrate_axis (a : Fin 4) : (driveArbitrate v).axis a = v.axis a := by
  rw [driveArbitrate, driveArb_ready 9 ready]
  rfl

end Ready

/-! ## A GOOD exchange -/

section Good
variable {x : Exchange} {st : DriveStatus} {s : State}

theorem goodOutcome_driveAxis :
    (goodOutcome x st s).driveAxis x.axis =
      { s.driveAxis x.axis with outcome := .good, bad := 0, status := some st, lastSetpoint := some x.setpoint } :=
  (congrArg (·.get x.axis) (goodOutcome_taken x st s).axes).trans (goodJudged_driveAxis x st s)

theorem goodOutcome_conditions (h : TreeWhole s.trip) :
    (goodOutcome x st s).trip.isPresent (.driveLink x.axis) = false ∧
    (goodOutcome x st s).trip.isPresent (.driveFault x.axis) = st.fault ∧
    (st.fault = true → (goodOutcome x st s).trip.isLatched (.driveFault x.axis) = true) := by
  obtain ⟨whole, link, fault, latched⟩ := goodJudged_conditions x st s h
  have grows := (goodOutcome_taken x st s).grows whole
  exact ⟨(grows.present _).trans link, (grows.present _).trans fault, fun hf => grows.latched _ (latched hf)⟩

/-- A pending capture takes the drive's position (R91, R117). -/
theorem goodOutcome_captures (hs : (s.axis x.axis).state = .standby) (hc : (s.axis x.axis).capture = true)
    (hn : x.noCapture = false) :
    ((goodOutcome x st s).axis x.axis).setpoint = st.actual ∧ ((goodOutcome x st s).axis x.axis).capture = false := by
  rw [goodOutcome_eq]
  dsimp only
  rw [if_pos ⟨hs, hc, by rw [hn]; rfl⟩, State.setAxis_axis_same]
  exact ⟨rfl, rfl⟩

/-- An axis OFF follows its drive (R117). -/
theorem goodOutcome_off (hs : (s.axis x.axis).state = .off) :
    ((goodOutcome x st s).axis x.axis).setpoint = st.actual := by
  rw [goodOutcome_eq]
  dsimp only
  rw [if_neg (fun captures => by rw [hs] at captures; cases captures.1), if_pos hs, State.setAxis_axis_same]

/-- A COUPLED axis has its following error checked (R118). -/
theorem goodOutcome_coupled (hs : (s.axis x.axis).state = .coupled) :
    goodOutcome x st s = followCheck x.axis x.limit (s.driveAxis x.axis).lastSetpoint st.actual (goodJudged x st s) := by
  rw [goodOutcome_eq]
  dsimp only
  rw [if_neg (fun captures => by rw [hs] at captures; cases captures.1),
    if_neg (fun off => by rw [hs] at off; cases off), if_pos hs]

theorem goodJudged_ctr : (goodJudged x st s).drive.ctr = s.drive.ctr :=
  (congrArg DriveLink.ctr (goodJudged_drive x st s) :)

theorem goodOutcome_exceeds (hs : (s.axis x.axis).state = .coupled)
    (h : FollowExceeds x.limit (s.driveAxis x.axis).lastSetpoint st.actual) :
    (goodOutcome x st s).drive.ctr.followExcess = bump s.drive.ctr.followExcess ∧
    (TreeWhole s.trip → (goodOutcome x st s).trip.isLatched (.followError x.axis) = true) := by
  rw [goodOutcome_coupled hs, followCheck_exceeds h]
  refine ⟨?_, fun whole => ?_⟩
  · rw [(report_level _ _).drive]
    exact congrArg (fun c => bump c.followExcess) goodJudged_ctr
  · obtain ⟨judged, -⟩ := goodJudged_conditions x st s whole
    exact report_isLatched (s := (goodJudged x st s).countDrive _) judged _

theorem goodOutcome_within (hs : (s.axis x.axis).state = .coupled)
    (h : ¬ FollowExceeds x.limit (s.driveAxis x.axis).lastSetpoint st.actual) :
    (goodOutcome x st s).drive.ctr.followExcess = s.drive.ctr.followExcess := by
  rw [goodOutcome_coupled hs, followCheck_within h, goodJudged_ctr]

end Good

/-! ## A bad exchange -/

/-- A bad outcome is counted, then reported by the count it gives (R119). -/
theorem badOutcome_eq (a : Fin 4) (o : DriveOutcome) (s : State) :
    badOutcome a o s =
      setCondition (.driveLink a) (decide (s.station.cfg.driveLimit ≤ min ((s.driveAxis a).bad + 1) 15))
        ((s.setDriveAxis a { s.driveAxis a with outcome := o, bad := min ((s.driveAxis a).bad + 1) 15 }).countDrive
          (countOutcome o)) := by
  let u := (s.setDriveAxis a { s.driveAxis a with
    outcome := o, bad := min ((s.driveAxis a).bad + 1) 15 }).countDrive (countOutcome o)
  exact congrArg (fun d : DriveAxis => setCondition (.driveLink a) (decide (s.station.cfg.driveLimit ≤ d.bad)) u)
    (State.setDriveAxis_same s a _)

/-- The conditions after an outcome other than GOOD (R119, R120). -/
theorem badOutcome_conditions {s : State} (h : TreeWhole s.trip) (a : Fin 4) (o : DriveOutcome) :
    (badOutcome a o s).trip.isPresent (.driveFault a) = s.trip.isPresent (.driveFault a) ∧
    (badOutcome a o s).trip.isPresent (.driveLink a) =
      decide (s.station.cfg.driveLimit ≤ min ((s.driveAxis a).bad + 1) 15) ∧
    (s.station.cfg.driveLimit ≤ min ((s.driveAxis a).bad + 1) 15 →
      (badOutcome a o s).trip.isLatched (.driveLink a) = true) := by
  rw [badOutcome_eq]
  have set := setCondition_set (s := (s.setDriveAxis a { s.driveAxis a with
    outcome := o, bad := min ((s.driveAxis a).bad + 1) 15 }).countDrive (countOutcome o)) h (.driveLink a)
    (decide (s.station.cfg.driveLimit ≤ min ((s.driveAxis a).bad + 1) 15))
  exact ⟨set.others _ (by simp), set.present, fun reached => set.latched (decide_eq_true reached)⟩

/-! ## READY_DROP -/

theorem dropExchange_eq (x : Exchange) (s : State) :
    dropExchange x s = driveArbitrate
      (if x.release = true then (freedLink s).setAxis x.axis { s.axis x.axis with release := false }
      else if x.void = true ∨ (s.axis x.axis).state = .disabled then freedLink s
      else badOutcome x.axis .readyDrop (freedLink s)) := rfl

/-- The ready line of an axis falls (R115). -/
def readyLow (m : Moment) (a : Fin 4) (s : State) : State := { s.tick m with ready := m.ready.set a false }

theorem exec_readyDrop_other {m : Moment} {a : Fin 4} {s : State} (h : ∀ x, s.drive.exchange = some x → x.axis ≠ a) :
    exec (.readyDrop m a) s = .next (readyLow m a s) := by
  have drive : (s.tick m).drive.exchange = s.drive.exchange := rfl
  simp only [exec, execReadyDrop]
  rw [drive]
  split
  · next x hx => exact congrArg Host.Outcome.next (if_neg (h x hx))
  · rfl

theorem exec_readyDrop_own {m : Moment} {a : Fin 4} {s : State} {x : Exchange} (hx : s.drive.exchange = some x)
    (ha : x.axis = a) : exec (.readyDrop m a) s = .next (dropExchange x (readyLow m a s)) := by
  have drive : (s.tick m).drive.exchange = s.drive.exchange := rfl
  simp only [exec, execReadyDrop]
  rw [drive, hx]
  exact congrArg Host.Outcome.next (if_pos ha)

/-! ## Every outcome, with every ready line high -/

section Ends
variable {x : Exchange} {b : List Byte} {s : State} (ready : ∀ a, s.ready.get a = true)
  (h : x.release = false) (hv : x.void = false) (hs : (s.axis x.axis).state ≠ .disabled)
include ready h hv hs

/-- After a GOOD exchange the station differs from its outcome only where the arbiter has chosen. -/
theorem completeExchange_good_ready (hj : judgeStatus x.sequence b = .good) :
    let v := goodOutcome x (readStatus b) (freedLink s)
    let t := completeExchange x b s
    DriveOnly s t ∧ OutcomeStays x.axis v t ∧ t.drive.ctr = v.drive.ctr ∧ t.trip = v.trip ∧
    ∀ a, t.axis a = v.axis a := by
  intro v t
  have only : DriveOnly s v := (driveOnly_setDrive s _).trans
    ((goodJudged_only x _ (freedLink s)).trans (goodOutcome_taken x _ (freedLink s)).only)
  have high (a : Fin 4) : v.ready.get a = true := by rw [only.moment.ready]; exact ready a
  have chosen : t = driveArbitrate v := completeExchange_good h hv hs hj
  obtain ⟨-, stays, ctr⟩ := driveArbitrate_noOutcome high
  rw [chosen]
  exact ⟨only.trans (driveOnly_driveArbitrate v), stays x.axis, ctr, driveArbitrate_trip high, driveArbitrate_axis high⟩

theorem completeExchange_bad_ready (hj : judgeStatus x.sequence b ≠ .good) :
    let v := badOutcome x.axis (judgeStatus x.sequence b) (sentLink x s)
    let t := completeExchange x b s
    DriveOnly s t ∧ OutcomeStays x.axis v t ∧ t.trip = v.trip ∧ ∀ a, t.axis a = v.axis a := by
  intro v t
  have only : DriveOnly s v := (driveOnly_setDrive s _).trans (driveOnly_badOutcome _ _ _)
  have high (a : Fin 4) : v.ready.get a = true := by rw [only.moment.ready]; exact ready a
  have chosen : t = driveArbitrate v := completeExchange_bad h hv hs hj
  obtain ⟨-, stays, -⟩ := driveArbitrate_noOutcome high
  rw [chosen]
  exact ⟨only.trans (driveOnly_driveArbitrate v), stays x.axis, driveArbitrate_trip high, driveArbitrate_axis high⟩

end Ends

/-! ## EXCHANGE_COMPLETION that ends nothing -/

theorem exec_exchange_length {b : List Byte} (h : b.length ≠ 12) (m : Moment) (s : State) :
    exec (.exchangeCompletion m b) s = .fault .noSuchEvent := if_neg h

theorem exec_exchange_none {b : List Byte} {s : State} (hb : b.length = 12) (hx : s.drive.exchange = none)
    (m : Moment) : exec (.exchangeCompletion m b) s = .next (s.tick m) := by
  simp only [exec, execExchangeCompletion, if_pos hb, State.tick_drive, hx]

end Sys2Proof.Machine

open Sys2Proof Sys2Proof.Machine

/-- Settles O37: the end of the exchange, case by case, and the arbiter that then gives this axis no outcome. -/
theorem exchangeEnds : Obligations.ExchangeEnds := by
  refine ⟨fun m b s => ⟨fun hb => exec_exchange_length hb m s, fun hb hx => exec_exchange_none hb hx m,
    ?_, ?_⟩,
    fun m a s => ⟨exec_readyDrop_other, ?_, ?_⟩⟩
  · intro x hb hx
    have next := exec_exchange (m := m) hb hx
    refine ⟨fun release => next.trans (congrArg _ (completeExchange_release release)),
      fun batch nothing => next.trans (congrArg _ (completeExchange_nothing batch nothing)),
      fun batch runs used => ⟨fun crc => ?_, fun crc seq => ?_⟩⟩
    · have judged := judgeStatus_crcBad (seq := x.sequence) crc
      have bad := completeExchange_bad (s := s.tick m) batch runs used (by rw [judged]; nofun)
      rw [judged] at bad
      exact next.trans (congrArg _ bad)
    · have judged := judgeStatus_seqBad crc seq
      have bad := completeExchange_bad (s := s.tick m) batch runs used (by rw [judged]; nofun)
      rw [judged] at bad
      exact next.trans (congrArg _ bad)
  · intro x hb hx batch runs used ready
    refine ⟨_, exec_exchange hb hx, ?_⟩
    by_cases good : (crc8 (b.take 11)).toNat = byteAt b 11 ∧ byteAt b 5 % 16 = x.sequence.toNat
    · obtain ⟨only, stays, ctr, trip, axis⟩ := completeExchange_good_ready (s := s.tick m) ready batch runs used
        (judgeStatus_good good.1 good.2)
      have record := goodOutcome_driveAxis (x := x) (st := readStatus b) (s := freedLink (s.tick m))
      refine ⟨stays.lastSetpoint.trans (by rw [record]), only.ctx, only.image, fun _ => ?_, fun bad => absurd good bad⟩
      refine ⟨stays.outcome.trans (by rw [record]), stays.bad.trans (by rw [record]),
        stays.status.trans (by rw [record]), fun whole => ?_, fun standby captures unmarked => ?_, fun off => ?_,
        fun coupled => ⟨fun exceeds => ?_, fun within => ?_⟩⟩
      · rw [trip]
        exact goodOutcome_conditions (s := freedLink (s.tick m)) whole.tree
      · rw [axis]
        exact goodOutcome_captures (s := freedLink (s.tick m)) standby captures unmarked
      · rw [axis]
        exact goodOutcome_off (s := freedLink (s.tick m)) off
      · rw [ctr, trip]
        obtain ⟨count, latched⟩ := goodOutcome_exceeds (s := freedLink (s.tick m)) coupled exceeds
        exact ⟨count, fun whole => latched whole.tree⟩
      · rw [ctr]
        exact goodOutcome_within (s := freedLink (s.tick m)) coupled within
    · have judged := judgeStatus_bad good
      have notGood : judgeStatus x.sequence b ≠ .good := by rw [judged]; split <;> nofun
      obtain ⟨only, stays, trip, axis⟩ := completeExchange_bad_ready (s := s.tick m) ready batch runs used notGood
      have record := (badOutcome_same x.axis (judgeStatus x.sequence b) (sentLink x (s.tick m))).trans
        (by rw [sentLink_driveAxis])
      have count := stays.bad.trans (congrArg DriveAxis.bad record :)
      refine ⟨stays.lastSetpoint.trans (congrArg DriveAxis.lastSetpoint record :), only.ctx, only.image,
        fun isGood => absurd isGood good, fun _ => ⟨count, stays.status.trans (congrArg DriveAxis.status record :),
          (stays.outcome.trans (congrArg DriveAxis.outcome record :)).trans judged, ?_, fun whole => ?_⟩⟩
      · rw [axis]
        exact (axesFall_badOutcome x.axis _ (sentLink x (s.tick m))).setpoint x.axis
      · have conditions := badOutcome_conditions (s := sentLink x (s.tick m)) whole.tree x.axis
          (judgeStatus x.sequence b)
        rw [sentLink_driveAxis] at conditions
        rw [trip, count]
        exact conditions
  · rintro x hx rfl
    exact (exec_readyDrop_own hx rfl).trans (congrArg _ (dropExchange_eq x _))
  · rintro x hx rfl batch runs used past
    have drop := dropExchange_eq x (readyLow m x.axis s)
    rw [if_neg (by rw [batch]; exact Bool.false_ne_true),
      if_neg (fun nothing => nothing.elim (by rw [runs]; exact Bool.false_ne_true) used)] at drop
    refine ⟨_, (exec_readyDrop_own hx rfl).trans (congrArg _ drop), ?_⟩
    have record := badOutcome_same x.axis .readyDrop (freedLink (readyLow m x.axis s))
    have link := badOutcome_drive x.axis .readyDrop (freedLink (readyLow m x.axis s))
    have only := (driveOnly_badOutcome x.axis .readyDrop (freedLink (readyLow m x.axis s))).trans
      (driveOnly_driveArbitrate _)
    obtain ⟨-, stays, ctr⟩ := driveArbitrate_turnPast (a := x.axis)
      (s := badOutcome x.axis .readyDrop (freedLink (readyLow m x.axis s))) (by rw [link]; exact past)
    exact ⟨stays.outcome.trans (congrArg DriveAxis.outcome record :), stays.bad.trans (congrArg DriveAxis.bad record :),
      stays.status.trans (congrArg DriveAxis.status record :),
      stays.lastSetpoint.trans (congrArg DriveAxis.lastSetpoint record :),
      ctr.trans (congrArg (fun d => d.ctr.readyDrop) link), only.ctx, only.image⟩

end

