-- ==== Sys2Proof/Proofs/WrittenTables.lean ====
section
/-! WRITE of the FAULT CONFIG, MASKS and AXIS tables: what the entries make of the tables, and the levels and conditions
recomputed from them (R87, R104, R151, R152, R187). -/

namespace Sys2Proof.Machine

/-! ## FAULT CONFIG -/

/-- A fault is found by its code (R149). -/
theorem faultOfCode_faultCode (f : FaultId) : faultOfCode? (faultCode f) = some f :=
  (show ∀ f ∈ allFaults, faultOfCode? (faultCode f) = some f by decide) f (mem_allFaults f)

theorem faultCode_of_faultOfCode {n : Nat} {f : FaultId} (h : faultOfCode? n = some f) : faultCode f = n :=
  eq_of_beq (List.find?_some (p := fun f => faultCode f == n) h)

/-- An entry that passes the checks of FAULT CONFIG names a fault and a level (R151). -/
theorem checkFaultConfig_passed {s : State} {x : Nat × FaultSetting} (h : checkFaultConfig s x = none) :
    ∃ f l, faultOfCode? x.1 = some f ∧ Level.ofNat? x.2.level = some l := by
  have named := failIf_passed .badIndex h List.mem_cons_self
  have ranged := failIf_passed .badValue h (List.mem_cons_of_mem _ List.mem_cons_self)
  simp only [within, Bool.not_eq_false', Bool.and_eq_true, decide_eq_true_eq] at ranged
  have level (n : Nat) (hn : 1 ≤ n ∧ n ≤ 3) : ∃ l, Level.ofNat? n = some l := by
    obtain ⟨low, high⟩ := hn
    interval_cases n <;> exact ⟨_, rfl⟩
  obtain ⟨l, hl⟩ := level x.2.level ranged
  cases hf : faultOfCode? x.1 with
  | none =>
    rw [hf] at named
    cases named
  | some f => exact ⟨f, l, rfl, hl⟩

theorem writeFaultEntry_eq {x : Nat × FaultSetting} {f : FaultId} {l : Level} (hf : faultOfCode? x.1 = some f)
    (hl : Level.ofNat? x.2.level = some l) (tree : List FaultEntry) :
    writeFaultEntry tree x = treeUpdate tree f fun e => { e with level := l, publish := x.2.publish } := by
  simp only [writeFaultEntry, hf, hl]

section Entry
variable {s : State} {x : Nat × FaultSetting} (h : checkFaultConfig s x = none) (tree : List FaultEntry)
include h

theorem writeFaultEntry_ids : (writeFaultEntry tree x).map (·.id) = tree.map (·.id) := by
  obtain ⟨f, l, hf, hl⟩ := checkFaultConfig_passed h
  rw [writeFaultEntry_eq hf hl]
  exact treeUpdate_ids tree f fun _ => rfl

/-- One entry of FAULT CONFIG sets the level and the publish flag of the fault it names (R151). -/
theorem writeFaultEntry_get {k : FaultId} (hk : k ∈ tree.map (·.id)) :
    (treeGet (writeFaultEntry tree x) k).level =
      (if x.1 = faultCode k then (Level.ofNat? x.2.level).getD (treeGet tree k).level else (treeGet tree k).level) ∧
    (treeGet (writeFaultEntry tree x) k).publish =
      (if x.1 = faultCode k then x.2.publish else (treeGet tree k).publish) := by
  obtain ⟨f, l, hf, hl⟩ := checkFaultConfig_passed h
  rw [writeFaultEntry_eq hf hl]
  by_cases hx : x.1 = faultCode k
  · have same : f = k := Option.some_injective _ (hf.symm.trans (by rw [hx, faultOfCode_faultCode]))
    subst same
    rw [treeGet_update_same (g := fun e => { e with level := l, publish := x.2.publish }) (fun _ => rfl) hk,
      if_pos hx, if_pos hx, hl]
    exact ⟨rfl, rfl⟩
  · have other : k ≠ f := fun same => hx (by rw [same, faultCode_of_faultOfCode hf])
    rw [treeGet_update_other (g := fun e => { e with level := l, publish := x.2.publish }) (fun _ => rfl) other,
      if_neg hx, if_neg hx]
    exact ⟨rfl, rfl⟩

end Entry

section Entries
variable {s : State} {es : List (Nat × FaultSetting)} (h : ∀ x ∈ es, checkFaultConfig s x = none)
include h

/-- Several entries act one after the other on the fault they name (R187). -/
theorem writeFaultEntries_get {tree : List FaultEntry} {k : FaultId} (hk : k ∈ tree.map (·.id)) :
    (treeGet (es.foldl writeFaultEntry tree) k).level =
      es.foldl (fun l x => if x.1 = faultCode k then (Level.ofNat? x.2.level).getD l else l) (treeGet tree k).level ∧
    (treeGet (es.foldl writeFaultEntry tree) k).publish =
      es.foldl (fun b x => if x.1 = faultCode k then x.2.publish else b) (treeGet tree k).publish := by
  induction es generalizing tree with
  | nil => exact ⟨rfl, rfl⟩
  | cons x es ih =>
    obtain ⟨hx, hes⟩ := List.forall_mem_cons.mp h
    obtain ⟨level, publish⟩ := writeFaultEntry_get hx tree hk
    obtain ⟨levels, publishes⟩ := ih hes (tree := writeFaultEntry tree x) (by rw [writeFaultEntry_ids hx]; exact hk)
    rw [level] at levels
    rw [publish] at publishes
    exact ⟨levels, publishes⟩

end Entries

/-- Latching a fault leaves every FAULT CONFIG entry alone (R151). -/
theorem latch_setting (t : TripUnit) (f k : FaultId) :
    (treeGet (t.latch f).tree k).level = (treeGet t.tree k).level ∧
    (treeGet (t.latch f).tree k).publish = (treeGet t.tree k).publish := by
  by_cases hk : k = f
  · by_cases hf : f ∈ t.tree.map (·.id)
    · rw [hk, TripUnit.latch, treeGet_update_same (g := fun e => { e with latched := true }) (fun _ => rfl) hf]
      exact ⟨rfl, rfl⟩
    · rw [TripUnit.latch, treeUpdate_absent _ hf]
      exact ⟨rfl, rfl⟩
  · rw [latch_get_other hk]
    exact ⟨rfl, rfl⟩

/-- A recomputation leaves every FAULT CONFIG entry alone (R156). -/
theorem recompute_setting (s : State) (k : FaultId) :
    (treeGet (recompute s).trip.tree k).level = (treeGet s.trip.tree k).level ∧
    (treeGet (recompute s).trip.tree k).publish = (treeGet s.trip.tree k).publish := by
  rcases recompute_tree s with same | latched
  · rw [same]
    exact ⟨rfl, rfl⟩
  · rw [latched]
    exact latch_setting s.trip .ringCongestion k

/-! ## AXIS -/

/-- A passage to OFF changes an axis's state and ends its capture (R97). -/
structure TableStays (r r' : AxisRecord) : Prop where
  cfg : r'.cfg = r.cfg
  gear : r'.gear = r.gear
  setpoint : r'.setpoint = r.setpoint
  corrTarget : r'.corrTarget = r.corrTarget
  acc : r'.acc = r.acc

theorem AxesFall.table {s t : State} (h : AxesFall s t) (a : Fin 4) : TableStays (s.axis a) (t.axis a) := by
  rcases h a with same | off
  · rw [same]
    exact ⟨rfl, rfl, rfl, rfl, rfl⟩
  · rw [off, axisToOff]
    split <;> exact ⟨rfl, rfl, rfl, rfl, rfl⟩

theorem TableStays.atCorrLimit {r r' : AxisRecord} (h : TableStays r r') : atCorrLimit r' = Machine.atCorrLimit r := by
  unfold Machine.atCorrLimit
  rw [h.cfg, h.corrTarget]

theorem atCorrLimit_eq (r : AxisRecord) :
    atCorrLimit r = decide (0 < r.cfg.corrMax ∧ r.corrTarget.natAbs = r.cfg.corrMax) := by
  rw [atCorrLimit, Bool.decide_and]
  rfl

/-- The CORRECTION_LIMIT conditions written in entry order leave an axis that no entry names as it was, and give one
that some entry names the condition its target has (R104). -/
structure LimitsWritten (es : List (Nat × AxisConfig)) (s t : State) : Prop where
  level : LevelOnly s t
  fall : AxesFall s t
  whole : TreeWhole s.trip → TreeWhole t.trip
  present : TreeWhole s.trip → ∀ a : Fin 4, t.trip.isPresent (.correctionLimit a) =
    if ∃ x ∈ es, Fin.ofNat 4 x.1 = a then atCorrLimit (s.axis a) else s.trip.isPresent (.correctionLimit a)

theorem reportWrittenLimits_written (es : List (Nat × AxisConfig)) (s : State) :
    LimitsWritten es s (reportWrittenLimits es s) := by
  induction es generalizing s with
  | nil => exact ⟨.refl s, .of_recs rfl, id, fun _ a => (if_neg (by rintro ⟨x, hx, -⟩; cases hx)).symm⟩
  | cons x es ih =>
    have fall : AxesFall s (reportCorrLimit (Fin.ofNat 4 x.1) s) := axesFall_setCondition _ _ s
    have set (h : TreeWhole s.trip) := setCondition_set (s := s) h (.correctionLimit (Fin.ofNat 4 x.1))
      (atCorrLimit (s.axis (Fin.ofNat 4 x.1)))
    have rest := ih (reportCorrLimit (Fin.ofNat 4 x.1) s)
    refine ⟨(setCondition_level _ _ s).trans rest.level, fall.trans rest.fall,
      fun h => rest.whole (set h).whole, fun h a => (rest.present (set h).whole a).trans ?_⟩
    rw [(fall.table a).atCorrLimit]
    by_cases later : ∃ y ∈ es, Fin.ofNat 4 y.1 = a
    · obtain ⟨y, hy, named⟩ := later
      rw [if_pos ⟨y, hy, named⟩, if_pos ⟨y, List.mem_cons_of_mem x hy, named⟩]
    · rw [if_neg later]
      by_cases own : Fin.ofNat 4 x.1 = a
      · rw [if_pos ⟨x, List.mem_cons_self, own⟩, ← own]
        exact (set h).present
      · rw [if_neg (fun some => by
          obtain ⟨y, hy, named⟩ := some
          rcases List.mem_cons.mp hy with rfl | hy
          · exact own named
          · exact later ⟨y, hy, named⟩)]
        exact (set h).others _ (by simpa using Ne.symm own)

/-- An entry that passes the checks of the AXIS table names one of the four axes (R87). -/
theorem checkAxis_index {es : List (Nat × AxisConfig)} {s : State} {x : Nat × AxisConfig} (h : checkAxis es s x = none)
    (a : Fin 4) : Fin.ofNat 4 x.1 = a ↔ x.1 = a.val := by
  have index := failIf_passed .badIndex h List.mem_cons_self
  have low : x.1 < 4 := Nat.lt_succ_of_le (by simpa using index)
  rw [Fin.ext_iff, Fin.val_ofNat, Nat.mod_eq_of_lt low]

theorem writeAxisRecord_acc (new : AxisConfig) (r : AxisRecord) :
    (writeAxisRecord new r).acc = if r.cfg.num = new.num ∧ r.cfg.den = new.den then r.acc else 0 := by
  unfold writeAxisRecord gearChanged
  by_cases h : r.cfg.num = new.num ∧ r.cfg.den = new.den
  · rw [if_pos h]
    simp [h.1, h.2]
  · rw [if_neg h]
    refine if_pos ?_
    simpa [-not_and, not_and_or] using h

/-- What a WRITE of the AXIS table makes of each axis and its condition (R87, R104). -/
theorem writtenAxes_axis {es : List (Nat × AxisConfig)} {s : State} (h : ∀ x ∈ es, checkAxis es s x = none) (a : Fin 4) :
    let old := s.axis a
    let new := writtenAxis es a old.cfg
    let v := reportWrittenLimits es (writeAxes es s)
    (v.axis a).cfg = new ∧ (v.axis a).gear = old.gear ∧ (v.axis a).setpoint = old.setpoint ∧
    (v.axis a).corrTarget = old.corrTarget ∧
    (v.axis a).acc = (if old.cfg.num = new.num ∧ old.cfg.den = new.den then old.acc else 0) ∧
    (TreeWhole s.trip → v.trip.isPresent (.correctionLimit a) =
      if ∃ x ∈ es, x.1 = a.val then decide (0 < new.corrMax ∧ old.corrTarget.natAbs = new.corrMax)
      else s.trip.isPresent (.correctionLimit a)) := by
  intro old new v
  have written := reportWrittenLimits_written es (writeAxes es s)
  have stays := written.fall.table a
  rw [writeAxes_get] at stays
  refine ⟨stays.cfg, stays.gear, stays.setpoint, stays.corrTarget, stays.acc.trans (writeAxisRecord_acc _ _),
    fun whole => (written.present whole a).trans ?_⟩
  have named : (∃ x ∈ es, Fin.ofNat 4 x.1 = a) ↔ ∃ x ∈ es, x.1 = a.val :=
    exists_congr fun x => and_congr_right fun hx => checkAxis_index (h x hx) a
  rw [writeAxes_get, atCorrLimit_eq]
  exact if_congr named rfl rfl

end Sys2Proof.Machine
end

