-- ==== Sys2Proof/Proofs/CameraWrite.lean ====
section
/-! WRITE of the CAMERA table, stage by stage: the frame in assembly queued, the record taken, a line that has outlived
the timeout abandoned, and WEB_BREAK (R127, R130, R132). -/

namespace Sys2Proof.Machine

/-! ## The stages -/

/-- The frame in assembly goes out where a stream field changes (R127, R144). -/
def assemblySent (streams : Bool) (s : State) : State :=
  if streams = true ∧ s.image.asm ≠ [] then
    insertLocal (s.setImage { s.image with asm := [] }) .i s.image.asmStream 63
      (s.image.asm.map fun g => 16 + g.count).sum (.image s.image.asm false)
  else s

/-- The record is taken; another geometry restarts the Image Unit, the windows `ws` waiting (R127). -/
def recordTaken (geometry : Bool) (new : CameraRecord) (ws : List Window) (s : State) : State :=
  let image := { s.image with cam := new }
  s.setImage (if geometry then { image with
    line := none, next := none, trigger := none, prevIndex := none,
    windows := ws.map fun w => { w with measuring := false, isOpen := false, prev := none, edge := none }
    pending := [] } else image)

/-- The Image Unit without its line in progress, the `run`th in a run to be abandoned (R130). -/
def withoutLine (run : Nat) (u : ImageUnit) : ImageUnit :=
  { u with
    line := none, abandoned := run, ctr := { u.ctr with abandoned := bump u.ctr.abandoned } }

/-- The line in progress is abandoned and counted, CAMERA_LOST being present from the fourth in a run on (R130). -/
def lineAbandoned (run : Nat) (s : State) : State :=
  setCondition .cameraLost (decide (4 ≤ run)) (s.setImage (withoutLine run s.image))

/-- Whether the line in progress has outlived a timeout (R130). -/
def outlives (timeout : Nat) (s : State) : Bool :=
  s.image.line.any fun l => decide (l.start + timeout * 100 ≤ s.clock)

section Stages
variable (s : State)

theorem assemblySent_stays {s : State} {streams : Bool} (h : streams = false ∨ s.image.asm = []) :
    assemblySent streams s = s :=
  if_neg fun sent => h.elim (fun none => Bool.false_ne_true (none.symm.trans sent.1)) sent.2

theorem assemblySent_sent {s : State} (h : s.image.asm ≠ []) :
    assemblySent true s = insertLocal (s.setImage { s.image with asm := [] }) .i s.image.asmStream 63
      (s.image.asm.map fun g => 16 + g.count).sum (.image s.image.asm false) := if_pos ⟨rfl, h⟩

theorem assemblySent_eq {s : State} (ha : s.station.address ≠ 0) (streams : Bool) :
    (if streams then queueAssembly s else s) = assemblySent streams s := by
  cases streams with
  | false => exact (assemblySent_stays (.inl rfl)).symm
  | true =>
    by_cases h : s.image.asm = []
    · rw [assemblySent_stays (.inr h)]
      exact queueAssembly_empty h
    · rw [assemblySent_sent h]
      exact (queueAssembly_eq h).trans (if_neg ha)

/-- What is sent of the assembly leaves the control blocks and Station Control's record alone. -/
theorem assemblySent_queue (streams : Bool) :
    QueueOnly (s.setImage { s.image with asm := if streams then [] else s.image.asm }) (assemblySent streams s) := by
  have same : QueueOnly s s := queueOnly_setStation s s.station rfl rfl
  cases streams with
  | false =>
    rw [assemblySent_stays (.inl rfl)]
    exact same
  | true =>
    by_cases h : s.image.asm = []
    · rw [assemblySent_stays (.inr h), if_pos rfl, ← h]
      exact same
    · rw [assemblySent_sent h]
      exact insertLocal_queue _ _ _ _ _ _

theorem assemblySent_image (streams : Bool) :
    (assemblySent streams s).image = { s.image with asm := if streams then [] else s.image.asm } :=
  (assemblySent_queue s streams).control.image

theorem timedOut_eq : timedOut s = outlives s.image.cam.timeout s := by
  unfold timedOut outlives
  cases s.image.line <;> rfl

theorem abandonLine_eq : abandonLine s = lineAbandoned (min (s.image.abandoned + 1) 255) s := rfl

/-- With another geometry there is no line left to abandon (R127, R130). -/
theorem outlives_recordTaken (geometry : Bool) (new : CameraRecord) (ws : List Window) (n : Nat) :
    outlives n (recordTaken geometry new ws s) = true ↔ geometry = false ∧ outlives n s = true := by
  cases geometry with
  | false => exact (and_iff_right rfl).symm
  | true => exact ⟨fun h => (Bool.false_ne_true h).elim, fun h => (Bool.noConfusion h.1 : False).elim⟩

theorem recordTaken_cam (geometry : Bool) (new : CameraRecord) (ws : List Window) :
    (recordTaken geometry new ws s).image.cam = new := by
  cases geometry <;> rfl

theorem outlives_assemblySent (streams : Bool) (n : Nat) : outlives n (assemblySent streams s) = outlives n s := by
  unfold outlives
  rw [assemblySent_image, (assemblySent_queue s streams).moment.clock]
  rfl

end Stages

/-! ## The write -/

/-- The record taken after the assembly has gone out (R127). -/
def cameraRecord (streams geometry : Bool) (new : CameraRecord) (s : State) : State :=
  recordTaken geometry new s.image.windows (assemblySent streams s)

/-- A WRITE of the CAMERA table up to WEB_BREAK, where the stream fields or the geometry change as told (R127, R130). -/
def cameraTaken (streams geometry : Bool) (new : CameraRecord) (s : State) : State :=
  if geometry = false ∧ s.image.cam.timeout ≠ new.timeout ∧ outlives new.timeout s = true then
    lineAbandoned (min (s.image.abandoned + 1) 255) (cameraRecord streams geometry new s)
  else cameraRecord streams geometry new s

section Taken
variable (streams geometry : Bool) (new : CameraRecord) (s : State)

/-- What the record taken makes of the Image Unit (R127). -/
theorem cameraRecord_image :
    (cameraRecord streams geometry new s).image =
      (let image := { s.image with asm := if streams then [] else s.image.asm, cam := new }
       if geometry then { image with
        line := none, next := none, trigger := none, prevIndex := none,
        windows := s.image.windows.map fun w =>
          { w with measuring := false, isOpen := false, prev := none, edge := none }
        pending := [] } else image) := by
  unfold cameraRecord recordTaken
  rw [State.setImage_image, assemblySent_image]

theorem lineAbandoned_image (run : Nat) :
    (lineAbandoned run s).image = withoutLine run s.image :=
  (setCondition_level _ _ _).image

theorem lineAbandoned_set {s : State} (h : TreeWhole s.trip) (run : Nat) :
    ConditionSet s.trip (lineAbandoned run s).trip .cameraLost (decide (4 ≤ run)) :=
  setCondition_set (s := s.setImage (withoutLine run s.image)) h _ _

/-- A WRITE of the CAMERA table passes no other control block than the Image and the Trip Unit. -/
theorem cameraTaken_kept :
    (cameraTaken streams geometry new s).ctx = s.ctx ∧ (cameraTaken streams geometry new s).drive = s.drive ∧
    (TreeWhole s.trip → TreeWhole (cameraTaken streams geometry new s).trip) := by
  obtain ⟨-, ctx, -, drive, -, trip, -⟩ := (assemblySent_queue s streams).control
  have whole (h : TreeWhole s.trip) : TreeWhole (cameraRecord streams geometry new s).trip := by
    unfold cameraRecord recordTaken
    rw [State.setImage_trip, trip]
    exact h
  unfold cameraTaken
  split
  · have level : LevelOnly _ (lineAbandoned (min (s.image.abandoned + 1) 255)
        (cameraRecord streams geometry new s)) := setCondition_level _ _ _
    exact ⟨level.ctx.trans ctx, level.drive.trans drive,
      fun h => (lineAbandoned_set (whole h) _).whole⟩
  · exact ⟨ctx, drive, whole⟩

/-- The fields of the Image Unit that no stage but the record changes (R127). -/
theorem cameraTaken_image :
    (cameraTaken streams geometry new s).image.cam = new ∧
    (cameraTaken streams geometry new s).image.webRun = s.image.webRun ∧
    (cameraTaken streams geometry new s).image.lineNo = s.image.lineNo ∧
    (cameraTaken streams geometry new s).image.asm = (if streams then [] else s.image.asm) := by
  have image := cameraRecord_image streams geometry new s
  have kept : (cameraRecord streams geometry new s).image.cam = new ∧
      (cameraRecord streams geometry new s).image.webRun = s.image.webRun ∧
      (cameraRecord streams geometry new s).image.lineNo = s.image.lineNo ∧
      (cameraRecord streams geometry new s).image.asm = (if streams then [] else s.image.asm) := by
    rw [image]
    cases geometry <;> exact ⟨rfl, rfl, rfl, rfl⟩
  unfold cameraTaken
  split
  · rw [lineAbandoned_image]
    exact kept
  · exact kept

/-- Another geometry drops the line in progress, the trigger and the pending corrections, and makes every window wait
(R127). -/
theorem cameraTaken_restarts :
    let v := (cameraTaken streams true new s).image
    (v.line = none ∧ v.next = none ∧ v.trigger = none ∧ v.pending = []) ∧ v.prevIndex = none ∧
    ∀ w ∈ v.windows, w.measuring = false ∧ w.isOpen = false ∧ w.edge = none := by
  have same : cameraTaken streams true new s = cameraRecord streams true new s := if_neg fun h => Bool.noConfusion h.1
  rw [same, cameraRecord_image]
  refine ⟨⟨rfl, rfl, rfl, rfl⟩, rfl, fun w hw => ?_⟩
  obtain ⟨x, -, rfl⟩ := List.mem_map.mp hw
  exact ⟨rfl, rfl, rfl⟩

/-- A line that has outlived the new timeout is abandoned, counted and reported (R130). -/
theorem cameraTaken_abandons
    (h : geometry = false ∧ s.image.cam.timeout ≠ new.timeout ∧ outlives new.timeout s = true) :
    let v := cameraTaken streams geometry new s
    v.image.line = none ∧ v.image.abandoned = min (s.image.abandoned + 1) 255 ∧
    v.image.ctr.abandoned = bump s.image.ctr.abandoned ∧
    (TreeWhole s.trip → v.trip.isPresent .cameraLost = decide (4 ≤ min (s.image.abandoned + 1) 255)) := by
  have same : cameraTaken streams geometry new s =
      lineAbandoned (min (s.image.abandoned + 1) 255) (cameraRecord streams geometry new s) := if_pos h
  have trip : (cameraRecord streams geometry new s).trip = s.trip := (assemblySent_queue s streams).control.trip
  obtain ⟨rfl, -, -⟩ := h
  rw [same]
  have image := cameraRecord_image streams false new s
  dsimp only
  refine ⟨by rw [lineAbandoned_image]; rfl, by rw [lineAbandoned_image]; rfl,
    by rw [lineAbandoned_image, image]; rfl, fun whole => ?_⟩
  exact (lineAbandoned_set (s := cameraRecord streams false new s) (by rw [trip]; exact whole) _).present

end Taken

/-- Which fields of the record make the frame in assembly go out (R127). -/
theorem streamChanged_eq (old new : CameraRecord) :
    streamChanged old new = decide (old.stream ≠ new.stream ∨ old.cropStart ≠ new.cropStart ∨
      old.cropWidth ≠ new.cropWidth ∨ old.decimation ≠ new.decimation ∨ old.lineStep ≠ new.lineStep ∨
      (old.streaming = true ∧ new.streaming = false)) := by
  rw [Bool.eq_iff_iff, decide_eq_true_iff]
  simp [streamChanged, or_assoc]

theorem cameraGeometry_eq (old new : CameraRecord) :
    cameraGeometry old new = decide (old.pixels ≠ new.pixels ∨ old.pitch ≠ new.pitch) := by
  rw [Bool.eq_iff_iff, decide_eq_true_iff]
  simp [cameraGeometry]

/-- The effects of a WRITE of the CAMERA table at a station that is addressed (R127). -/
theorem writeCamera_eq {s : State} (ha : s.station.address ≠ 0) (new : CameraRecord) :
    writeCamera new s = setCondition .webBreak (decide (new.webRun ≤ s.image.webRun))
      (cameraTaken (streamChanged s.image.cam new) (cameraGeometry s.image.cam new) new s) := by
  obtain ⟨cam, run, -⟩ := cameraTaken_image (streamChanged s.image.cam new) (cameraGeometry s.image.cam new) new s
  have web : reportWeb (cameraTaken (streamChanged s.image.cam new) (cameraGeometry s.image.cam new) new s) =
      setCondition .webBreak (decide (new.webRun ≤ s.image.webRun))
        (cameraTaken (streamChanged s.image.cam new) (cameraGeometry s.image.cam new) new s) := by
    unfold reportWeb
    rw [cam, run]
  have abandons : (s.image.cam.timeout ≠ new.timeout ∧
      timedOut (cameraRecord (streamChanged s.image.cam new) (cameraGeometry s.image.cam new) new s) = true) ↔
      cameraGeometry s.image.cam new = false ∧ s.image.cam.timeout ≠ new.timeout ∧ outlives new.timeout s = true := by
    rw [timedOut_eq, cameraRecord, recordTaken_cam, outlives_recordTaken, outlives_assemblySent]
    exact and_left_comm
  have stage : writeCamera new s = reportWeb
      (let a := if streamChanged s.image.cam new then queueAssembly s else s
       let b := recordTaken (cameraGeometry s.image.cam new) new a.image.windows a
       if s.image.cam.timeout ≠ new.timeout ∧ timedOut b = true then abandonLine b else b) := rfl
  have windows : (assemblySent (streamChanged s.image.cam new) s).image.windows = s.image.windows := by
    rw [assemblySent_image]
  have counted (b : State) (hb : b.image.abandoned = s.image.abandoned) :
      abandonLine b = lineAbandoned (min (s.image.abandoned + 1) 255) b := by rw [abandonLine_eq, hb]
  rw [stage, assemblySent_eq ha, ← web]
  dsimp only
  rw [windows]
  refine congrArg reportWeb (if_congr abandons (counted _ ?_) rfl)
  refine (congrArg ImageUnit.abandoned (cameraRecord_image (streamChanged s.image.cam new)
    (cameraGeometry s.image.cam new) new s)).trans ?_
  cases cameraGeometry s.image.cam new <;> rfl

/-- What the whole write makes of the Image Unit and its conditions, where the stream fields or the geometry change as
told (R127, R130, R132). -/
theorem cameraWritten_effects (streams geometry : Bool) (new : CameraRecord) (s : State) :
    let v := setCondition .webBreak (decide (new.webRun ≤ s.image.webRun)) (cameraTaken streams geometry new s)
    (v.image.cam = new ∧ v.image.webRun = s.image.webRun ∧ v.image.lineNo = s.image.lineNo ∧
      v.image.asm = (if streams then [] else s.image.asm)) ∧
    (v.ctx = s.ctx ∧ v.drive = s.drive) ∧
    (geometry = true →
      (v.image.line = none ∧ v.image.next = none ∧ v.image.trigger = none ∧ v.image.pending = []) ∧
      v.image.prevIndex = none ∧ ∀ w ∈ v.image.windows, w.measuring = false ∧ w.isOpen = false ∧ w.edge = none) ∧
    (geometry = false ∧ s.image.cam.timeout ≠ new.timeout ∧ outlives new.timeout s = true →
      v.image.line = none ∧ v.image.abandoned = min (s.image.abandoned + 1) 255 ∧
      v.image.ctr.abandoned = bump s.image.ctr.abandoned ∧
      (TreeWhole s.trip → v.trip.isPresent .cameraLost = decide (4 ≤ min (s.image.abandoned + 1) 255))) ∧
    (TreeWhole s.trip → v.trip.isPresent .webBreak = decide (new.webRun ≤ s.image.webRun)) := by
  intro v
  obtain ⟨ctx, drive, whole⟩ := cameraTaken_kept streams geometry new s
  have level : LevelOnly (cameraTaken streams geometry new s) v := setCondition_level _ _ _
  have set (w : TreeWhole s.trip) := setCondition_set (whole w) .webBreak (decide (new.webRun ≤ s.image.webRun))
  rw [level.image]
  refine ⟨cameraTaken_image streams geometry new s, ⟨level.ctx.trans ctx, level.drive.trans drive⟩, ?_, fun outlived => ?_,
    fun w => (set w).present⟩
  · rintro rfl
    exact cameraTaken_restarts streams new s
  · obtain ⟨line, run, count, lost⟩ := cameraTaken_abandons streams geometry new s outlived
    exact ⟨line, run, count, fun w => ((set w).others _ (by decide)).trans (lost w)⟩

end Sys2Proof.Machine
end

