-- ==== Sys2Proof/Proofs/StationWrite.lean ====
section
/-! WRITE of the STATION table, stage by stage: the address and the record, the station's own remote entry, DRIVE_LINK,
the silent entries, the management timers, and the CHANGE frame (R119, R161, R164, R166, R188, R191). -/

namespace Sys2Proof.Machine

/-! ## What the reports do not count -/

/-- The count of entries gone STALE is the same. -/
def SameStale (s t : State) : Prop := t.trip.ctr.staleRemote = s.trip.ctr.staleRemote

theorem sameStale_of {s t : State} {x : TripUnit} (h : t.trip = x) (hx : x.ctr.staleRemote = s.trip.ctr.staleRemote) :
    SameStale s t := (congrArg (fun t : TripUnit => t.ctr.staleRemote) h).trans hx

theorem sameStale_originateTrip (r : Bool) (s : State) : SameStale s (originateTrip r s).1 := by
  unfold originateTrip queueTrip
  split
  · split
    · exact sameStale_of (arbitrate_ring _).control.trip rfl
    · rfl
  · rfl

theorem sameStale_recomputeOnce (s : State) : SameStale s (recomputeOnce s).1 := by
  have level : SameStale s (recomputed s) := sameStale_of (levelChange_trip _ _ _) rfl
  rw [recomputeOnce_eq]
  split
  · exact level
  · exact (sameStale_originateTrip false _).trans level

theorem sameStale_reportCongestion (s : State) : SameStale s (reportCongestion s) := by
  unfold reportCongestion
  split
  · rfl
  · exact sameStale_recomputeOnce (s.setTrip (s.trip.latch .ringCongestion))

theorem sameStale_recompute (s : State) : SameStale s (recompute s) := by
  unfold recompute afterQueue
  split
  · exact (sameStale_reportCongestion _).trans (sameStale_recomputeOnce s)
  · exact sameStale_recomputeOnce s

theorem sameStale_sendTrip (r : Bool) (s : State) : SameStale s (sendTrip r s) := by
  unfold sendTrip afterQueue
  split
  · exact (sameStale_reportCongestion _).trans (sameStale_originateTrip r s)
  · exact sameStale_originateTrip r s

theorem sameStale_setCondition (f : FaultId) (b : Bool) (s : State) : SameStale s (setCondition f b s) := by
  have reported (u : State) : SameStale u (report f u) := by
    unfold report
    split
    · rfl
    · exact (sameStale_recompute _).trans
        (sameStale_of (axisFault_trip f (u.setTrip (u.trip.latch f))) rfl)
  cases b with
  | false => rfl
  | true => exact reported (s.setTrip (s.trip.setCond f true))

/-! ## The levels after a frame, and over marks -/

theorem reportCongestion_levels {s : State} (h : s.trip.levels = s.trip.compute) :
    (reportCongestion s).trip.levels = (reportCongestion s).trip.compute := by
  unfold reportCongestion
  split
  · exact h
  · exact recomputeOnce_levels _

theorem sendTrip_levels {s : State} (h : s.trip.levels = s.trip.compute) (r : Bool) :
    (sendTrip r s).trip.levels = (sendTrip r s).trip.compute := by
  have sent : (originateTrip r s).1.trip.levels = (originateTrip r s).1.trip.compute := by
    have same := originateTrip_trip r s
    rw [same.levels, same.compute, h]
  unfold sendTrip afterQueue
  split
  · exact reportCongestion_levels sent
  · exact sent

/-- Marking remote entries STALE changes no level (R164). -/
theorem computeLevels_marked (silent : RemoteEntry → Bool) (tree : List FaultEntry) (hl : Option Level)
    (masks : List Bool) (rs : List RemoteEntry) :
    computeLevels tree hl masks (rs.map fun x => if silent x then { x with stale := true } else x) =
      computeLevels tree hl masks rs := by
  have level (x : RemoteEntry) : (if silent x then { x with stale := true } else x).level = x.level := by
    split <;> rfl
  have counting : (rs.map fun x => if silent x then { x with stale := true } else x).filter (remoteCounts masks) =
      (rs.filter (remoteCounts masks)).map fun x => if silent x then { x with stale := true } else x := by
    rw [List.filter_map]
    congr 2
    funext x
    simp only [Function.comp, remoteCounts, level]
  unfold computeLevels
  simp only [counting, List.map_map, Function.comp_def, level, List.isEmpty_map]

/-! ## The stages -/

/-- The station with its new address and record, its clash record gone with the old address (R63, R188). -/
def stationNamed (own : Nat) (new : StationRecord) (s : State) : State :=
  (s.setStation { s.station with address := own, cfg := new }).setSw
    (if own ≠ s.station.address then { s.sw with clash := none } else s.sw)

/-- The remote trip table without the station's own entry (R166). -/
def othersOf (own : Nat) (s : State) : List RemoteEntry := s.trip.remote.filter fun x => x.source != own

/-- The station's own entry of the remote trip table goes with a new address (R166). -/
def ownDropped (own : Nat) (new : StationRecord) (s : State) : State :=
  if own ≠ s.station.address ∧ s.trip.remote.any (fun x => x.source == own) = true then
    recompute ((stationNamed own new s).setTrip { s.trip with remote := othersOf own s })
  else stationNamed own new s

/-- DRIVE_LINK of the four axes by a new count E (R119). -/
def linksReported (own : Nat) (new : StationRecord) (s : State) : State :=
  if new.driveLimit = s.station.cfg.driveLimit then ownDropped own new s else
    [(0 : Fin 4), 1, 2, 3].foldl (fun z i =>
      setCondition (.driveLink i) (decide (new.driveLimit ≤ (s.driveAxis i).bad)) z) (ownDropped own new s)

/-- Whether an entry has been silent for 4 × Rf and is not STALE yet (R164). -/
def silentAt (now refresh : Nat) (x : RemoteEntry) : Bool :=
  !x.stale && decide (x.last + 4 * refresh * 100000 ≤ now)

/-- The entries a change of address leaves (R166). -/
def entriesKept (own : Nat) (s : State) : List RemoteEntry :=
  if own ≠ s.station.address then othersOf own s else s.trip.remote

/-- The entries with the silent ones STALE (R164). -/
def entriesMarked (own : Nat) (new : StationRecord) (s : State) : List RemoteEntry :=
  (entriesKept own s).map fun x => if silentAt s.clock new.refresh x then { x with stale := true } else x

/-- The count of STALE entries once the silent ones are counted (R164). -/
def staleCounted (own : Nat) (new : StationRecord) (s : State) : Nat :=
  bumpBy s.trip.ctr.staleRemote ((entriesKept own s).countP (silentAt s.clock new.refresh))

/-- A lowered Rf makes the silent entries STALE (R164). -/
def silentMarked (own : Nat) (new : StationRecord) (s : State) : State :=
  let c := linksReported own new s
  if new.refresh < s.station.cfg.refresh then c.setTrip { c.trip with
    remote := entriesMarked own new s, ctr := { c.trip.ctr with staleRemote := staleCounted own new s } } else c

/-- A management timer whose timeout is 0 stops and its condition ends (R191). -/
def timersStopped (new : StationRecord) (d : State) : State :=
  let f := if new.shortTimeout = 0 then
    (d.setStation { d.station with shortTimer := none }).setTrip (d.trip.setCond .mgmtSilent false) else d
  if new.longTimeout = 0 then
    (f.setStation { f.station with longTimer := none }).setTrip (f.trip.setCond .mgmtLost false) else f

/-- A WRITE of the STATION table up to the CHANGE frame (R188). -/
def stationTaken (own : Nat) (new : StationRecord) (s : State) : State := timersStopped new (silentMarked own new s)

/-! ## What the stages keep -/

/-- The station whose fields the stages up to DRIVE_LINK leave alone, the levels and the fault tree apart. -/
def namedBase (own : Nat) (new : StationRecord) (s : State) : State :=
  (stationNamed own new s).setTrip { s.trip with remote := entriesKept own s }

theorem LevelOnly.setRemote {x y : State} (h : LevelOnly x y) (rs : List RemoteEntry) (n : Nat) :
    LevelOnly (x.setTrip { x.trip with remote := rs, ctr := { x.trip.ctr with staleRemote := n } })
      (y.setTrip { y.trip with remote := rs, ctr := { y.trip.ctr with staleRemote := n } }) :=
  { moment := ⟨h.moment.pending, h.moment.clock, h.moment.ready, h.moment.serial, h.moment.strap⟩
    ring := ⟨h.ring.sideA, h.ring.sideB, h.ring.role, h.ring.tap, h.ring.clash⟩
    gen := h.gen
    ctx := h.ctx
    counters := h.counters
    drive := h.drive
    image := h.image
    trip := congrArg (fun t : TripUnit => { t with
      remote := rs, ctr := { y.trip.ctr with staleRemote := n } }) h.trip
    panel := h.panel
    store := h.store
    station := h.station }

theorem LevelOnly.setTimers {x y : State} (h : LevelOnly x y) (short long : Option Nat) :
    LevelOnly (x.setStation { x.station with shortTimer := short, longTimer := long })
      (y.setStation { y.station with shortTimer := short, longTimer := long }) :=
  { moment := ⟨h.moment.pending, h.moment.clock, h.moment.ready, h.moment.serial, h.moment.strap⟩
    ring := ⟨h.ring.sideA, h.ring.sideB, h.ring.role, h.ring.tap, h.ring.clash⟩
    gen := h.gen
    ctx := h.ctx
    counters := h.counters
    drive := h.drive
    image := h.image
    trip := h.trip
    panel := h.panel
    store := h.store
    station := congrArg (fun c : StationCtl => { c with shortTimer := short, longTimer := long }) h.station }

/-- What every stage keeps: the tree whole, current levels current, and busy outputs busy. -/
structure StageKeeps (s t : State) : Prop where
  whole : TreeWhole s.trip → TreeWhole t.trip
  levels : s.trip.levels = s.trip.compute → t.trip.levels = t.trip.compute
  ports : PortsStay s t

theorem StageKeeps.refl (s : State) : StageKeeps s s := ⟨id, id, .refl s⟩

theorem StageKeeps.trans {s t u : State} (h : StageKeeps s t) (k : StageKeeps t u) : StageKeeps s u :=
  ⟨fun w => k.whole (h.whole w), fun l => k.levels (h.levels l), h.ports.trans k.ports⟩

theorem stageKeeps_setCondition (f : FaultId) (b : Bool) (s : State) : StageKeeps s (setCondition f b s) :=
  ⟨fun w => (setCondition_set w f b).whole, fun l => setCondition_levels l f b, portsStay_setCondition f b s⟩

theorem StageKeeps.foldl {α : Type} {f : State → α → State} (h : ∀ s x, StageKeeps s (f s x)) (l : List α)
    (s : State) : StageKeeps s (l.foldl f s) := by
  induction l generalizing s with
  | nil => exact .refl s
  | cons x l ih => exact (h s x).trans (ih _)

section Stages
variable (own : Nat) (new : StationRecord) (s : State)

theorem stageKeeps_stationNamed : StageKeeps s (stationNamed own new s) := by
  refine ⟨id, id, .of rfl rfl ?_ ?_⟩ <;>
  · unfold stationNamed
    rw [State.setSw_sw]
    split <;> rfl

theorem entriesKept_eq (h : ¬ (own ≠ s.station.address ∧ s.trip.remote.any (fun x => x.source == own) = true)) :
    entriesKept own s = s.trip.remote := by
  unfold entriesKept
  split
  · next moved =>
    refine List.filter_eq_self.mpr fun x hx => bne_iff_ne.mpr fun same => h ⟨moved, ?_⟩
    exact List.any_eq_true.mpr ⟨x, hx, beq_iff_eq.mpr same⟩
  · rfl

theorem ownDropped_keeps :
    LevelOnly (namedBase own new s) (ownDropped own new s) ∧ SameStale s (ownDropped own new s) ∧
    StageKeeps s (ownDropped own new s) ∧
    (TreeWhole s.trip → ∀ f, (ownDropped own new s).trip.isPresent f = s.trip.isPresent f) := by
  unfold ownDropped namedBase
  split
  · next drops =>
    have kept : entriesKept own s = othersOf own s := if_pos drops.1
    rw [kept]
    refine ⟨recompute_level _, sameStale_recompute _, ⟨fun w => (recompute_grows ?_).whole, fun _ => recompute_levels _,
      ?_⟩, fun w => (recompute_grows ?_).present⟩
    · exact w
    · exact (stageKeeps_stationNamed own new s).ports.trans ((portsStay_setTrip _ _).trans (portsStay_recompute _))
    · exact w
  · next stays =>
    rw [entriesKept_eq own s stays]
    exact ⟨.refl _, rfl, stageKeeps_stationNamed own new s, fun _ _ => rfl⟩

/-- DRIVE_LINK conditions set in turn for some axes. -/
structure LinksSet (l : List (Fin 4)) (p : Fin 4 → Bool) (s t : State) : Prop where
  level : LevelOnly s t
  stale : SameStale s t
  keeps : StageKeeps s t
  present : TreeWhole s.trip → ∀ a : Fin 4,
    t.trip.isPresent (.driveLink a) = if a ∈ l then p a else s.trip.isPresent (.driveLink a)

theorem linksSet_foldl (l : List (Fin 4)) (p : Fin 4 → Bool) (u : State) :
    LinksSet l p u (l.foldl (fun z i => setCondition (.driveLink i) (p i) z) u) := by
  induction l generalizing u with
  | nil => exact ⟨.refl u, rfl, .refl u, fun _ _ => rfl⟩
  | cons i l ih =>
    have rest := ih (setCondition (.driveLink i) (p i) u)
    refine ⟨(setCondition_level _ _ u).trans rest.level, rest.stale.trans (sameStale_setCondition _ _ u),
      (stageKeeps_setCondition _ _ u).trans rest.keeps, fun w a => ?_⟩
    have set := setCondition_set w (.driveLink i) (p i)
    rw [List.foldl_cons, rest.present set.whole a]
    by_cases later : a ∈ l
    · rw [if_pos later, if_pos (List.mem_cons_of_mem i later)]
    · rw [if_neg later]
      by_cases here : a = i
      · subst here
        rw [if_pos List.mem_cons_self]
        exact set.present
      · rw [if_neg (by simp [here, later])]
        exact set.others _ (by simpa using here)

theorem linksReported_keeps :
    LevelOnly (namedBase own new s) (linksReported own new s) ∧ SameStale s (linksReported own new s) ∧
    StageKeeps s (linksReported own new s) ∧
    (TreeWhole s.trip → ∀ a, (linksReported own new s).trip.isPresent (.driveLink a) =
      if new.driveLimit = s.station.cfg.driveLimit then s.trip.isPresent (.driveLink a)
      else decide (new.driveLimit ≤ (s.driveAxis a).bad)) := by
  obtain ⟨level, stale, keeps, present⟩ := ownDropped_keeps own new s
  unfold linksReported
  split
  · exact ⟨level, stale, keeps, fun w a => present w _⟩
  · have set := linksSet_foldl [(0 : Fin 4), 1, 2, 3] (fun i => decide (new.driveLimit ≤ (s.driveAxis i).bad))
      (ownDropped own new s)
    refine ⟨level.trans set.level, set.stale.trans stale, keeps.trans set.keeps, fun w a =>
      (set.present (keeps.whole w) a).trans (if_pos ?_)⟩
    fin_cases a <;> decide

/-- The remote trip table after the write (R164, R166). -/
def entriesWritten : List RemoteEntry :=
  if new.refresh < s.station.cfg.refresh then entriesMarked own new s else entriesKept own s

/-- The count of STALE entries after the write (R164). -/
def staleWritten : Nat :=
  if new.refresh < s.station.cfg.refresh then staleCounted own new s else s.trip.ctr.staleRemote

/-- The station whose fields the stages up to the silent entries leave alone. -/
def markedBase : State :=
  let b := namedBase own new s
  b.setTrip { b.trip with
    remote := entriesWritten own new s, ctr := { b.trip.ctr with staleRemote := staleWritten own new s } }

/-- The station whose fields the whole write leaves alone, the levels and the fault tree apart. -/
def writtenBase : State :=
  let m := markedBase own new s
  m.setStation { m.station with
    shortTimer := if new.shortTimeout = 0 then none else s.station.shortTimer,
    longTimer := if new.longTimeout = 0 then none else s.station.longTimer }

end Stages
end Sys2Proof.Machine
end

