-- ==== Sys2Proof/Proofs/StationWriteKeeps.lean ====
section
/-! WRITE of the STATION table: what its stages leave alone, that they are its effects, and the CHANGE frame after them
(R119, R161, R164, R188, R191). -/

namespace Sys2Proof.Machine

/-! ## The conditions of the management timers -/

/-- A condition ends where its timeout is 0 (R191). -/
def endedIf (timeout : Nat) (f : FaultId) (t : TripUnit) : TripUnit := if timeout = 0 then t.setCond f false else t

section Ended
variable (timeout : Nat) (f : FaultId) (t : TripUnit)

theorem endedIf_compute : (endedIf timeout f t).compute = t.compute := by
  unfold endedIf
  split
  · exact setCond_compute t f false
  · rfl

theorem endedIf_same : (endedIf timeout f t).levels = t.levels ∧ (endedIf timeout f t).ctr = t.ctr := by
  unfold endedIf
  split <;> exact ⟨rfl, rfl⟩

theorem endedIf_whole {t : TripUnit} (h : TreeWhole t) : TreeWhole (endedIf timeout f t) := by
  unfold endedIf
  split
  · exact h.setCond f false
  · exact h

theorem endedIf_other {k : FaultId} (h : k ≠ f) : (endedIf timeout f t).isPresent k = t.isPresent k := by
  unfold endedIf
  split
  · exact isPresent_setCond_other false h
  · rfl

theorem endedIf_zero {timeout : Nat} {t : TripUnit} (h : TreeWhole t) (hz : timeout = 0) :
    (endedIf timeout f t).isPresent f = false := by
  rw [endedIf, if_pos hz]
  exact h.isPresent_setCond f false

end Ended

/-- The Trip Unit once the two timers with no timeout have stopped (R191). -/
def conditionsEnded (new : StationRecord) (t : TripUnit) : TripUnit :=
  endedIf new.longTimeout .mgmtLost (endedIf new.shortTimeout .mgmtSilent t)

/-! ## What the stages leave alone -/

section Stages
variable (own : Nat) (new : StationRecord) (s : State)

theorem linksReported_cfg : (linksReported own new s).station.cfg = new :=
  congrArg StationCtl.cfg (linksReported_keeps own new s).1.station

theorem linksReported_remote : (linksReported own new s).trip.remote = entriesKept own s :=
  congrArg TripUnit.remote (linksReported_keeps own new s).1.trip

theorem silentMarked_keeps :
    LevelOnly (markedBase own new s) (silentMarked own new s) ∧
    (silentMarked own new s).trip.ctr.staleRemote = staleWritten own new s ∧
    StageKeeps s (silentMarked own new s) ∧
    (TreeWhole s.trip → ∀ a, (silentMarked own new s).trip.isPresent (.driveLink a) =
      if new.driveLimit = s.station.cfg.driveLimit then s.trip.isPresent (.driveLink a)
      else decide (new.driveLimit ≤ (s.driveAxis a).bad)) := by
  obtain ⟨level, stale, keeps, present⟩ := linksReported_keeps own new s
  unfold markedBase silentMarked entriesWritten staleWritten
  by_cases lowered : new.refresh < s.station.cfg.refresh
  · simp only [if_pos lowered]
    refine ⟨level.setRemote _ _, rfl, keeps.trans ⟨id, fun current => ?_, .of rfl rfl rfl rfl⟩, present⟩
    refine current.trans (Eq.symm ?_)
    have marked := computeLevels_marked (silentAt s.clock new.refresh) (linksReported own new s).trip.tree
      (linksReported own new s).trip.hostLevel (linksReported own new s).trip.masks (entriesKept own s)
    rw [← linksReported_remote own new s] at marked
    refine Eq.trans ?_ marked
    rw [linksReported_remote]
    rfl
  · simp only [if_neg lowered]
    exact ⟨level, stale, keeps, present⟩

theorem timersStopped_level (d : State) :
    LevelOnly (d.setStation { d.station with
      shortTimer := if new.shortTimeout = 0 then none else d.station.shortTimer,
      longTimer := if new.longTimeout = 0 then none else d.station.longTimer }) (timersStopped new d) := by
  have set (u : State) (f : FaultId) (b : Bool) : LevelOnly u (u.setTrip (u.trip.setCond f b)) :=
    setTrip_level u _ rfl
  unfold timersStopped
  by_cases short : new.shortTimeout = 0 <;> by_cases long : new.longTimeout = 0 <;>
    simp only [short, long, if_true, if_false]
  · exact (set _ .mgmtSilent false).trans (set ((d.setStation { d.station with
      shortTimer := none, longTimer := none }).setTrip (d.trip.setCond .mgmtSilent false)) .mgmtLost false)
  · exact set (d.setStation { d.station with shortTimer := none }) .mgmtSilent false
  · exact set (d.setStation { d.station with longTimer := none }) .mgmtLost false
  · exact .refl d

theorem timersStopped_trip (d : State) : (timersStopped new d).trip = conditionsEnded new d.trip := by
  unfold timersStopped conditionsEnded endedIf
  by_cases short : new.shortTimeout = 0 <;> by_cases long : new.longTimeout = 0 <;>
    simp only [short, long, if_true, if_false] <;> rfl

theorem timersStopped_keeps (d : State) : StageKeeps d (timersStopped new d) := by
  refine ⟨fun w => ?_, fun current => ?_, ?_⟩
  · rw [timersStopped_trip]
    exact endedIf_whole _ _ (endedIf_whole _ _ w)
  · rw [timersStopped_trip, conditionsEnded, (endedIf_same _ _ _).1, (endedIf_same _ _ _).1, endedIf_compute,
      endedIf_compute]
    exact current
  · have set (u : State) (c : StationCtl) (t : TripUnit) : PortsStay u ((u.setStation c).setTrip t) :=
      .of rfl rfl rfl rfl
    unfold timersStopped
    split <;> split
    · exact (set d _ _).trans (set _ _ _)
    · exact set d _ _
    · exact set d _ _
    · exact .refl d

/-- What the whole write up to the CHANGE frame leaves alone (R188). -/
theorem stationTaken_keeps :
    LevelOnly (writtenBase own new s) (stationTaken own new s) ∧
    (stationTaken own new s).trip.ctr.staleRemote = staleWritten own new s ∧
    StageKeeps s (stationTaken own new s) ∧
    (TreeWhole s.trip →
      (new.shortTimeout = 0 → (stationTaken own new s).trip.isPresent .mgmtSilent = false) ∧
      (new.longTimeout = 0 → (stationTaken own new s).trip.isPresent .mgmtLost = false) ∧
      ∀ a, (stationTaken own new s).trip.isPresent (.driveLink a) =
        if new.driveLimit = s.station.cfg.driveLimit then s.trip.isPresent (.driveLink a)
        else decide (new.driveLimit ≤ (s.driveAxis a).bad)) := by
  obtain ⟨level, stale, keeps, present⟩ := silentMarked_keeps own new s
  have trip := timersStopped_trip new (silentMarked own new s)
  refine ⟨?_, ?_, keeps.trans (timersStopped_keeps new _), fun w => ?_⟩
  · have short : (silentMarked own new s).station.shortTimer = s.station.shortTimer :=
      (congrArg StationCtl.shortTimer level.station :)
    have long : (silentMarked own new s).station.longTimer = s.station.longTimer :=
      (congrArg StationCtl.longTimer level.station :)
    have stopped := timersStopped_level new (silentMarked own new s)
    rw [short, long] at stopped
    exact (level.setTimers _ _).trans stopped
  · refine Eq.trans ?_ stale
    rw [stationTaken, trip, conditionsEnded, (endedIf_same _ _ _).2, (endedIf_same _ _ _).2]
  · have whole := keeps.whole w
    rw [stationTaken, trip]
    refine ⟨fun zero => ?_, fun zero => ?_, fun a => ?_⟩
    · exact (endedIf_other _ _ _ (by decide)).trans (endedIf_zero _ whole zero)
    · exact endedIf_zero _ (endedIf_whole _ _ whole) zero
    · exact ((endedIf_other _ _ _ (by simp)).trans (endedIf_other _ _ _ (by simp))).trans (present w a)

end Stages

/-! ## The stages are the effects of the write -/

theorem writtenAddress_ne_zero {old : Nat} (h : old ≠ 0) (es : List (Nat × StationEntry)) :
    writtenAddress old es ≠ 0 := by
  induction es generalizing old with
  | nil => exact h
  | cons x es ih =>
    rw [writtenAddress, List.foldl_cons]
    refine ih ?_
    split
    · exact h
    · assumption

/-- Of entries that are all written, the last gives the record (R187). -/
theorem writtenFields_eq {es : List (Nat × StationEntry)} {new : StationRecord}
    (h : es.getLast?.map (·.2.fields) = some new) (old : StationRecord) : es.foldl (fun _ x => x.2.fields) old = new := by
  obtain ⟨x, hx, rfl⟩ := Option.map_eq_some_iff.mp h
  obtain ⟨l, rfl⟩ := List.getLast?_eq_some_iff.mp hx
  simp

section Effects
variable {own : Nat} (new : StationRecord) (s : State)

theorem stationNamed_moved (h : own ≠ s.station.address) :
    stationNamed own new s =
      (s.setStation { s.station with address := own, cfg := new }).setSw { s.sw with clash := none } := by
  rw [stationNamed, if_pos h]

theorem stationNamed_same : stationNamed s.station.address new s = s.setStation { s.station with cfg := new } := by
  rw [stationNamed, if_neg (not_not_intro rfl)]
  rfl

theorem changeAddress_named (h : own ≠ 0) :
    changeAddress own (s.setStation { s.station with cfg := new }) = ownDropped own new s := by
  unfold changeAddress ownDropped
  dsimp only
  by_cases same : own = s.station.address
  · subst same
    have stays : ¬ (s.station.address ≠ s.station.address ∧
        s.trip.remote.any (fun x => x.source == s.station.address) = true) := fun moved => moved.1 rfl
    rw [if_neg stays, stationNamed_same]
    exact if_pos rfl
  · refine (if_neg same).trans ?_
    rw [if_neg h, dropOwnRemote_eq, stationNamed_moved new s same]
    exact if_congr (and_iff_right same).symm rfl rfl

/-- DRIVE_LINK is reported by the record and the counts, which no report changes (R119). -/
theorem reportLinks_foldl (l : List (Fin 4)) {z : State} (hc : z.station.cfg = new) (hd : z.drive = s.drive) :
    l.foldl (fun z a => reportDriveLink a z) z = l.foldl (fun z i =>
      setCondition (.driveLink i) (decide (new.driveLimit ≤ (s.driveAxis i).bad)) z) z := by
  induction l generalizing z with
  | nil => rfl
  | cons i l ih =>
    have first : reportDriveLink i z =
        setCondition (.driveLink i) (decide (new.driveLimit ≤ (s.driveAxis i).bad)) z := by
      unfold reportDriveLink State.driveAxis
      rw [hc, hd]
    have level := setCondition_level (.driveLink i) (decide (new.driveLimit ≤ (s.driveAxis i).bad)) z
    rw [List.foldl_cons, List.foldl_cons, first]
    exact ih ((congrArg StationCtl.cfg level.station).trans hc) (level.drive.trans hd)

theorem reportLinks_eq (own : Nat) :
    (if new.driveLimit = s.station.cfg.driveLimit then ownDropped own new s else reportLinks (ownDropped own new s)) =
      linksReported own new s := by
  obtain ⟨level, -⟩ := ownDropped_keeps own new s
  exact if_congr Iff.rfl rfl (reportLinks_foldl new s _ (congrArg StationCtl.cfg level.station) level.drive)

theorem staleSilent_eq (own : Nat) :
    (if new.refresh < s.station.cfg.refresh then staleSilent (linksReported own new s) else linksReported own new s) =
      silentMarked own new s := by
  obtain ⟨level, stale, -⟩ := linksReported_keeps own new s
  have silent : (fun x : RemoteEntry => !x.stale && remoteSilent (linksReported own new s).clock
      (linksReported own new s).station.cfg.refresh x) = silentAt s.clock new.refresh := by
    rw [linksReported_cfg, level.moment.clock]
    rfl
  refine if_congr Iff.rfl ?_ rfl
  unfold staleSilent entriesMarked staleCounted
  dsimp only
  have whole : ∀ p : RemoteEntry → Bool, p = silentAt s.clock new.refresh →
      (linksReported own new s).setTrip { (linksReported own new s).trip with
        remote := (linksReported own new s).trip.remote.map fun x => if p x then { x with stale := true } else x,
        ctr := { (linksReported own new s).trip.ctr with
          staleRemote := bumpBy (linksReported own new s).trip.ctr.staleRemote
            ((linksReported own new s).trip.remote.countP p) } } =
      (linksReported own new s).setTrip { (linksReported own new s).trip with
        remote := (entriesKept own s).map fun x => if silentAt s.clock new.refresh x then { x with stale := true } else x,
        ctr := { (linksReported own new s).trip.ctr with
          staleRemote := bumpBy s.trip.ctr.staleRemote ((entriesKept own s).countP (silentAt s.clock new.refresh)) } } := by
    rintro p rfl
    rw [linksReported_remote, show (linksReported own new s).trip.ctr.staleRemote = s.trip.ctr.staleRemote from stale]
  exact whole _ silent

theorem stopZeroTimeouts_eq {d : State} (h : d.station.cfg = new) : stopZeroTimeouts d = timersStopped new d := by
  subst h
  rfl

/-- The effects of a WRITE of the STATION table at a station that keeps an address (R188). -/
theorem writeStation_eq {es : List (Nat × StationEntry)} (ha : s.station.address ≠ 0)
    (hnew : es.getLast?.map (·.2.fields) = some new) :
    writeStation es s = settlePublish s.publishStream
      (stationTaken (writtenAddress s.station.address es) new s) := by
  have fields := writtenFields_eq hnew s.station.cfg
  have named := changeAddress_named new s (writtenAddress_ne_zero ha es)
  have marked : (silentMarked (writtenAddress s.station.address es) new s).station.cfg = new :=
    congrArg StationCtl.cfg (silentMarked_keeps _ new s).1.station
  unfold writeStation
  dsimp only
  rw [fields]
  refine (congrArg (settlePublish _) ?_)
  rw [named, reportLinks_eq, staleSilent_eq, stopZeroTimeouts_eq new marked]
  rfl

end Effects
end Sys2Proof.Machine
end

