-- ==== Sys2Proof/Proofs/WritesWithEffects.lean ====
section
/-! The CHANGE frame after a WRITE of the STATION table (R161, R188), and the five writes with effects on other blocks
(R87, R127, R151, R152, R188). -/

namespace Sys2Proof.Machine

/-! ## The CHANGE frame -/

theorem settlePublish_same {before : Option Nat} {s : State} (h : s.publishStream = none ∨ s.publishStream = before) :
    settlePublish before s = s := by
  unfold settlePublish
  split
  · next x stream => rcases h with h | h <;> rw [stream] at h <;> cases h
  · next x y stream =>
    refine if_pos ?_
    rcases h with h | h <;> rw [stream] at h <;> cases h
    rfl
  · rfl

theorem settlePublish_new {before : Option Nat} {s : State} {stream : Nat} (h : s.publishStream = some stream)
    (hb : before ≠ some stream) : settlePublish before s = sendTrip false s := by
  unfold settlePublish
  split
  · rfl
  · next x y published =>
    refine if_neg fun same => hb ?_
    rw [published] at h
    rw [same, h]
  · next published =>
    rw [published] at h
    cases h

theorem settlePublish_cases (before : Option Nat) (s : State) :
    settlePublish before s = s ∨ settlePublish before s = sendTrip false s := by
  cases h : s.publishStream with
  | none => exact .inl (settlePublish_same (.inl h))
  | some stream =>
    by_cases hb : before = some stream
    · exact .inl (settlePublish_same (.inr (h.trans hb.symm)))
    · exact .inr (settlePublish_new h hb)

/-- A T frame sent with room in the urgent queue (R37, R161). -/
theorem sendTrip_queued {s : State} {stream : Nat} (hp : s.publishStream = some stream) (h : s.sw.urgent.length < 8) :
    (sendTrip false s).trip = { s.trip with ctr := { s.trip.ctr with sent := bump s.trip.ctr.sent } } ∧
    (sendTrip false s).station = { s.station with seq := s.station.seq + 1 } ∧
    (OutputsBusy s → (sendTrip false s).sw = { s.sw with urgent :=
      s.sw.urgent ++ [ownItem s .t stream 63 4 (.bytes (tripBytes (s.tripBody false)))] }) := by
  rw [sendTrip_room hp h]
  have ring := arbitrate_ring (tripQueued s stream (s.tripBody false))
  refine ⟨ring.control.trip, ring.station, fun busy => ?_⟩
  rw [arbitrate_busy (busy.tripQueued stream _)]
  rfl

/-- A T frame the urgent queue has no room for is dropped with RING_CONGESTION (R37). -/
theorem sendTrip_dropped {s : State} {stream : Nat} (hp : s.publishStream = some stream) (h : 8 ≤ s.sw.urgent.length)
    (whole : TreeWhole s.trip) : (sendTrip false s).trip.isLatched .ringCongestion = true := by
  rw [sendTrip_full hp h]
  exact (reportCongestion_grows (s := countUrgentDrop s) whole).2

section Station
variable {own : Nat} {new : StationRecord} {s v : State}

theorem stationTaken_publish (h : own ≠ 0) : (stationTaken own new s).publishStream = new.tripStream := by
  have station := (stationTaken_keeps own new s).1.station
  have address : (stationTaken own new s).station.address = own := congrArg StationCtl.address station
  rw [publishStream_some (by rw [address]; exact h)]
  exact (congrArg (fun c : StationCtl => c.cfg.tripStream) station :)

/-- What the CHANGE frame, where one goes, leaves of the write (R161). -/
theorem stationTaken_settled
    (h : v = stationTaken own new s ∨ v = sendTrip false (stationTaken own new s)) :
    LevelOnly (writtenBase own new s) v ∧ v.trip.ctr.staleRemote = staleWritten own new s ∧
    (s.trip.levels = s.trip.compute → v.trip.levels = v.trip.compute) ∧
    (TreeWhole s.trip →
      (new.shortTimeout = 0 → v.trip.isPresent .mgmtSilent = false) ∧
      (new.longTimeout = 0 → v.trip.isPresent .mgmtLost = false) ∧
      ∀ a, v.trip.isPresent (.driveLink a) =
        if new.driveLimit = s.station.cfg.driveLimit then s.trip.isPresent (.driveLink a)
        else decide (new.driveLimit ≤ (s.driveAxis a).bad)) := by
  obtain ⟨level, stale, keeps, present⟩ := stationTaken_keeps own new s
  rcases h with rfl | rfl
  · exact ⟨level, stale, keeps.levels, present⟩
  · refine ⟨level.trans (sendTrip_level _ _), (sameStale_sendTrip _ _).trans stale,
      fun current => sendTrip_levels (keeps.levels current) false, fun w => ?_⟩
    obtain ⟨silent, lost, links⟩ := present w
    have grows := sendTrip_grows (keeps.whole w) false
    exact ⟨fun zero => (grows.present _).trans (silent zero), fun zero => (grows.present _).trans (lost zero),
      fun a => (grows.present _).trans (links a)⟩

/-- The item of the CHANGE frame (R7, R161). -/
theorem stationTaken_item (stream : Nat) :
    let w := stationTaken own new s
    ownItem w .t stream 63 4 (.bytes (tripBytes (w.tripBody false))) =
      { frame :=
          { hdr := { cls := .t, stream := stream, dest := 63, src := own, tag := s.tag, seq := w.station.seq, hop := 0,
                     age := 0, len := 4 },
            body := .bytes (tripBytes { level := w.trip.levels.pub, code := w.trip.levels.pubCode,
                                        count := w.trip.levels.pubCount, refresh := false }) },
        since := s.clock, origin := .own, ready := true } := by
  intro w
  have level := (stationTaken_keeps own new s).1
  have address : w.station.address = own := (congrArg StationCtl.address level.station :)
  have tag : w.tag = s.tag := (congrArg (·.setWidth 16) level.moment.serial :)
  have clock : w.clock = s.clock := level.moment.clock
  unfold ownItem State.ownHeader State.tripBody
  rw [address, tag, clock]

end Station

/-! ## The course of a WRITE with effects -/

/-- A WRITE whose checks pass is answered OK, its effects being `f` (R184, R187). -/
theorem write_effects {α : Type} {m : Moment} {e : Envelope} {s : State} {c : Instr} {w : WriteSet} {wf : Bool}
    {check : State → α → Option Resp} {es : List α} {f : State → State} (ha : s.station.address ≠ 0)
    (hl : e.lengthOk = true)
    (run : exec c s = .next (stationCommand e (.write w) wf true (runWrite check es (okAfter f)) (s.tick m)))
    (hw : wf = true) (h : ∀ x ∈ es, check (countTaken (s.tick m)) x = none) :
    ∃ t, exec c s = .next t ∧ Answered e (.write w) (.plain .ok) (f (countTaken (s.tick m))) t :=
  ⟨_, run, write_answered (s := s.tick m) ha hl (.write w) hw h (okAfter f)⟩

end Sys2Proof.Machine

open Sys2Proof Sys2Proof.Machine

/-- Settles O55: table by table the effects, under the course of a WRITE whose checks pass. -/
theorem writesWithEffects : Obligations.WritesWithEffects := by
  intro m e s ha hl u taken
  refine ⟨fun es new hn hf hnew hc => ?_, fun es new hn hnew hc => ?_, fun es hn hc => ?_, fun es hn hc => ?_,
    fun es new hn hf hnew hc => ?_⟩
  · obtain ⟨t, run, answered⟩ := write_effects (m := m) (c := .writeStation m e es) (w := .station es) ha hl rfl
      (by rw [hn, hf]; rfl) hc
    have own0 : writtenAddress u.station.address es ≠ 0 := writtenAddress_ne_zero ha es
    have effects := writeStation_eq new u ha hnew
    have before : u.publishStream = s.station.cfg.tripStream := publishStream_some ha
    have published := stationTaken_publish (new := new) (s := u) own0
    obtain ⟨level, stale, levels, present⟩ := stationTaken_settled (own := writtenAddress u.station.address es)
      (new := new) (s := u) (settlePublish_cases u.publishStream _)
    rw [← effects] at level stale levels present
    have clash : (writeStation es u).sw.clash =
        if writtenAddress u.station.address es ≠ u.station.address then none else s.sw.clash :=
      level.ring.clash.trans (apply_ite Switch.clash _ _ _)
    have tap : (writeStation es u).sw.tap = s.sw.tap := level.ring.tap.trans (by
      exact (apply_ite Switch.tap _ _ _).trans (ite_self _))
    have role : (writeStation es u).sw.role = s.sw.role := level.ring.role.trans (by
      exact (apply_ite Switch.role _ _ _).trans (ite_self _))
    refine ⟨_, t, run, answered, congrArg StationCtl.cfg level.station, congrArg StationCtl.address level.station,
      ⟨clash, congrArg TripUnit.remote level.trip, stale, levels, fun zero => ⟨?_, fun whole => ?_⟩,
        fun zero => ⟨?_, fun whole => ?_⟩, fun same => ?_, fun stream hs changes => ?_⟩,
      level.ctx, level.drive, level.image, tap, role, (congrArg StationCtl.recvQ level.station :),
      fun whole => (present whole.tree).2.2⟩
    · exact (congrArg StationCtl.shortTimer level.station).trans (if_pos zero)
    · exact (present whole.tree).1 zero
    · exact (congrArg StationCtl.longTimer level.station).trans (if_pos zero)
    · exact (present whole.tree).2.1 zero
    · exact effects.trans (settlePublish_same (by rw [published, before]; exact same))
    · have sent := effects.trans (settlePublish_new (published.trans hs) (by rw [before]; exact changes))
      rw [sent]
      obtain ⟨-, -, keeps, -⟩ := stationTaken_keeps (writtenAddress u.station.address es) new u
      refine ⟨rfl, fun full whole => sendTrip_dropped (published.trans hs) full (keeps.whole whole.tree), fun room => ?_⟩
      obtain ⟨trip, station, queue⟩ := sendTrip_queued (published.trans hs) room
      refine ⟨trip, station, fun busy => ?_⟩
      have item := stationTaken_item (own := writtenAddress u.station.address es) (new := new) (s := u) stream
      have queued := queue (keeps.ports (busy.tick m)).2.2
      rw [item] at queued
      exact queued
  · obtain ⟨t, run, answered⟩ := write_effects (m := m) (c := .writeCamera m e es) (w := .camera es) ha hl rfl hn
      (fun x hx => by rw [lastRecord_eq hnew]; exact hc x hx)
    rw [lastRecord_eq hnew, writeCamera_eq (s := countTaken (s.tick m)) ha] at answered
    have effects := cameraWritten_effects (streamChanged u.image.cam new) (cameraGeometry u.image.cam new) new u
    rw [streamChanged_eq, cameraGeometry_eq] at answered effects
    obtain ⟨⟨cam, webRun, lineNo, asm⟩, ⟨ctx, drive⟩, restarts, abandons, web⟩ := effects
    refine ⟨_, t, run, answered, cam, lineNo, ctx, drive, fun changes => (restarts (decide_eq_true changes)).1, webRun,
      ⟨rfl, fun changes => asm.trans (if_pos changes), fun stays => asm.trans (if_neg (Bool.eq_false_iff.mp stays)),
        fun changes => (restarts changes).2, fun outlived => ?_⟩, fun whole => web whole.tree⟩
    obtain ⟨line, run, count, lost⟩ := abandons outlived
    exact ⟨line, run, count, fun whole => lost whole.tree⟩
  · obtain ⟨t, run, answered⟩ := write_effects (m := m) (c := .writeAxis m e es) (w := .axis es) ha hl rfl hn hc
    have level := (reportWrittenLimits_written es (writeAxes es u)).level
    refine ⟨_, t, run, answered, level.ctx, level.drive, level.image, fun a => ?_⟩
    obtain ⟨cfg, gear, setpoint, target, acc, limit⟩ := writtenAxes_axis (s := u) hc a
    exact ⟨cfg, gear, setpoint, target, acc, fun whole => limit whole.tree⟩
  · obtain ⟨t, run, answered⟩ := write_effects (m := m) (c := .writeFaultConfig m e es) (w := .faultConfig es) ha hl rfl
      hn hc
    refine ⟨_, t, run, answered, (setTrip_level u _ rfl).trans (recompute_level _), recompute_levels _,
      fun whole f => ?_⟩
    obtain ⟨level, publish⟩ := recompute_setting (u.setTrip { u.trip with tree := es.foldl writeFaultEntry u.trip.tree }) f
    obtain ⟨levels, publishes⟩ := writeFaultEntries_get hc (tree := u.trip.tree) (k := f)
      (TreeWhole.mem (t := u.trip) whole.tree f)
    exact ⟨level.trans levels, publish.trans publishes⟩
  · obtain ⟨t, run, answered⟩ := write_effects (m := m) (c := .writeMasks m e es) (w := .masks es) ha hl rfl
      (by rw [hn, hf]; rfl) hc
    rw [lastRecord_eq hnew] at answered
    have level := recompute_level (u.setTrip { s.trip with masks := new })
    exact ⟨_, t, run, answered, congrArg TripUnit.masks level.trip, level, recompute_levels _⟩

end
